-- ==== Sys2Proof/Word.lean ====
section
/-! DEFINITION. Word types of the Prenvia PV4: characters, masks and the index types of its tables. -/

namespace Sys2Proof

/-- The data value of a line character, an address, or one payload character (R1, R4). -/
abbrev Byte := BitVec 8

/-- The 16-bit check register (R6). -/
abbrev Check := BitVec 16

/-- A counter of the coupler: 0 to 4,294,967,295, wrapping to 0 (R186). -/
abbrev Count := BitVec 32

/-- A line port and the segment it serves: the same number 0..3 (00_scope.md, Conventions). -/
abbrev Port := Fin 4

/-- The index of one of the 48 frame buffers (R44). -/
abbrev BufferIx := Fin 48

/-- The index of one of the 32 Transaction Table entries (R104). -/
abbrev TxIx := Fin 32

/-- A set of segments, bit n for segment n (11.2). -/
abbrev SegmentMask := BitVec 4

/-- A set of weekdays, bit 0 Sunday to bit 6 Saturday (11.2). -/
abbrev DayMask := BitVec 7

/-- A set of alert causes, bit numbers as 11.2 gives them. -/
abbrev AlertSet := BitVec 7

end Sys2Proof
end

