-- ==== Sys2Proof/Config.lean ====
section
/-! DEFINITION. What the part fixes once: its clocks and the sizes of its stores. The spec leaves no value undefined, so there is no free value here. -/

namespace Sys2Proof.Config

/-- CLK periods in one second (00_scope.md, signals): 29.4912 MHz. -/
def clkPerSecond : Nat := 29491200

/-- CLK periods in one period of the 32,768 Hz crystal (DESIGN CHOICE, log 5): the two clocks are
taken to stand in their nominal ratio. -/
def clkPerCrystal : Nat := 900

/-- The millisecond timebase counts tenths of a CLK period: 29,491.2 CLK periods make 1 ms (log 5). -/
def tenthsPerMs : Nat := 294912

/-- Crystal periods in one second (R134). -/
def crystalPerSecond : Nat := 32768

/-- Bit times in one character (R1). -/
def bitsPerCharacter : Nat := 11

/-- Entries an Egress Queue holds at most (R50). -/
def queueSize : Nat := 16

/-- Payload characters a frame holds at most (R4). -/
def maxPayload : Nat := 64

/-- Data characters of a result at most (R168). -/
def maxResultData : Nat := 60

end Sys2Proof.Config
end

