-- ==== Sys2Proof/Syntax.lean ====
section
/-! DEFINITION. The commands of the part: one constructor of Instr per row of spec/opcode_table.json. -/

namespace Sys2Proof

/-- The fields of a segment frame as its sender sets them (R4, R5): the length and the two check
characters follow from them. -/
structure Frame where
  dest : Byte
  source : Byte
  cls : BitVec 2
  unused : BitVec 3
  tag : Byte
  payload : List Byte
  deriving DecidableEq, Repr

/-- The part of a MANAGE frame for the own address that every management row shares: who sends it,
the tag of the frame and the sequence number in its request header (R165). -/
structure CommandHead where
  source : Byte
  tag : Byte
  sequence : Byte
  deriving DecidableEq, Repr

/-- What the receiver makes of one character time on the line (R1). -/
inductive LineCharacter
  | good (value : Byte) (flag : Bool)
  | framingError
  deriving DecidableEq, Repr

/-- The six strap inputs as a reset reads them (R181). Bit k of `addr` is set when ADDRk is closed. -/
structure Straps where
  addr : BitVec 4
  bootOpen : Bool
  msegOpen : Bool
  deriving DecidableEq, Repr

/-- The fields of a WINDOW write record after its index, as characters (11.3). -/
structure WindowRecord where
  enabled : Byte
  dayMask : Byte
  startHour : Byte
  startMinute : Byte
  endHour : Byte
  endMinute : Byte
  segmentMask : Byte
  action : Byte
  deriving DecidableEq, Repr

/-- The six BCD characters of a TIME SET (11.4). -/
structure TimeRecord where
  year : Byte
  month : Byte
  day : Byte
  hour : Byte
  minute : Byte
  second : Byte
  deriving DecidableEq, Repr

/-- The commands: the operations and events of spec/opcode_table.json. `p` is the port (of a frame
or a management command: its arrival port), `h` a management command's head. The frame rows carry
the frame that is received (log 1); the management rows the arguments of their command (log 27). -/
inductive Instr
  | addressCharacter (p : Port) (value : Byte)
  | dataCharacter (p : Port) (value : Byte)
  | framingErrorCharacter (p : Port)
  | truncated (p : Port)
  | datagram (p : Port) (f : Frame)
  | request (p : Port) (f : Frame)
  | reply (p : Port) (f : Frame)
  | notice (p : Port) (f : Frame)
  | manage (p : Port) (f : Frame)
  | result (p : Port) (f : Frame)
  | status (p : Port) (h : CommandHead)
  | readEntriesStation (p : Port) (h : CommandHead) (first count : Byte)
  | readEntriesGroup (p : Port) (h : CommandHead) (first count : Byte)
  | readEntriesWindow (p : Port) (h : CommandHead) (first count : Byte)
  | readEntriesManager (p : Port) (h : CommandHead) (first count : Byte)
  | readEntriesTransaction (p : Port) (h : CommandHead) (first count : Byte)
  | readEntriesPort (p : Port) (h : CommandHead) (first count : Byte)
  | writeEntryStation (p : Port) (h : CommandHead) (address state segment ceiling : Byte)
  | writeEntryGroup (p : Port) (h : CommandHead) (index mask : Byte)
  | writeEntryWindow (p : Port) (h : CommandHead) (index : Byte) (r : WindowRecord)
  | writeEntryManager (p : Port) (h : CommandHead) (index address : Byte)
  | getParam (p : Port) (h : CommandHead) (ident port : Byte)
  | setParam (p : Port) (h : CommandHead) (ident port : Byte) (value : BitVec 32)
  | setParamPortEnable (p : Port) (h : CommandHead) (port : Byte) (value : BitVec 32)
  | setParamBaud (p : Port) (h : CommandHead) (port : Byte) (value : BitVec 32)
  | setParamJabberLimit (p : Port) (h : CommandHead) (port : Byte) (value : BitVec 32)
  | setParamAgeLimit (p : Port) (h : CommandHead) (port : Byte) (value : BitVec 32)
  | setParamOwnAddress (p : Port) (h : CommandHead) (port : Byte) (value : BitVec 32)
  | setParamAlertMode (p : Port) (h : CommandHead) (port : Byte) (value : BitVec 32)
  | setParamAlertMask (p : Port) (h : CommandHead) (port : Byte) (value : BitVec 32)
  | readCounters (p : Port) (h : CommandHead) (scope : Byte)
  | readCountersClear (p : Port) (h : CommandHead) (scope : Byte)
  | timeRead (p : Port) (h : CommandHead)
  | timeSet (p : Port) (h : CommandHead) (t : TimeRecord)
  | timeRound (p : Port) (h : CommandHead)
  | timeHold (p : Port) (h : CommandHead)
  | timeRun (p : Port) (h : CommandHead)
  | clearAlert (p : Port) (h : CommandHead) (causes : Byte)
  | flushLearned (p : Port) (h : CommandHead)
  | restartWarm (p : Port) (h : CommandHead)
  | restartFull (p : Port) (h : CommandHead)
  | startTransmission (p : Port)
  | echoCharacter (p : Port) (c : LineCharacter)
  | missingEcho (p : Port)
  | backoffEnd (p : Port)
  | guardExpiry (p : Port)
  | containment (p : Port)
  | containmentExpiry (p : Port)
  | deadlineExpiry (t : TxIx)
  | graceExpiry (t : TxIx)
  | secondTick
  | pulseEnd
  | coldStart (straps : Straps)
  | powerStart (straps : Straps)
  | pinReset (straps : Straps)
  | fullRestart (straps : Straps)
  | warmRestart
  | startBit (p : Port)
  | lineReturnsToIdle (p : Port)
  | idleStretchReaches2Ct (p : Port)
  | mainPowerLoss
  | backupSupplyLoss
  deriving DecidableEq, Repr

end Sys2Proof
end

