-- ==== Sys2Proof/WellFormed.lean ====
section
/-! DEFINITION. Which commands a sender on a line can form: the checks a command must pass to be the row it is named after. -/

namespace Sys2Proof

/-- A station address, 1 to 239 (00_scope.md, Addresses). -/
def isStationAddress (a : Byte) : Bool := 1 ≤ a.toNat && a.toNat ≤ 239

/-- A frame that passes reception (R4, R17): a station as source and at most 64 payload characters. -/
def Frame.wellFormed (f : Frame) : Bool :=
  isStationAddress f.source && decide (f.payload.length ≤ Config.maxPayload)

/-- A management command comes from a station (R17). -/
def CommandHead.wellFormed (h : CommandHead) : Bool := isStationAddress h.source

/-- The parameter identifiers whose SET PARAM has a row of its own: PORT_ENABLE, BAUD, JABBER_LIMIT,
OWN_ADDRESS, AGE_LIMIT, ALERT_MODE, ALERT_MASK (11.2). -/
def paramsWithOwnRow : List Byte := [0x01, 0x02, 0x06, 0x10, 0x13, 0x17, 0x18]

/-- The checks of a command. The rows that carry ports, indexes and characters only have none. -/
def Instr.wellFormed : Instr → Bool
  | .datagram _ f | .request _ f | .reply _ f | .notice _ f | .manage _ f | .result _ f => f.wellFormed
  | .status _ h | .timeRead _ h | .timeRound _ h | .timeHold _ h | .timeRun _ h
  | .flushLearned _ h | .restartWarm _ h | .restartFull _ h => h.wellFormed
  | .readEntriesStation _ h _ _ | .readEntriesGroup _ h _ _ | .readEntriesWindow _ h _ _
  | .readEntriesManager _ h _ _ | .readEntriesTransaction _ h _ _ | .readEntriesPort _ h _ _ => h.wellFormed
  | .writeEntryStation _ h _ _ _ _ | .writeEntryGroup _ h _ _ | .writeEntryWindow _ h _ _
  | .writeEntryManager _ h _ _ => h.wellFormed
  | .getParam _ h _ _ => h.wellFormed
  | .setParam _ h ident _ _ => h.wellFormed && !paramsWithOwnRow.contains ident
  | .setParamPortEnable _ h _ _ | .setParamBaud _ h _ _ | .setParamJabberLimit _ h _ _
  | .setParamAgeLimit _ h _ _ | .setParamOwnAddress _ h _ _ | .setParamAlertMode _ h _ _
  | .setParamAlertMask _ h _ _ => h.wellFormed
  | .readCounters _ h _ | .readCountersClear _ h _ | .timeSet _ h _ | .clearAlert _ h _ => h.wellFormed
  | .addressCharacter _ _ | .dataCharacter _ _ | .framingErrorCharacter _ | .truncated _
  | .startTransmission _ | .echoCharacter _ _ | .missingEcho _ | .backoffEnd _ | .guardExpiry _
  | .containment _ | .containmentExpiry _ | .deadlineExpiry _ | .graceExpiry _ | .secondTick | .pulseEnd
  | .coldStart _ | .powerStart _ | .pinReset _ | .fullRestart _ | .warmRestart
  | .startBit _ | .lineReturnsToIdle _ | .idleStretchReaches2Ct _ | .mainPowerLoss | .backupSupplyLoss => true

end Sys2Proof
end

