-- ==== Sys2Proof/Machine/Types.lean ====
section
/-! DEFINITION. The kinds of state the ten blocks own: their states, entries and records. -/

namespace Sys2Proof.Machine

/-- The eight line rates (R36). -/
inductive Baud
  | b9600 | b19200 | b38400 | b57600 | b115200 | b230400 | b460800 | b921600
  deriving DecidableEq, Repr

/-- The reception context of a frame in progress (R7): present exactly in RECEIVING, so an absent
context is one that holds no buffer, 0 characters and no expected length. -/
structure Reception where
  buffer : BufferIx
  held : Nat
  expected : Option Nat
  check : Check
  deriving DecidableEq, Repr

/-- The seven port states (R20), each with the timers and positions that exist only in it:
the context in RECEIVING; in SENDING the position of the character being sent (from 0) and the CLK
periods since the first one began (log 18); the backoff length in ct (R26); the guard timer in CLK periods
(R29, log 23); the containment timer in ms (R31). -/
inductive PortState
  | disabled
  | listen
  | receiving (r : Reception)
  | sending (pos elapsed : Nat)
  | backoff (length : Nat)
  | guard (remaining : Nat)
  | contained (remaining : Nat)
  deriving DecidableEq, Repr

/-- What stands on a port's receive line (R1, R2): the idle level with the length of the present idle
stretch in CLK periods; a character whose start bit the receiver took; activity whose start bit it did
not take, which it does not decode (R1, R35); the start level after a framing-error character. Only
the first has a present idle stretch. -/
inductive LineState
  | idle (len : Nat)
  | character
  | undecoded
  | startLevel
  deriving DecidableEq, Repr

/-- What the receiver still waits for before it takes a start bit (R1): nothing, 1 bit time of idle
level after a framing-error character, or 1 ct after a reset, a resume or a BAUD change. -/
inductive StartHold
  | ready | oneBit | oneCt
  deriving DecidableEq, Repr

/-- The rank of a queue entry (R51). -/
inductive Rank
  | c0 | c1 | c2 | c3 | express
  deriving DecidableEq, Repr

/-- Whether the frame of an entry was received on a line or made by the coupler. -/
inductive Origin
  | forwarded | generated
  deriving DecidableEq, Repr

/-- The removal recorded against an entry in transmission (R58). -/
inductive PendingRemoval
  | window | withdrawn
  deriving DecidableEq, Repr

/-- An Egress Queue entry (3.2, R50). -/
structure QueueEntry where
  buffer : BufferIx
  rank : Rank
  stamp : Nat
  attempts : Nat
  inTx : Bool
  origin : Origin
  link : Option TxIx
  pendingRemoval : Option PendingRemoval
  deriving DecidableEq, Repr

/-- The three conditions of a buffer (R44). -/
inductive BufferCondition
  | free
  | reception (p : Port)
  | held (count : Nat)
  deriving DecidableEq, Repr

/-- A frame buffer: its condition and the characters stored in it. -/
structure Buffer where
  condition : BufferCondition
  chars : List Byte
  deriving DecidableEq, Repr

/-- The per-port parameters (R36), lengths and times in the units R36 gives. -/
structure PortParams where
  enable : Bool
  baud : Baud
  quiet : Nat
  guard : Nat
  attempts : Nat
  jabberLimit : Nat
  containPeriod : Nat
  replyTimeout : Nat
  mgmtAccept : Bool
  deriving DecidableEq, Repr

/-- A line port with its Egress Queue and its 11 counters, in the order of R186. -/
structure PortUnit where
  state : PortState
  line : LineState
  startHold : StartHold
  busySpan : Nat
  params : PortParams
  queue : List QueueEntry
  counters : Vector Count 11
  deriving DecidableEq, Repr

/-- The state of a station entry (R62), with the optional fields its state gives it. -/
inductive StationState
  | unknown
  | learned (home : Port) (age : Nat)
  | pinned (home : Port)
  | barred
  deriving DecidableEq, Repr

/-- A station entry (R62): its state and its class ceiling 0..3. -/
structure StationEntry where
  state : StationState
  ceiling : BitVec 2
  deriving DecidableEq, Repr

/-- The two kinds of exchange (1.2). -/
inductive Exchange
  | ordinary | management
  deriving DecidableEq, Repr

/-- The six kinds of frame (11.1). -/
inductive Kind
  | datagram | request | reply | notice | manage | result
  deriving DecidableEq, Repr

/-- The key of a transaction (R105). -/
structure TxKey where
  requester : Byte
  responder : Byte
  tag : Byte
  exchange : Exchange
  deriving DecidableEq, Repr

/-- The fields an OPEN and a LAPSED entry share (R104). -/
structure TxCore where
  key : TxKey
  requesterSegment : Port
  responderSegment : Option Port
  retries : Nat
  deriving DecidableEq, Repr

/-- A running deadline: the milliseconds remaining and the segment whose copy started it (R112). -/
structure Deadline where
  remaining : Nat
  segment : Port
  deriving DecidableEq, Repr

/-- A Transaction Table entry (R104). -/
inductive TxEntry
  | free
  | opened (core : TxCore) (copies : Nat) (deadline : Option Deadline)
  | lapsed (core : TxCore) (stamp grace : Nat)
  deriving DecidableEq, Repr

/-- The dispositions in rising strictness, and the actions of window entries, which are all of them
but `opened` (R149). -/
inductive Disposition
  | opened | limited1 | limited2 | limited3 | quiet | closed
  deriving DecidableEq, Repr

/-- A time of day to the minute (R147). -/
structure TimeOfDay where
  hour : Nat
  minute : Nat
  deriving DecidableEq, Repr

/-- A Window Table entry (R147). -/
structure WindowEntry where
  enabled : Bool
  days : DayMask
  start : TimeOfDay
  stop : TimeOfDay
  segments : SegmentMask
  action : Disposition
  deriving DecidableEq, Repr

/-- A date and time of the calendar, or a staged time (7.1). The weekday is that of the date (R133). -/
structure DateTime where
  year : Nat
  month : Nat
  day : Nat
  hour : Nat
  minute : Nat
  second : Nat
  deriving DecidableEq, Repr

/-- The backup domain's contents (R132). -/
structure Calendar where
  now : DateTime
  phase : Nat
  valid : Bool
  hold : Bool
  deriving DecidableEq, Repr

/-- The last sequence of a slot and the result payload it produced: present together or absent
together (R166). -/
structure CachedResult where
  sequence : Byte
  payload : List Byte
  deriving DecidableEq, Repr

/-- A manager slot that holds an address (R169); an empty slot holds nothing. -/
structure ManagerRecord where
  address : Byte
  last : Option CachedResult
  deriving DecidableEq, Repr

/-- The reset cause (R182). -/
inductive ResetCause
  | cold | power | pin | full | warm
  deriving DecidableEq, Repr

/-- The kind of a commanded restart (R178). -/
inductive RestartKind
  | warm | full
  deriving DecidableEq, Repr

/-- A pending restart: its kind and the buffer of its result (R178). `due` is the model's own mark,
set by the removal of that buffer's entry: the restart is then the next thing the part does (R179, log 8). -/
structure Restart where
  kind : RestartKind
  buffer : BufferIx
  due : Bool
  deriving DecidableEq, Repr

/-- UNKNOWN_POLICY (R93). -/
inductive UnknownPolicy
  | flood | drop
  deriving DecidableEq, Repr

/-- ALERT_MODE (R191). -/
inductive AlertMode
  | pulse | latched
  deriving DecidableEq, Repr

/-- The coupler parameters, the alert parameters among them (R174). -/
structure CouplerParams where
  ownAddress : Byte
  forwarding : Bool
  unknownPolicy : UnknownPolicy
  ageLimit : Nat
  reserve : Nat
  maxOutstanding : Nat
  lapseGrace : Nat
  alertMode : AlertMode
  alertMask : AlertSet
  alertRecipient : Byte
  deriving DecidableEq, Repr

/-- The per-port counters, in the order of R186. -/
inductive PortCounter
  | framesIn | framesOut | checkErrors | formatErrors | noBuffer | collisions | undeliverable
  | queueFull | windowDrops | unreachable | containments
  deriving DecidableEq, Repr

/-- The coupler counters, COUPLER 1 and then COUPLER 2, in the order of R186. -/
inductive CouplerCounter
  | localFiltered | noRoute | barred | misplaced | addressClash | forwardingOff | poolLow
  | stationMoves | txOpened | txAnswered | txLapsed
  | lateReplies | unsolicited | duplicates | tableFull | requesterLimit | noticesSent | noticesLost
  | mgmtExecuted | mgmtDenied | mgmtRefused | mgmtNoRoom
  deriving DecidableEq, Repr

/-- The seven alert causes (R189). -/
inductive AlertCause
  | containment | poolExhausted | tableFull | addressClash | misplaced | denied | calendarLost
  deriving DecidableEq, Repr

/-- The causes of a notice about a request (R126). -/
inductive NoticeCause
  | noAnswer | undeliverable | tableFull | requesterLimit | noRoute | window | contained
  deriving DecidableEq, Repr

/-- The result codes (R168). -/
inductive ResultCode
  | done | denied | unknownCommand | badTable | badIndex | badValue | busy
  deriving DecidableEq, Repr

end Sys2Proof.Machine
end

