-- ==== Sys2Proof/Machine/Defaults.lean ====
section
/-! DEFINITION. The values the resets give parameters, tables and the calendar. -/

namespace Sys2Proof.Machine

/-- MGMT_ACCEPT of a port from the MSEG strap (R181). -/
def mgmtAcceptFromStrap (msegOpen : Bool) (p : Port) : Bool := msegOpen || p == 0

/-- The per-port parameters after every reset that samples the straps (R36, R40). -/
def defaultPortParams (straps : Straps) (p : Port) : PortParams where
  enable := true
  baud := .b19200
  quiet := 4
  guard := 20
  attempts := 8
  jabberLimit := 50
  containPeriod := 2000
  replyTimeout := 250
  mgmtAccept := mgmtAcceptFromStrap straps.msegOpen p

/-- OWN_ADDRESS from the ADDR straps: 224 + the strap number (R181). -/
def ownAddressFromStraps (straps : Straps) : Byte := 224#8 + straps.addr.setWidth 8

/-- The coupler parameters after every reset that samples the straps (R174). -/
def defaultCouplerParams (straps : Straps) : CouplerParams where
  ownAddress := ownAddressFromStraps straps
  forwarding := straps.bootOpen
  unknownPolicy := .flood
  ageLimit := 30
  reserve := 6
  maxOutstanding := 2
  lapseGrace := 1000
  alertMode := .latched
  alertMask := 0
  alertRecipient := 0

/-- A station entry after those resets (R63). -/
def unknownStation : StationEntry := ⟨.unknown, 3⟩

/-- A group mask after those resets: all four segments (R78). -/
def fullMask : SegmentMask := 0b1111

/-- A window entry after those resets (R156). -/
def idleWindow : WindowEntry := ⟨false, 0, ⟨0, 0⟩, ⟨0, 0⟩, 0, .quiet⟩

/-- The first moment of the calendar's range, a Saturday (R134, R144). -/
def calendarEpoch : DateTime := ⟨2000, 1, 1, 0, 0, 0⟩

/-- The calendar a cold start leaves (R144). -/
def coldCalendar : Calendar := ⟨calendarEpoch, 0, false, false⟩

/-- The free list a reset leaves: 0 to 47 ascending (R49). -/
def fullFreeList : List BufferIx := List.finRange 48

/-- A buffer as a reset leaves it (R49); its contents are not visible (log 14). -/
def freeBuffer : Buffer := ⟨.free, []⟩

/-- The straps of the reset state: all open (DESIGN CHOICE, log 10). -/
def openStraps : Straps := ⟨0, true, true⟩

/-- A port as a cold start leaves it: LISTEN on an idle line that it watches afresh (R39, R35). -/
def resetPort (straps : Straps) (p : Port) : PortUnit where
  state := .listen
  line := .idle 0
  startHold := .oneCt
  busySpan := 0
  params := defaultPortParams straps p
  queue := []
  counters := Vector.replicate 11 0

end Sys2Proof.Machine
end

