-- ==== Sys2Proof/Machine/State.lean ====
section
/-! DEFINITION. The state of the part, its reset, and the reasons a step can stop. -/

namespace Sys2Proof.Machine

/-- The reasons a step can fault. The part never stops (its failures are counters, alerts, notices and
result codes), so only one reason exists and NO command raises it: safe, since nothing reaches it. -/
inductive Fault
  /-- Raised by nobody: kept so that the type has a name for a stop the spec does not have. Safe. -/
  | stuck
  deriving DecidableEq, Repr

/-- The reasons a step can be refused. -/
inductive Refusal
  /-- Raised by an arm of Dispatch.lean for a command without a meaning yet: no arm raises it. Safe. -/
  | notModelled (mnemonic : String)
  deriving DecidableEq, Repr

/-- Everything the spec gives the part (INVENTORY.md, State), and the queue of waiting commands. -/
structure State where
  /-- The line ports with their queues, parameters and counters (R20, R36, R50, R186). -/
  ports : Vector PortUnit 4
  /-- The 48 frame buffers (R44). -/
  pool : Vector Buffer 48
  /-- The free list, head first (R45). -/
  freeList : List BufferIx
  /-- The next arrival stamp (R51). -/
  nextStamp : Nat
  /-- The entries of addresses 1 to 239, in that order (R62). -/
  stations : Vector StationEntry 239
  /-- The group masks (R76). -/
  groups : Vector SegmentMask 16
  /-- The Transaction Table (R104). -/
  transactions : Vector TxEntry 32
  /-- The next lapse stamp (R105). -/
  nextLapse : Nat
  /-- The Window Table (R147). -/
  windows : Vector WindowEntry 24
  /-- The present disposition of each segment (R149). -/
  dispositions : Vector Disposition 4
  /-- The backup domain (R132). -/
  calendar : Calendar
  /-- Whether VBAK is present (R132, log 12). -/
  backupSupply : Bool
  /-- Whether the backup domain has lost its contents (R132). -/
  backupLost : Bool
  /-- The staged time (R137). -/
  staged : Option DateTime
  /-- The manager table (R169). -/
  managers : Vector (Option ManagerRecord) 4
  /-- The coupler parameters (R174). -/
  params : CouplerParams
  /-- The coupler counters (R186). -/
  counters : Vector Count 22
  /-- The pending set of alert causes (R189). -/
  pendingAlerts : AlertSet
  /-- The pulse remaining, in ms (R191). -/
  pulse : Option Nat
  /-- The reset cause (R182). -/
  resetCause : ResetCause
  /-- The pending restart (R178). -/
  restart : Option Restart
  /-- The strap inputs as last read or set (R181, log 17). -/
  straps : Straps
  /-- Whether main power is present (R132, log 12). -/
  powered : Bool
  /-- CLK periods into the present crystal period (log 5). -/
  crystalCount : Nat
  /-- Tenths of a CLK period into the present millisecond (log 5). -/
  msCount : Nat
  /-- The commands that wait, first in, first out. -/
  pending : List Instr
  deriving DecidableEq, Repr

/-- The part right after a cold start with all straps open and every line idle (log 10):
every block at its reset value, CALENDAR_LOST pending (R194), nothing waiting. -/
def State.reset : State where
  ports := #v[resetPort openStraps 0, resetPort openStraps 1, resetPort openStraps 2, resetPort openStraps 3]
  pool := Vector.replicate 48 freeBuffer
  freeList := fullFreeList
  nextStamp := 0
  stations := Vector.replicate 239 unknownStation
  groups := Vector.replicate 16 fullMask
  transactions := Vector.replicate 32 .free
  nextLapse := 0
  windows := Vector.replicate 24 idleWindow
  dispositions := Vector.replicate 4 .opened
  calendar := coldCalendar
  backupSupply := true
  backupLost := false
  staged := none
  managers := Vector.replicate 4 none
  params := defaultCouplerParams openStraps
  counters := Vector.replicate 22 0
  pendingAlerts := 0b1000000
  pulse := none
  resetCause := .cold
  restart := none
  straps := openStraps
  powered := true
  crystalCount := 0
  msCount := 0
  pending := []

end Sys2Proof.Machine
end

