-- ==== Sys2Proof/Machine/Operands.lean ====
section
/-! DEFINITION. The forms in which the part meets its lines and its managers: characters, frames and their check, codes and record fields (chapters 1 and 11). -/

namespace Sys2Proof.Machine

/-! ### Line rates -/

/-- CLK periods of one bit time: the CLK is 32 times the highest rate (00_scope.md). -/
def Baud.clkPerBit : Baud → Nat
  | .b9600 => 3072
  | .b19200 => 1536
  | .b38400 => 768
  | .b57600 => 512
  | .b115200 => 256
  | .b230400 => 128
  | .b460800 => 64
  | .b921600 => 32

/-- CLK periods of `n` ct (00_scope.md, Character time). -/
def Baud.ct (b : Baud) (n : Nat) : Nat := n * Config.bitsPerCharacter * b.clkPerBit

/-- The line rate as BAUD is written and read, in bit/s (R36). -/
def Baud.rate : Baud → Nat
  | .b9600 => 9600
  | .b19200 => 19200
  | .b38400 => 38400
  | .b57600 => 57600
  | .b115200 => 115200
  | .b230400 => 230400
  | .b460800 => 460800
  | .b921600 => 921600

/-- The BAUD a number names, if it names one (R36). -/
def Baud.ofRate (n : Nat) : Option Baud :=
  [Baud.b9600, .b19200, .b38400, .b57600, .b115200, .b230400, .b460800, .b921600].find? (·.rate == n)

/-! ### Characters on the line (R1, R196) -/

/-- The 11 bit times of a character: start bit, data bits 0 to 7, address flag, stop bit. The idle
level is `true`. -/
def characterBits (value : Byte) (flag : Bool) : List Bool :=
  false :: ((List.range 8).map fun k => value.getLsbD k) ++ [flag, true]

/-- The data value whose bit k is the k-th bit taken (R196). -/
def byteOfBits (bits : List Bool) : Byte :=
  bits.foldr (fun bit acc => (acc <<< 1) ||| (if bit then 1#8 else 0#8)) 0#8

/-- What the receiver makes of the ten bit times it samples after a start bit (R1). -/
def sampleCharacter (afterStart : List Bool) : LineCharacter :=
  if afterStart.getD 9 false then .good (byteOfBits (afterStart.take 8)) (afterStart.getD 8 false)
  else .framingError

/-! ### The check (R6) -/

/-- One bit entering the check register, most significant bit first: generator 1021h. -/
def checkBit (c : Check) (bit : Bool) : Check :=
  if c.getLsbD 15 != bit then (c <<< 1) ^^^ 0x1021#16 else c <<< 1

/-- One character's eight data bits entering the check register. -/
def checkByte (c : Check) (b : Byte) : Check :=
  [7, 6, 5, 4, 3, 2, 1, 0].foldl (fun c k => checkBit c (b.getLsbD k)) c

/-- The check register before the first character. -/
def checkStart : Check := 0xFFFF#16

/-- The check over a list of characters. -/
def checkOf (bs : List Byte) : Check := bs.foldl checkByte checkStart

/-- The first check character: the high eight bits. -/
def checkHigh (c : Check) : Byte := (c >>> 8).setWidth 8

/-- The second check character: the low eight bits. -/
def checkLow (c : Check) : Byte := c.setWidth 8

/-- The value two check characters carry. -/
def checkValue (hi lo : Byte) : Check := hi ++ lo

/-! ### Frames (R4, R5) -/

/-- The kind code (11.1). -/
def Kind.code : Kind → BitVec 3
  | .datagram => 0
  | .request => 1
  | .reply => 2
  | .notice => 3
  | .manage => 4
  | .result => 5

/-- The kind a K character names, none for the two undefined codes (R5, R196). -/
def kindOf (k : Byte) : Option Kind :=
  match k.toNat % 8 with
  | 0 => some .datagram
  | 1 => some .request
  | 2 => some .reply
  | 3 => some .notice
  | 4 => some .manage
  | 5 => some .result
  | _ => none

/-- The class a K character carries, bits 3 and 4. -/
def classOf (k : Byte) : BitVec 2 := (k >>> 3).setWidth 2

/-- The K character of a frame. -/
def kindAndClass (unused : BitVec 3) (cls : BitVec 2) (kind : Kind) : Byte := (unused ++ cls) ++ kind.code

/-- A list of covered characters followed by its two check characters. -/
def withCheck (body : List Byte) : List Byte :=
  body ++ [checkHigh (checkOf body), checkLow (checkOf body)]

/-- The covered characters of a frame: D, S, K, T, L and the payload (R4). -/
def frameBody (dest source k tag : Byte) (payload : List Byte) : List Byte :=
  [dest, source, k, tag, BitVec.ofNat 8 payload.length] ++ payload

/-- All characters of a frame, the check included. -/
def frameChars (dest source k tag : Byte) (payload : List Byte) : List Byte :=
  withCheck (frameBody dest source k tag payload)

/-- The characters of a frame a sender puts on a line. -/
def framedChars (f : Frame) (kind : Kind) : List Byte :=
  frameChars f.dest f.source (kindAndClass f.unused f.cls kind) f.tag f.payload

/-- The characters of a frame the coupler makes: class 3, unused bits 0 (R96, R126, R168, R196). -/
def generatedChars (dest source tag : Byte) (kind : Kind) (payload : List Byte) : List Byte :=
  frameChars dest source (kindAndClass 0 3 kind) tag payload

/-- A received frame as the Forwarding Engine reads it from its buffer. -/
structure FrameView where
  dest : Byte
  source : Byte
  kind : Kind
  cls : BitVec 2
  tag : Byte
  payload : List Byte
  deriving DecidableEq, Repr

/-- The fields of a stored frame. -/
def viewFrame (chars : List Byte) (kind : Kind) : FrameView where
  dest := chars.getD 0 0
  source := chars.getD 1 0
  kind := kind
  cls := classOf (chars.getD 2 0)
  tag := chars.getD 3 0
  payload := (chars.drop 5).take (chars.length - 7)

/-! ### Codes (chapter 11) -/

/-- The answer kinds and request kinds belong to one exchange each (1.2). -/
def Kind.exchange : Kind → Exchange
  | .manage | .result => .management
  | .datagram | .request | .reply | .notice => .ordinary

def Exchange.code : Exchange → Byte
  | .ordinary => 0
  | .management => 1

def NoticeCause.code : NoticeCause → Byte
  | .noAnswer => 1
  | .undeliverable => 2
  | .tableFull => 3
  | .requesterLimit => 4
  | .noRoute => 5
  | .window => 6
  | .contained => 7

/-- The notice cause ALERT (11.4). -/
def alertNoticeCode : Byte := 8

def ResultCode.code : ResultCode → Byte
  | .done => 0
  | .denied => 1
  | .unknownCommand => 2
  | .badTable => 3
  | .badIndex => 4
  | .badValue => 5
  | .busy => 6

def ResetCause.code : ResetCause → Byte
  | .cold => 0
  | .power => 1
  | .pin => 2
  | .full => 3
  | .warm => 4

def PortState.code : PortState → Byte
  | .disabled => 0
  | .listen => 1
  | .receiving _ => 2
  | .sending _ _ => 3
  | .backoff _ => 4
  | .guard _ => 5
  | .contained _ => 6

/-- The disposition or action code, which is also its place on the scale of strictness (8.2, 11.3). -/
def Disposition.code : Disposition → Nat
  | .opened => 0
  | .limited1 => 1
  | .limited2 => 2
  | .limited3 => 3
  | .quiet => 4
  | .closed => 5

/-- The action a code names: OPEN is no action (R198). -/
def actionOfCode (b : Byte) : Option Disposition :=
  match b.toNat with
  | 1 => some .limited1
  | 2 => some .limited2
  | 3 => some .limited3
  | 4 => some .quiet
  | 5 => some .closed
  | _ => none

/-- Ranks in rising order, C0 to C3 and EXPRESS. -/
def Rank.level : Rank → Nat
  | .c0 => 0
  | .c1 => 1
  | .c2 => 2
  | .c3 => 3
  | .express => 4

/-- The class rank of a class number (R68). -/
def Rank.ofClass (c : BitVec 2) : Rank :=
  match c.toNat with
  | 0 => .c0
  | 1 => .c1
  | 2 => .c2
  | _ => .c3

/-- The set bit number of an alert cause (11.2). -/
def AlertCause.code : AlertCause → Nat
  | .containment => 0
  | .poolExhausted => 1
  | .tableFull => 2
  | .addressClash => 3
  | .misplaced => 4
  | .denied => 5
  | .calendarLost => 6

/-- The set that holds one cause alone. -/
def AlertCause.mask (c : AlertCause) : AlertSet := 1#7 <<< c.code

def boolCode (b : Bool) : Byte := if b then 1 else 0

/-- A number as one character. -/
def byteOf (n : Nat) : Byte := BitVec.ofNat 8 n

/-- A 16-bit number, high character first (11.2). -/
def twoBytes (n : Nat) : List Byte := [byteOf (n / 256), byteOf n]

/-- A 32-bit value, high character first (11.2). -/
def fourBytes (v : BitVec 32) : List Byte :=
  [(v >>> 24).setWidth 8, (v >>> 16).setWidth 8, (v >>> 8).setWidth 8, v.setWidth 8]

/-- The number four characters give (R197). -/
def numberOf (b3 b2 b1 b0 : Byte) : Nat :=
  ((b3.toNat * 256 + b2.toNat) * 256 + b1.toNat) * 256 + b0.toNat

/-- A number 0..99 in two-digit BCD (11.4). -/
def bcd (n : Nat) : Byte := byteOf (n / 10 % 10 * 16 + n % 10)

/-- The number a BCD character names, none when a digit is above 9 (R199). -/
def ofBcd (b : Byte) : Option Nat :=
  if b.toNat / 16 ≤ 9 ∧ b.toNat % 16 ≤ 9 then some (b.toNat / 16 * 10 + b.toNat % 16) else none

/-- The marker of an absent one-character field (11.3). -/
def absent : Byte := 0xFF

/-- An optional small number in a record: its value, or the marker (R198). -/
def optByte : Option Nat → Byte
  | some n => byteOf n
  | none => absent

/-- The segment number of an optional segment in a record (R198). -/
def optPort : Option Port → Byte
  | some p => byteOf p.val
  | none => absent

/-- The port a character names, none outside 0..3. -/
def portOf (b : Byte) : Option Port :=
  if h : b.toNat < 4 then some ⟨b.toNat, h⟩ else none

/-- The segments a mask names, in ascending order. -/
def SegmentMask.segments (m : SegmentMask) : List Port := (List.finRange 4).filter fun p => m.getLsbD p.val

/-- A station address, 1 to 239 (00_scope.md, Addresses): what a valid source is (R4, R17). -/
def isStation (a : Byte) : Bool := 1 ≤ a.toNat && a.toNat ≤ 239

/-! ### Command codes (11.2) -/

/-- The fourteen commands. -/
inductive CommandCode
  | status | readEntries | writeEntry | getParam | setParam | readCounters | timeRead | timeSet
  | timeRound | timeHold | timeRun | clearAlert | flushLearned | restart
  deriving DecidableEq, Repr

def CommandCode.code : CommandCode → Byte
  | .status => 0x01
  | .readEntries => 0x02
  | .writeEntry => 0x03
  | .getParam => 0x04
  | .setParam => 0x05
  | .readCounters => 0x06
  | .timeRead => 0x07
  | .timeSet => 0x08
  | .timeRound => 0x09
  | .timeHold => 0x0A
  | .timeRun => 0x0B
  | .clearAlert => 0x0C
  | .flushLearned => 0x0D
  | .restart => 0x0E

/-- The command a code names, if it names one of the fourteen (R165). -/
def commandOf (b : Byte) : Option CommandCode :=
  [CommandCode.status, .readEntries, .writeEntry, .getParam, .setParam, .readCounters, .timeRead, .timeSet,
    .timeRound, .timeHold, .timeRun, .clearAlert, .flushLearned, .restart].find? (·.code == b)

end Sys2Proof.Machine
end

