-- ==== Sys2Proof/Machine/Flags.lean ====
section
/-! DEFINITION. Access to ports and counters, and the outputs and flags that are functions of the state (R20, R186, R191). -/

namespace Sys2Proof.Machine

/-! ### Ports and counters -/

/-- Port `p`. -/
def State.port (s : State) (p : Port) : PortUnit := s.ports.get p

/-- Port `p` changed by `f`, everything else as it was. -/
def State.updPort (s : State) (p : Port) (f : PortUnit → PortUnit) : State :=
  { s with ports := s.ports.set p.val (f (s.port p)) p.isLt }

/-- Port `p` put in state `st` (R20). -/
def State.setPortState (s : State) (p : Port) (st : PortState) : State :=
  s.updPort p fun u => { u with state := st }

/-- The queue of port `p` (R50). -/
def State.queue (s : State) (p : Port) : List QueueEntry := (s.port p).queue

/-- The queue of port `p` replaced. -/
def State.setQueue (s : State) (p : Port) (q : List QueueEntry) : State :=
  s.updPort p fun u => { u with queue := q }

/-- The place of a per-port counter in its scope (R186). -/
def PortCounter.index : PortCounter → Fin 11
  | .framesIn => 0
  | .framesOut => 1
  | .checkErrors => 2
  | .formatErrors => 3
  | .noBuffer => 4
  | .collisions => 5
  | .undeliverable => 6
  | .queueFull => 7
  | .windowDrops => 8
  | .unreachable => 9
  | .containments => 10

/-- The place of a coupler counter: COUPLER 1 is 0 to 10, COUPLER 2 is 11 to 21 (R186). -/
def CouplerCounter.index : CouplerCounter → Fin 22
  | .localFiltered => 0
  | .noRoute => 1
  | .barred => 2
  | .misplaced => 3
  | .addressClash => 4
  | .forwardingOff => 5
  | .poolLow => 6
  | .stationMoves => 7
  | .txOpened => 8
  | .txAnswered => 9
  | .txLapsed => 10
  | .lateReplies => 11
  | .unsolicited => 12
  | .duplicates => 13
  | .tableFull => 14
  | .requesterLimit => 15
  | .noticesSent => 16
  | .noticesLost => 17
  | .mgmtExecuted => 18
  | .mgmtDenied => 19
  | .mgmtRefused => 20
  | .mgmtNoRoom => 21

/-- A per-port counter advances by 1, from 4,294,967,295 to 0 (R186). -/
def State.countPort (s : State) (p : Port) (c : PortCounter) : State :=
  s.updPort p fun u => { u with counters := u.counters.set c.index.val (u.counters.get c.index + 1) c.index.isLt }

/-- A coupler counter advances by 1, from 4,294,967,295 to 0 (R186). -/
def State.count (s : State) (c : CouplerCounter) : State :=
  { s with counters := s.counters.set c.index.val (s.counters.get c.index + 1) c.index.isLt }

/-- The value of a per-port counter. -/
def State.portCounter (s : State) (p : Port) (c : PortCounter) : Count := (s.port p).counters.get c.index

/-- The value of a coupler counter. -/
def State.counter (s : State) (c : CouplerCounter) : Count := s.counters.get c.index

/-! ### What the states of a port mean -/

/-- The states in which the jabber monitor runs (R30). -/
def PortState.monitored : PortState → Bool
  | .listen | .receiving _ | .backoff _ | .guard _ => true
  | .disabled | .sending _ _ | .contained _ => false

/-- The states in which admissions are refused as UNREACHABLE and the receiver ignores the line (R3, R52). -/
def PortState.outOfService : PortState → Bool
  | .disabled | .contained _ => true
  | .listen | .receiving _ | .sending _ _ | .backoff _ | .guard _ => false

/-- The direction line: asserted exactly in SENDING (R20). -/
def PortState.dirAsserted : PortState → Bool
  | .sending _ _ => true
  | .disabled | .listen | .receiving _ | .backoff _ | .guard _ | .contained _ => false

/-- The present idle stretch in CLK periods, if one is present (R2). -/
def LineState.idleStretch : LineState → Option Nat
  | .idle n => some n
  | .character | .undecoded | .startLevel => none

/-- Whether the present idle stretch has reached `n` CLK periods. -/
def LineState.quietFor (l : LineState) (n : Nat) : Bool :=
  match l.idleStretch with
  | some len => decide (n ≤ len)
  | none => false

/-- The entry of a queue that carries the in-transmission mark (R22). -/
def inTransmission (q : List QueueEntry) : Option QueueEntry := q.find? (·.inTx)

/-- The character a port's transmitter is sending, with its address flag; none while the transmit
line stands idle (R20, R23). -/
def State.txd (s : State) (p : Port) : Option (Byte × Bool) :=
  match (s.port p).state with
  | .sending pos _ =>
    match inTransmission (s.queue p) with
    | some e => ((s.pool.get e.buffer).chars[pos]?).map fun b => (b, pos == 0)
    | none => none
  | .disabled | .listen | .receiving _ | .backoff _ | .guard _ | .contained _ => none

/-! ### The alert output (R191) -/

/-- Whether the pending set holds a cause that ALERT_MASK does not mask. -/
def State.unmaskedPending (s : State) : Bool := s.pendingAlerts &&& ~~~ s.params.alertMask != 0

/-- The ALERT output: asserted by the unmasked pending causes in LATCHED mode, by a running pulse in PULSE mode. -/
def State.alertAsserted (s : State) : Bool :=
  match s.params.alertMode with
  | .latched => s.unmaskedPending
  | .pulse => s.pulse.isSome

end Sys2Proof.Machine
end

