-- ==== Sys2Proof/Machine/Ops.lean ====
section
/-! DEFINITION. The shared operations over buffers, queues, tables and frames that the coupler makes (chapters 3, 4 and 6). -/

namespace Sys2Proof.Machine

/-! ### Station and transaction entries -/

/-- The place of an address in the Station Table: addresses 0 and 240 to 255 have none (4.1). -/
def stationIndex (a : Byte) : Option (Fin 239) :=
  if h : 1 ≤ a.toNat ∧ a.toNat ≤ 239 then some ⟨a.toNat - 1, by omega⟩ else none

/-- The station entry of an address. No rule looks up an address that has none; for such a one this
reads as UNKNOWN with ceiling 3 (log 21). -/
def State.station (s : State) (a : Byte) : StationEntry :=
  match stationIndex a with
  | some i => s.stations.get i
  | none => unknownStation

/-- The station entry of an address replaced. -/
def State.setStation (s : State) (a : Byte) (e : StationEntry) : State :=
  match stationIndex a with
  | some i => { s with stations := s.stations.set i.val e i.isLt }
  | none => s

/-- The home segment of an entry, present in LEARNED and PINNED (R62). -/
def StationState.home : StationState → Option Port
  | .learned p _ => some p
  | .pinned p => some p
  | .unknown | .barred => none

/-- Transaction Table entry `t`. -/
def State.tx (s : State) (t : TxIx) : TxEntry := s.transactions.get t

/-- Transaction Table entry `t` replaced. -/
def State.setTx (s : State) (t : TxIx) (e : TxEntry) : State :=
  { s with transactions := s.transactions.set t.val e t.isLt }

/-! ### The Frame Buffer Pool (R44 to R47) -/

/-- Buffer `b` replaced. -/
def State.setBuffer (s : State) (b : BufferIx) (v : Buffer) : State :=
  { s with pool := s.pool.set b.val v b.isLt }

/-- The characters of buffer `b`. -/
def State.chars (s : State) (b : BufferIx) : List Byte := (s.pool.get b).chars

/-- Buffer `b` in another condition, its characters as they were. -/
def State.setCondition (s : State) (b : BufferIx) (c : BufferCondition) : State :=
  s.setBuffer b { s.pool.get b with condition := c }

/-- Characters written to buffer `b`, its condition as it was. -/
def State.setChars (s : State) (b : BufferIx) (cs : List Byte) : State :=
  s.setBuffer b { s.pool.get b with chars := cs }

/-- The free count (R45). -/
def State.freeCount (s : State) : Nat := s.freeList.length

/-- A buffer becomes free and joins the tail of the free list (R45). -/
def State.freeUp (s : State) (b : BufferIx) : State :=
  let s := s.setCondition b .free
  { s with freeList := s.freeList ++ [b] }

/-- One entry that referred to buffer `b` has left its queue (R55): the count falls by 1, and the last
reference frees the buffer. -/
def State.release (s : State) (b : BufferIx) : State :=
  match (s.pool.get b).condition with
  | .held n => if n ≤ 1 then s.freeUp b else s.setCondition b (.held (n - 1))
  | .free | .reception _ => s

/-- The end of a classification (R46, R82): the frame's buffer is held by the entries admitted for it,
or becomes free. -/
def State.settleBuffer (s : State) (b : BufferIx) (admitted : Nat) : State :=
  if admitted = 0 then s.freeUp b else s.setCondition b (.held admitted)

/-! ### Queue order and admission (R51 to R53) -/

/-- Queue order: higher rank first, then the older stamp (R51). -/
def QueueEntry.before (a b : QueueEntry) : Bool :=
  b.rank.level < a.rank.level || (a.rank.level == b.rank.level && a.stamp < b.stamp)

/-- An entry joined to a queue that stands in queue order. The head of a queue is therefore the entry
of the highest rank and oldest stamp, its last the newest of the lowest rank. -/
def insertEntry (e : QueueEntry) : List QueueEntry → List QueueEntry
  | [] => [e]
  | x :: xs => if e.before x then e :: x :: xs else x :: insertEntry e xs

/-- What a disposition admits, by rank and origin (R150); a GENERATED entry passes every one (R52). -/
def Disposition.admits (d : Disposition) (r : Rank) (o : Origin) : Bool :=
  match o with
  | .generated => true
  | .forwarded =>
    match d with
    | .opened => true
    | .limited1 => 1 ≤ r.level
    | .limited2 => 2 ≤ r.level
    | .limited3 => 3 ≤ r.level
    | .quiet => 4 ≤ r.level
    | .closed => false

/-- The present disposition of segment `p` (R149). -/
def State.disposition (s : State) (p : Port) : Disposition := s.dispositions.get p

/-- What a requester of admission names (R50). -/
structure NewEntry where
  buffer : BufferIx
  rank : Rank
  origin : Origin
  link : Option TxIx
  deriving DecidableEq, Repr

/-- The answer of a queue (R52): admitted, or one of the three refusals. -/
inductive Verdict
  | admitted
  | unreachable
  | window
  | queueFull
  deriving DecidableEq, Repr

def Verdict.isAdmitted : Verdict → Bool
  | .admitted => true
  | .unreachable | .window | .queueFull => false

/-- An entry joins queue `p` with a new arrival stamp (R50, R51). -/
def State.enqueue (s : State) (p : Port) (n : NewEntry) : State :=
  let e : QueueEntry := ⟨n.buffer, n.rank, s.nextStamp, 0, false, n.origin, n.link, none⟩
  let s := s.setQueue p (insertEntry e (s.queue p))
  { s with nextStamp := s.nextStamp + 1 }

/-- Entry `e` leaves queue `p`, by its stamp, which no other entry carries (R51). -/
def State.dequeue (s : State) (p : Port) (e : QueueEntry) : State :=
  s.setQueue p ((s.queue p).filter fun x => x.stamp != e.stamp)

/-- The entry R53 would displace: the last in queue order, if it is neither EXPRESS nor in transmission. -/
def displaceable (q : List QueueEntry) : Option QueueEntry :=
  match q.getLast? with
  | some e => if e.rank = .express ∨ e.inTx then none else some e
  | none => none

/-- What displacements under way in the present event still owe (R53, log 9): at each port of `places` the
place of a displaced entry, kept for the EXPRESS entry that displaced it, and `buffers` free buffers, kept
for the generated frames among those. -/
structure Owed where
  places : List Port
  buffers : Nat
  deriving DecidableEq, Repr

/-- Nothing is owed: no displacement is under way. -/
def Owed.nothing : Owed := ⟨[], 0⟩

/-- What a queue finds when it is asked for a place (R52, R53): room, an entry to displace, or the test that fails. -/
inductive Judgement
  | room
  | displaces (e : QueueEntry)
  | unreachable
  | window
  | queueFull
  deriving DecidableEq, Repr

/-- The three tests of admission, the first that fails naming the refusal (R52); at a full queue an EXPRESS
request finds the entry it displaces, if there is one (R53). A place owed counts as taken. -/
def State.judgeAdmission (s : State) (owed : Owed) (p : Port) (r : Rank) (o : Origin) : Judgement :=
  if (s.port p).state.outOfService then .unreachable
  else if !(s.disposition p).admits r o then .window
  else if (s.queue p).length + owed.places.count p < Config.queueSize then .room
  else
    match r, displaceable (s.queue p) with
    | .express, some e => .displaces e
    | .express, none | .c0, _ | .c1, _ | .c2, _ | .c3, _ => .queueFull

/-- The displaced entry leaves the queue, but for its report (R53, R55). -/
def State.displace (s : State) (p : Port) (e : QueueEntry) : State :=
  ((s.dequeue p e).release e.buffer).countPort p .queueFull

/-- A request for admission made room for or refused (R52, R53). A displacement is complete with its report
before the EXPRESS entry is admitted, and `buffers` is what that entry itself takes from the free list. -/
def State.makePlace (s : State) (report : Owed → TxIx → State → State) (owed : Owed) (buffers : Nat) (p : Port)
    (r : Rank) (o : Origin) : Verdict × State :=
  match s.judgeAdmission owed p r o with
  | .room => (.admitted, s)
  | .displaces e =>
    match e.link with
    | some t => (.admitted, report ⟨p :: owed.places, owed.buffers + buffers⟩ t (s.displace p e))
    | none => (.admitted, s.displace p e)
  | .unreachable => (.unreachable, s.countPort p .unreachable)
  | .window => (.window, s.countPort p .windowDrops)
  | .queueFull => (.queueFull, s.countPort p .queueFull)

/-- A generated frame joins queue `p` in the buffer at the head of the free list, now held with count 1 (R47). -/
def State.joinGenerated (s : State) (p : Port) (chars : List Byte) : Option BufferIx × State :=
  match s.freeList with
  | [] => (none, s)
  | b :: rest =>
    (some b, ({ s.enqueue p ⟨b, .express, .generated, none⟩ with freeList := rest }).setBuffer b ⟨.held 1, chars⟩)

/-- A generated frame placed in queue `p` (R47), and the buffer it took: none where the free list holds no
buffer but those owed, or the queue refuses. -/
def State.placeGenerated (s : State) (report : Owed → TxIx → State → State) (owed : Owed) (p : Port)
    (chars : List Byte) : Option BufferIx × State :=
  if s.freeList.length ≤ owed.buffers then (none, s)
  else
    match s.makePlace report owed 1 p .express .generated with
    | (.admitted, t) => t.joinGenerated p chars
    | (.unreachable, t) | (.window, t) | (.queueFull, t) => (none, t)

/-! ### Notices about requests and the copies of a transaction (R112, R113, R126) -/

/-- The characters of a notice about a request (R96, R126). -/
def noticeChars (own : Byte) (key : TxKey) (cause : NoticeCause) : List Byte :=
  generatedChars key.requester own key.tag .notice [cause.code, key.responder, key.exchange.code]

/-- The notice cause of a copy removed without completing (R113). -/
inductive CopyLoss
  | undeliverable | queueFull | window | contained
  deriving DecidableEq, Repr

def CopyLoss.notice : CopyLoss → NoticeCause
  | .undeliverable | .queueFull => .undeliverable
  | .window => .window
  | .contained => .contained

/-- A linked copy of entry `t` has gone without completing: copies pending falls by 1, and an entry
left with no copy and no deadline becomes FREE, its requester owed a notice (R113). -/
def State.dropCopy (s : State) (t : TxIx) : Option TxCore × State :=
  match s.tx t with
  | .opened core copies none =>
    if copies ≤ 1 then (some core, s.setTx t .free) else (none, s.setTx t (.opened core (copies - 1) none))
  | .opened core copies (some d) => (none, s.setTx t (.opened core (copies - 1) (some d)))
  | .free | .lapsed _ _ _ => (none, s)

/-- A notice is counted as sent or lost (R126, R192). -/
def State.countNotice : Option BufferIx × State → State
  | (some _, s) => s.count .noticesSent
  | (none, s) => s.count .noticesLost

/-- The report of a removed copy (R113) with its notice, and with the report of the copy that notice may
displace in turn (R53, R126). Each turn closes one OPEN entry, so a chain has at most 32 of them and
`fuel` 33 never runs out (log 30). -/
def copyRemoved : Nat → CopyLoss → Owed → TxIx → State → State
  | 0, _, _, _, s => s
  | fuel + 1, loss, owed, t, s =>
    match s.dropCopy t with
    | (none, s) => s
    | (some core, s) =>
      State.countNotice
        (s.placeGenerated (copyRemoved fuel .queueFull) owed core.requesterSegment
          (noticeChars s.params.ownAddress core.key loss.notice))

/-- The report of a copy removed without completing. -/
def State.reportRemoved (s : State) (t : TxIx) (loss : CopyLoss) : State := copyRemoved 33 loss .nothing t s

/-- A request for admission (R52): an admitted entry joins the queue. -/
def State.requestAdmission (s : State) (p : Port) (n : NewEntry) : Verdict × State :=
  match s.makePlace (copyRemoved 33 .queueFull) .nothing 0 p n.rank n.origin with
  | (.admitted, t) => (.admitted, t.enqueue p n)
  | (.unreachable, t) => (.unreachable, t)
  | (.window, t) => (.window, t)
  | (.queueFull, t) => (.queueFull, t)

/-- A generated frame produced in one event with all it entails, and the buffer it took (R47). -/
def State.generate (s : State) (p : Port) (chars : List Byte) : Option BufferIx × State :=
  s.placeGenerated (copyRemoved 33 .queueFull) .nothing p chars

/-- A notice, counted as sent or lost (R96, R126, R192). -/
def State.sendNotice (s : State) (p : Port) (chars : List Byte) : State := State.countNotice (s.generate p chars)

/-- A notice about a request, to its requester on segment `p` (R126). -/
def State.notify (s : State) (p : Port) (key : TxKey) (cause : NoticeCause) : State :=
  s.sendNotice p (noticeChars s.params.ownAddress key cause)

/-- The report of a completed copy (R112): copies pending falls by 1, and the deadline starts at the
segment's REPLY_TIMEOUT if none runs. -/
def State.reportCompleted (s : State) (t : TxIx) (p : Port) : State :=
  match s.tx t with
  | .opened core copies deadline =>
    let started : Deadline := ⟨(s.port p).params.replyTimeout, p⟩
    s.setTx t (.opened core (copies - 1) (some (deadline.getD started)))
  | .free | .lapsed _ _ _ => s

/-! ### Removal from a queue (R55) -/

/-- The causes of removal (R55). -/
inductive RemovalCause
  | completion | undeliverable | window | unreachable | withdrawn
  deriving DecidableEq, Repr

/-- The Management Unit hears that a GENERATED entry's buffer has left its queue; it matters when the
buffer is that of an awaited RESTART result (R55, R179). -/
def State.toldDeparture (s : State) (e : QueueEntry) : State :=
  match s.restart, e.origin with
  | some r, .generated => if r.buffer = e.buffer then { s with restart := some { r with due := true } } else s
  | some _, .forwarded | none, _ => s

/-- The counter a removal advances (R55). -/
def RemovalCause.counter : RemovalCause → Option PortCounter
  | .completion => some .framesOut
  | .undeliverable => some .undeliverable
  | .window => some .windowDrops
  | .unreachable => some .unreachable
  | .withdrawn => none

/-- A counter that advances, if there is one. -/
def State.countPortOpt (s : State) (p : Port) : Option PortCounter → State
  | some c => s.countPort p c
  | none => s

/-- The report a removal makes to the Transaction Table (R55). -/
def State.reportRemoval (s : State) (p : Port) (t : TxIx) : RemovalCause → State
  | .completion => s.reportCompleted t p
  | .undeliverable => s.reportRemoved t .undeliverable
  | .window => s.reportRemoved t .window
  | .unreachable => s.reportRemoved t .contained
  | .withdrawn => s

/-- Removal, with its effects in the order of R55: out of the queue, the buffer reference, the
counter, the report, the word to the Management Unit. -/
def State.remove (s : State) (p : Port) (e : QueueEntry) (cause : RemovalCause) : State :=
  let s := ((s.dequeue p e).release e.buffer).countPortOpt p cause.counter
  let s := match e.link with
    | some t => s.reportRemoval p t cause
    | none => s
  s.toldDeparture e

/-- Removes, one after another in queue order, the entries of queue `p` that `doomed` selects, at most `n` (R55). -/
def removeAll (p : Port) (doomed : QueueEntry → Bool) (cause : RemovalCause) : Nat → State → State
  | 0, s => s
  | n + 1, s =>
    match (s.queue p).find? doomed with
    | some e => removeAll p doomed cause n (s.remove p e cause)
    | none => s

/-- The purge of containment and disabling: every entry, as UNREACHABLE (R31, R33). -/
def State.purgeUnreachable (s : State) (p : Port) : State :=
  removeAll p (fun _ => true) .unreachable (s.queue p).length s

/-- Whether a disposition refuses an entry. -/
def QueueEntry.refusedBy (e : QueueEntry) (d : Disposition) : Bool := !d.admits e.rank e.origin

/-- The window purge of queue `p` under its present disposition (R56): a refused entry in
transmission takes pending removal WINDOW unless it holds WITHDRAWN, every other refused entry goes. -/
def State.purgeWindow (s : State) (p : Port) : State :=
  let d := s.disposition p
  let mark (e : QueueEntry) : QueueEntry :=
    if e.inTx && e.refusedBy d && e.pendingRemoval.isNone then { e with pendingRemoval := some .window } else e
  let s := s.setQueue p ((s.queue p).map mark)
  removeAll p (fun e => !e.inTx && e.refusedBy d) .window (s.queue p).length s

/-- The withdrawal of the copies linked to `t` in queue `p` (R57): one in transmission loses its link
and takes pending removal WITHDRAWN, every other is removed with no counter and no report. -/
def State.withdrawFrom (s : State) (t : TxIx) (p : Port) : State :=
  let unlink (e : QueueEntry) : QueueEntry :=
    if e.inTx && e.link == some t then { e with link := none, pendingRemoval := some .withdrawn } else e
  let s := s.setQueue p ((s.queue p).map unlink)
  removeAll p (fun e => e.link == some t) .withdrawn (s.queue p).length s

/-- The four ports in ascending order. -/
def allPorts : List Port := List.finRange 4

/-- A withdrawal in every queue, ports ascending (R57, log 15). -/
def State.withdraw (s : State) (t : TxIx) : State := allPorts.foldl (fun s p => s.withdrawFrom t p) s

/-! ### The Alert Unit (R189 to R192) -/

/-- The characters of an alert notice (R192). -/
def alertNoticeChars (own recipient : Byte) (cause : AlertCause) (pending : AlertSet) : List Byte :=
  generatedChars recipient own 0 .notice [alertNoticeCode, byteOf cause.code, pending.setWidth 8]

/-- The alert notice for a cause that has just entered the pending set (R190, R192). -/
def State.alertNotice (s : State) (cause : AlertCause) : State :=
  let recipient := s.params.alertRecipient
  if recipient = 0 then s
  else
    match (s.station recipient).state.home with
    | some p => s.sendNotice p (alertNoticeChars s.params.ownAddress recipient cause s.pendingAlerts)
    | none => s.count .noticesLost

/-- An alert cause is raised (R189): one not yet pending enters the set and, unless masked, drives the
pin (a pulse in PULSE mode, R191) and then produces its notice (R190). -/
def State.raise (s : State) (cause : AlertCause) : State :=
  if s.pendingAlerts &&& cause.mask != 0 then s
  else
    let masked := s.params.alertMask &&& cause.mask != 0
    let s := { s with pendingAlerts := s.pendingAlerts ||| cause.mask }
    if masked then s
    else
      let s := match s.params.alertMode with
        | .pulse => { s with pulse := some 10 }
        | .latched => s
      s.alertNotice cause

end Sys2Proof.Machine
end

