-- ==== Sys2Proof/Machine/Windows.lean ====
section
/-! DEFINITION. Traffic windows: the weekday of a date, when an entry is active, and the evaluation of the dispositions (R133, R147 to R153). -/

namespace Sys2Proof.Machine

/-- A leap year of the calendar's range (R133). -/
def isLeap (year : Nat) : Bool := year % 4 == 0

/-- The length of a month (R133). -/
def monthLength (year month : Nat) : Nat :=
  match month with
  | 2 => if isLeap year then 29 else 28
  | 4 | 6 | 9 | 11 => 30
  | _ => 31

/-- Days from 2000-01-01 to the first of January of a year: 365 a year and one for each leap year before it. -/
def daysToYear (year : Nat) : Nat := (year - 2000) * 365 + (year - 2000 + 3) / 4

/-- Days from 2000-01-01 to a date (R133). -/
def dayNumber (d : DateTime) : Nat :=
  daysToYear d.year + ((List.range (d.month - 1)).map fun m => monthLength d.year (m + 1)).sum + (d.day - 1)

/-- The weekday code of a date, 0 Sunday to 6 Saturday: 2000-01-01 is a Saturday (R133, 11.2). -/
def weekday (d : DateTime) : Nat := (dayNumber d + 6) % 7

/-- The weekday before (R148). -/
def previousWeekday (w : Nat) : Nat := (w + 6) % 7

/-- A time of day in minutes. -/
def TimeOfDay.minutes (t : TimeOfDay) : Nat := t.hour * 60 + t.minute

/-- The time of day of the calendar to the minute (R148). -/
def DateTime.minutes (d : DateTime) : Nat := d.hour * 60 + d.minute

/-- Whether an entry is active at a weekday and minute (R148). -/
def WindowEntry.active (w : WindowEntry) (day minute : Nat) : Bool :=
  let start := w.start.minutes
  let stop := w.stop.minutes
  w.enabled &&
    (if start < stop then w.days.getLsbD day && start ≤ minute && minute < stop
     else if stop < start then
       (w.days.getLsbD day && start ≤ minute) || (w.days.getLsbD (previousWeekday day) && minute < stop)
     else w.days.getLsbD day)

/-- The stricter of two dispositions (8.2). -/
def Disposition.stricter (a b : Disposition) : Disposition := if a.code < b.code then b else a

/-- The disposition an evaluation forms for segment `p` (R149). -/
def State.formDisposition (s : State) (p : Port) : Disposition :=
  if s.calendar.valid then
    s.windows.toList.foldl
      (fun d w =>
        if w.active (weekday s.calendar.now) s.calendar.now.minutes && w.segments.getLsbD p.val
        then d.stricter w.action else d)
      .opened
  else .opened

/-- All four dispositions formed anew. -/
def State.formDispositions (s : State) : Vector Disposition 4 :=
  #v[s.formDisposition 0, s.formDisposition 1, s.formDisposition 2, s.formDisposition 3]

/-- An evaluation (R152): every new disposition is recorded, and then the queue of each segment that
became stricter is purged, segments ascending. -/
def State.evaluate (s : State) : State :=
  let old := s.dispositions
  allPorts.foldl
    (fun s p => if (old.get p).code < (s.disposition p).code then s.purgeWindow p else s)
    { s with dispositions := s.formDispositions }

end Sys2Proof.Machine
end

