-- ==== Sys2Proof/Machine/Stations.lean ====
section
/-! DEFINITION. The Station Table: learning, aging, the AGE_LIMIT write and FLUSH LEARNED (R64 to R71). -/

namespace Sys2Proof.Machine

/-- What learning makes of a frame (R64): the frame goes on, or it is dropped. -/
inductive Learning
  | passed | dropped
  deriving DecidableEq, Repr

/-- Learning of a frame from `source` on segment `p`, the tests in the order of R64 (R65, R66). The
caller frees the buffer of a dropped frame at the end of its classification (R82). -/
def State.learn (s : State) (p : Port) (source : Byte) : Learning × State :=
  if source = s.params.ownAddress then
    (.dropped, (s.count .addressClash).raise .addressClash)
  else
    let e := s.station source
    match e.state with
    | .barred => (.dropped, s.count .barred)
    | .pinned home => if home = p then (.passed, s) else (.dropped, (s.count .misplaced).raise .misplaced)
    | .unknown => (.passed, s.setStation source { e with state := .learned p 0 })
    | .learned home _ =>
      let s := s.setStation source { e with state := .learned p 0 }
      (.passed, if home = p then s else s.count .stationMoves)

/-- One entry at a real minute tick (R69). -/
def StationEntry.aged (limit : Nat) (e : StationEntry) : StationEntry :=
  match e.state with
  | .learned home age =>
    if limit = 0 then { e with state := .learned home (if age < 254 then age + 1 else age) }
    else if age + 1 < limit then { e with state := .learned home (age + 1) }
    else { e with state := .unknown }
  | .unknown | .pinned _ | .barred => e

/-- Station aging at a real minute tick (R69). -/
def State.ageStations (s : State) : State :=
  { s with stations := s.stations.map (StationEntry.aged s.params.ageLimit) }

/-- One entry under a new AGE_LIMIT (R70). -/
def StationEntry.limited (limit : Nat) (e : StationEntry) : StationEntry :=
  match e.state with
  | .learned _ age => if limit ≠ 0 ∧ limit ≤ age then { e with state := .unknown } else e
  | .unknown | .pinned _ | .barred => e

/-- An accepted write of AGE_LIMIT (R70). -/
def State.writeAgeLimit (s : State) (limit : Nat) : State :=
  { s with
    params := { s.params with ageLimit := limit }
    stations := s.stations.map (StationEntry.limited limit) }

/-- One entry under FLUSH LEARNED (R71). -/
def StationEntry.flushed (e : StationEntry) : StationEntry :=
  match e.state with
  | .learned _ _ => { e with state := .unknown }
  | .unknown | .pinned _ | .barred => e

/-- FLUSH LEARNED (R71). -/
def State.flushLearned (s : State) : State := { s with stations := s.stations.map StationEntry.flushed }

end Sys2Proof.Machine
end

