-- ==== Sys2Proof/Machine/CalendarOps.lean ====
section
/-! DEFINITION. The calendar: its carries, ticks, staged time and the five commands' effects (R132 to R143). -/

namespace Sys2Proof.Machine

/-- A real date and time of the calendar's range (R133). -/
def DateTime.real (d : DateTime) : Bool :=
  2000 ≤ d.year && d.year ≤ 2099 && 1 ≤ d.month && d.month ≤ 12 &&
    1 ≤ d.day && d.day ≤ monthLength d.year d.month &&
    d.hour ≤ 23 && d.minute ≤ 59 && d.second ≤ 59

/-- The next day at the same time, with the carries of R134 into month and year. -/
def DateTime.nextDay (d : DateTime) : DateTime :=
  if d.day < monthLength d.year d.month then { d with day := d.day + 1 }
  else if d.month < 12 then { d with day := 1, month := d.month + 1 }
  else if d.year < 2099 then { d with day := 1, month := 1, year := d.year + 1 }
  else { d with day := 1, month := 1, year := 2000 }

/-- The next minute, its second 0: the carry of a real minute tick (R134, R141). -/
def DateTime.nextMinute (d : DateTime) : DateTime :=
  if d.minute < 59 then { d with minute := d.minute + 1, second := 0 }
  else if d.hour < 23 then { d with hour := d.hour + 1, minute := 0, second := 0 }
  else DateTime.nextDay { d with hour := 0, minute := 0, second := 0 }

/-- The date and time set, the calendar's other items as they were. -/
def State.setNow (s : State) (d : DateTime) : State :=
  { s with calendar := { s.calendar with now := d } }

/-- The sub-second phase becomes 0, at the beginning of a crystal period: the next second tick, if the calendar runs,
comes exactly one second later (R137, R141, R143, R144, log 5). -/
def State.zeroPhase (s : State) : State :=
  { s with calendar := { s.calendar with phase := 0 }, crystalCount := 0 }

/-- A real minute tick's one event for its two consumers: aging and evaluation (R135). -/
def State.minuteTick (s : State) : State := s.ageStations.evaluate

/-- A set time is applied (R137, R140): the fields, VALID on, phase 0, nothing staged, and an evaluation. -/
def State.applyTime (s : State) (d : DateTime) : State :=
  State.evaluate
    { s.zeroPhase with
      calendar := { s.calendar with now := d, valid := true, phase := 0 }
      staged := none }

/-- The calendar advances one second with main power absent: no consumer hears of it (R132). -/
def State.advanceUnpowered (s : State) : State :=
  let d := s.calendar.now
  (s.setNow (if d.second < 59 then { d with second := d.second + 1 } else d.nextMinute)).zeroPhase

/-- A second tick (R134, R137): the staged time is applied, or the calendar advances one second, a
carry into the minutes being a real minute tick. -/
def State.secondTickPowered (s : State) : State :=
  match s.staged with
  | some d => s.applyTime d
  | none =>
    let d := s.calendar.now
    let s := s.zeroPhase
    if d.second < 59 then s.setNow { d with second := d.second + 1 }
    else (s.setNow d.nextMinute).minuteTick

/-- The second tick in either supply state; none occurs while HOLD is on (R136) or in a backup domain
that has lost its contents (R132). -/
def State.secondTick (s : State) : State :=
  if s.calendar.hold || s.backupLost then s
  else if s.powered then s.secondTickPowered
  else s.advanceUnpowered

/-- A TIME SET that passed its tests (R140). -/
def State.timeSet (s : State) (d : DateTime) : State :=
  if s.calendar.hold then s.applyTime d else { s with staged := some d }

/-- A TIME ROUND with nothing staged (R141): on a running calendar the next second tick comes one second after it. -/
def State.timeRound (s : State) : State :=
  let d := s.calendar.now
  let s := s.zeroPhase
  if 30 ≤ d.second then (s.setNow d.nextMinute).minuteTick else s.setNow { d with second := 0 }

/-- TIME HOLD (R142). -/
def State.timeHold (s : State) : State :=
  let s := match s.staged with
    | some d => s.applyTime d
    | none => s
  { s with calendar := { s.calendar with hold := true } }

/-- TIME RUN (R143): the next second tick comes exactly one second after it. -/
def State.timeRun (s : State) : State :=
  { s.zeroPhase with calendar := { s.calendar with hold := false, phase := 0 } }

end Sys2Proof.Machine
end

