-- ==== Sys2Proof/Machine/Transactions.lean ====
section
/-! DEFINITION. Transaction Tracking: tracked requests, retries, answers, lapse and grace, and ports leaving service (chapter 6). -/

namespace Sys2Proof.Machine

/-- The 32 indices in ascending order. -/
def allTx : List TxIx := List.finRange 32

/-- The fields of an entry that is not FREE. -/
def TxEntry.core : TxEntry → Option TxCore
  | .free => none
  | .opened c _ _ => some c
  | .lapsed c _ _ => some c

def TxEntry.isOpen : TxEntry → Bool
  | .opened _ _ _ => true
  | .free | .lapsed _ _ _ => false

def TxEntry.isLapsed : TxEntry → Bool
  | .lapsed _ _ _ => true
  | .free | .opened _ _ _ => false

def TxEntry.isFree : TxEntry → Bool
  | .free => true
  | .opened _ _ _ | .lapsed _ _ _ => false

/-- The entry that is not FREE and holds a key (R107); at most one does (R105). -/
def State.findKey (s : State) (k : TxKey) : Option TxIx :=
  allTx.find? fun t => ((s.tx t).core.map (·.key)) == some k

/-- The OPEN entries of a requester (R108). -/
def State.openCount (s : State) (requester : Byte) : Nat :=
  (allTx.filter fun t => (s.tx t).isOpen && ((s.tx t).core.map (·.key.requester)) == some requester).length

/-- The lapse stamp of an entry, if it is LAPSED. -/
def TxEntry.stamp : TxEntry → Option Nat
  | .lapsed _ n _ => some n
  | .free | .opened _ _ _ => none

/-- The LAPSED entry with the smallest stamp (R109). -/
def State.oldestLapsed (s : State) : Option TxIx :=
  allTx.foldl
    (fun best t =>
      match (s.tx t).stamp, best with
      | none, _ => best
      | some _, none => some t
      | some n, some b => if n < ((s.tx b).stamp.getD 0) then some t else best)
    none

/-- The entry a new request is given (R109): the lowest FREE one, else the oldest LAPSED one. -/
def State.allocate (s : State) : Option TxIx :=
  match allTx.find? fun t => (s.tx t).isFree with
  | some t => some t
  | none => s.oldestLapsed

/-- A tracked request as the engine hands it over (R100). -/
structure Tracked where
  key : TxKey
  segment : Port
  targets : List Port
  known : Bool
  rank : Rank
  buffer : BufferIx
  deriving DecidableEq, Repr

/-- Admission of one forwarded entry per target, in the order given (R54): the verdicts and the state.
A FORWARDED class-rank entry displaces nothing (R53). -/
def admitEach (e : NewEntry) : List Port → State → List Verdict × State
  | [], s => ([], s)
  | p :: ps, s =>
    match s.requestAdmission p e with
    | (v, s) =>
      match admitEach e ps s with
      | (vs, s) => (v :: vs, s)

/-- How many of the requests were admitted. -/
def admittedCount (vs : List Verdict) : Nat := (vs.filter Verdict.isAdmitted).length

/-- The notice cause of a refusal at the lowest-numbered target (R111). -/
def refusalNotice : List Verdict → NoticeCause
  | .unreachable :: _ => .contained
  | .window :: _ => .window
  | _ => .undeliverable

/-- A request dropped with a notice to its requester on the arrival segment. -/
def State.refuse (s : State) (r : Tracked) (cause : NoticeCause) : State :=
  (s.notify r.segment r.key cause).settleBuffer r.buffer 0

/-- A request at the requester limit (R108). -/
def State.refuseAtLimit (s : State) (r : Tracked) : State :=
  (s.count .requesterLimit).refuse r .requesterLimit

/-- A request that opens an entry (R108 to R111). -/
def State.openRequest (s : State) (r : Tracked) : State :=
  if s.params.maxOutstanding ≤ s.openCount r.key.requester then s.refuseAtLimit r
  else
    match s.allocate with
    | none => ((s.count .tableFull).raise .tableFull).refuse r .tableFull
    | some t =>
      let s := s.setTx t .free
      match admitEach ⟨r.buffer, r.rank, .forwarded, some t⟩ r.targets s with
      | (vs, s) =>
        if admittedCount vs = 0 then s.refuse r (refusalNotice vs)
        else
          let core : TxCore := ⟨r.key, r.segment, if r.known then r.targets.head? else none, 0⟩
          ((s.setTx t (.opened core (admittedCount vs) none)).count .txOpened).settleBuffer r.buffer (admittedCount vs)

/-- Every segment but one, ascending. -/
def segmentsExcept (p : Port) : List Port := allPorts.filter (· != p)

/-- The targets of a retry (R116). -/
def retryTargets (core : TxCore) (r : Tracked) : List Port :=
  match core.responderSegment with
  | some q => if q = r.segment then r.targets else [q]
  | none => segmentsExcept r.segment

/-- A retry sent afresh (R116 to R119): the entry's retries rise, its requester segment is the retry's,
and copies are requested; with none admitted it becomes FREE and the requester is told. -/
def State.sendAfresh (s : State) (t : TxIx) (core : TxCore) (r : Tracked) : State :=
  let core := { core with requesterSegment := r.segment, retries := min 255 (core.retries + 1) }
  match admitEach ⟨r.buffer, r.rank, .forwarded, some t⟩ (retryTargets core r) s with
  | (vs, s) =>
    if admittedCount vs = 0 then (s.setTx t .free).refuse r (refusalNotice vs)
    else (s.setTx t (.opened core (admittedCount vs) none)).settleBuffer r.buffer (admittedCount vs)

/-- A tracked request reaches the table (R107). -/
def State.track (s : State) (r : Tracked) : State :=
  match s.findKey r.key with
  | none => s.openRequest r
  | some t =>
    match s.tx t with
    | .opened _ _ none => (s.count .duplicates).settleBuffer r.buffer 0
    | .opened core _ (some _) => (s.withdraw t).sendAfresh t core r
    | .lapsed core _ _ =>
      if s.params.maxOutstanding ≤ s.openCount r.key.requester then s.refuseAtLimit r
      else s.sendAfresh t core r
    | .free => s.openRequest r

/-- An answer that closed an entry is forwarded by the recorded requester segment, or was heard there (R121). -/
def State.forwardAnswer (s : State) (p requesterSegment : Port) (b : BufferIx) : State :=
  if requesterSegment = p then s.settleBuffer b 0
  else
    match s.requestAdmission requesterSegment ⟨b, .express, .forwarded, none⟩ with
    | (.admitted, s) => s.settleBuffer b 1
    | (.unreachable, s) | (.window, s) | (.queueFull, s) => s.settleBuffer b 0

/-- A REPLY or RESULT handed to matching (R89, R120 to R122). -/
def State.answer (s : State) (p : Port) (key : TxKey) (b : BufferIx) : State :=
  match s.findKey key with
  | none => (s.count .unsolicited).settleBuffer b 0
  | some t =>
    match s.tx t with
    | .opened core _ _ =>
      (((s.withdraw t).setTx t .free).count .txAnswered).forwardAnswer p core.requesterSegment b
    | .lapsed _ _ _ => (s.count .lateReplies).settleBuffer b 0
    | .free => (s.count .unsolicited).settleBuffer b 0

/-- Entry `t` becomes LAPSED with the next lapse stamp and the grace in force (R123). -/
def State.setLapsed (s : State) (t : TxIx) (core : TxCore) : State :=
  { s.setTx t (.lapsed core s.nextLapse s.params.lapseGrace) with nextLapse := s.nextLapse + 1 }

/-- With LAPSE_GRACE 0 an entry that has just lapsed is FREE in the same event (R123). -/
def State.freeWithoutGrace (s : State) (t : TxIx) : State :=
  if s.params.lapseGrace = 0 then s.setTx t .free else s

/-- The deadline of an OPEN entry expires (R123); an entry without a running deadline has none to expire. -/
def State.lapse (s : State) (t : TxIx) : State :=
  match s.tx t with
  | .opened core _ (some _) =>
    (((((s.withdraw t).setLapsed t core).count .txLapsed).notify core.requesterSegment core.key .noAnswer)).freeWithoutGrace t
  | .opened _ _ none | .free | .lapsed _ _ _ => s

/-- The grace of a LAPSED entry expires (R124). -/
def State.endGrace (s : State) (t : TxIx) : State :=
  match s.tx t with
  | .lapsed _ _ _ => s.setTx t .free
  | .free | .opened _ _ _ => s

/-- One OPEN entry when port `p` leaves service (R125). -/
def State.closeFor (s : State) (p : Port) (t : TxIx) : State :=
  match s.tx t with
  | .opened core _ deadline =>
    if core.requesterSegment = p then (s.withdraw t).setTx t .free
    else
      match deadline with
      | some d =>
        if core.responderSegment = some p ∨ d.segment = p then
          ((s.withdraw t).setTx t .free).notify core.requesterSegment core.key .contained
        else s
      | none => s
  | .free | .lapsed _ _ _ => s

/-- A port has left service: the OPEN entries that rely on it close, in ascending index order (R125). -/
def State.portLeft (s : State) (p : Port) : State := allTx.foldl (fun s t => s.closeFor p t) s

end Sys2Proof.Machine
end

