-- ==== Sys2Proof/Machine/PortControl.lean ====
section
/-! DEFINITION. Port control: starting a transmission, the echo check, backoff, guard, containment, enabling and disabling (chapter 2). -/

namespace Sys2Proof.Machine

/-! ### The line as a port watches it -/

/-- The line of a port that begins watching afresh (R35): an idle line begins its idle stretch now,
and what was under way on any other is not decoded (R1). -/
def LineState.afresh : LineState → LineState
  | .idle _ => .idle 0
  | .startLevel => .startLevel
  | .character | .undecoded => .undecoded

/-- The line of a port whose receiver stops decoding (R3). -/
def LineState.ignored : LineState → LineState
  | .idle n => .idle n
  | .startLevel => .startLevel
  | .character | .undecoded => .undecoded

/-- A port enters a monitored state from one in which the jabber monitor was stopped: the busy span
starts from zero (R30). -/
def State.enterMonitored (s : State) (p : Port) (st : PortState) : State :=
  s.updPort p fun u => { u with state := st, busySpan := 0 }

/-- A port enters LISTEN from DISABLED or CONTAINED and resumes the line (R30, R34, R35). -/
def State.resume (s : State) (p : Port) : State :=
  s.updPort p fun u =>
    { u with state := .listen, busySpan := 0, line := u.line.afresh, startHold := .oneCt }

/-- A port leaves service for state `st`, its receiver ignoring the line (R3). -/
def State.leaveService (s : State) (p : Port) (st : PortState) : State :=
  s.updPort p fun u => { u with state := st, line := u.line.ignored }

/-- The present idle stretch, if there is one, has reached at least `n` CLK periods (log 2); the busy span
stands at zero once the stretch is 2 ct or longer (R30). -/
def PortUnit.reachQuiet (n : Nat) (u : PortUnit) : PortUnit :=
  match u.line with
  | .idle len =>
    { u with
      line := .idle (max len n)
      busySpan := if u.params.baud.ct 2 ≤ max len n then 0 else u.busySpan }
  | .character | .undecoded | .startLevel => u

/-- The same of port `p`. -/
def State.reachQuiet (s : State) (p : Port) (n : Nat) : State := s.updPort p (PortUnit.reachQuiet n)

/-- Whether an idle stretch is present on the line of port `p` (R2). -/
def State.lineIdle (s : State) (p : Port) : Bool := (s.port p).line.idleStretch.isSome

/-- `n` ct of port `p` in CLK periods. -/
def State.ct (s : State) (p : Port) (n : Nat) : Nat := (s.port p).params.baud.ct n

/-! ### Starting a transmission (R21, R22) -/

/-- The start condition (R21). -/
def State.canStart (s : State) (p : Port) : Bool :=
  (s.port p).state == .listen && !(s.queue p).isEmpty && (s.port p).line.quietFor (s.ct p (s.port p).params.quiet)

/-- The port selects the first entry in queue order, marks it and enters SENDING (R22, R20). DESIGN CHOICE:
R20 asserts the direction line before the first start bit and does not say how long; the first character
begins in the same CLK period (log 32). -/
def State.startSending (s : State) (p : Port) : State :=
  s.updPort p fun u =>
    match u.queue with
    | [] => u
    | e :: rest => { u with queue := { e with inTx := true } :: rest, state := .sending 0 0 }

/-- The start condition tested at one port. -/
def State.testStart (s : State) (p : Port) : State := if s.canStart p then s.startSending p else s

/-- The start condition tested at every port, ascending: at the end of each event (R21, log 6). -/
def State.testStarts (s : State) : State := allPorts.foldl State.testStart s

/-! ### The echo check (R24 to R28) -/

/-- The entry with a stamp changed by `f`. -/
def State.updEntry (s : State) (p : Port) (stamp : Nat) (f : QueueEntry → QueueEntry) : State :=
  s.setQueue p ((s.queue p).map fun e => if e.stamp == stamp then f e else e)

/-- Whether an entry is or was a copy of a tracked request: it carries a link, or lost it to a
withdrawal (R28, R57). -/
def QueueEntry.trackedCopy (e : QueueEntry) : Bool :=
  e.link.isSome || e.pendingRemoval == some .withdrawn

/-- The state after a completed transmission (R28, R29). -/
def PortUnit.afterCompletion (u : PortUnit) (e : QueueEntry) : PortState :=
  if e.trackedCopy && 0 < u.params.guard then .guard (u.params.baud.ct u.params.guard) else .listen

/-- The last character is read back correctly (R28). -/
def State.complete (s : State) (p : Port) (e : QueueEntry) : State :=
  (s.remove p e .completion).enterMonitored p ((s.port p).afterCompletion e)

/-- The backoff length in ct (R26). -/
def backoffLength (quiet attempts : Nat) (own : Byte) : Nat := quiet + attempts * (1 + own.toNat % 8) * 2

/-- The attempt limit (R25): the entry is removed as UNDELIVERABLE, or stays without a pending removal. -/
def State.settleAttempts (s : State) (p : Port) (e : QueueEntry) : State :=
  if (s.port p).params.attempts ≤ e.attempts then s.remove p e .undeliverable
  else s.updEntry p e.stamp fun x => { x with pendingRemoval := none }

/-- The fate of an entry whose attempt ended in a collision, `e` as the collision left it (R25, R58). -/
def State.settleCollided (s : State) (p : Port) (e : QueueEntry) : State :=
  match e.pendingRemoval with
  | some .withdrawn => s.remove p e .withdrawn
  | some .window => if e.refusedBy (s.disposition p) then s.remove p e .window else s.settleAttempts p e
  | none => s.settleAttempts p e

/-- An entry as a collision leaves it (R25). -/
def QueueEntry.collided (e : QueueEntry) : QueueEntry := { e with attempts := e.attempts + 1, inTx := false }

/-- A collision (R25): counted, the entry unmarked with one attempt more, BACKOFF, the entry's fate. -/
def State.collide (s : State) (p : Port) (e : QueueEntry) : State :=
  ((((s.countPort p .collisions).updEntry p e.stamp QueueEntry.collided).enterMonitored p
    (.backoff (backoffLength (s.port p).params.quiet (e.attempts + 1) s.params.ownAddress)))).settleCollided p e.collided

/-- The character the transmitter sent in position `pos` (R23, R24). -/
def sentCharacter (chars : List Byte) (pos : Nat) : LineCharacter := .good (chars.getD pos 0) (pos == 0)

/-- A character read back in SENDING (R24): correct and last completes, correct lets the transmitter
go on, anything else is a collision. -/
def State.echo (s : State) (p : Port) (pos elapsed : Nat) (c : LineCharacter) : State :=
  match inTransmission (s.queue p) with
  | none => s
  | some e =>
    if c = sentCharacter (s.chars e.buffer) pos then
      if (s.chars e.buffer).length ≤ pos + 1 then s.complete p e
      else s.setPortState p (.sending (pos + 1) elapsed)
    else s.collide p e

/-- No character has been read back in time (R24). -/
def State.missEcho (s : State) (p : Port) : State :=
  match (s.port p).state, inTransmission (s.queue p) with
  | .sending _ _, some e => s.collide p e
  | .sending _ _, none => s
  | .disabled, _ | .listen, _ | .receiving _, _ | .backoff _, _ | .guard _, _ | .contained _, _ => s

/-! ### Containment, disabling, enabling (R31 to R34) -/

/-- A reception in progress is discarded: its buffer goes back to the pool (R19). The caller changes the state. -/
def State.discardReception (s : State) (p : Port) : State :=
  match (s.port p).state with
  | .receiving r => s.freeUp r.buffer
  | .disabled | .listen | .sending _ _ | .backoff _ | .guard _ | .contained _ => s

/-- The port is contained (R31). -/
def State.contain (s : State) (p : Port) : State :=
  (((((s.discardReception p).leaveService p (.contained (s.port p).params.containPeriod)).purgeUnreachable p).portLeft p).countPort
    p .containments).raise .containment

/-- A transmission in progress is aborted: its entry goes as UNREACHABLE, the attempt uncounted (R33). -/
def State.abortTransmission (s : State) (p : Port) : State :=
  match (s.port p).state, inTransmission (s.queue p) with
  | .sending _ _, some e => s.remove p e .unreachable
  | .sending _ _, none => s
  | .disabled, _ | .listen, _ | .receiving _, _ | .backoff _, _ | .guard _, _ | .contained _, _ => s

/-- The port is disabled (R33); one already in DISABLED stays as it is. -/
def State.disable (s : State) (p : Port) : State :=
  match (s.port p).state with
  | .disabled => s
  | .listen | .receiving _ | .sending _ _ | .backoff _ | .guard _ | .contained _ =>
    ((((s.discardReception p).abortTransmission p).leaveService p .disabled).purgeUnreachable p).portLeft p

/-- PORT_ENABLE set on: a port in DISABLED enters LISTEN, any other stays as it is (R34). -/
def State.enable (s : State) (p : Port) : State :=
  match (s.port p).state with
  | .disabled => s.resume p
  | .listen | .receiving _ | .sending _ _ | .backoff _ | .guard _ | .contained _ => s

/-- The parameters of port `p` changed by `f`. -/
def State.updPortParams (s : State) (p : Port) (f : PortParams → PortParams) : State :=
  s.updPort p fun u => { u with params := f u.params }

/-- An accepted write of PORT_ENABLE (R33, R34). -/
def State.writePortEnable (s : State) (p : Port) (on : Bool) : State :=
  let t := s.updPortParams p fun q => { q with enable := on }
  if on then t.enable p else t.disable p

/-- An accepted write of BAUD to another rate (R37): the idle stretch begins again, and no start bit is
taken for 1 ct of the new rate. DESIGN CHOICE: R37 is silent on a character in progress on the line at that
moment; it is not decoded, as at a resume (log 31). -/
def State.writeBaud (s : State) (p : Port) (b : Baud) : State :=
  s.updPort p fun u =>
    { u with params := { u.params with baud := b }, line := u.line.afresh, startHold := .oneCt }

/-- An accepted write of JABBER_LIMIT (R38): a busy span already above it contains the port. -/
def State.writeJabberLimit (s : State) (p : Port) (limit : Nat) : State :=
  let t := s.updPortParams p fun q => { q with jabberLimit := limit }
  if (s.port p).state.monitored && limit < (s.port p).busySpan then t.contain p else t

end Sys2Proof.Machine
end

