-- ==== Sys2Proof/Machine/Records.lean ====
section
/-! DEFINITION. What managers read and write: table records, the status block, parameters, counters and calendar fields (chapters 9 and 11). -/

namespace Sys2Proof.Machine

/-! ### Arguments -/

/-- An argument character; one that is missing fails its test with BAD_VALUE (R165). -/
def argAt (args : List Byte) (i : Nat) : Except ResultCode Byte :=
  match args[i]? with
  | some b => .ok b
  | none => .error .badValue

/-- A test that names the result code of its failure. -/
def require (ok : Bool) (code : ResultCode) : Except ResultCode Unit := if ok then .ok () else .error code

/-- A value that a character or number must name. -/
def named {α : Type} (v : Option α) (code : ResultCode) : Except ResultCode α :=
  match v with
  | some a => .ok a
  | none => .error code

/-! ### Tables (R171, 11.3) -/

/-- The six tables of READ ENTRIES (11.2). -/
inductive TableName
  | station | group | window | manager | transaction | port
  deriving DecidableEq, Repr

def TableName.code : TableName → Byte
  | .station => 1
  | .group => 2
  | .window => 3
  | .manager => 4
  | .transaction => 5
  | .port => 6

/-- The table a code names (R197). -/
def tableOf (b : Byte) : Option TableName :=
  [TableName.station, .group, .window, .manager, .transaction, .port].find? (·.code == b)

/-- The first index of a table (R171). -/
def TableName.first : TableName → Nat
  | .station => 1
  | .group | .window | .manager | .transaction | .port => 0

/-- The last index of a table (R171). -/
def TableName.last : TableName → Nat
  | .station => 239
  | .group => 15
  | .window => 23
  | .manager => 3
  | .transaction => 31
  | .port => 3

/-- The characters of one read record (11.3). -/
def TableName.recordSize : TableName → Nat
  | .station => 5
  | .group => 2
  | .window => 9
  | .manager => 4
  | .transaction => 15
  | .port => 5

def StationState.code : StationState → Byte
  | .unknown => 0
  | .learned _ _ => 1
  | .pinned _ => 2
  | .barred => 3

def StationState.age : StationState → Option Nat
  | .learned _ age => some age
  | .unknown | .pinned _ | .barred => none

/-- A STATION record (R74, R198). -/
def stationRecord (address : Byte) (e : StationEntry) : List Byte :=
  [address, e.state.code, optPort e.state.home, optByte e.state.age, e.ceiling.setWidth 8]

/-- A WINDOW record (R155). -/
def windowRecord (index : Byte) (w : WindowEntry) : List Byte :=
  [index, boolCode w.enabled, w.days.setWidth 8, bcd w.start.hour, bcd w.start.minute,
    bcd w.stop.hour, bcd w.stop.minute, w.segments.setWidth 8, byteOf w.action.code]

/-- A MANAGER record (R169, R198): the cached result is not returned. -/
def managerRecord (index : Byte) (m : Option ManagerRecord) : List Byte :=
  match m with
  | none => [index, 0, 0, absent]
  | some r =>
    match r.last with
    | none => [index, r.address, 0, absent]
    | some c => [index, r.address, 1, c.sequence]

/-- A two-character optional number in a record (R198). -/
def optTwoBytes : Option Nat → List Byte
  | some n => twoBytes n
  | none => [absent, absent]

/-- The fields of a TRANSACTION record after its index (6.1, R198). -/
def txFields (state : Byte) (c : TxCore) (copies : Nat) (deadline : Option Deadline) (grace : Option Nat) : List Byte :=
  [state, c.key.exchange.code, c.key.requester, byteOf c.requesterSegment.val, c.key.responder,
    optPort c.responderSegment, c.key.tag, byteOf copies] ++
    optTwoBytes (deadline.map (·.remaining)) ++
    [optPort (deadline.map (·.segment)), byteOf c.retries] ++ optTwoBytes grace

/-- A TRANSACTION record: a FREE one has FFh in every character after its state (R198). -/
def txRecord (index : Byte) (e : TxEntry) : List Byte :=
  index ::
    match e with
    | .free => 0 :: List.replicate 13 absent
    | .opened c copies deadline => txFields 1 c copies deadline none
    | .lapsed c _ grace => txFields 2 c 0 none (some grace)

/-- A PORT record (R171): state, disposition, queue depth, free count. -/
def State.portRecord (s : State) (p : Port) : List Byte :=
  [byteOf p.val, (s.port p).state.code, byteOf (s.disposition p).code, byteOf (s.queue p).length, byteOf s.freeCount]

/-- The entry of a table of `n` at index `i`, inside its range. -/
def atIndex {α : Type} {n : Nat} (v : Vector α n) (i : Nat) (h : i < n) : α := v.get ⟨i, h⟩

/-- The record of table `t` at index `i`. -/
def State.record (s : State) (t : TableName) (i : Nat) : List Byte :=
  match t with
  | .station => stationRecord (byteOf i) (s.station (byteOf i))
  | .group => if h : i < 16 then [byteOf i, (atIndex s.groups i h).setWidth 8] else []
  | .window => if h : i < 24 then windowRecord (byteOf i) (atIndex s.windows i h) else []
  | .manager => if h : i < 4 then managerRecord (byteOf i) (atIndex s.managers i h) else []
  | .transaction => if h : i < 32 then txRecord (byteOf i) (atIndex s.transactions i h) else []
  | .port => if h : i < 4 then s.portRecord ⟨i, h⟩ else []

/-- How many records a read returns (R171): the least of the count asked, the entries to the table's
last index, and the whole records that fit in 60 characters. -/
def recordCount (t : TableName) (first count : Nat) : Nat :=
  min count (min (t.last - first + 1) (Config.maxResultData / t.recordSize))

/-- READ ENTRIES (R171): the records and their number. -/
def State.readEntries (s : State) (args : List Byte) : Except ResultCode (Nat × List Byte) := do
  let t ← named (tableOf (← argAt args 0)) .badTable
  let first := (← argAt args 1).toNat
  require (t.first ≤ first && first ≤ t.last) .badIndex
  let count := (← argAt args 2).toNat
  let n := recordCount t first count
  return (n, ((List.range n).map fun k => s.record t (first + k)).flatten)

/-! ### Writes (R73, R77, R154, R169, R172) -/

/-- A STATION write, its record after the table code (R73). -/
def State.writeStation (s : State) (args : List Byte) : Except ResultCode State := do
  let address ← argAt args 1
  require (isStation address) .badIndex
  let state ← argAt args 2
  require (state == 0 || state == 2 || state == 3) .badValue
  let ceiling ← argAt args 4
  require (ceiling.toNat ≤ 3) .badValue
  let segment ← argAt args 3
  let written ←
    if state == 2 then (named (portOf segment) .badValue).map StationState.pinned
    else Except.ok (if state == 3 then StationState.barred else StationState.unknown)
  return s.setStation address ⟨written, ceiling.setWidth 2⟩

/-- A mask character with no bit beyond segments 0 to 3 (R77, R197). -/
def isSegmentMask (b : Byte) : Bool := b.toNat < 16

/-- A GROUP write (R77). -/
def State.writeGroup (s : State) (args : List Byte) : Except ResultCode State := do
  let index ← argAt args 1
  if h : index.toNat < 16 then
    let mask ← argAt args 2
    require (isSegmentMask mask) .badValue
    return { s with groups := s.groups.set index.toNat (mask.setWidth 4) h }
  else .error .badIndex

/-- A number in BCD no greater than `most` (R154, R199). -/
def bcdUpTo (b : Byte) (most : Nat) : Except ResultCode Nat := do
  let n ← named (ofBcd b) .badValue
  require (n ≤ most) .badValue
  return n

/-- A WINDOW write: the entry replaced, and an evaluation (R154). -/
def State.writeWindow (s : State) (args : List Byte) : Except ResultCode State := do
  let index ← argAt args 1
  if h : index.toNat < 24 then
    let enabled ← argAt args 2
    require (enabled == 0 || enabled == 1) .badValue
    let days ← argAt args 3
    require (days.toNat < 128) .badValue
    let startHour ← bcdUpTo (← argAt args 4) 23
    let startMinute ← bcdUpTo (← argAt args 5) 59
    let stopHour ← bcdUpTo (← argAt args 6) 23
    let stopMinute ← bcdUpTo (← argAt args 7) 59
    let mask ← argAt args 8
    require (isSegmentMask mask) .badValue
    let action ← named (actionOfCode (← argAt args 9)) .badValue
    let entry : WindowEntry :=
      ⟨enabled == 1, days.setWidth 7, ⟨startHour, startMinute⟩, ⟨stopHour, stopMinute⟩, mask.setWidth 4, action⟩
    return State.evaluate { s with windows := s.windows.set index.toNat entry h }
  else .error .badIndex

/-- The manager slots in ascending order. -/
def allSlots : List (Fin 4) := List.finRange 4

/-- Whether slot `i` holds address `a`. -/
def State.slotHolds (s : State) (a : Byte) (i : Fin 4) : Bool := (s.managers.get i).map (·.address) == some a

/-- Slot `i` of the manager table replaced. -/
def State.setSlot (s : State) (i : Fin 4) (m : Option ManagerRecord) : State :=
  { s with managers := s.managers.set i.val m i.isLt }

/-- A MANAGER write: address 0 empties the slot; last sequence and cached result go (R169). -/
def State.writeManager (s : State) (args : List Byte) : Except ResultCode State := do
  let index ← argAt args 1
  if h : index.toNat < 4 then
    let address ← argAt args 2
    require (address == 0 || isStation address) .badValue
    require (address == 0 || !allSlots.any fun i => i.val != index.toNat && s.slotHolds address i) .badValue
    return s.setSlot ⟨index.toNat, h⟩ (if address == 0 then none else some ⟨address, none⟩)
  else .error .badIndex

/-- WRITE ENTRY (R172). -/
def State.writeEntry (s : State) (args : List Byte) : Except ResultCode State := do
  match tableOf (← argAt args 0) with
  | some .station => s.writeStation args
  | some .group => s.writeGroup args
  | some .window => s.writeWindow args
  | some .manager => s.writeManager args
  | some .transaction | some .port | none => .error .badTable

/-! ### Parameters (R36, R173, R174, 11.2) -/

/-- The per-port parameters (11.2). -/
inductive PortParam
  | enable | baud | quiet | guard | attempts | jabberLimit | containPeriod | replyTimeout | mgmtAccept
  deriving DecidableEq, Repr

/-- The coupler parameters (11.2). -/
inductive CouplerParam
  | ownAddress | forwarding | unknownPolicy | ageLimit | reserve | maxOutstanding | lapseGrace
  | alertMode | alertMask | alertRecipient
  deriving DecidableEq, Repr

/-- What a parameter identifier names. -/
inductive ParamName
  | ofPort (q : PortParam)
  | ofCoupler (q : CouplerParam)
  deriving DecidableEq, Repr

/-- The parameter an identifier names (R173, R197). -/
def paramOf (b : Byte) : Option ParamName :=
  match b.toNat with
  | 0x01 => some (.ofPort .enable)
  | 0x02 => some (.ofPort .baud)
  | 0x03 => some (.ofPort .quiet)
  | 0x04 => some (.ofPort .guard)
  | 0x05 => some (.ofPort .attempts)
  | 0x06 => some (.ofPort .jabberLimit)
  | 0x07 => some (.ofPort .containPeriod)
  | 0x08 => some (.ofPort .replyTimeout)
  | 0x09 => some (.ofPort .mgmtAccept)
  | 0x10 => some (.ofCoupler .ownAddress)
  | 0x11 => some (.ofCoupler .forwarding)
  | 0x12 => some (.ofCoupler .unknownPolicy)
  | 0x13 => some (.ofCoupler .ageLimit)
  | 0x14 => some (.ofCoupler .reserve)
  | 0x15 => some (.ofCoupler .maxOutstanding)
  | 0x16 => some (.ofCoupler .lapseGrace)
  | 0x17 => some (.ofCoupler .alertMode)
  | 0x18 => some (.ofCoupler .alertMask)
  | 0x19 => some (.ofCoupler .alertRecipient)
  | _ => none

def boolNumber (b : Bool) : Nat := if b then 1 else 0

/-- The number a per-port parameter is read as (11.2). -/
def PortParams.read (u : PortParams) : PortParam → Nat
  | .enable => boolNumber u.enable
  | .baud => u.baud.rate
  | .quiet => u.quiet
  | .guard => u.guard
  | .attempts => u.attempts
  | .jabberLimit => u.jabberLimit
  | .containPeriod => u.containPeriod
  | .replyTimeout => u.replyTimeout
  | .mgmtAccept => boolNumber u.mgmtAccept

/-- The number a coupler parameter is read as (11.2). -/
def CouplerParams.read (u : CouplerParams) : CouplerParam → Nat
  | .ownAddress => u.ownAddress.toNat
  | .forwarding => boolNumber u.forwarding
  | .unknownPolicy => match u.unknownPolicy with
    | .flood => 0
    | .drop => 1
  | .ageLimit => u.ageLimit
  | .reserve => u.reserve
  | .maxOutstanding => u.maxOutstanding
  | .lapseGrace => u.lapseGrace
  | .alertMode => match u.alertMode with
    | .pulse => 0
    | .latched => 1
  | .alertMask => u.alertMask.toNat
  | .alertRecipient => u.alertRecipient.toNat

/-- The range of a per-port parameter (R36). -/
def PortParam.inRange (v : Nat) : PortParam → Bool
  | .enable | .mgmtAccept => v ≤ 1
  | .baud => (Baud.ofRate v).isSome
  | .quiet => 2 ≤ v && v ≤ 15
  | .guard => v ≤ 255
  | .attempts => 1 ≤ v && v ≤ 15
  | .jabberLimit => 10 ≤ v && v ≤ 250
  | .containPeriod => 100 ≤ v && v ≤ 25500 && v % 100 == 0
  | .replyTimeout => 5 ≤ v && v ≤ 5000

/-- The range of a coupler parameter (R174). -/
def CouplerParam.inRange (v : Nat) : CouplerParam → Bool
  | .ownAddress => 1 ≤ v && v ≤ 239
  | .forwarding | .unknownPolicy | .alertMode => v ≤ 1
  | .ageLimit => v ≤ 255
  | .reserve => v ≤ 12
  | .maxOutstanding => 1 ≤ v && v ≤ 8
  | .lapseGrace => v ≤ 5000
  | .alertMask => v ≤ 127
  | .alertRecipient => v ≤ 239

/-- The coupler parameters changed by `f`. -/
def State.updParams (s : State) (f : CouplerParams → CouplerParams) : State := { s with params := f s.params }

/-- A write of ALERT_MODE that changes the mode discards a running pulse; the output then follows the
new mode (R191). -/
def State.writeAlertMode (s : State) (m : AlertMode) : State :=
  { s.updParams fun q => { q with alertMode := m } with pulse := none }

/-- The effect of a per-port write within range and to another value (R37, R38). -/
def State.applyPortParam (s : State) (p : Port) (v : Nat) : PortParam → State
  | .enable => s.writePortEnable p (v == 1)
  | .baud => match Baud.ofRate v with
    | some b => s.writeBaud p b
    | none => s
  | .quiet => s.updPortParams p fun q => { q with quiet := v }
  | .guard => s.updPortParams p fun q => { q with guard := v }
  | .attempts => s.updPortParams p fun q => { q with attempts := v }
  | .jabberLimit => s.writeJabberLimit p v
  | .containPeriod => s.updPortParams p fun q => { q with containPeriod := v }
  | .replyTimeout => s.updPortParams p fun q => { q with replyTimeout := v }
  | .mgmtAccept => s.updPortParams p fun q => { q with mgmtAccept := v == 1 }

/-- The effect of a coupler write within range and to another value (R174). -/
def State.applyCouplerParam (s : State) (v : Nat) : CouplerParam → State
  | .ownAddress => s.updParams fun q => { q with ownAddress := byteOf v }
  | .forwarding => s.updParams fun q => { q with forwarding := v == 1 }
  | .unknownPolicy => s.updParams fun q => { q with unknownPolicy := if v == 0 then .flood else .drop }
  | .ageLimit => s.writeAgeLimit v
  | .reserve => s.updParams fun q => { q with reserve := v }
  | .maxOutstanding => s.updParams fun q => { q with maxOutstanding := v }
  | .lapseGrace => s.updParams fun q => { q with lapseGrace := v }
  | .alertMode => s.writeAlertMode (if v == 0 then .pulse else .latched)
  | .alertMask => s.updParams fun q => { q with alertMask := BitVec.ofNat 7 v }
  | .alertRecipient => s.updParams fun q => { q with alertRecipient := byteOf v }

/-- Whether BAUD may be written now: only in LISTEN and DISABLED (R37). -/
def PortState.takesBaud : PortState → Bool
  | .listen | .disabled => true
  | .receiving _ | .sending _ _ | .backoff _ | .guard _ | .contained _ => false

/-- A per-port write (R173): range, the BUSY condition of BAUD, and the effect; the value already held
changes nothing (log 20). -/
def State.setPortParam (s : State) (q : PortParam) (p : Port) (v : Nat) : Except ResultCode State := do
  require (q.inRange v) .badValue
  require (q != .baud || (s.port p).state.takesBaud) .busy
  return if (s.port p).params.read q == v then s else s.applyPortParam p v q

/-- A coupler write (R173, R174). -/
def State.setCouplerParam (s : State) (q : CouplerParam) (v : Nat) : Except ResultCode State := do
  require (q.inRange v) .badValue
  return if s.params.read q == v then s else s.applyCouplerParam v q

/-- The four value characters of a SET PARAM (R197). -/
def valueArg (args : List Byte) : Except ResultCode Nat := do
  return numberOf (← argAt args 2) (← argAt args 3) (← argAt args 4) (← argAt args 5)

/-- SET PARAM (R173). -/
def State.setParam (s : State) (args : List Byte) : Except ResultCode State := do
  let q ← named (paramOf (← argAt args 0)) .badIndex
  let port ← argAt args 1
  match q with
  | .ofPort q =>
    let p ← named (portOf port) .badIndex
    s.setPortParam q p (← valueArg args)
  | .ofCoupler q => s.setCouplerParam q (← valueArg args)

/-- GET PARAM (R173). -/
def State.getParam (s : State) (args : List Byte) : Except ResultCode (List Byte) := do
  let q ← named (paramOf (← argAt args 0)) .badIndex
  let port ← argAt args 1
  match q with
  | .ofPort q =>
    let p ← named (portOf port) .badIndex
    return fourBytes (BitVec.ofNat 32 ((s.port p).params.read q))
  | .ofCoupler q => return fourBytes (BitVec.ofNat 32 (s.params.read q))

/-! ### Counters (R176, R187) -/

/-- A scope of READ COUNTERS. -/
inductive Scope
  | port (p : Port)
  | coupler1
  | coupler2
  deriving DecidableEq, Repr

def scopeOf (b : Byte) : Option Scope :=
  match portOf b with
  | some p => some (.port p)
  | none => if b.toNat = 4 then some .coupler1 else if b.toNat = 5 then some .coupler2 else none

/-- The 11 values of a scope in order. -/
def State.scopeValues (s : State) : Scope → List Count
  | .port p => (s.port p).counters.toList
  | .coupler1 => s.counters.toList.take 11
  | .coupler2 => s.counters.toList.drop 11

/-- The counters of a coupler scope set to 0, the others kept (R187). -/
def clearedHalf (v : Vector Count 22) (first : Bool) : Vector Count 22 :=
  Vector.ofFn fun i : Fin 22 => if decide (i.val < 11) == first then 0 else v.get i

/-- Exactly the counters of a scope set to 0 (R187). -/
def State.clearScope (s : State) : Scope → State
  | .port p => s.updPort p fun u => { u with counters := Vector.replicate 11 0 }
  | .coupler1 => { s with counters := clearedHalf s.counters true }
  | .coupler2 => { s with counters := clearedHalf s.counters false }

/-- READ COUNTERS (R176): the 44 characters and the state after the read. -/
def State.readCounters (s : State) (args : List Byte) : Except ResultCode (List Byte × State) := do
  let scope ← named (scopeOf (← argAt args 0)) .badIndex
  let flag ← argAt args 1
  require (flag == 0 || flag == 1) .badValue
  return (((s.scopeValues scope).map fourBytes).flatten, if flag == 1 then s.clearScope scope else s)

/-! ### Status, calendar, alerts, restart -/

/-- Three flags in bits 0 to 2 of a character (11.4). -/
def flagByte (b0 b1 b2 : Bool) : Byte := byteOf (boolNumber b0 + 2 * boolNumber b1 + 4 * boolNumber b2)

/-- The number of entries of the Transaction Table that `f` selects. -/
def State.countTx (s : State) (f : TxEntry → Bool) : Nat := (allTx.filter fun t => f (s.tx t)).length

/-- The status block (R170, 11.4). -/
def State.statusBlock (s : State) : List Byte :=
  [s.resetCause.code, flagByte s.calendar.valid s.calendar.hold s.params.forwarding, byteOf s.freeCount,
    byteOf (s.countTx TxEntry.isOpen), byteOf (s.countTx TxEntry.isLapsed)] ++
    (allPorts.map fun p => (s.port p).state.code) ++
    (allPorts.map fun p => byteOf (s.disposition p).code) ++
    [s.pendingAlerts.setWidth 8, s.params.ownAddress]

/-- The TIME READ record (R138, 11.4). -/
def State.timeRecord (s : State) : List Byte :=
  let d := s.calendar.now
  [bcd (d.year - 2000), bcd d.month, bcd d.day, bcd d.hour, bcd d.minute, bcd d.second,
    byteOf (weekday d), flagByte s.calendar.valid s.calendar.hold s.staged.isSome]

/-- The tests of TIME SET (R139, R199). -/
def timeArg (args : List Byte) : Except ResultCode DateTime := do
  let year ← named (ofBcd (← argAt args 0)) .badValue
  let month ← named (ofBcd (← argAt args 1)) .badValue
  let day ← named (ofBcd (← argAt args 2)) .badValue
  let hour ← named (ofBcd (← argAt args 3)) .badValue
  let minute ← named (ofBcd (← argAt args 4)) .badValue
  let second ← named (ofBcd (← argAt args 5)) .badValue
  let d : DateTime := ⟨2000 + year, month, day, hour, minute, second⟩
  require d.real .badValue
  return d

/-- CLEAR ALERT (R177, R193). -/
def State.clearAlert (s : State) (args : List Byte) : Except ResultCode State := do
  let causes ← argAt args 0
  require (causes.toNat < 128) .badValue
  return { s with pendingAlerts := s.pendingAlerts &&& ~~~ (causes.setWidth 7) }

/-- The kind a RESTART names (R178, 11.2). -/
def restartKindOf (b : Byte) : Option RestartKind :=
  if b = 1 then some .warm else if b = 2 then some .full else none

/-- RESTART: the unit enters RESTART PENDING (R178). -/
def State.restartCommand (s : State) (room : BufferIx) (args : List Byte) : Except ResultCode State := do
  let kind ← named (restartKindOf (← argAt args 0)) .badValue
  return { s with restart := some ⟨kind, room, false⟩ }

end Sys2Proof.Machine
end

