-- ==== Sys2Proof/Machine/Management.lean ====
section
/-! DEFINITION. The Management Unit: admission, sequence handling, execution and results of commands (R161 to R178). -/

namespace Sys2Proof.Machine

/-- What execution answers: the result code, the number of records, the data (R168). -/
structure CommandResult where
  code : ResultCode
  records : Nat
  data : List Byte
  deriving DecidableEq, Repr

/-- A command that only reads: DONE with data, or its refusal; the state as it was. -/
def answerRead (s : State) : Except ResultCode (Nat × List Byte) → CommandResult × State
  | .ok (n, data) => (⟨.done, n, data⟩, s)
  | .error code => (⟨code, 0, []⟩, s)

/-- A command that only acts: DONE and the new state, or its refusal and the state as it was. -/
def answerWrite (s : State) : Except ResultCode State → CommandResult × State
  | .ok t => (⟨.done, 0, []⟩, t)
  | .error code => (⟨code, 0, []⟩, s)

/-- READ COUNTERS does both in one act (R187). -/
def answerCounters (s : State) : Except ResultCode (List Byte × State) → CommandResult × State
  | .ok (data, t) => (⟨.done, 0, data⟩, t)
  | .error code => (⟨code, 0, []⟩, s)

/-- The execution of a command (9.6), `room` being the buffer of its result. -/
def State.executeCommand (s : State) (room : BufferIx) (args : List Byte) : CommandCode → CommandResult × State
  | .status => answerRead s (.ok (0, s.statusBlock))
  | .readEntries => answerRead s (s.readEntries args)
  | .writeEntry => answerWrite s (s.writeEntry args)
  | .getParam => answerRead s ((s.getParam args).map fun d => (0, d))
  | .setParam => answerWrite s (s.setParam args)
  | .readCounters => answerCounters s (s.readCounters args)
  | .timeRead => answerRead s (.ok (0, s.timeRecord))
  | .timeSet => answerWrite s ((timeArg args).map s.timeSet)
  | .timeRound => answerWrite s (if s.staged.isSome then .error .busy else .ok s.timeRound)
  | .timeHold => answerWrite s (.ok s.timeHold)
  | .timeRun => answerWrite s (.ok s.timeRun)
  | .clearAlert => answerWrite s (s.clearAlert args)
  | .flushLearned => answerWrite s (.ok s.flushLearned)
  | .restart => answerWrite s (s.restartCommand room args)

/-- The command code of a request payload as received, 0 where it is missing (R165, log 16). -/
def headerCode (payload : List Byte) : Byte := payload.getD 0 0

/-- The sequence of a request payload as received, 0 where it is missing. -/
def headerSequence (payload : List Byte) : Byte := payload.getD 1 0

/-- A result payload: the header that echoes the command, then the data (R168). -/
def resultPayload (payload : List Byte) (r : CommandResult) : List Byte :=
  [headerCode payload, headerSequence payload, r.code.code, byteOf r.records] ++ r.data

/-- The characters of a RESULT frame (R168); `own` is the address in force when the command's
classification began. -/
def resultChars (own : Byte) (f : FrameView) (payload : List Byte) : List Byte :=
  generatedChars f.source own f.tag .result payload

/-- Contents written to the secured room while the result's entry still stands in the queue (R164). A
command that disables its own arrival port has purged it (R33), and its buffer may hold another frame. -/
def State.fillRoom (s : State) (p : Port) (room : BufferIx) (chars : List Byte) : State :=
  if (s.queue p).any fun e => e.buffer == room && e.origin == .generated then s.setChars room chars else s

/-- Whether the manager table denies a source (R163). -/
def State.denies (s : State) (source : Byte) : Bool :=
  (allSlots.any fun i => (s.managers.get i).isSome) && !allSlots.any (s.slotHolds source)

/-- The slot that holds an address. -/
def State.slotOf (s : State) (a : Byte) : Option (Fin 4) := allSlots.find? (s.slotHolds a)

/-- The cached result a repeated sequence is answered with (R166). -/
def State.cachedFor (s : State) (source sequence : Byte) : Option (List Byte) :=
  match s.slotOf source with
  | some i =>
    match (s.managers.get i).bind (·.last) with
    | some c => if c.sequence = sequence then some c.payload else none
    | none => none
  | none => none

/-- The sequence and result stored in the source's slot, if one holds it after execution (R167). -/
def State.storeResult (s : State) (source sequence : Byte) (payload : List Byte) : State :=
  match s.slotOf source with
  | some i => s.setSlot i (some ⟨source, some ⟨sequence, payload⟩⟩)
  | none => s

/-- A command that is denied (R163): counted, the cause raised, and the DENIED result produced or counted as lost. -/
def State.deny (s : State) (p : Port) (f : FrameView) : State :=
  match ((s.count .mgmtDenied).raise .denied).generate p
      (resultChars s.params.ownAddress f (resultPayload f.payload ⟨.denied, 0, []⟩)) with
  | (some _, t) => t
  | (none, t) => t.count .mgmtNoRoom

/-- Execution and its answer (R167): MGMT_EXECUTED advances at the end, the result is stored and sent. -/
def State.execute (s : State) (p : Port) (f : FrameView) (own : Byte) (room : BufferIx) (c : CommandCode) : State :=
  match s.executeCommand room (f.payload.drop 2) c with
  | (r, t) =>
    ((t.count .mgmtExecuted).storeResult f.source (headerSequence f.payload) (resultPayload f.payload r)).fillRoom
      p room (resultChars own f (resultPayload f.payload r))

/-- The command a request payload names: two header characters and one of the fourteen codes (R165). -/
def requestedCommand (payload : List Byte) : Option CommandCode :=
  if payload.length < 2 then none else commandOf (headerCode payload)

/-- A command with its room secured (R161, steps 4 to 7). -/
def State.judge (s : State) (p : Port) (f : FrameView) (own : Byte) (room : BufferIx) : State :=
  if s.restart.isSome then
    s.fillRoom p room (resultChars own f (resultPayload f.payload ⟨.busy, 0, []⟩))
  else
    match requestedCommand f.payload with
    | none => s.fillRoom p room (resultChars own f (resultPayload f.payload ⟨.unknownCommand, 0, []⟩))
    | some c =>
      match s.cachedFor f.source (headerSequence f.payload) with
      | some payload => s.fillRoom p room (resultChars own f payload)
      | none => s.execute p f own room c

/-- A MANAGE frame handed to the Management Unit (R161): port acceptance, the manager check, room for
the result, and then the command itself. -/
def State.manage (s : State) (p : Port) (f : FrameView) : State :=
  if (s.port p).params.mgmtAccept then
    if s.denies f.source then s.deny p f
    else
      match s.generate p [] with
      | (none, t) => t.count .mgmtNoRoom
      | (some room, t) => t.judge p f s.params.ownAddress room
  else s.count .mgmtRefused

end Sys2Proof.Machine
end

