-- ==== Sys2Proof/Machine/Forwarding.lean ====
section
/-! DEFINITION. The Forwarding Engine: the classification of a received frame (chapter 5). -/

namespace Sys2Proof.Machine

/-- The outcome of destination resolution (R90 to R92): a target set with the responder's segment known
or not, or the cause that leaves the frame without one. -/
inductive Resolution
  | targets (segments : List Port) (known : Bool)
  | localFiltered
  | noRoute
  | barred
  deriving DecidableEq, Repr

/-- The four destination classes (R83). -/
inductive DestClass
  | own | broadcast | group (index : Fin 16) | station
  deriving DecidableEq, Repr

/-- The destination class of an address under an own address (R83). -/
def destClass (own d : Byte) : DestClass :=
  if d = own then .own
  else if d = 0 then .broadcast
  else if h : 240 ≤ d.toNat then .group ⟨d.toNat - 240, by omega⟩
  else .station

/-- Resolution of a station destination through its entry (R92). -/
def State.resolveStation (s : State) (p : Port) (d : Byte) : Resolution :=
  match (s.station d).state with
  | .learned home _ | .pinned home => if home = p then .localFiltered else .targets [home] true
  | .barred => .barred
  | .unknown =>
    match s.params.unknownPolicy with
    | .flood => .targets (segmentsExcept p) false
    | .drop => .noRoute

/-- Destination resolution of a frame that arrived on segment `p` (R90 to R92). -/
def State.resolve (s : State) (p : Port) (d : Byte) : DestClass → Resolution
  | .broadcast => .targets (segmentsExcept p) false
  | .group g =>
    match (SegmentMask.segments (s.groups.get g)).filter (· != p) with
    | [] => .noRoute
    | q :: qs => .targets (q :: qs) false
  | .station | .own => s.resolveStation p d

/-- The rank of a forwarded frame: the lower of its class and its source's ceiling (R68, R98). -/
def State.rankOf (s : State) (f : FrameView) : Rank :=
  let m := (s.station f.source).ceiling
  Rank.ofClass (if f.cls ≤ m then f.cls else m)

/-- The key of a request (R100). -/
def requestKey (f : FrameView) : TxKey := ⟨f.source, f.dest, f.tag, f.kind.exchange⟩

/-- The key an answer would match (R89). -/
def answerKey (f : FrameView) : TxKey := ⟨f.dest, f.source, f.tag, f.kind.exchange⟩

/-- The two kinds that open an exchange. -/
def Kind.isRequest : Kind → Bool
  | .request | .manage => true
  | .datagram | .reply | .notice | .result => false

/-- A frame dropped for want of a route (R95): a REQUEST or MANAGE to a station is answered NOTICE
NO_ROUTE on its arrival segment (R96). -/
def State.dropUnrouted (s : State) (p : Port) (f : FrameView) (c : DestClass) (b : BufferIx)
    (counter : CouplerCounter) : State :=
  let t := s.count counter
  let t := if f.kind.isRequest && c == .station then t.notify p (requestKey f) .noRoute else t
  t.settleBuffer b 0

/-- The reserve test drops the frame (R48, R97). -/
def State.dropPoolLow (s : State) (b : BufferIx) : State :=
  ((s.count .poolLow).raise .poolExhausted).settleBuffer b 0

/-- Whether a frame is subject to the reserve test and fails it (R48, R97). -/
def State.belowReserve (s : State) (k : Kind) : Bool :=
  k != .notice && s.freeCount < s.params.reserve

/-- Untracked enqueueing (R99). -/
def State.enqueueUntracked (s : State) (f : FrameView) (b : BufferIx) (segments : List Port) : State :=
  match admitEach ⟨b, s.rankOf f, .forwarded, none⟩ segments s with
  | (vs, t) => t.settleBuffer b (admittedCount vs)

/-- Placement (R99, R100): tracked for a request to a station, untracked for every other frame. -/
def State.place (s : State) (p : Port) (f : FrameView) (c : DestClass) (b : BufferIx)
    (segments : List Port) (known : Bool) : State :=
  if f.kind.isRequest && c == .station then
    s.track ⟨requestKey f, p, segments, known, s.rankOf f, b⟩
  else s.enqueueUntracked f b segments

/-- Stages 5 to 7 for DATAGRAM, REQUEST, MANAGE and NOTICE (R81). -/
def State.forward (s : State) (p : Port) (f : FrameView) (c : DestClass) (b : BufferIx) : State :=
  match s.resolve p f.dest c with
  | .localFiltered => (s.count .localFiltered).settleBuffer b 0
  | .noRoute => s.dropUnrouted p f c b .noRoute
  | .barred => s.dropUnrouted p f c b .barred
  | .targets segments known =>
    if s.belowReserve f.kind then s.dropPoolLow b else s.place p f c b segments known

/-- A frame for the own address (R84 to R86). -/
def State.ownFrame (s : State) (p : Port) (f : FrameView) (b : BufferIx) : State :=
  match f.kind with
  | .manage => (s.manage p f).settleBuffer b 0
  | .reply | .result => (s.count .unsolicited).settleBuffer b 0
  | .datagram | .request | .notice => (s.countPort p .formatErrors).settleBuffer b 0

/-- Stages 2 to 7 of a frame that learning let through (R81). -/
def State.classifyLearned (s : State) (p : Port) (f : FrameView) (b : BufferIx) : State :=
  match destClass s.params.ownAddress f.dest with
  | .own => s.ownFrame p f b
  | .broadcast | .group _ | .station =>
    if s.params.forwarding then
      match f.kind with
      | .reply | .result => s.answer p (answerKey f) b
      | .datagram | .request | .manage | .notice =>
        s.forward p f (destClass s.params.ownAddress f.dest) b
    else (s.count .forwardingOff).settleBuffer b 0

/-- The classification event of a frame in buffer `b` received on segment `p` (R81). -/
def State.classify (s : State) (p : Port) (f : FrameView) (b : BufferIx) : State :=
  match s.learn p f.source with
  | (.dropped, t) => t.settleBuffer b 0
  | (.passed, t) => t.classifyLearned p f b

end Sys2Proof.Machine
end

