-- ==== Sys2Proof/Machine/Reception.lean ====
section
/-! DEFINITION. The port receiver: characters, frame assembly, completion checks and the ways a frame is abandoned (chapter 1). -/

namespace Sys2Proof.Machine

/-- The line after a character (R1, R2): a stop bit leaves it at the idle level, a missing one at the start level.
DESIGN CHOICE: R1 receives a character when its stop position is sampled, R2 begins the idle stretch at the end of the
stop bit, and the spec gives no time between the two; the model takes none (log 33). -/
def lineAfter : LineCharacter → LineState
  | .good _ _ => .idle 0
  | .framingError => .startLevel

/-- What the receiver waits for after a character it decoded (R1). -/
def holdAfter : LineCharacter → StartHold
  | .good _ _ => .ready
  | .framingError => .oneBit

/-- Whether the receiver decodes a character on a line that stands so (R1): not while the line is held at
the start level, nor one whose start bit it did not take. -/
def LineState.decodable : LineState → Bool
  | .idle _ | .character => true
  | .undecoded | .startLevel => false

/-- A frame in progress is abandoned (R12): its buffer is freed, the port enters LISTEN, one counter advances. -/
def State.abandon (s : State) (p : Port) (b : BufferIx) (c : PortCounter) : State :=
  ((s.freeUp b).setPortState p .listen).countPort p c

/-- A frame that passed its checks (R18): counted, the context emptied with the port in LISTEN (log 7),
and classified in the same event. -/
def State.received (s : State) (p : Port) (b : BufferIx) (k : Kind) : State :=
  ((s.countPort p .framesIn).setPortState p .listen).classify p (viewFrame (s.chars b) k) b

/-- The completion checks in their order (R17) on a frame of `n` characters whose running check is `check`. -/
def State.completeReception (s : State) (p : Port) (b : BufferIx) (n : Nat) (check : Check) : State :=
  let cs := s.chars b
  if check = checkValue (cs.getD (n - 2) 0) (cs.getD (n - 1) 0) then
    if isStation (cs.getD 1 0) then
      match kindOf (cs.getD 2 0) with
      | some k => s.received p b k
      | none => s.abandon p b .formatErrors
    else s.abandon p b .formatErrors
  else s.abandon p b .checkErrors

/-- The expected length once the character in position `n` is stored (R11). -/
def expectedAfter (r : Reception) (n : Nat) (v : Byte) : Option Nat :=
  if n = 5 then some (7 + v.toNat) else r.expected

/-- Whether the character in position `n` enters the running check: positions 1 to 5 + L (R11). -/
def entersCheck (expected : Option Nat) (n : Nat) : Bool :=
  match expected with
  | some len => n + 2 ≤ len
  | none => true

/-- A data character stored in the frame in progress (R11, R13). -/
def State.storeCharacter (s : State) (p : Port) (r : Reception) (v : Byte) : State :=
  let n := r.held + 1
  let expected := expectedAfter r n v
  let check := if entersCheck expected n then checkByte r.check v else r.check
  let t := s.setChars r.buffer (s.chars r.buffer ++ [v])
  if n = 5 ∧ Config.maxPayload < v.toNat then t.abandon p r.buffer .formatErrors
  else if expected = some n then t.completeReception p r.buffer n check
  else t.setPortState p (.receiving ⟨r.buffer, n, expected, check⟩)

/-- The context of a frame that holds its address character alone (R8, R14). -/
def firstCharacter (b : BufferIx) (v : Byte) : Reception := ⟨b, 1, none, checkByte checkStart v⟩

/-- An address character starts a frame, or finds no buffer (R8, R9). -/
def State.startFrame (s : State) (p : Port) (v : Byte) : State :=
  match s.freeList with
  | [] => ((s.countPort p .noBuffer).setPortState p .listen).raise .poolExhausted
  | b :: rest =>
    (({ s with freeList := rest }).setBuffer b ⟨.reception p, [v]⟩).setPortState p (.receiving (firstCharacter b v))

/-- An address character ends the frame in progress as RESYNC and starts a new one in its buffer (R14). -/
def State.resync (s : State) (p : Port) (r : Reception) (v : Byte) : State :=
  ((s.setChars r.buffer [v]).countPort p .formatErrors).setPortState p (.receiving (firstCharacter r.buffer v))

/-- A character in RECEIVING (R11, R14, R15). -/
def State.assemble (s : State) (p : Port) (r : Reception) : LineCharacter → State
  | .good v true => s.resync p r v
  | .good v false => s.storeCharacter p r v
  | .framingError => s.abandon p r.buffer .formatErrors

/-- A character in LISTEN, GUARD or BACKOFF (R8, R10). -/
def State.offer (s : State) (p : Port) : LineCharacter → State
  | .good v true => s.startFrame p v
  | .good _ false | .framingError => s

/-- Where a decoded character goes, by the port state (R3). -/
def State.routeCharacter (s : State) (p : Port) (c : LineCharacter) : State :=
  match (s.port p).state with
  | .listen | .guard _ | .backoff _ => s.offer p c
  | .receiving r => s.assemble p r c
  | .sending pos elapsed => s.echo p pos elapsed c
  | .contained _ | .disabled => s

/-- The line of port `p` and what its receiver waits for, replaced. -/
def State.setLine (s : State) (p : Port) (l : LineState) (h : StartHold) : State :=
  s.updPort p fun u => { u with line := l, startHold := h }

/-- A character time on the line of port `p` ends (R1, R3). A character whose start bit the receiver did
not take, or one on a line that was never released from the start level, is not received (R1, R15, R35);
every other is, and carries its own start bit where no START_BIT went before it (log 11). DESIGN CHOICE: after a
character that was not received the idle level counts from the end of that character on, its own stop bit not counted
towards the 1 bit or 1 ct the receiver still waits for (log 33). -/
def State.receiveCharacter (s : State) (p : Port) (c : LineCharacter) : State :=
  if (s.port p).line.decodable then (s.setLine p (lineAfter c) (holdAfter c)).routeCharacter p c
  else s.setLine p (lineAfter c) (s.port p).startHold

/-- The idle stretch inside a frame passes 3 ct (R16); it cannot while a character is in progress. -/
def State.truncate (s : State) (p : Port) : State :=
  match (s.port p).state with
  | .receiving r =>
    if s.lineIdle p then (s.reachQuiet p (s.ct p 3 + 1)).abandon p r.buffer .formatErrors else s
  | .disabled | .listen | .sending _ _ | .backoff _ | .guard _ | .contained _ => s

/-- The CLK periods of idle level the receiver asks for before it takes a start bit (R1). -/
def StartHold.needed (b : Baud) : StartHold → Nat
  | .ready => 0
  | .oneBit => b.clkPerBit
  | .oneCt => b.ct 1

/-- The line returns to the idle level from the start level or from undecoded activity (R1, R2). -/
def LineState.released : LineState → LineState
  | .startLevel | .undecoded => .idle 0
  | .idle n => .idle n
  | .character => .character

/-- A start bit that no receiver takes: it ends the idle stretch (R2). -/
def LineState.disturbed : LineState → LineState
  | .idle _ | .undecoded => .undecoded
  | .character => .character
  | .startLevel => .startLevel

/-- A start bit on the line of a port (R1, R3, R35): it ends the idle stretch (R2), and the receiver
takes it when it watches the line and has waited long enough. -/
def PortUnit.startBit (u : PortUnit) : PortUnit :=
  match u.line with
  | .idle len =>
    if !u.state.outOfService && u.startHold.needed u.params.baud ≤ len then
      { u with line := .character, startHold := .ready }
    else { u with line := u.line.disturbed }
  | .character | .undecoded | .startLevel => u

/-- The line returns to the idle level as a port's receiver sees it. -/
def PortUnit.lineReturns (u : PortUnit) : PortUnit := { u with line := u.line.released }

/-- The idle stretch reaches 2 ct: the busy span returns to zero (R30). -/
def State.idleReaches2Ct (s : State) (p : Port) : State := s.reachQuiet p (s.ct p 2)

end Sys2Proof.Machine
end

