-- ==== Sys2Proof/Machine/Resets.lean ====
section
/-! DEFINITION. Resets, restarts and supplies (chapter 9.7, 9.8 and the reset rule of each chapter), and the end of every event. -/

namespace Sys2Proof.Machine

/-- A port at a reset (R39, R59): its transmission, reception, timers and queue are lost; it enters LISTEN
or DISABLED by PORT_ENABLE and watches its line afresh (R35). `params` and `counters` are as the
reset kind gives them. -/
def PortUnit.reset (u : PortUnit) (params : PortParams) (counters : Vector Count 11) : PortUnit where
  state := if params.enable then .listen else .disabled
  line := u.line.afresh
  startHold := .oneCt
  busySpan := 0
  params := params
  queue := []
  counters := counters

/-- What every reset kind does (R7, R39, R49, R59, R106, R137, R156, R180, R194), before its own kind
sets parameters, tables and counters: buffers, queues, transactions, staged time, pending set, pulse
and pending restart go; the dispositions become OPEN; the cause is recorded (R182). -/
def State.clearVolatile (s : State) (cause : ResetCause) : State :=
  { s with
    pool := Vector.replicate 48 freeBuffer
    freeList := fullFreeList
    nextStamp := 0
    transactions := Vector.replicate 32 .free
    nextLapse := 0
    dispositions := Vector.replicate 4 .opened
    staged := none
    pendingAlerts := 0
    pulse := none
    restart := none
    resetCause := cause }

/-- The ports at a reset that samples the straps: default parameters, counters 0 (R40, R188). -/
def State.resetPortsToDefaults (s : State) (straps : Straps) : State :=
  allPorts.foldl
    (fun s p => s.updPort p fun u => u.reset (defaultPortParams straps p) (Vector.replicate 11 0)) s

/-- The ports at a warm restart: parameters and counters kept (R40, R188). -/
def State.resetPortsKept (s : State) : State :=
  allPorts.foldl (fun s p => s.updPort p fun u => u.reset u.params u.counters) s

/-- What every reset but a warm restart gives the tables, parameters and counters (R63, R78, R156,
R174, R181, R183, R188). -/
def State.setDefaults (s : State) (straps : Straps) : State :=
  { s.resetPortsToDefaults straps with
    stations := Vector.replicate 239 unknownStation
    groups := Vector.replicate 16 fullMask
    windows := Vector.replicate 24 idleWindow
    managers := Vector.replicate 4 none
    params := defaultCouplerParams straps
    counters := Vector.replicate 22 0
    straps := straps }

/-- A reset that samples the straps (power start, pin reset, full restart, and the main domain of a
cold start), with the evaluation every reset causes (R156). -/
def State.resetToDefaults (s : State) (cause : ResetCause) (straps : Straps) : State :=
  ((s.clearVolatile cause).setDefaults straps).evaluate

/-- A manager record at a warm restart: its address stays, its last sequence and cached result go (R183). -/
def keepAddress (m : Option ManagerRecord) : Option ManagerRecord := m.map fun r => ⟨r.address, none⟩

/-- A warm restart (R179, R183): parameters, tables and counters are kept. -/
def State.resetWarm (s : State) : State :=
  let t := (s.clearVolatile .warm).resetPortsKept
  State.evaluate { t with managers := t.managers.map keepAddress }

/-- A cold start (R144, R194): the backup domain reset too, its first second tick one second later, and CALENDAR_LOST
raised last. -/
def State.resetCold (s : State) (straps : Straps) : State :=
  ((State.resetToDefaults
    { s with
      calendar := coldCalendar, crystalCount := 0, backupLost := false, backupSupply := true, powered := true } .cold
      straps)).raise .calendarLost

/-- A power-on (R132, R182): a cold start when the backup domain has lost its contents, as it has with VBAK
absent while main power was, else a power start. -/
def State.powerOn (s : State) (straps : Straps) : State :=
  if s.backupLost || !s.backupSupply then s.resetCold straps
  else State.resetToDefaults { s with powered := true } .power straps

/-- The kind of reset a pending restart becomes (R179): a full restart reads the straps (R181). -/
def State.takeRestart (s : State) : RestartKind → State
  | .warm => s.resetWarm
  | .full => s.resetToDefaults .full s.straps

/-- Whether a restart of a kind has fallen due: its result's entry has left its queue (R179). -/
def State.restartDue (s : State) (k : RestartKind) : Bool := s.restart.any fun r => r.kind == k && r.due

/-- A pending restart whose awaited entry has left its queue takes effect before anything else happens, the
event that removed the entry being complete (R59, R179, R185, log 8). -/
def State.restartFirst (s : State) : State :=
  match s.restart with
  | some r => if r.due && s.powered then s.takeRestart r.kind else s
  | none => s

/-- The end of every event: the start condition at every port (R21, log 6), unless a restart has fallen due,
which comes first and empties every queue (R59). -/
def State.settle (s : State) : State := if s.restart.any (·.due) then s else s.testStarts

/-- One whole event: a restart that fell due, the event's own effect, the end of the event. -/
def State.inEvent (s : State) (f : State → State) : State := (f s.restartFirst).settle

/-- An event on the line of port `p` with effect `f`: without main power nothing of it is received, and
the line itself moves as `level` says (R35, log 12). -/
def State.lineEvent (s : State) (p : Port) (f : State → State) (level : LineState → LineState) : State :=
  if s.powered then s.inEvent f else s.updPort p fun u => { u with line := level u.line }

/-- A character on the line of port `p`, one event. -/
def State.takeCharacter (p : Port) (s : State) (c : LineCharacter) : State :=
  s.lineEvent p (fun s => s.receiveCharacter p c) fun _ => lineAfter c

/-- A port without main power: nothing driven, nothing received (R132, log 12). -/
def PortUnit.unpowered (u : PortUnit) : PortUnit :=
  { u with state := .disabled, line := u.line.ignored, queue := [], busySpan := 0 }

/-- The backup domain loses its contents (R132): until the cold start that finds this, the calendar
stands at the values that start will give it (log 12). -/
def State.loseBackup (s : State) : State := { s with backupLost := true, calendar := coldCalendar }

/-- Main power is removed (R132): what the main domain held goes, and its outputs with it (log 12). The
backup domain keeps its contents from VBAK, and loses them where VBAK is absent too. -/
def State.losePower (s : State) : State :=
  let t := s.clearVolatile s.resetCause
  let t : State := { allPorts.foldl (fun s p => s.updPort p PortUnit.unpowered) t with powered := false }
  if t.backupSupply then t else t.loseBackup

/-- The outcome of a step of the part, which always goes on. -/
abbrev Result := Host.Outcome State Fault Refusal

/-- An event of the main domain: without main power nothing happens (R132). -/
def event (f : State → State) (s : State) : Result := .next (if s.powered then s.inEvent f else s)

/-- The outcome of a character row. -/
def characterEvent (p : Port) (c : LineCharacter) (s : State) : Result := .next (s.takeCharacter p c)

end Sys2Proof.Machine
end

