-- ==== Sys2Proof/Machine/Frames.lean ====
section
/-! DEFINITION. The meanings of the frame commands: a frame of each kind is received and classified (chapter 5). -/

namespace Sys2Proof.Machine

/-- The characters of a frame as the receiver decodes them: the address flag on the first alone (R4). -/
def lineCharacters : List Byte → List LineCharacter
  | [] => []
  | d :: rest => .good d true :: rest.map fun b => .good b false

/-- A frame arrives at port `p` with nothing between its characters (R4): each goes through the
receiver, and the last completes and classifies it in one event (R18, log 1). -/
def State.receiveFrame (s : State) (p : Port) (chars : List Byte) : State :=
  (lineCharacters chars).foldl (State.takeCharacter p) s

/-- A frame of kind `k` arrives at port `p`. -/
def frameEvent (p : Port) (f : Frame) (k : Kind) (s : State) : Result :=
  .next (s.receiveFrame p (framedChars f k))

/-- DATAGRAM (R99): learned, resolved, tested against the reserve, enqueued untracked or dropped. -/
def execDatagram (p : Port) (f : Frame) (s : State) : Result := frameEvent p f .datagram s

/-- REQUEST (R100): tracked when it is unicast across segments. -/
def execRequest (p : Port) (f : Frame) (s : State) : Result := frameEvent p f .request s

/-- REPLY (R89): learned and matched against the Transaction Table. -/
def execReply (p : Port) (f : Frame) (s : State) : Result := frameEvent p f .reply s

/-- NOTICE (R101): another coupler's notice, a datagram without the reserve test. -/
def execNotice (p : Port) (f : Frame) (s : State) : Result := frameEvent p f .notice s

/-- MANAGE (R84, R100): to the own address a command, to a station a tracked request. -/
def execManage (p : Port) (f : Frame) (s : State) : Result := frameEvent p f .manage s

/-- RESULT (R89): learned and matched like a REPLY. -/
def execResult (p : Port) (f : Frame) (s : State) : Result := frameEvent p f .result s

end Sys2Proof.Machine
end

