-- ==== Sys2Proof/Machine/Commands.lean ====
section
/-! DEFINITION. The meanings of the management commands: a MANAGE frame to the own address that carries each (chapter 9). -/

namespace Sys2Proof.Machine

/-- The payload of a command (R165): the request header and the arguments. -/
def commandPayload (c : CommandCode) (h : CommandHead) (args : List Byte) : List Byte :=
  [c.code, h.sequence] ++ args

/-- The MANAGE frame to the own address that carries a command (R84); its class plays no part (log 27). -/
def commandFrame (own : Byte) (c : CommandCode) (h : CommandHead) (args : List Byte) : Frame where
  dest := own
  source := h.source
  cls := 3
  unused := 0
  tag := h.tag
  payload := commandPayload c h args

/-- A command frame arrives at port `p`, for the own address as it stands once a restart that fell due has taken
effect (R179, log 8, log 27). -/
def commandEvent (p : Port) (c : CommandCode) (h : CommandHead) (args : List Byte) (s : State) : Result :=
  frameEvent p (commandFrame s.restartFirst.params.ownAddress c h args) .manage s

/-- The arguments of a READ ENTRIES (11.2). -/
def readArgs (t : TableName) (first count : Byte) : List Byte := [t.code, first, count]

/-- The arguments of a SET PARAM (11.2). -/
def setArgs (ident port : Byte) (value : BitVec 32) : List Byte := [ident, port] ++ fourBytes value

/-- STATUS (R170). -/
def execStatus (p : Port) (h : CommandHead) (s : State) : Result := commandEvent p .status h [] s

/-- READ ENTRIES of STATION (R74). -/
def execReadEntriesStation (p : Port) (h : CommandHead) (first count : Byte) (s : State) : Result :=
  commandEvent p .readEntries h (readArgs .station first count) s

/-- READ ENTRIES of GROUP (R77). -/
def execReadEntriesGroup (p : Port) (h : CommandHead) (first count : Byte) (s : State) : Result :=
  commandEvent p .readEntries h (readArgs .group first count) s

/-- READ ENTRIES of WINDOW (R155). -/
def execReadEntriesWindow (p : Port) (h : CommandHead) (first count : Byte) (s : State) : Result :=
  commandEvent p .readEntries h (readArgs .window first count) s

/-- READ ENTRIES of MANAGER (R169). -/
def execReadEntriesManager (p : Port) (h : CommandHead) (first count : Byte) (s : State) : Result :=
  commandEvent p .readEntries h (readArgs .manager first count) s

/-- READ ENTRIES of TRANSACTION (6.1, R104). -/
def execReadEntriesTransaction (p : Port) (h : CommandHead) (first count : Byte) (s : State) : Result :=
  commandEvent p .readEntries h (readArgs .transaction first count) s

/-- READ ENTRIES of PORT (R171). -/
def execReadEntriesPort (p : Port) (h : CommandHead) (first count : Byte) (s : State) : Result :=
  commandEvent p .readEntries h (readArgs .port first count) s

/-- WRITE ENTRY to STATION (R73). -/
def execWriteEntryStation (p : Port) (h : CommandHead) (address state segment ceiling : Byte) (s : State) : Result :=
  commandEvent p .writeEntry h [TableName.station.code, address, state, segment, ceiling] s

/-- WRITE ENTRY to GROUP (R77). -/
def execWriteEntryGroup (p : Port) (h : CommandHead) (index mask : Byte) (s : State) : Result :=
  commandEvent p .writeEntry h [TableName.group.code, index, mask] s

/-- The write record of a WINDOW write after its index (11.3). -/
def windowArgs (r : WindowRecord) : List Byte :=
  [r.enabled, r.dayMask, r.startHour, r.startMinute, r.endHour, r.endMinute, r.segmentMask, r.action]

/-- WRITE ENTRY to WINDOW (R154). -/
def execWriteEntryWindow (p : Port) (h : CommandHead) (index : Byte) (r : WindowRecord) (s : State) : Result :=
  commandEvent p .writeEntry h ([TableName.window.code, index] ++ windowArgs r) s

/-- WRITE ENTRY to MANAGER (R169). -/
def execWriteEntryManager (p : Port) (h : CommandHead) (index address : Byte) (s : State) : Result :=
  commandEvent p .writeEntry h [TableName.manager.code, index, address] s

/-- GET PARAM (R173). -/
def execGetParam (p : Port) (h : CommandHead) (ident port : Byte) (s : State) : Result :=
  commandEvent p .getParam h [ident, port] s

/-- SET PARAM of a parameter without a row of its own (R173). -/
def execSetParam (p : Port) (h : CommandHead) (ident port : Byte) (value : BitVec 32) (s : State) : Result :=
  commandEvent p .setParam h (setArgs ident port value) s

/-- SET PARAM of PORT_ENABLE (R33, R34). -/
def execSetParamPortEnable (p : Port) (h : CommandHead) (port : Byte) (value : BitVec 32) (s : State) : Result :=
  commandEvent p .setParam h (setArgs 0x01 port value) s

/-- SET PARAM of BAUD (R37). -/
def execSetParamBaud (p : Port) (h : CommandHead) (port : Byte) (value : BitVec 32) (s : State) : Result :=
  commandEvent p .setParam h (setArgs 0x02 port value) s

/-- SET PARAM of JABBER_LIMIT (R38). -/
def execSetParamJabberLimit (p : Port) (h : CommandHead) (port : Byte) (value : BitVec 32) (s : State) : Result :=
  commandEvent p .setParam h (setArgs 0x06 port value) s

/-- SET PARAM of AGE_LIMIT (R70). -/
def execSetParamAgeLimit (p : Port) (h : CommandHead) (port : Byte) (value : BitVec 32) (s : State) : Result :=
  commandEvent p .setParam h (setArgs 0x13 port value) s

/-- SET PARAM of OWN_ADDRESS (R175). -/
def execSetParamOwnAddress (p : Port) (h : CommandHead) (port : Byte) (value : BitVec 32) (s : State) : Result :=
  commandEvent p .setParam h (setArgs 0x10 port value) s

/-- SET PARAM of ALERT_MODE (R191). -/
def execSetParamAlertMode (p : Port) (h : CommandHead) (port : Byte) (value : BitVec 32) (s : State) : Result :=
  commandEvent p .setParam h (setArgs 0x17 port value) s

/-- SET PARAM of ALERT_MASK (R193). -/
def execSetParamAlertMask (p : Port) (h : CommandHead) (port : Byte) (value : BitVec 32) (s : State) : Result :=
  commandEvent p .setParam h (setArgs 0x18 port value) s

/-- READ COUNTERS, clear flag no (R176). -/
def execReadCounters (p : Port) (h : CommandHead) (scope : Byte) (s : State) : Result :=
  commandEvent p .readCounters h [scope, 0] s

/-- READ COUNTERS, clear flag yes (R187). -/
def execReadCountersClear (p : Port) (h : CommandHead) (scope : Byte) (s : State) : Result :=
  commandEvent p .readCounters h [scope, 1] s

/-- TIME READ (R138). -/
def execTimeRead (p : Port) (h : CommandHead) (s : State) : Result := commandEvent p .timeRead h [] s

/-- TIME SET (R139, R140). -/
def execTimeSet (p : Port) (h : CommandHead) (t : TimeRecord) (s : State) : Result :=
  commandEvent p .timeSet h [t.year, t.month, t.day, t.hour, t.minute, t.second] s

/-- TIME ROUND (R141). -/
def execTimeRound (p : Port) (h : CommandHead) (s : State) : Result := commandEvent p .timeRound h [] s

/-- TIME HOLD (R142). -/
def execTimeHold (p : Port) (h : CommandHead) (s : State) : Result := commandEvent p .timeHold h [] s

/-- TIME RUN (R143). -/
def execTimeRun (p : Port) (h : CommandHead) (s : State) : Result := commandEvent p .timeRun h [] s

/-- CLEAR ALERT (R177, R193). -/
def execClearAlert (p : Port) (h : CommandHead) (causes : Byte) (s : State) : Result :=
  commandEvent p .clearAlert h [causes] s

/-- FLUSH LEARNED (R71). -/
def execFlushLearned (p : Port) (h : CommandHead) (s : State) : Result := commandEvent p .flushLearned h [] s

/-- RESTART WARM (R178). -/
def execRestartWarm (p : Port) (h : CommandHead) (s : State) : Result := commandEvent p .restart h [1] s

/-- RESTART FULL (R178). -/
def execRestartFull (p : Port) (h : CommandHead) (s : State) : Result := commandEvent p .restart h [2] s

end Sys2Proof.Machine
end

