-- ==== Sys2Proof/Machine/LineEvents.lean ====
section
/-! DEFINITION. The meanings of the line commands: characters, start bits, idle stretches (chapters 1 and 2). -/

namespace Sys2Proof.Machine

/-- ADDRESS_CHARACTER (R8, R9, R14; in SENDING the echo check, R3). -/
def execAddressCharacter (p : Port) (value : Byte) (s : State) : Result :=
  characterEvent p (.good value true) s

/-- DATA_CHARACTER (R10, R11, R13, R17, R18). -/
def execDataCharacter (p : Port) (value : Byte) (s : State) : Result :=
  characterEvent p (.good value false) s

/-- FRAMING_ERROR_CHARACTER (R10, R15). -/
def execFramingErrorCharacter (p : Port) (s : State) : Result :=
  characterEvent p .framingError s

/-- TRUNCATED (R16). -/
def execTruncated (p : Port) (s : State) : Result := event (fun s => s.truncate p) s

/-- START_BIT (R1, R2, R16, R35). -/
def execStartBit (p : Port) (s : State) : Result :=
  .next (s.lineEvent p (fun s => s.updPort p PortUnit.startBit) LineState.disturbed)

/-- LINE_RETURNS_TO_IDLE (R1, R2, R35). -/
def execLineReturnsToIdle (p : Port) (s : State) : Result :=
  .next (s.lineEvent p (fun s => s.updPort p PortUnit.lineReturns) LineState.released)

/-- IDLE_STRETCH_REACHES_2_CT (R30). -/
def execIdleStretchReaches2Ct (p : Port) (s : State) : Result := event (fun s => s.idleReaches2Ct p) s

end Sys2Proof.Machine
end

