-- ==== Sys2Proof/Machine/Power.lean ====
section
/-! DEFINITION. The meanings of the reset and supply commands (00_scope.md Reset Kinds, R132, R144, R179 to R183, R194). -/

namespace Sys2Proof.Machine

/-- COLD_START (R144, R182, R194): power-on with the backup domain's contents lost. -/
def execColdStart (straps : Straps) (s : State) : Result := .next (s.resetCold straps).settle

/-- POWER_START (R182): power-on with the backup domain retained; one that has lost its contents is
found so, and the start is then a cold one (R132, log 12). -/
def execPowerStart (straps : Straps) (s : State) : Result := .next (s.powerOn straps).settle

/-- PIN_RESET (R182), assertion to release of RST as one event (log 13). -/
def execPinReset (straps : Straps) (s : State) : Result :=
  event (fun s => s.resetToDefaults .pin straps) s

/-- FULL_RESTART (R179): a pending RESTART FULL whose result entry has left its queue takes effect, the
straps read as given (R181); no other is there to take effect (log 8). -/
def execFullRestart (straps : Straps) (s : State) : Result :=
  event id (if s.powered && s.restartDue .full then { s with straps := straps } else s)

/-- WARM_RESTART (R179): a pending RESTART WARM whose result entry has left its queue takes effect; no
other is there to take effect (log 8). -/
def execWarmRestart (s : State) : Result := event id s

/-- MAIN_POWER_LOSS (R132, R185). -/
def execMainPowerLoss (s : State) : Result := .next (if s.powered then s.restartFirst.losePower else s)

/-- BACKUP_SUPPLY_LOSS (R132): VBAK is absent from now on (log 12). While VDD is present the backup domain is
supplied from it and loses nothing; with both absent it loses its contents. -/
def execBackupSupplyLoss (s : State) : Result :=
  let t : State := { s.restartFirst with backupSupply := false }
  .next (if t.powered then t else t.loseBackup)

end Sys2Proof.Machine
end

