-- ==== Sys2Proof/Machine/Timers.lean ====
section
/-! DEFINITION. The meanings of the timer commands: deadlines, grace, the second tick, the alert pulse. -/

namespace Sys2Proof.Machine

/-- DEADLINE_EXPIRY (R123). -/
def execDeadlineExpiry (t : TxIx) (s : State) : Result := event (fun s => s.lapse t) s

/-- GRACE_EXPIRY (R124). -/
def execGraceExpiry (t : TxIx) (s : State) : Result := event (fun s => s.endGrace t) s

/-- SECOND_TICK (R134, R135, R137): the backup domain counts without main power too (R132). -/
def execSecondTick (s : State) : Result :=
  if s.powered then .next (s.inEvent State.secondTick) else .next s.secondTick

/-- PULSE_END (R191). -/
def execPulseEnd (s : State) : Result := event (fun s => { s with pulse := none }) s

end Sys2Proof.Machine
end

