-- ==== Sys2Proof/Machine/Transmission.lean ====
section
/-! DEFINITION. The meanings of the transmission and containment commands (chapter 2). -/

namespace Sys2Proof.Machine

/-- The line of a port in LISTEN has been quiet for QUIET ct (R21); in any other state no transmission
starts, and a RECEIVING port's stretch is R16's (log 2, log 3). -/
def State.reachStart (s : State) (p : Port) : State :=
  match (s.port p).state with
  | .listen => s.reachQuiet p (s.ct p (s.port p).params.quiet)
  | .disabled | .receiving _ | .sending _ _ | .backoff _ | .guard _ | .contained _ => s

/-- START_TRANSMISSION (R21, R22): a port in LISTEN with an entry queued starts as the event ends (log 6). -/
def execStartTransmission (p : Port) (s : State) : Result := event (fun s => s.reachStart p) s

/-- ECHO_CHARACTER (R24, R25, R28); out of SENDING the character goes where R3 sends it (log 25). -/
def execEchoCharacter (p : Port) (c : LineCharacter) (s : State) : Result :=
  characterEvent p c s

/-- MISSING_ECHO (R24, R25). -/
def execMissingEcho (p : Port) (s : State) : Result := event (fun s => s.missEcho p) s

/-- The idle stretch reaches the backoff length (R27): LISTEN, and the start condition as the event ends. -/
def State.endBackoff (s : State) (p : Port) : State :=
  match (s.port p).state with
  | .backoff length =>
    if s.lineIdle p then (s.reachQuiet p (s.ct p length)).setPortState p .listen else s
  | .disabled | .listen | .receiving _ | .sending _ _ | .guard _ | .contained _ => s

/-- BACKOFF_END (R27). -/
def execBackoffEnd (p : Port) (s : State) : Result := event (fun s => s.endBackoff p) s

/-- The guard timer expires (R29). -/
def State.endGuard (s : State) (p : Port) : State :=
  match (s.port p).state with
  | .guard _ => s.setPortState p .listen
  | .disabled | .listen | .receiving _ | .sending _ _ | .backoff _ | .contained _ => s

/-- GUARD_EXPIRY (R29). -/
def execGuardExpiry (p : Port) (s : State) : Result := event (fun s => s.endGuard p) s

/-- CONTAINMENT (R31): only where the jabber monitor runs (R30). -/
def execContainment (p : Port) (s : State) : Result :=
  event (fun s => if (s.port p).state.monitored then s.contain p else s) s

/-- The containment timer expires (R32). -/
def State.endContainment (s : State) (p : Port) : State :=
  match (s.port p).state with
  | .contained _ => s.resume p
  | .disabled | .listen | .receiving _ | .sending _ _ | .backoff _ | .guard _ => s

/-- CONTAINMENT_EXPIRY (R32). -/
def execContainmentExpiry (p : Port) (s : State) : Result := event (fun s => s.endContainment p) s

end Sys2Proof.Machine
end

