-- ==== Sys2Proof/Machine/Dispatch.lean ====
section
/-! DEFINITION. One arm per command: the call of its meaning. -/

namespace Sys2Proof.Machine

def exec (i : Instr) (s : State) : Host.Outcome State Fault Refusal :=
  match i with
  | .addressCharacter p value => Sys2Proof.Machine.execAddressCharacter p value s
  | .dataCharacter p value => Sys2Proof.Machine.execDataCharacter p value s
  | .framingErrorCharacter p => Sys2Proof.Machine.execFramingErrorCharacter p s
  | .truncated p => Sys2Proof.Machine.execTruncated p s
  | .datagram p f => Sys2Proof.Machine.execDatagram p f s
  | .request p f => Sys2Proof.Machine.execRequest p f s
  | .reply p f => Sys2Proof.Machine.execReply p f s
  | .notice p f => Sys2Proof.Machine.execNotice p f s
  | .manage p f => Sys2Proof.Machine.execManage p f s
  | .result p f => Sys2Proof.Machine.execResult p f s
  | .status p h => Sys2Proof.Machine.execStatus p h s
  | .readEntriesStation p h first count => Sys2Proof.Machine.execReadEntriesStation p h first count s
  | .readEntriesGroup p h first count => Sys2Proof.Machine.execReadEntriesGroup p h first count s
  | .readEntriesWindow p h first count => Sys2Proof.Machine.execReadEntriesWindow p h first count s
  | .readEntriesManager p h first count => Sys2Proof.Machine.execReadEntriesManager p h first count s
  | .readEntriesTransaction p h first count => Sys2Proof.Machine.execReadEntriesTransaction p h first count s
  | .readEntriesPort p h first count => Sys2Proof.Machine.execReadEntriesPort p h first count s
  | .writeEntryStation p h address state segment ceiling => Sys2Proof.Machine.execWriteEntryStation p h address state segment ceiling s
  | .writeEntryGroup p h index mask => Sys2Proof.Machine.execWriteEntryGroup p h index mask s
  | .writeEntryWindow p h index r => Sys2Proof.Machine.execWriteEntryWindow p h index r s
  | .writeEntryManager p h index address => Sys2Proof.Machine.execWriteEntryManager p h index address s
  | .getParam p h ident port => Sys2Proof.Machine.execGetParam p h ident port s
  | .setParam p h ident port value => Sys2Proof.Machine.execSetParam p h ident port value s
  | .setParamPortEnable p h port value => Sys2Proof.Machine.execSetParamPortEnable p h port value s
  | .setParamBaud p h port value => Sys2Proof.Machine.execSetParamBaud p h port value s
  | .setParamJabberLimit p h port value => Sys2Proof.Machine.execSetParamJabberLimit p h port value s
  | .setParamAgeLimit p h port value => Sys2Proof.Machine.execSetParamAgeLimit p h port value s
  | .setParamOwnAddress p h port value => Sys2Proof.Machine.execSetParamOwnAddress p h port value s
  | .setParamAlertMode p h port value => Sys2Proof.Machine.execSetParamAlertMode p h port value s
  | .setParamAlertMask p h port value => Sys2Proof.Machine.execSetParamAlertMask p h port value s
  | .readCounters p h scope => Sys2Proof.Machine.execReadCounters p h scope s
  | .readCountersClear p h scope => Sys2Proof.Machine.execReadCountersClear p h scope s
  | .timeRead p h => Sys2Proof.Machine.execTimeRead p h s
  | .timeSet p h t => Sys2Proof.Machine.execTimeSet p h t s
  | .timeRound p h => Sys2Proof.Machine.execTimeRound p h s
  | .timeHold p h => Sys2Proof.Machine.execTimeHold p h s
  | .timeRun p h => Sys2Proof.Machine.execTimeRun p h s
  | .clearAlert p h causes => Sys2Proof.Machine.execClearAlert p h causes s
  | .flushLearned p h => Sys2Proof.Machine.execFlushLearned p h s
  | .restartWarm p h => Sys2Proof.Machine.execRestartWarm p h s
  | .restartFull p h => Sys2Proof.Machine.execRestartFull p h s
  | .startTransmission p => Sys2Proof.Machine.execStartTransmission p s
  | .echoCharacter p c => Sys2Proof.Machine.execEchoCharacter p c s
  | .missingEcho p => Sys2Proof.Machine.execMissingEcho p s
  | .backoffEnd p => Sys2Proof.Machine.execBackoffEnd p s
  | .guardExpiry p => Sys2Proof.Machine.execGuardExpiry p s
  | .containment p => Sys2Proof.Machine.execContainment p s
  | .containmentExpiry p => Sys2Proof.Machine.execContainmentExpiry p s
  | .deadlineExpiry t => Sys2Proof.Machine.execDeadlineExpiry t s
  | .graceExpiry t => Sys2Proof.Machine.execGraceExpiry t s
  | .secondTick => Sys2Proof.Machine.execSecondTick s
  | .pulseEnd => Sys2Proof.Machine.execPulseEnd s
  | .coldStart straps => Sys2Proof.Machine.execColdStart straps s
  | .powerStart straps => Sys2Proof.Machine.execPowerStart straps s
  | .pinReset straps => Sys2Proof.Machine.execPinReset straps s
  | .fullRestart straps => Sys2Proof.Machine.execFullRestart straps s
  | .warmRestart => Sys2Proof.Machine.execWarmRestart s
  | .startBit p => Sys2Proof.Machine.execStartBit p s
  | .lineReturnsToIdle p => Sys2Proof.Machine.execLineReturnsToIdle p s
  | .idleStretchReaches2Ct p => Sys2Proof.Machine.execIdleStretchReaches2Ct p s
  | .mainPowerLoss => Sys2Proof.Machine.execMainPowerLoss s
  | .backupSupplyLoss => Sys2Proof.Machine.execBackupSupplyLoss s

end Sys2Proof.Machine
end

