-- ==== Sys2Proof/Machine/Time.lean ====
section
/-! DEFINITION. The passing of time while no command waits: one CLK period, and the events that fall due in it (log 4, log 5, log 24). -/

namespace Sys2Proof.Machine

/-! ### What one CLK period moves -/

/-- A line that stands idle grows its idle stretch (R2). -/
def LineState.longer : LineState → LineState
  | .idle n => .idle (n + 1)
  | .character => .character
  | .undecoded => .undecoded
  | .startLevel => .startLevel

/-- The timers of a port that count CLK periods: the time since the first character of the attempt began
(R24) and the guard timer (R29). -/
def PortState.clkLater : PortState → PortState
  | .sending pos elapsed => .sending pos (elapsed + 1)
  | .guard n => .guard (n - 1)
  | .disabled => .disabled
  | .listen => .listen
  | .receiving r => .receiving r
  | .backoff n => .backoff n
  | .contained n => .contained n

/-- A port one CLK period later. -/
def PortUnit.clkLater (u : PortUnit) : PortUnit := { u with line := u.line.longer, state := u.state.clkLater }

/-- The containment timer one millisecond later (R31). -/
def PortState.msLater : PortState → PortState
  | .contained n => .contained (n - 1)
  | .sending pos elapsed => .sending pos elapsed
  | .guard n => .guard n
  | .disabled => .disabled
  | .listen => .listen
  | .receiving r => .receiving r
  | .backoff n => .backoff n

/-- A port one millisecond later: the containment timer, and the busy span where the jabber monitor
runs and the idle stretch is short of 2 ct (R30). -/
def PortUnit.msLater (u : PortUnit) : PortUnit :=
  { u with
    state := u.state.msLater
    busySpan := if u.state.monitored && !u.line.quietFor (u.params.baud.ct 2) then u.busySpan + 1 else u.busySpan }

/-- A transaction one millisecond later: its deadline or its grace counts down (R114, R124). -/
def TxEntry.msLater : TxEntry → TxEntry
  | .opened c n (some d) => .opened c n (some { d with remaining := d.remaining - 1 })
  | .opened c n none => .opened c n none
  | .lapsed c n g => .lapsed c n (g - 1)
  | .free => .free

/-- Every port changed by `f`, ascending. -/
def State.updPorts (s : State) (f : PortUnit → PortUnit) : State :=
  allPorts.foldl (fun s p => s.updPort p f) s

/-- One millisecond of the timebase (00_scope.md; R30, R31, R114, R124, R191). -/
def State.msPass (s : State) : State :=
  let t := s.updPorts PortUnit.msLater
  { t with transactions := t.transactions.map TxEntry.msLater, pulse := t.pulse.map (· - 1) }

/-- The millisecond timebase moves on by one CLK period, ten tenths (log 5). -/
def State.msClock (s : State) : State :=
  if s.msCount + 10 < Config.tenthsPerMs then { s with msCount := s.msCount + 10 }
  else State.msPass { s with msCount := s.msCount + 10 - Config.tenthsPerMs }

/-- The main domain moves on by one CLK period. -/
def State.clkPass (s : State) : State := if s.powered then (s.updPorts PortUnit.clkLater).msClock else s

/-! ### The events that fall due -/

/-- Whether the time of an event has come (R16, R24, R27, R29, R30, R31, R32, R114, R124, R134, R191). -/
def State.isDue (s : State) : Instr → Bool
  | .missingEcho p =>
    match (s.port p).state with
    | .sending pos elapsed => s.ct p (pos + 1) + (s.port p).params.baud.clkPerBit ≤ elapsed
    | _ => false
  | .idleStretchReaches2Ct p => (s.port p).line.quietFor (s.ct p 2) && (s.port p).busySpan != 0
  | .truncated p =>
    match (s.port p).state with
    | .receiving _ => (s.port p).line.quietFor (s.ct p 3 + 1)
    | _ => false
  | .containment p => (s.port p).state.monitored && (s.port p).params.jabberLimit < (s.port p).busySpan
  | .backoffEnd p =>
    match (s.port p).state with
    | .backoff length => (s.port p).line.quietFor (s.ct p length)
    | _ => false
  | .guardExpiry p =>
    match (s.port p).state with
    | .guard n => n == 0
    | _ => false
  | .containmentExpiry p =>
    match (s.port p).state with
    | .contained n => n == 0
    | _ => false
  | .startTransmission p => s.canStart p
  | .deadlineExpiry t =>
    match s.tx t with
    | .opened _ _ (some d) => d.remaining == 0
    | _ => false
  | .graceExpiry t =>
    match s.tx t with
    | .lapsed _ _ g => g == 0
    | _ => false
  | .pulseEnd => s.pulse == some 0
  | _ => false

/-- The events time brings, in the order in which those due at one moment are taken (log 24). -/
def timedEvents : List Instr :=
  (allPorts.map fun p =>
    [Instr.missingEcho p, .idleStretchReaches2Ct p, .truncated p, .containment p, .backoffEnd p,
      .guardExpiry p, .containmentExpiry p, .startTransmission p]).flatten ++
    allTx.map Instr.deadlineExpiry ++ allTx.map Instr.graceExpiry ++ [Instr.pulseEnd]

/-- The state a command that goes on leaves. -/
def State.after (s : State) (c : Instr) : State :=
  match exec c s with
  | .next t => t
  | .fault _ | .refused _ => s

/-- One event taken if it is due, on the state a restart that fell due leaves. -/
def State.takeDue (s : State) (c : Instr) : State :=
  if s.restartFirst.isDue c then s.restartFirst.after c else s.restartFirst

/-- Every event that is due, taken. -/
def State.takeAllDue (s : State) : State := timedEvents.foldl State.takeDue s

/-- One crystal period: the phase advances, or wraps in a second tick (R134); it stands still on HOLD (R136). -/
def State.crystalPeriod (s : State) : State :=
  if s.calendar.hold || s.backupLost then s
  else if s.calendar.phase + 1 < Config.crystalPerSecond then
    { s with calendar := { s.calendar with phase := s.calendar.phase + 1 } }
  else s.after .secondTick

/-- The crystal moves on by one CLK period (log 5). -/
def State.crystalClock (s : State) : State :=
  if s.crystalCount + 1 < Config.clkPerCrystal then { s with crystalCount := s.crystalCount + 1 }
  else State.crystalPeriod { s with crystalCount := 0 }

/-- One CLK period with no command waiting: a restart that fell due comes first (log 8), then the measures
of time move on, and what falls due is taken. -/
def State.tick (s : State) : State := s.restartFirst.clkPass.takeAllDue.crystalClock

end Sys2Proof.Machine
end

