-- ==== Sys2Proof/Safety.lean ====
section
/-! DEFINITION. What a safe coupler is: the invariants its steps keep, and the states and situations its statements speak of. -/

namespace Sys2Proof.Machine

/-! ### Invariants -/

/-- Nothing is left for the end of an event to do: no restart has fallen due (R179), and no port meets
the start condition (R21). -/
def State.quiescent (s : State) : Bool :=
  !(s.restart.any fun r => r.due) && allPorts.all fun p => !s.canStart p

/-- What every event leaves (R21, R179, log 8): no port meets the start condition, unless a restart has fallen
due, which empties every queue before anything starts. -/
def State.eventsComplete (s : State) : Bool :=
  (s.restart.any fun r => r.due) || allPorts.all fun p => !s.canStart p

/-- Without main power nothing is queued or driven, no port is in service and no restart is pending (R132, log 12). -/
def State.darkUnpowered (s : State) : Bool :=
  s.powered || (s.restart.isNone && allPorts.all fun p => (s.port p).state == .disabled && (s.queue p).isEmpty)

/-- One entry is in transmission exactly while its port is in SENDING (R20, R22, R25, R28); only it may have
a removal pending (R58), and a withdrawn one has lost its link (R57). -/
def PortUnit.marksSound (u : PortUnit) : Bool :=
  (u.queue.filter fun e => e.inTx).length == (if u.state.dirAsserted then 1 else 0) &&
    u.queue.all fun e =>
      (e.inTx || e.pendingRemoval.isNone) && (e.pendingRemoval != some .withdrawn || e.link.isNone)

/-- Every port's marks are sound. -/
def State.marksSound (s : State) : Bool := allPorts.all fun p => (s.port p).marksSound

/-- The calendar holds a real date and time, its phase is below a second, and a staged time is real (R133, R134, R139). -/
def State.calendarReal (s : State) : Bool :=
  s.calendar.now.real && decide (s.calendar.phase < Config.crystalPerSecond) && s.staged.all DateTime.real

/-- While HOLD is on no staged time is present (R137). -/
def State.nothingStagedOnHold (s : State) : Bool := !(s.calendar.hold && s.staged.isSome)

/-- No queue holds more than 16 entries (R50). -/
def State.queuesFit (s : State) : Bool := allPorts.all fun p => (s.queue p).length ≤ Config.queueSize

/-- The entries of all four queues, ports ascending. -/
def State.entries (s : State) : List QueueEntry := (allPorts.map fun p => s.queue p).flatten

/-- A queue within 16 entries, in queue order, with no stamp twice and every stamp already given out (R50, R51). -/
def queueSound (nextStamp : Nat) (q : List QueueEntry) : Bool :=
  decide (q.length ≤ Config.queueSize) && decide (q.Pairwise fun a b => a.before b = true) &&
    decide (q.map (·.stamp)).Nodup && q.all fun e => e.stamp < nextStamp

/-- Every queue is sound. -/
def State.queuesSound (s : State) : Bool := allPorts.all fun p => queueSound s.nextStamp (s.queue p)

/-- How many queue entries refer to buffer `b` (R44). -/
def State.references (s : State) (b : BufferIx) : Nat := (s.entries.filter fun e => e.buffer == b).length

/-- Whether port `p` is receiving into buffer `b` (R7). -/
def State.receivesInto (s : State) (p : Port) (b : BufferIx) : Bool :=
  match (s.port p).state with
  | .receiving r => r.buffer == b
  | .disabled | .listen | .sending _ _ | .backoff _ | .guard _ | .contained _ => false

/-- Buffer `b` is in the condition its users give it (R44): free exactly on the free list, under reception
by the one port that fills it, or held with a count of 1 to 3 that is the number of entries referring to it. -/
def State.bufferSound (s : State) (b : BufferIx) : Bool :=
  match (s.pool.get b).condition with
  | .free => s.freeList.contains b && s.references b == 0 && allPorts.all fun p => !s.receivesInto p b
  | .reception p =>
    !s.freeList.contains b && s.references b == 0 && allPorts.all fun q => s.receivesInto q b == (q == p)
  | .held n =>
    !s.freeList.contains b && s.references b == n && 1 ≤ n && n ≤ 3 && allPorts.all fun p => !s.receivesInto p b

/-- Every buffer is accounted for, the free list names none twice (R45), and no queue refers to one twice (R50). -/
def State.buffersSound (s : State) : Bool :=
  decide s.freeList.Nodup && (List.finRange 48).all s.bufferSound &&
    allPorts.all fun p => decide ((s.queue p).map (·.buffer)).Nodup

/-- How many queue entries carry a link to transaction `t` (R105). -/
def State.links (s : State) (t : TxIx) : Nat := (s.entries.filter fun e => e.link == some t).length

/-- Transaction `t` keeps two of the three statements of R105: copies pending is the number of linked
entries, and an OPEN entry without a deadline has one. -/
def State.txSound (s : State) (t : TxIx) : Bool :=
  match s.tx t with
  | .free | .lapsed _ _ _ => s.links t == 0
  | .opened _ n d => s.links t == n && (1 ≤ n || d.isSome)

/-- The key of transaction `t`, if it is not FREE. -/
def State.keyOf (s : State) (t : TxIx) : Option TxKey := (s.tx t).core.map (·.key)

/-- The three statements of R105, the third being that no two entries that are not FREE share a key. -/
def State.transactionsSound (s : State) : Bool :=
  allTx.all s.txSound && allTx.all fun t => allTx.all fun u => t == u || (s.keyOf t).isNone || s.keyOf t != s.keyOf u

/-- The per-port parameters lie in their ranges (R36); the other two have no number out of range. -/
def PortParams.inRange (q : PortParams) : Bool :=
  PortParam.inRange q.quiet .quiet && PortParam.inRange q.guard .guard && PortParam.inRange q.attempts .attempts &&
    PortParam.inRange q.jabberLimit .jabberLimit && PortParam.inRange q.containPeriod .containPeriod &&
    PortParam.inRange q.replyTimeout .replyTimeout

/-- The coupler parameters lie in their ranges (R174). -/
def CouplerParams.inRange (q : CouplerParams) : Bool :=
  CouplerParam.inRange q.ownAddress.toNat .ownAddress && CouplerParam.inRange q.ageLimit .ageLimit &&
    CouplerParam.inRange q.reserve .reserve && CouplerParam.inRange q.maxOutstanding .maxOutstanding &&
    CouplerParam.inRange q.lapseGrace .lapseGrace && CouplerParam.inRange q.alertMask.toNat .alertMask &&
    CouplerParam.inRange q.alertRecipient.toNat .alertRecipient

/-- Every parameter lies in its range (R36, R174). -/
def State.paramsInRange (s : State) : Bool :=
  s.params.inRange && allPorts.all fun p => (s.port p).params.inRange

/-- An age that its entry may hold under an AGE_LIMIT (R62). -/
def StationEntry.ageFits (limit : Nat) (e : StationEntry) : Bool :=
  match e.state with
  | .learned _ age => age ≤ 254 && (limit == 0 || age < limit)
  | .unknown | .pinned _ | .barred => true

/-- Every age is at most 254 and below AGE_LIMIT where AGE_LIMIT is not 0 (R62); AGE_LIMIT is at most 255 (R70). -/
def State.agesFit (s : State) : Bool :=
  s.params.ageLimit ≤ 255 && s.stations.toList.all (StationEntry.ageFits s.params.ageLimit)

/-- The manager table holds station addresses, none twice (R169). -/
def State.managersDistinct (s : State) : Bool :=
  allSlots.all fun i =>
    match s.managers.get i with
    | some r => isStation r.address && allSlots.all fun j => i == j || !s.slotHolds r.address j
    | none => true

/-- A pulse runs in PULSE mode alone (R191). -/
def State.pulseOnlyInPulseMode (s : State) : Bool := s.params.alertMode == .pulse || s.pulse.isNone

/-! ### The calendar as a count of seconds -/

/-- The date and time one second later (R134). -/
def DateTime.nextSecond (d : DateTime) : DateTime :=
  if d.second < 59 then { d with second := d.second + 1 } else d.nextMinute

/-- The seconds from 2000-01-01 00:00:00 to a date and time. -/
def DateTime.instant (d : DateTime) : Nat := ((dayNumber d * 24 + d.hour) * 60 + d.minute) * 60 + d.second

/-- The last second of the calendar's range (R134). -/
def calendarEnd : DateTime := ⟨2099, 12, 31, 23, 59, 59⟩

/-! ### Situations -/

/-- The states in which a port's receiver may start a frame from a buffer of the free list (R8). -/
def PortState.awaitsFrame : PortState → Bool
  | .listen | .guard _ | .backoff _ => true
  | .disabled | .receiving _ | .sending _ _ | .contained _ => false

/-- A character sent now on the line of port `p` is decoded (R1, R35), the last event being complete. -/
def State.hears (s : State) (p : Port) : Bool :=
  s.powered && s.quiescent && (s.port p).line.decodable

/-- What a row puts on the line of a port: the port, and the level it leaves (R1, R2). The rows that name no
port's line have none. -/
def lineLevelOf : Instr → Option (Port × (LineState → LineState))
  | .framingErrorCharacter p => some (p, fun _ => .startLevel)
  | .echoCharacter p c => some (p, fun _ => lineAfter c)
  | .startBit p => some (p, LineState.disturbed)
  | .lineReturnsToIdle p => some (p, LineState.released)
  | .addressCharacter p _ | .dataCharacter p _ | .datagram p _ | .request p _ | .reply p _ | .notice p _
  | .manage p _ | .result p _ | .status p _ | .readEntriesStation p _ _ _ | .readEntriesGroup p _ _ _
  | .readEntriesWindow p _ _ _ | .readEntriesManager p _ _ _ | .readEntriesTransaction p _ _ _
  | .readEntriesPort p _ _ _ | .writeEntryStation p _ _ _ _ _ | .writeEntryGroup p _ _ _
  | .writeEntryWindow p _ _ _ | .writeEntryManager p _ _ _ | .getParam p _ _ _ | .setParam p _ _ _ _
  | .setParamPortEnable p _ _ _ | .setParamBaud p _ _ _ | .setParamJabberLimit p _ _ _
  | .setParamAgeLimit p _ _ _ | .setParamOwnAddress p _ _ _ | .setParamAlertMode p _ _ _
  | .setParamAlertMask p _ _ _ | .readCounters p _ _ | .readCountersClear p _ _ | .timeRead p _
  | .timeSet p _ _ | .timeRound p _ | .timeHold p _ | .timeRun p _ | .clearAlert p _ _ | .flushLearned p _
  | .restartWarm p _ | .restartFull p _ => some (p, fun _ => .idle 0)
  | .truncated _ | .startTransmission _ | .missingEcho _ | .backoffEnd _ | .guardExpiry _ | .containment _
  | .containmentExpiry _ | .deadlineExpiry _ | .graceExpiry _ | .secondTick | .pulseEnd | .coldStart _
  | .powerStart _ | .pinReset _ | .fullRestart _ | .warmRestart | .idleStretchReaches2Ct _ | .mainPowerLoss
  | .backupSupplyLoss => none

/-- A whole frame sent now on the line of port `p` is received there, if a buffer is free (R8). -/
def State.canReceive (s : State) (p : Port) : Bool := s.hears p && (s.port p).state.awaitsFrame

/-- The state in which a frame that arrived at port `p`, and passed its checks, is classified (R18): its
characters stand in buffer `b`, taken from the head of the free list; the port listens again. -/
def State.arrived (s : State) (p : Port) (b : BufferIx) (rest : List BufferIx) (chars : List Byte) : State :=
  (({ s with freeList := rest }).setBuffer b ⟨.reception p, chars⟩).updPort p fun u =>
    { u with
      state := .listen
      line := .idle 0
      startHold := .ready
      counters := u.counters.set 0 (u.counters.get 0 + 1) }

/-- The row of the table that a frame of a kind arrives by. -/
def frameRow : Kind → Port → Frame → Instr
  | .datagram, p, f => .datagram p f
  | .request, p, f => .request p f
  | .reply, p, f => .reply p f
  | .notice, p, f => .notice p f
  | .manage, p, f => .manage p f
  | .result, p, f => .result p f

/-- A frame as the Forwarding Engine reads it. -/
def viewOf (f : Frame) (k : Kind) : FrameView := ⟨f.dest, f.source, k, f.cls, f.tag, f.payload⟩

/-- Learning lets a frame from `a` on segment `p` through (R64): `a` is a station, not the own address,
not BARRED and not PINNED elsewhere. -/
def State.letsThrough (s : State) (p : Port) (a : Byte) : Bool :=
  isStation a && a != s.params.ownAddress &&
    match (s.station a).state with
    | .barred => false
    | .pinned home => home == p
    | .unknown | .learned _ _ => true

/-- The Station Table entry that learning leaves for a source heard on segment `p` (R66). -/
def StationEntry.heardOn (p : Port) (e : StationEntry) : StationEntry :=
  match e.state with
  | .unknown | .learned _ _ => { e with state := .learned p 0 }
  | .pinned _ | .barred => e

/-- The state after learning let a frame from `a` on segment `p` through (R66): the entry heard on `p`, and
STATION_MOVES counted for a station LEARNED on another segment. -/
def State.heardFrom (s : State) (p : Port) (a : Byte) : State :=
  let t := s.setStation a ((s.station a).heardOn p)
  match (s.station a).state with
  | .learned home _ => if home = p then t else t.count .stationMoves
  | .unknown | .pinned _ | .barred => t

/-- A frame of kind `k` sent on the line of port `p` reaches its classification (R18), which begins in state
`t` with the frame in buffer `b`. -/
def FrameArrives (s : State) (k : Kind) (p : Port) (f : Frame) (b : BufferIx) (t : State) : Prop :=
  s.canReceive p = true ∧ f.wellFormed = true ∧
    ∃ rest, s.freeList = b :: rest ∧ t = s.arrived p b rest (framedChars f k)

/-- A frame that arrives and that learning lets through (R64): its classification goes on in state `u`. -/
def FrameLearned (s : State) (k : Kind) (p : Port) (f : Frame) (b : BufferIx) (u : State) : Prop :=
  s.letsThrough p f.source = true ∧ ∃ t, FrameArrives s k p f b t ∧ u = t.heardFrom p f.source

/-- The target set of a frame for `d` that arrived on segment `p` (R90 to R92); `d` is not the own address. -/
def State.targetsFor (s : State) (p : Port) (d : Byte) : List Port :=
  if d = 0 then segmentsExcept p
  else if h : 240 ≤ d.toNat then (SegmentMask.segments (s.groups.get ⟨d.toNat - 240, by omega⟩)).filter (· != p)
  else
    match (s.station d).state with
    | .learned home _ | .pinned home => if home = p then [] else [home]
    | .barred => []
    | .unknown => if s.params.unknownPolicy = .flood then segmentsExcept p else []

/-- The rank of a forwarded frame: the lower of its class and its source's ceiling (R98). -/
def State.rankFor (s : State) (f : Frame) : Rank :=
  Rank.ofClass (if f.cls ≤ (s.station f.source).ceiling then f.cls else (s.station f.source).ceiling)

/-- How queue `p` answers a FORWARDED request of a class rank (R52): such a request displaces nothing (R53). -/
def State.verdictFor (s : State) (p : Port) (r : Rank) : Verdict :=
  if (s.port p).state.outOfService then .unreachable
  else if !(s.disposition p).admits r .forwarded then .window
  else if (s.queue p).length < Config.queueSize then .admitted
  else .queueFull

/-- The effect of that answer: the entry joins the queue, or the refusal is counted (R52). -/
def State.offerTo (s : State) (n : NewEntry) (p : Port) : State :=
  match s.verdictFor p n.rank with
  | .admitted => s.enqueue p n
  | .unreachable => s.countPort p .unreachable
  | .window => s.countPort p .windowDrops
  | .queueFull => s.countPort p .queueFull

/-- One entry offered to each of a list of queues, in the list's order, each judging its own (R54). -/
def State.offerEach (s : State) (ps : List Port) (n : NewEntry) : State := ps.foldl (fun s p => s.offerTo n p) s

/-- The queues of a list that admit a FORWARDED request of a class rank. -/
def State.takers (s : State) (ps : List Port) (r : Rank) : List Port :=
  ps.filter fun p => s.verdictFor p r = .admitted

/-- The cause of the notice for a request that no target admits: the refusal of the first target (R111). -/
def State.refusalCause (s : State) (ps : List Port) (r : Rank) : NoticeCause :=
  match ps.head?.map fun p => s.verdictFor p r with
  | some .unreachable => .contained
  | some .window => .window
  | some .queueFull | some .admitted | none => .undeliverable

/-- A port that has just received a good character, in state `st` (R1, R2). -/
def PortUnit.heard (u : PortUnit) (st : PortState) : PortUnit :=
  { u with state := st, line := .idle 0, startHold := .ready }

/-- A queue takes one more entry of a rank and origin without displacing (R52). -/
def State.takes (s : State) (p : Port) (r : Rank) (o : Origin) : Bool :=
  !(s.port p).state.outOfService && (s.disposition p).admits r o && (s.queue p).length < Config.queueSize

/-! ### Commands that are executed -/

/-- What a management row carries (chapter 9): its arrival port, its head, its command and the arguments. The other
rows carry none. -/
def carriedCommand : Instr → Option (Port × CommandHead × CommandCode × List Byte)
  | .status p h => some (p, h, .status, [])
  | .readEntriesStation p h first count => some (p, h, .readEntries, readArgs .station first count)
  | .readEntriesGroup p h first count => some (p, h, .readEntries, readArgs .group first count)
  | .readEntriesWindow p h first count => some (p, h, .readEntries, readArgs .window first count)
  | .readEntriesManager p h first count => some (p, h, .readEntries, readArgs .manager first count)
  | .readEntriesTransaction p h first count => some (p, h, .readEntries, readArgs .transaction first count)
  | .readEntriesPort p h first count => some (p, h, .readEntries, readArgs .port first count)
  | .writeEntryStation p h address state segment ceiling =>
    some (p, h, .writeEntry, [TableName.station.code, address, state, segment, ceiling])
  | .writeEntryGroup p h index mask => some (p, h, .writeEntry, [TableName.group.code, index, mask])
  | .writeEntryWindow p h index r => some (p, h, .writeEntry, [TableName.window.code, index] ++ windowArgs r)
  | .writeEntryManager p h index address => some (p, h, .writeEntry, [TableName.manager.code, index, address])
  | .getParam p h ident port => some (p, h, .getParam, [ident, port])
  | .setParam p h ident port value => some (p, h, .setParam, setArgs ident port value)
  | .setParamPortEnable p h port value => some (p, h, .setParam, setArgs 0x01 port value)
  | .setParamBaud p h port value => some (p, h, .setParam, setArgs 0x02 port value)
  | .setParamJabberLimit p h port value => some (p, h, .setParam, setArgs 0x06 port value)
  | .setParamAgeLimit p h port value => some (p, h, .setParam, setArgs 0x13 port value)
  | .setParamOwnAddress p h port value => some (p, h, .setParam, setArgs 0x10 port value)
  | .setParamAlertMode p h port value => some (p, h, .setParam, setArgs 0x17 port value)
  | .setParamAlertMask p h port value => some (p, h, .setParam, setArgs 0x18 port value)
  | .readCounters p h scope => some (p, h, .readCounters, [scope, 0])
  | .readCountersClear p h scope => some (p, h, .readCounters, [scope, 1])
  | .timeRead p h => some (p, h, .timeRead, [])
  | .timeSet p h t => some (p, h, .timeSet, [t.year, t.month, t.day, t.hour, t.minute, t.second])
  | .timeRound p h => some (p, h, .timeRound, [])
  | .timeHold p h => some (p, h, .timeHold, [])
  | .timeRun p h => some (p, h, .timeRun, [])
  | .clearAlert p h causes => some (p, h, .clearAlert, [causes])
  | .flushLearned p h => some (p, h, .flushLearned, [])
  | .restartWarm p h => some (p, h, .restart, [1])
  | .restartFull p h => some (p, h, .restart, [2])
  | .addressCharacter _ _ | .dataCharacter _ _ | .framingErrorCharacter _ | .truncated _ | .datagram _ _
  | .request _ _ | .reply _ _ | .notice _ _ | .manage _ _ | .result _ _ | .startTransmission _ | .echoCharacter _ _
  | .missingEcho _ | .backoffEnd _ | .guardExpiry _ | .containment _ | .containmentExpiry _ | .deadlineExpiry _
  | .graceExpiry _ | .secondTick | .pulseEnd | .coldStart _ | .powerStart _ | .pinReset _ | .fullRestart _
  | .warmRestart | .startBit _ | .lineReturnsToIdle _ | .idleStretchReaches2Ct _ | .mainPowerLoss
  | .backupSupplyLoss => none

/-- The steps of R161 that do not turn a command from `h` away on port `p`: the port accepts it, the manager table
lets its source through, no restart is pending and its sequence is new. -/
def State.admitsCommand (s : State) (p : Port) (h : CommandHead) : Bool :=
  (s.port p).params.mgmtAccept && !s.denies h.source && s.restart.isNone &&
    (s.cachedFor h.source h.sequence).isNone

/-- A command from `h` on port `p` reaches execution (R161, R164), which begins in state `u`: its frame has arrived
in buffer `b` and was learned, and room for its result stands in the arrival port's queue, in buffer `room`; the room
may have displaced an entry (R53). -/
def CommandTaken (s : State) (p : Port) (h : CommandHead) (c : CommandCode) (args : List Byte)
    (b room : BufferIx) (u : State) : Prop :=
  s.admitsCommand p h = true ∧
    ∃ t, FrameLearned s .manage p (commandFrame s.params.ownAddress c h args) b t ∧
      t.placeGenerated (copyRemoved 33 .queueFull) ⟨[], 0⟩ p [] = (some room, u)

/-- The result payload of a command (R168). -/
def answerPayload (h : CommandHead) (c : CommandCode) (r : CommandResult) : List Byte :=
  [c.code, h.sequence, r.code.code, byteOf r.records] ++ r.data

/-- How an executed command ends (R167, R168, R46): it is counted, its result is stored for its manager
and written to the secured room, and its frame's buffer is freed. `own` is the own address before the
command. A room purged with its queue is not written (R33). -/
def State.commandDone (s : State) (p : Port) (h : CommandHead) (c : CommandCode) (own : Byte)
    (b room : BufferIx) (r : CommandResult) : State :=
  (((s.count .mgmtExecuted).storeResult h.source h.sequence (answerPayload h c r)).fillRoom p room
    (generatedChars h.source own h.tag .result (answerPayload h c r))).freeUp b

/-- In the states `cond` names, the command with code `c` and arguments `args` executes with the result `r` and the
effect `e`, and the row `i` that carries it executes so at every state that takes it. Both are taken of the state in
which it executes, and the effect of the result's buffer too. -/
def ExecutesWhen (cond : State → Prop) (i : Instr) (p : Port) (h : CommandHead) (c : CommandCode) (args : List Byte)
    (r : State → CommandResult) (e : BufferIx → State → State) : Prop :=
  (∀ (u : State) (room : BufferIx), cond u → u.executeCommand room args c = (r u, e room u)) ∧
    ∀ (s : State) (b room : BufferIx) (u : State), CommandTaken s p h c args b room u → cond u →
      exec i s = .next ((e room u).commandDone p h c s.params.ownAddress b room (r u)).settle

/-- The command `i`, carried with code `c` and arguments `args`, executes at every state that takes it, with the
result `r` and the effect `e`. -/
def Executes (i : Instr) (p : Port) (h : CommandHead) (c : CommandCode) (args : List Byte)
    (r : State → CommandResult) (e : State → State) : Prop :=
  ExecutesWhen (fun _ => True) i p h c args r fun _ => e

/-- The row of the table that reads a table. -/
def readRow : TableName → Port → CommandHead → Byte → Byte → Instr
  | .station => .readEntriesStation
  | .group => .readEntriesGroup
  | .window => .readEntriesWindow
  | .manager => .readEntriesManager
  | .transaction => .readEntriesTransaction
  | .port => .readEntriesPort

/-- The row of the table that writes the parameter of an identifier (11.2). -/
def setRow (ident : Byte) (p : Port) (h : CommandHead) (port : Byte) (v : BitVec 32) : Instr :=
  match ident.toNat with
  | 0x01 => .setParamPortEnable p h port v
  | 0x02 => .setParamBaud p h port v
  | 0x06 => .setParamJabberLimit p h port v
  | 0x10 => .setParamOwnAddress p h port v
  | 0x13 => .setParamAgeLimit p h port v
  | 0x17 => .setParamAlertMode p h port v
  | 0x18 => .setParamAlertMask p h port v
  | _ => .setParam p h ident port v

/-- The characters of a TIME SET that name a date and time (11.4). -/
def DateTime.record (d : DateTime) : TimeRecord :=
  ⟨bcd (d.year - 2000), bcd d.month, bcd d.day, bcd d.hour, bcd d.minute, bcd d.second⟩

/-! ### Resets -/

/-- A port after a reset that samples the straps, its line watched afresh (R35, R39, R40, R188). -/
def State.portAfterReset (s : State) (straps : Straps) (p : Port) : PortUnit :=
  { resetPort straps p with line := (s.port p).line.afresh }

/-- The state after a reset that samples the straps and keeps the calendar (power start, pin reset, full
restart): that of a cold start but for the calendar, the cause and the pending set. -/
def State.afterReset (s : State) (cause : ResetCause) (straps : Straps) : State :=
  { State.reset with
    ports := #v[s.portAfterReset straps 0, s.portAfterReset straps 1, s.portAfterReset straps 2, s.portAfterReset straps 3]
    calendar := s.calendar
    backupSupply := s.backupSupply
    backupLost := s.backupLost
    params := defaultCouplerParams straps
    pendingAlerts := 0
    resetCause := cause
    straps := straps
    crystalCount := s.crystalCount
    msCount := s.msCount
    pending := s.pending }

/-- DONE with no data. -/
def doneResult : CommandResult := ⟨.done, 0, []⟩

/-- A refusal: the result code and no data. -/
def refusedResult (code : ResultCode) : CommandResult := ⟨code, 0, []⟩

end Sys2Proof.Machine
end

