-- ==== Sys2Proof/Certificates/Slice0/Obligations.lean ====
section
/-! DEFINITION. The statements of this model for the provers: what its steps, commands and shared operations do, by the rules of spec/. Log numbers are rows of notes/assumptions/. -/

open Sys2Proof Sys2Proof.Machine

/-! ### The machine -/

/-- A step takes the command at the front of the queue and runs it on the state with the queue's rest. -/
def Obligations.FrontCommandRuns : Prop :=
  ∀ (c : Instr) (rest : List Instr) (s : State),
    s.pending = c :: rest → step s = exec c { s with pending := rest }

/-- A step with no command waiting is one CLK period (log 4): a restart that fell due comes first (log 8), every
measure of time moves on, what has fallen due is taken in the order of `timedEvents` (log 24), and the crystal
moves on (log 5). The idle stretch (R2), the time since a transmission's first character began (R24) and the guard
timer (R29) move with CLK; the containment timer (R31), the busy span where it runs short of 2 ct of idle line
(R30), deadlines (R114), grace (R124) and the pulse (R191) move where a millisecond ends (log 5). Without main power
only the crystal moves (log 12). The calendar stands still before a crystal period ends, on HOLD (R136) and with the
backup domain's contents lost (log 12); otherwise its phase advances, or wraps in a second tick (R134), so that a second
whose phase begins with a crystal period lasts exactly 29,491,200 CLK periods. -/
def Obligations.IdleStepPassesTime : Prop :=
  (∀ s : State, s.pending = [] → step s = .next (s.restartFirst.clkPass.takeAllDue).crystalClock) ∧
  (∀ s : State, s.powered = false → s.clkPass = s) ∧
  (∀ s : State, s.powered = true →
    let t := s.clkPass
    let msEnds : Prop := 294912 ≤ s.msCount + 10
    (s.msCount + 10 < 294912 → t.msCount = s.msCount + 10) ∧ (msEnds → t.msCount = s.msCount + 10 - 294912) ∧
    (∀ p, let u := s.port p
      (t.port p).line =
          (match u.line with
          | .idle n => .idle (n + 1)
          | .character => .character
          | .undecoded => .undecoded
          | .startLevel => .startLevel) ∧
      (∀ pos n, u.state = .sending pos n → (t.port p).state = .sending pos (n + 1)) ∧
      (∀ n, u.state = .guard n → (t.port p).state = .guard (n - 1)) ∧
      (∀ n, u.state = .contained n → (msEnds → (t.port p).state = .contained (n - 1)) ∧
        (¬ msEnds → (t.port p).state = .contained n)) ∧
      ((∀ pos n, u.state ≠ .sending pos n) → (∀ n, u.state ≠ .guard n ∧ u.state ≠ .contained n) →
        (t.port p).state = u.state) ∧
      (msEnds → u.state.monitored = true → (∀ n, u.line = .idle n → n + 1 < 2 * 11 * u.params.baud.clkPerBit) →
        (t.port p).busySpan = u.busySpan + 1) ∧
      (¬ msEnds ∨ u.state.monitored = false ∨ (∃ n, u.line = .idle n ∧ 2 * 11 * u.params.baud.clkPerBit ≤ n + 1) →
        (t.port p).busySpan = u.busySpan) ∧
      t.port p = { u with state := (t.port p).state, line := (t.port p).line, busySpan := (t.port p).busySpan }) ∧
    (msEnds → t.pulse = s.pulse.map (· - 1) ∧ ∀ i, t.tx i =
      match s.tx i with
      | .opened c n (some d) => .opened c n (some ⟨d.remaining - 1, d.segment⟩)
      | .lapsed c n g => .lapsed c n (g - 1)
      | .opened c n none => .opened c n none
      | .free => .free) ∧
    (¬ msEnds → t.pulse = s.pulse ∧ t.transactions = s.transactions) ∧
    t = { s with ports := t.ports, transactions := t.transactions, pulse := t.pulse, msCount := t.msCount }) ∧
  (∀ (s t : State) (c : Instr), s.restartFirst = s →
    (s.isDue c = true → exec c s = .next t → s.takeDue c = t) ∧ (s.isDue c = false → s.takeDue c = s)) ∧
  (∀ s : State, s.takeAllDue = timedEvents.foldl State.takeDue s) ∧
  (∀ (p : Port) (i : TxIx), ∀ c ∈ [Instr.missingEcho p, .idleStretchReaches2Ct p, .truncated p, .containment p,
    .backoffEnd p, .guardExpiry p, .containmentExpiry p, .startTransmission p, .deadlineExpiry i, .graceExpiry i,
    .pulseEnd], c ∈ timedEvents) ∧
  (∀ s t : State, s.pending = [] → step s = .next t →
    (s.crystalCount + 1 < 900 → t.crystalCount = s.crystalCount + 1) ∧
    (s.crystalCount = 899 → t.crystalCount = 0) ∧
    (s.crystalCount + 1 < 900 ∨ s.calendar.hold = true ∨ s.backupLost = true → t.calendar = s.calendar) ∧
    (s.crystalCount = 899 → s.calendar.hold = false → s.backupLost = false →
      (s.calendar.phase + 1 < 32768 → t.calendar = { s.calendar with phase := s.calendar.phase + 1 }) ∧
      (s.calendar.phase = 32767 → s.staged = none →
        t.calendar = { s.calendar with now := s.calendar.now.nextSecond, phase := 0 }))) ∧
  (∀ s t : State, s.pending = [] → step s = .next t → s.calendar.hold = false → s.backupLost = false →
    s.crystalCount < 900 → s.calendar.phase < 32768 →
    let elapsed (s : State) : Nat := s.calendar.phase * 900 + s.crystalCount
    (elapsed s + 1 < 29491200 → elapsed t = elapsed s + 1 ∧ t.calendar.now = s.calendar.now) ∧
    (elapsed s + 1 = 29491200 → elapsed t = 0 ∧ (s.staged = none → t.calendar.now = s.calendar.now.nextSecond)))

/-- No command stops the part: every failure is a counter, an alert, a notice or a result code. -/
def Obligations.NoCommandStops : Prop := ∀ (c : Instr) (s : State), ∃ t, exec c s = .next t

/-- Without main power nothing is received or sent and nothing happens but to the supplies and the calendar
(R132): a row on the line of a port moves that line alone, as the level it ends at says (R35), and every other
row but the second tick, the power-ons and the loss of VBAK leaves the part as it is (log 12). -/
def Obligations.UnpoweredPartFollowsItsLinesAlone : Prop :=
  ∀ (c : Instr) (s : State), s.powered = false →
    match c with
    | .secondTick | .coldStart _ | .powerStart _ | .backupSupplyLoss => True
    | _ =>
      match lineLevelOf c with
      | some (p, level) => exec c s = .next (s.updPort p fun u => { u with line := level u.line })
      | none => exec c s = .next s

/-- The end of an event and the beginning of the next. An event ends with each port in LISTEN whose queue is not
empty and whose idle stretch has reached QUIET ct marking the first entry of its queue and entering SENDING (R21,
R22, log 6), its first character beginning in that same CLK period, which is the model's choice (log 32). After an
event that removed the awaited RESTART result nothing starts: the removal is complete and counted, and the restart
comes before anything else, as a reset of its kind (R59, R179, log 8), whatever the next command is, a FULL_RESTART
being that reset with the straps it reads (R181), and a management row a frame to the own address which that reset
leaves (log 27). -/
def Obligations.EventsEndInStartsAndBeginInRestarts : Prop :=
  (∀ (s : State) (k : RestartKind) (b : BufferIx), s.restart = some ⟨k, b, true⟩ →
    s.settle = s ∧
      (s.powered = true → s.restartFirst =
        match k with
        | .warm => s.resetWarm
        | .full => s.resetToDefaults .full s.straps) ∧
      (s.powered = false → s.restartFirst = s)) ∧
  (∀ (c : Instr) (s : State), (∀ straps, c ≠ .fullRestart straps) → exec c s = exec c s.restartFirst) ∧
  (∀ s : State, (∀ r, s.restart = some r → r.due = false) →
    s.restartFirst = s ∧
    (∀ p, s.settle.port p =
      match (s.port p).state, (s.port p).line, (s.port p).queue with
      | .listen, .idle len, e :: rest =>
        if (s.port p).params.quiet * 11 * (s.port p).params.baud.clkPerBit ≤ len then
          { s.port p with state := .sending 0 0, queue := { e with inTx := true } :: rest }
        else s.port p
      | _, _, _ => s.port p) ∧
    s.settle = { s with ports := s.settle.ports })

/-! ### Invariants -/

/-- The state after reset meets every invariant stated below. -/
def Obligations.ResetMeetsTheInvariants : Prop :=
  State.reset.quiescent = true ∧ State.reset.eventsComplete = true ∧ State.reset.darkUnpowered = true ∧
    State.reset.calendarReal = true ∧ State.reset.nothingStagedOnHold = true ∧
    State.reset.queuesSound = true ∧ State.reset.marksSound = true ∧ State.reset.buffersSound = true ∧
    State.reset.transactionsSound = true ∧ State.reset.paramsInRange = true ∧ State.reset.agesFit = true ∧
    State.reset.managersDistinct = true ∧ State.reset.pulseOnlyInPulseMode = true

/-- Every step ends with its event complete: no port in LISTEN has a queued entry and a quiet line, unless a
restart has fallen due (R21, log 6, log 8), and without main power nothing is queued, driven or pending (R132,
log 12). A restart that has fallen due is taken by the very next step (R179, log 8). -/
def Obligations.StepsKeepEventsComplete : Prop :=
  ∀ s t : State, s.paramsInRange = true → s.darkUnpowered = true → step s = .next t →
    (s.eventsComplete = true → t.eventsComplete = true) ∧ t.darkUnpowered = true ∧
    (∀ r, s.restart = some r → r.due = true → ∀ q, t.restart = some q → q.due = false)

/-- The calendar always holds a real date and time, its phase is below 32,768, a staged time is real (R133,
R134, R139), and nothing is staged while HOLD is on (R137). -/
def Obligations.StepsKeepTheCalendarReal : Prop :=
  ∀ s t : State, s.calendarReal = true → s.nothingStagedOnHold = true → step s = .next t →
    t.calendarReal = true ∧ t.nothingStagedOnHold = true

/-- Every queue keeps within 16 entries, in queue order, each entry with a stamp of its own (R50, R51). -/
def Obligations.StepsKeepTheQueuesSound : Prop :=
  ∀ s t : State, s.queuesSound = true → step s = .next t → t.queuesSound = true

/-- Every buffer stays accounted for: the free list holds exactly the free buffers, none twice; a receiving
port has the one buffer that is under reception by it; a held buffer's count, 1 to 3, is the number of
entries that refer to it (R44, R45, R50). -/
def Obligations.StepsKeepTheBuffersSound : Prop :=
  ∀ s t : State, s.queuesSound = true → s.buffersSound = true → step s = .next t → t.buffersSound = true

/-- Copies pending stays the number of entries linked to a transaction, an OPEN entry without a deadline
keeps a copy, and no two entries share a key (R105). That a withdrawn entry carries no link (R57), a premise here, is
kept by every step too (StepsKeepTheMarksSound). -/
def Obligations.StepsKeepTheTransactionsSound : Prop :=
  ∀ s t : State, s.queuesSound = true → s.marksSound = true → s.transactionsSound = true → step s = .next t →
    t.transactionsSound = true

/-- Every parameter stays in its range (R36, R174), every age below AGE_LIMIT (R62); the manager table keeps
station addresses alone, none twice (R169), and no pulse runs in LATCHED mode (R191). -/
def Obligations.StepsKeepTheSettingsSound : Prop :=
  ∀ s t : State, step s = .next t →
    (s.paramsInRange = true → s.agesFit = true → t.paramsInRange = true ∧ t.agesFit = true) ∧
    (s.managersDistinct = true → t.managersDistinct = true) ∧
    (s.pulseOnlyInPulseMode = true → t.pulseOnlyInPulseMode = true)

/-- A port in SENDING has exactly one entry that carries the in-transmission mark and no other port has one
(R20, R22, R25, R28); a removal is pending for a marked entry alone (R58), and a withdrawn one carries no link (R57). -/
def Obligations.StepsKeepTheMarksSound : Prop :=
  ∀ s t : State, s.queuesSound = true → s.marksSound = true → step s = .next t → t.marksSound = true

/-! ### Characters on a line -/

/-- An address character in LISTEN, GUARD or BACKOFF starts a frame in the buffer at the head of the free
list (R8, R45), or is dropped as NO_BUFFER (R9). -/
def Obligations.AddressCharacterStartsAFrame : Prop :=
  ∀ (s : State) (p : Port) (v : Byte), s.hears p = true → (s.port p).state.awaitsFrame = true →
    (∀ b rest, s.freeList = b :: rest →
      exec (.addressCharacter p v) s =
        .next ((({ s with freeList := rest }).setBuffer b ⟨.reception p, [v]⟩).updPort p fun u =>
          u.heard (.receiving ⟨b, 1, none, checkByte 0xFFFF#16 v⟩))) ∧
    (s.paramsInRange = true → s.freeList = [] →
      exec (.addressCharacter p v) s =
        .next (((s.countPort p .noBuffer).updPort p fun u => u.heard .listen).raise .poolExhausted))

/-- An address character inside a frame ends it as RESYNC and starts the next in the same buffer: FORMAT_ERRORS
is one more, the characters held are discarded, the value is the new D, the context holds 1 character, no expected
length and a check restarted from FFFFh that has taken in D; the port stays in RECEIVING, the buffer under reception
and the free list as it was. One with a missing stop bit ends the frame as FRAMING instead (R14). -/
def Obligations.AddressCharacterResyncs : Prop :=
  ∀ (s : State) (p : Port) (v : Byte) (r : Reception), s.hears p = true →
    (s.port p).state = .receiving r →
    exec (.addressCharacter p v) s =
      .next (((s.setChars r.buffer [v]).countPort p .formatErrors).updPort p fun u =>
        u.heard (.receiving ⟨r.buffer, 1, none, checkByte 0xFFFF#16 v⟩)) ∧
    (∀ t, exec (.addressCharacter p v) s = .next t →
      t.freeList = s.freeList ∧ (t.pool.get r.buffer).condition = (s.pool.get r.buffer).condition ∧
        t.portCounter p .noBuffer = s.portCounter p .noBuffer) ∧
    exec (.framingErrorCharacter p) s =
      .next (((s.freeUp r.buffer).countPort p .formatErrors).updPort p fun u =>
        { u with state := .listen, line := .startLevel, startHold := .oneBit })

/-- A data character inside a frame is stored after the characters held (R11): the fifth sets the expected
length to 7 + L, and the two check characters do not enter the running check. -/
def Obligations.DataCharacterIsStored : Prop :=
  ∀ (s : State) (p : Port) (v : Byte) (r : Reception), s.hears p = true →
    (s.port p).state = .receiving r →
    (r.held + 1 = 5 → v.toNat ≤ 64 →
      exec (.dataCharacter p v) s =
        .next ((s.setChars r.buffer (s.chars r.buffer ++ [v])).updPort p fun u =>
          u.heard (.receiving ⟨r.buffer, 5, some (7 + v.toNat), checkByte r.check v⟩))) ∧
    (r.held + 1 ≠ 5 → r.expected ≠ some (r.held + 1) →
      exec (.dataCharacter p v) s =
        .next ((s.setChars r.buffer (s.chars r.buffer ++ [v])).updPort p fun u =>
          u.heard (.receiving ⟨r.buffer, r.held + 1, r.expected,
            match r.expected with
            | some len => if r.held + 3 ≤ len then checkByte r.check v else r.check
            | none => checkByte r.check v⟩)))

/-- The ways a character ends a frame. It abandons one (R12) by FRAMING (R15), LONG (R13), and at the frame's last
character CHECK, BAD_SOURCE and BAD_KIND in that order (R17): the buffer joins the tail of the free list, the port
enters LISTEN and one counter advances. The last character of a frame that passes those three checks completes it
(R18): FRAMES_IN is one more, the port is in LISTEN while the frame is classified (log 7), and it is classified in the
same event, with the fields that its characters hold in positions 1 to 5 + L. -/
def Obligations.CharactersEndAFrame : Prop :=
  ∀ (s : State) (p : Port) (v : Byte) (r : Reception), s.hears p = true → s.paramsInRange = true →
    (s.port p).state = .receiving r →
    let cs := s.chars r.buffer ++ [v]
    let stored : State := s.setChars r.buffer cs
    let dropped (c : PortCounter) : State :=
      ((stored.freeUp r.buffer).countPort p c).updPort p fun u => u.heard .listen
    exec (.framingErrorCharacter p) s =
      .next (((s.freeUp r.buffer).countPort p .formatErrors).updPort p fun u =>
        { u with state := .listen, line := .startLevel, startHold := .oneBit }) ∧
    (r.held + 1 = 5 → 64 < v.toNat → exec (.dataCharacter p v) s = .next (dropped .formatErrors)) ∧
    (r.held + 1 ≠ 5 → r.expected = some (r.held + 1) → (s.chars r.buffer).length = r.held →
      (r.check ≠ checkValue (cs.getD (r.held - 1) 0) v →
        exec (.dataCharacter p v) s = .next (dropped .checkErrors)) ∧
      (r.check = checkValue (cs.getD (r.held - 1) 0) v →
        (isStation (cs.getD 1 0) = false ∨ kindOf (cs.getD 2 0) = none →
          exec (.dataCharacter p v) s = .next (dropped .formatErrors)) ∧
        (∀ k, isStation (cs.getD 1 0) = true → kindOf (cs.getD 2 0) = some k →
          let view : FrameView :=
            { dest := cs.getD 0 0
              source := cs.getD 1 0
              kind := k
              cls := (cs.getD 2 0 >>> 3).setWidth 2
              tag := cs.getD 3 0
              payload := (cs.drop 5).take (cs.length - 7) }
          let taken : State := (stored.countPort p .framesIn).updPort p fun u => u.heard .listen
          exec (.dataCharacter p v) s = .next (taken.classify p view r.buffer).settle)))

/-- Characters that start nothing: data characters and framing errors in LISTEN, GUARD and BACKOFF (R10), every
character of a port out of service (R3), and every character whose start bit the receiver did not take or that
comes before a line at the start level has returned to the idle level (R1, R15, R35). The line and what the
receiver waits for are all that changes (R1, R2, log 11); no stop bit is part of the idle stretch after it (log 33). -/
def Obligations.StrayCharactersStartNothing : Prop :=
  ∀ (s : State) (p : Port) (v : Byte), s.powered = true → s.quiescent = true → s.paramsInRange = true →
    let good : State := s.updPort p fun u => { u with line := .idle 0, startHold := .ready }
    let bad : State := s.updPort p fun u => { u with line := .startLevel, startHold := .oneBit }
    ((s.port p).line = .character ∨ (∃ n, (s.port p).line = .idle n) →
      ((s.port p).state.awaitsFrame = true ∨ (s.port p).state.outOfService = true →
        exec (.dataCharacter p v) s = .next good ∧ exec (.framingErrorCharacter p) s = .next bad) ∧
      ((s.port p).state.outOfService = true → exec (.addressCharacter p v) s = .next good)) ∧
    ((s.port p).line = .undecoded ∨ (s.port p).line = .startLevel →
      exec (.addressCharacter p v) s = .next (s.updPort p fun u => { u with line := .idle 0 }) ∧
      exec (.dataCharacter p v) s = .next (s.updPort p fun u => { u with line := .idle 0 }) ∧
      exec (.framingErrorCharacter p) s = .next (s.updPort p fun u => { u with line := .startLevel }))

/-- A start bit ends the idle stretch (R2) and is taken by a receiver in service that has seen the idle level
long enough: no wait after a good character, 1 bit time after a framing error, 1 ct after a resume (R1,
R35). The return to the idle level begins an idle stretch (R2). A start bit on a line that is not idle, and a return
to the idle level of one that stands there or carries a character, change nothing (log 3). -/
def Obligations.LineLevelsAreFollowed : Prop :=
  ∀ (s : State) (p : Port), s.powered = true → s.quiescent = true → s.paramsInRange = true →
    let wait : Nat :=
      match (s.port p).startHold with
      | .ready => 0
      | .oneBit => (s.port p).params.baud.clkPerBit
      | .oneCt => 11 * (s.port p).params.baud.clkPerBit
    (∀ len, (s.port p).line = .idle len →
      ((s.port p).state.outOfService = false → wait ≤ len →
        exec (.startBit p) s = .next (s.updPort p fun u => { u with line := .character, startHold := .ready })) ∧
      ((s.port p).state.outOfService = true ∨ len < wait →
        exec (.startBit p) s = .next (s.updPort p fun u => { u with line := .undecoded })) ∧
      exec (.lineReturnsToIdle p) s = .next s) ∧
    ((s.port p).line = .character → exec (.startBit p) s = .next s ∧ exec (.lineReturnsToIdle p) s = .next s) ∧
    ((s.port p).line = .startLevel ∨ (s.port p).line = .undecoded →
      exec (.startBit p) s = .next s ∧
      exec (.lineReturnsToIdle p) s = .next (s.updPort p fun u => { u with line := .idle 0 }))

/-- An idle stretch that passes 3 ct inside a frame abandons it as TRUNCATED (R16, R12); one that reaches
2 ct returns the busy span to zero (R30). The row takes the stretch to have reached the length named (log 2), and
the busy span is zero at every such length. Out of RECEIVING, and on a line without an idle stretch, the moment
cannot come and the row leaves the state as it is (log 3). -/
def Obligations.IdleStretchesReachTheirLengths : Prop :=
  ∀ (s : State) (p : Port), s.powered = true → s.quiescent = true →
    let bit := (s.port p).params.baud.clkPerBit
    (∀ r len, (s.port p).state = .receiving r → (s.port p).line = .idle len →
      exec (.truncated p) s =
        .next (((s.freeUp r.buffer).countPort p .formatErrors).updPort p fun u =>
          { u with state := .listen, line := .idle (max len (3 * 11 * bit + 1)), busySpan := 0 }).settle) ∧
    (∀ len, (s.port p).line = .idle len →
      exec (.idleStretchReaches2Ct p) s =
        .next (s.updPort p fun u => { u with line := .idle (max len (2 * 11 * bit)), busySpan := 0 }).settle) ∧
    ((s.port p).line.idleStretch = none →
      exec (.truncated p) s = .next s ∧ exec (.idleStretchReaches2Ct p) s = .next s) ∧
    ((∀ r, (s.port p).state ≠ .receiving r) → exec (.truncated p) s = .next s)

/-- What a sender forms is what the receiver reads: a character's bits, start bit, data bits 0 to 7, address flag,
stop bit (R1, R196), a frame's fields and its check (R4 to R6), and the numbers of a command (R197, R199). The check
is the one with generator 1021h, started from FFFFh, each character's most significant bit first, its high eight
bits sent first (R6), and every rate divides CLK as the scope's character time says. A valid source is an address 1 to 239
(R4), and two kind codes name no kind (R5). A frame the coupler makes is one of class 3 with the unused bits 0, its check
formed like any other's (R96, R126, R168, R196). -/
def Obligations.EncodingsReadBack : Prop :=
  (∀ (v : Byte) (flag : Bool),
    characterBits v flag =
      [false, v.getLsbD 0, v.getLsbD 1, v.getLsbD 2, v.getLsbD 3, v.getLsbD 4, v.getLsbD 5, v.getLsbD 6, v.getLsbD 7,
        flag, true] ∧
    sampleCharacter (characterBits v flag).tail = .good v flag) ∧
  (∀ bits : List Bool, bits.getD 9 false = false → sampleCharacter bits = .framingError) ∧
  (checkOf [] = 0xFFFF#16 ∧
    (∀ (cs : List Byte) (v : Byte), checkOf (cs ++ [v]) = checkByte (checkOf cs) v) ∧
    (∀ (c : Check) (v : Byte),
      let next (c : Check) (bit : Bool) : Check :=
        if c.getLsbD 15 = bit then c <<< 1 else (c <<< 1) ^^^ 0x1021#16
      checkByte c v =
        next (next (next (next (next (next (next (next c (v.getLsbD 7)) (v.getLsbD 6)) (v.getLsbD 5))
          (v.getLsbD 4)) (v.getLsbD 3)) (v.getLsbD 2)) (v.getLsbD 1)) (v.getLsbD 0)) ∧
    ∀ high low : Byte, (checkValue high low).toNat = high.toNat * 256 + low.toNat) ∧
  (∀ (f : Frame) (k : Kind), f.payload.length ≤ 64 →
    let body := [f.dest, f.source, (f.unused ++ f.cls) ++ k.code, f.tag, BitVec.ofNat 8 f.payload.length] ++ f.payload
    let cs := framedChars f k
    cs = body ++ [(checkOf body >>> 8).setWidth 8, (checkOf body).setWidth 8] ∧
      (cs.getD 4 0).toNat = f.payload.length ∧ viewFrame cs k = viewOf f k ∧ kindOf (cs.getD 2 0) = some k ∧
      checkOf (cs.take (5 + f.payload.length)) =
        checkValue (cs.getD (5 + f.payload.length) 0) (cs.getD (6 + f.payload.length) 0)) ∧
  ([Kind.datagram, .request, .reply, .notice, .manage, .result].map Kind.code = [0, 1, 2, 3, 4, 5]) ∧
  (∀ v : Byte, (∀ k, kindOf v = some k ↔ v.setWidth 3 = k.code) ∧
    (isStation v = true ↔ 1 ≤ v.toNat ∧ v.toNat ≤ 239) ∧ isStationAddress v = isStation v) ∧
  (∀ (dest source tag : Byte) (k : Kind) (payload : List Byte),
    generatedChars dest source tag k payload =
      framedChars { dest := dest, source := source, cls := 3, unused := 0, tag := tag, payload := payload } k) ∧
  (∀ v : BitVec 32, ∃ a b c d, fourBytes v = [a, b, c, d] ∧ numberOf a b c d = v.toNat) ∧
  (∀ n : Nat, n < 100 → ofBcd (bcd n) = some n ∧ (bcd n).toNat = n / 10 * 16 + n % 10) ∧
  (∀ r : Baud, r.rate * r.clkPerBit = 29491200 ∧ ∀ n, r.ct n = n * 11 * r.clkPerBit)

/-! ### Received frames -/

/-- A whole frame sent on the line of a port in LISTEN, GUARD or BACKOFF passes its checks and is classified in
the event of its last character (R4, R8, R11, R17, R18, log 1, log 7): its characters stand in the buffer at
the head of the free list, the port listens, FRAMES_IN is one more. -/
def Obligations.FrameIsReceivedAndClassified : Prop :=
  ∀ (s : State) (k : Kind) (p : Port) (f : Frame) (b : BufferIx) (t : State), FrameArrives s k p f b t →
    exec (frameRow k p f) s = .next (t.classify p (viewOf f k) b).settle

/-- Learning drops a frame from the own address (ADDRESS_CLASH), from a BARRED station and from a station
PINNED elsewhere (MISPLACED), with the counter and the alert of each (R64, R65), and its buffer goes free (R82). -/
def Obligations.LearningDropsFrames : Prop :=
  ∀ (s : State) (k : Kind) (p : Port) (f : Frame) (b : BufferIx) (t : State), FrameArrives s k p f b t →
    (f.source = s.params.ownAddress →
      exec (frameRow k p f) s = .next (((t.count .addressClash).raise .addressClash).freeUp b).settle) ∧
    (f.source ≠ s.params.ownAddress → (s.station f.source).state = .barred →
      exec (frameRow k p f) s = .next ((t.count .barred).freeUp b).settle) ∧
    (∀ home, f.source ≠ s.params.ownAddress → (s.station f.source).state = .pinned home → home ≠ p →
      exec (frameRow k p f) s = .next (((t.count .misplaced).raise .misplaced).freeUp b).settle)

/-- A frame for the own address goes no further, whatever FORWARDING is: an answer is UNSOLICITED (R85), a
DATAGRAM, REQUEST or NOTICE is a format error of its port (R86), a MANAGE is a command (R84). -/
def Obligations.FramesForTheOwnAddress : Prop :=
  ∀ (s : State) (p : Port) (f : Frame) (b : BufferIx) (u : State), f.dest = s.params.ownAddress →
    (∀ k, k = .reply ∨ k = .result → FrameLearned s k p f b u →
      exec (frameRow k p f) s = .next ((u.count .unsolicited).freeUp b).settle) ∧
    (∀ k, k = .datagram ∨ k = .request ∨ k = .notice → FrameLearned s k p f b u →
      exec (frameRow k p f) s = .next ((u.countPort p .formatErrors).freeUp b).settle) ∧
    (FrameLearned s .manage p f b u →
      exec (.manage p f) s = .next ((u.manage p (viewOf f .manage)).freeUp b).settle)

/-- The drops of a frame for another address: FORWARDING_OFF (R87), LOCAL_FILTERED (R94), NO_ROUTE and BARRED
with a NOTICE NO_ROUTE to the sender of a REQUEST or MANAGE to a station (R95, R96), and POOL_LOW (R48, R97). -/
def Obligations.FramesThatGoNoFurther : Prop :=
  ∀ (s : State) (k : Kind) (p : Port) (f : Frame) (b : BufferIx) (u : State), FrameLearned s k p f b u →
    f.dest ≠ s.params.ownAddress →
    let unrouted (c : CouplerCounter) : State :=
      if k = .request ∨ k = .manage then
        ((u.count c).notify p ⟨f.source, f.dest, f.tag, k.exchange⟩ .noRoute).freeUp b
      else (u.count c).freeUp b
    (s.params.forwarding = false → exec (frameRow k p f) s = .next ((u.count .forwardingOff).freeUp b).settle) ∧
    (s.params.forwarding = true → k ≠ .reply → k ≠ .result →
      (isStationAddress f.dest = true →
        ((u.station f.dest).state.home = some p →
          exec (frameRow k p f) s = .next ((u.count .localFiltered).freeUp b).settle) ∧
        ((u.station f.dest).state = .barred → exec (frameRow k p f) s = .next (unrouted .barred).settle) ∧
        ((u.station f.dest).state = .unknown → s.params.unknownPolicy = .drop →
          exec (frameRow k p f) s = .next (unrouted .noRoute).settle)) ∧
      (240 ≤ f.dest.toNat → u.targetsFor p f.dest = [] →
        exec (frameRow k p f) s = .next ((u.count .noRoute).freeUp b).settle) ∧
      (u.targetsFor p f.dest ≠ [] → k ≠ .notice → u.freeList.length < s.params.reserve →
        exec (frameRow k p f) s = .next (((u.count .poolLow).raise .poolExhausted).freeUp b).settle))

/-- A DATAGRAM or NOTICE, and a REQUEST or MANAGE to the broadcast or a group address: each target, ascending,
judges one untracked entry at the lower of the class and the source's ceiling, and counts its own refusal; the
buffer is held by as many as were admitted, or freed (R46, R52, R54, R90 to R92, R98, R99, R101). Ranks C0 to C3 are
those of classes 0 to 3 (R68), and segments are taken in ascending order. -/
def Obligations.UntrackedFramesAreQueued : Prop :=
  (∀ (s : State) (k : Kind) (p : Port) (f : Frame) (b : BufferIx) (u : State), FrameLearned s k p f b u →
    f.dest ≠ s.params.ownAddress → s.params.forwarding = true →
    k = .datagram ∨ k = .notice ∨ ((k = .request ∨ k = .manage) ∧ isStationAddress f.dest = false) →
    u.targetsFor p f.dest ≠ [] → (k = .notice ∨ s.params.reserve ≤ u.freeList.length) →
    let w := u.offerEach (u.targetsFor p f.dest) ⟨b, u.rankFor f, .forwarded, none⟩
    let admitted := (u.takers (u.targetsFor p f.dest) (u.rankFor f)).length
    exec (frameRow k p f) s =
      .next (if admitted = 0 then w.freeUp b else w.setCondition b (.held admitted)).settle) ∧
  [0#2, 1#2, 2#2, 3#2].map Rank.ofClass = [.c0, .c1, .c2, .c3] ∧
  (∀ p : Port, segmentsExcept p = [0, 1, 2, 3].filter fun q => q ≠ p) ∧
  (∀ m : SegmentMask, SegmentMask.segments m = [0, 1, 2, 3].filter fun q : Port => m.getLsbD q.val)

/-- A REQUEST or MANAGE to a station on another segment, of a key the table does not hold and within the requester
limit. It takes the lowest FREE entry or, where none is FREE, reclaims the LAPSED entry with the smallest lapse
stamp, which is lost whatever follows (R109). Each target, ascending, judges its own linked copy (R54, R110). With
one admitted the entry opens; with none it stays FREE and the requester gets the notice that the refusal of the
lowest target names (R111). -/
def Obligations.RequestsOpenATransaction : Prop :=
  ∀ (s : State) (k : Kind) (p : Port) (f : Frame) (b : BufferIx) (u : State) (i : TxIx),
    FrameLearned s k p f b u → k = .request ∨ k = .manage → f.dest ≠ s.params.ownAddress →
    s.params.forwarding = true → isStationAddress f.dest = true → u.targetsFor p f.dest ≠ [] →
    s.params.reserve ≤ u.freeList.length →
    let key : TxKey := ⟨f.source, f.dest, f.tag, k.exchange⟩
    let targets := u.targetsFor p f.dest
    let w := (u.setTx i .free).offerEach targets ⟨b, u.rankFor f, .forwarded, some i⟩
    let admitted := (u.takers targets (u.rankFor f)).length
    (∀ j, u.keyOf j ≠ some key) → u.openCount f.source < s.params.maxOutstanding →
    (u.tx i = .free ∧ ∀ j, j < i → u.tx j ≠ .free) ∨
      ((∀ j, u.tx j ≠ .free) ∧ ∃ c m g, u.tx i = .lapsed c m g ∧
        ∀ j c' m' g', j ≠ i → u.tx j = .lapsed c' m' g' → m < m') →
    (admitted ≠ 0 → exec (frameRow k p f) s =
      .next ((((w.setTx i (.opened ⟨key, p, (u.station f.dest).state.home, 0⟩ admitted none)).count
        .txOpened).setCondition b (.held admitted))).settle) ∧
    (admitted = 0 → exec (frameRow k p f) s =
      .next ((w.notify p key (u.refusalCause targets (u.rankFor f))).freeUp b).settle)

/-- A tracked request whose key the table holds (R107): a DUPLICATE is dropped (R115); a retry of an OPEN entry
with a deadline withdraws its copies and is sent afresh (R117), one of a LAPSED entry is sent afresh within
the requester limit (R118), by the segment recorded for the responder or to all segments (R116), each queue judging
its own copy (R54). With none admitted the entry becomes FREE and the requester gets the notice that the refusal of
the lowest target names (R119). -/
def Obligations.RequestsOfAKnownKey : Prop :=
  ∀ (s : State) (k : Kind) (p : Port) (f : Frame) (b : BufferIx) (u : State) (i : TxIx) (c : TxCore),
    FrameLearned s k p f b u → k = .request ∨ k = .manage → f.dest ≠ s.params.ownAddress →
    s.params.forwarding = true → isStationAddress f.dest = true → u.targetsFor p f.dest ≠ [] →
    s.params.reserve ≤ u.freeList.length → u.transactionsSound = true →
    c.key = ⟨f.source, f.dest, f.tag, k.exchange⟩ →
    let targets : List Port :=
      match c.responderSegment with
      | some q => if q = p then u.targetsFor p f.dest else [q]
      | none => segmentsExcept p
    let afresh (w : State) : State :=
      let x := w.offerEach targets ⟨b, u.rankFor f, .forwarded, some i⟩
      let admitted := (w.takers targets (u.rankFor f)).length
      if admitted = 0 then
        ((x.setTx i .free).notify p c.key (w.refusalCause targets (u.rankFor f))).freeUp b
      else
        (x.setTx i (.opened { c with requesterSegment := p, retries := min 255 (c.retries + 1) } admitted
          none)).setCondition b (.held admitted)
    (∀ n, u.tx i = .opened c n none →
      exec (frameRow k p f) s = .next ((u.count .duplicates).freeUp b).settle) ∧
    (∀ n d, u.tx i = .opened c n (some d) → exec (frameRow k p f) s = .next (afresh (u.withdraw i)).settle) ∧
    (∀ m g, u.tx i = .lapsed c m g →
      (s.params.maxOutstanding ≤ u.openCount f.source →
        exec (frameRow k p f) s =
          .next (((u.count .requesterLimit).notify p c.key .requesterLimit).freeUp b).settle) ∧
      (u.openCount f.source < s.params.maxOutstanding →
        exec (frameRow k p f) s = .next (afresh u).settle))

/-- A tracked request of a new key is refused with its counter and a notice to its requester: at the
requester limit (R108), and when every entry is OPEN (R109). The limit counts the OPEN entries of the requester alone
(R108). -/
def Obligations.RequestsAreRefused : Prop :=
  (∀ (s : State) (k : Kind) (p : Port) (f : Frame) (b : BufferIx) (u : State),
    FrameLearned s k p f b u → k = .request ∨ k = .manage → f.dest ≠ s.params.ownAddress →
    s.params.forwarding = true → isStationAddress f.dest = true → u.targetsFor p f.dest ≠ [] →
    s.params.reserve ≤ u.freeList.length →
    let key : TxKey := ⟨f.source, f.dest, f.tag, k.exchange⟩
    (∀ j, u.keyOf j ≠ some key) →
    (s.params.maxOutstanding ≤ u.openCount f.source →
      exec (frameRow k p f) s =
        .next (((u.count .requesterLimit).notify p key .requesterLimit).freeUp b).settle) ∧
    (u.openCount f.source < s.params.maxOutstanding → (∀ j, (u.tx j).isOpen = true) →
      exec (frameRow k p f) s =
        .next ((((u.count .tableFull).raise .tableFull).notify p key .tableFull).freeUp b).settle)) ∧
  (∀ (s : State) (a : Byte), s.openCount a =
    ((List.finRange 32).filter fun i =>
      match s.tx i with
      | .opened c _ _ => c.key.requester == a
      | .lapsed _ _ _ => false
      | .free => false).length)

/-- An answer to another station: one that matches an OPEN entry withdraws its copies, closes it and requests
admission EXPRESS to the requester segment recorded there, unless it arrived on it; admitted, it may displace an
entry, refused, it is dropped and its buffer freed (R53, R89, R120, R121). One that matches a LAPSED entry is late, one
that matches none is UNSOLICITED (R122). -/
def Obligations.AnswersCloseTransactions : Prop :=
  ∀ (s : State) (k : Kind) (p : Port) (f : Frame) (b : BufferIx) (u : State),
    FrameLearned s k p f b u → k = .reply ∨ k = .result → f.dest ≠ s.params.ownAddress →
    s.params.forwarding = true → u.transactionsSound = true →
    let key : TxKey := ⟨f.dest, f.source, f.tag, k.exchange⟩
    (∀ i c n d, u.tx i = .opened c n d → c.key = key →
      let w := (((u.withdraw i).setTx i .free).count .txAnswered)
      (c.requesterSegment = p → exec (frameRow k p f) s = .next (w.freeUp b).settle) ∧
      (c.requesterSegment ≠ p → ∀ v x,
        w.requestAdmission c.requesterSegment ⟨b, .express, .forwarded, none⟩ = (v, x) →
        (v = .admitted → exec (frameRow k p f) s = .next (x.setCondition b (.held 1)).settle) ∧
        (v ≠ .admitted → exec (frameRow k p f) s = .next (x.freeUp b).settle))) ∧
    (∀ i c m g, u.tx i = .lapsed c m g → c.key = key →
      exec (frameRow k p f) s = .next ((u.count .lateReplies).freeUp b).settle) ∧
    ((∀ j, u.keyOf j ≠ some key) →
      exec (frameRow k p f) s = .next ((u.count .unsolicited).freeUp b).settle)

/-! ### Queues -/

/-- What each disposition admits, by rank and origin (R150). A request for admission to a port in service is refused
as WINDOW exactly where the present disposition does not admit it, with WINDOW_DROPS one more. A window purge refuses
exactly the entries already queued that the present disposition does not admit: of those, one in transmission takes
pending removal WINDOW, unless it already holds WITHDRAWN, and stays; every other is removed with cause WINDOW, in queue order,
which counts WINDOW_DROPS and reports a linked copy; no admitted entry is touched. -/
def Obligations.DispositionsAdmitByRankAndOrigin : Prop :=
  (∀ (d : Disposition) (r : Rank), d ≠ .quiet ∨ r = .express → d.admits r .generated = true) ∧
  (∀ r : Rank, Disposition.opened.admits r .forwarded = true) ∧
  (∀ r : Rank, Disposition.limited1.admits r .forwarded = true ↔ r ≠ .c0) ∧
  (∀ r : Rank, Disposition.limited2.admits r .forwarded = true ↔ r ≠ .c0 ∧ r ≠ .c1) ∧
  (∀ r : Rank, Disposition.limited3.admits r .forwarded = true ↔ r = .c3 ∨ r = .express) ∧
  (∀ r : Rank, Disposition.quiet.admits r .forwarded = true ↔ r = .express) ∧
  (∀ r : Rank, Disposition.closed.admits r .forwarded = false) ∧
  (∀ (s : State) (p : Port) (n : NewEntry), (s.port p).state.outOfService = false →
    ((s.requestAdmission p n).1 = .window ↔ (s.disposition p).admits n.rank n.origin = false) ∧
    ((s.disposition p).admits n.rank n.origin = false →
      s.requestAdmission p n = (.window, s.countPort p .windowDrops))) ∧
  (∀ (s : State) (p : Port), s.queuesSound = true →
    let refused (e : QueueEntry) : Bool := !(s.disposition p).admits e.rank e.origin
    let marked := s.updPort p fun u =>
      { u with
        queue := u.queue.map fun e =>
          if e.inTx = true ∧ refused e = true ∧ e.pendingRemoval ≠ some .withdrawn then
            { e with pendingRemoval := some .window }
          else e }
    s.purgeWindow p =
      ((marked.queue p).filter fun e => !e.inTx && refused e).foldl (fun t e => t.remove p e .window) marked ∧
    ∀ e, (e.inTx = false → refused e = false → e ∈ s.queue p → e ∈ (s.purgeWindow p).queue p) ∧
      (e ∈ (s.purgeWindow p).queue p → e.inTx = false → refused e = false))

/-- A request for admission is judged by three tests in this order (R52): a port out of service refuses it as
UNREACHABLE; a disposition that does not admit it as WINDOW; a queue with room takes it, with the fields of
R50 and a new stamp (R51); a full one refuses a class rank as QUEUE_FULL. At a full queue an EXPRESS request
displaces the last entry in queue order, the newest of the lowest rank, if that is neither EXPRESS nor in
transmission: first the displaced entry goes with its counter, its buffer reference and the report of its link, then
the EXPRESS entry is admitted (R53), its place, and a buffer for a generated frame, being kept through that report
(log 9). A generated frame needs a free buffer beside (R47). -/
def Obligations.AdmissionIsJudged : Prop :=
  (∀ (s : State) (p : Port) (n : NewEntry),
    let displaced (e : QueueEntry) : State := ((s.dequeue p e).release e.buffer).countPort p .queueFull
    ((s.port p).state.outOfService = true →
      s.requestAdmission p n = (.unreachable, s.countPort p .unreachable)) ∧
    ((s.port p).state.outOfService = false → (s.disposition p).admits n.rank n.origin = false →
      s.requestAdmission p n = (.window, s.countPort p .windowDrops)) ∧
    ((s.port p).state.outOfService = false → (s.disposition p).admits n.rank n.origin = true →
      (s.queue p).length < 16 →
      s.requestAdmission p n = (.admitted, s.enqueue p n) ∧
        (s.enqueue p n).nextStamp = s.nextStamp + 1 ∧
        (∀ e, e ∈ (s.enqueue p n).queue p ↔
          e ∈ s.queue p ∨ e = ⟨n.buffer, n.rank, s.nextStamp, 0, false, n.origin, n.link, none⟩)) ∧
    ((s.port p).state.outOfService = false → (s.disposition p).admits n.rank n.origin = true →
      16 ≤ (s.queue p).length →
      (n.rank ≠ .express → s.requestAdmission p n = (.queueFull, s.countPort p .queueFull)) ∧
      (∀ front e, n.rank = .express → s.queue p = front ++ [e] →
        (e.rank = .express ∨ e.inTx = true →
          s.requestAdmission p n = (.queueFull, s.countPort p .queueFull)) ∧
        (e.rank ≠ .express → e.inTx = false →
          (e.link = none → s.requestAdmission p n = (.admitted, (displaced e).enqueue p n)) ∧
          (∀ i, e.link = some i → s.requestAdmission p n =
            (.admitted, (copyRemoved 33 .queueFull ⟨[p], 0⟩ i (displaced e)).enqueue p n)))))) ∧
  (∀ (s : State) (owed : Owed) (p : Port) (chars : List Byte),
    let place := s.placeGenerated (copyRemoved 33 .queueFull) owed p chars
    let full : Prop := 16 ≤ (s.queue p).length + owed.places.count p
    let displaced (e : QueueEntry) : State := ((s.dequeue p e).release e.buffer).countPort p .queueFull
    let joined (t : State) (b : BufferIx) (rest : List BufferIx) : Option BufferIx × State :=
      (some b, { t.enqueue p ⟨b, .express, .generated, none⟩ with freeList := rest }.setBuffer b ⟨.held 1, chars⟩)
    (s.freeList.length ≤ owed.buffers → place = (none, s)) ∧
    (owed.buffers < s.freeList.length →
      ((s.port p).state.outOfService = true → place = (none, s.countPort p .unreachable)) ∧
      ((s.port p).state.outOfService = false →
        (¬ full → ∀ b rest, s.freeList = b :: rest → place = joined s b rest) ∧
        (full → s.queue p = [] → place = (none, s.countPort p .queueFull)) ∧
        (full → ∀ front e, s.queue p = front ++ [e] →
          (e.rank = .express ∨ e.inTx = true → place = (none, s.countPort p .queueFull)) ∧
          (e.rank ≠ .express → e.inTx = false →
            (e.link = none → ∃ b rest, (displaced e).freeList = b :: rest ∧ place = joined (displaced e) b rest) ∧
            (∀ i, e.link = some i →
              let t := copyRemoved 33 .queueFull ⟨p :: owed.places, owed.buffers + 1⟩ i (displaced e)
              ∃ b rest, t.freeList = b :: rest ∧ place = joined t b rest)))))) ∧
  (∀ st : PortState, st.outOfService = true ↔ st = .disabled ∨ ∃ n, st = .contained n)

/-- What leaving a queue does. A removal takes the entry out, gives up its buffer reference (the last one frees the
buffer), advances its cause's counter, reports a linked copy and tells the Management Unit when it was the awaited
RESTART result (R55, R179). A completed copy starts the deadline if none runs (R112). A copy removed otherwise leaves
copies pending one less, and an entry left with no copy and no deadline becomes FREE, its requester owed the notice
of the removal's cause (R113, R126), counted as sent or lost (R192). A withdrawal takes every linked entry out of
every queue with no counter and no report, but for one in transmission, which loses its link and takes pending
removal WITHDRAWN (R57). Any notice about a request is a generated frame to its requester that names the cause, the
responder and the exchange by the codes of 11.4, counted as sent or lost (R96, R126, R192). The model's choices, which
no rule states: a withdrawal goes through the ports in ascending order, which decides the order of the buffers it frees
(log 15); the report of a displaced copy comes before the entry that displaced it is admitted, whose place and buffer
stay owed meanwhile (log 9); and a chain of such reports is followed with a bound of 33, which it never reaches
(log 30). -/
def Obligations.RemovalsReportAndWithdraw : Prop :=
  (∀ (s : State) (p : Port) (e : QueueEntry),
    let left := (s.setQueue p ((s.queue p).filter fun x => x.stamp ≠ e.stamp)).release e.buffer
    let told (t : State) : State :=
      match t.restart with
      | some r =>
        if e.origin = .generated ∧ r.buffer = e.buffer then { t with restart := some ⟨r.kind, r.buffer, true⟩ } else t
      | none => t
    let counted (c : PortCounter) (report : State → TxIx → State) : State :=
      match e.link with
      | some i => told (report (left.countPort p c) i)
      | none => told (left.countPort p c)
    s.remove p e .completion = counted .framesOut (fun t i => t.reportCompleted i p) ∧
    s.remove p e .undeliverable = counted .undeliverable (fun t i => t.reportRemoved i .undeliverable) ∧
    s.remove p e .window = counted .windowDrops (fun t i => t.reportRemoved i .window) ∧
    s.remove p e .unreachable = counted .unreachable (fun t i => t.reportRemoved i .contained) ∧
    s.remove p e .withdrawn = told left) ∧
  (∀ (s : State) (b : BufferIx),
    (∀ n, (s.pool.get b).condition = .held n →
      (1 < n → s.release b = s.setCondition b (.held (n - 1))) ∧
      (n ≤ 1 → s.release b = { s.setCondition b .free with freeList := s.freeList ++ [b] })) ∧
    ((∀ n, (s.pool.get b).condition ≠ .held n) → s.release b = s) ∧
    s.freeUp b = { s.setCondition b .free with freeList := s.freeList ++ [b] }) ∧
  (∀ (s : State) (i : TxIx) (p : Port),
    (∀ c n, s.tx i = .opened c n none →
      s.reportCompleted i p = s.setTx i (.opened c (n - 1) (some ⟨(s.port p).params.replyTimeout, p⟩))) ∧
    (∀ c n d, s.tx i = .opened c n (some d) → s.reportCompleted i p = s.setTx i (.opened c (n - 1) (some d))) ∧
    ((s.tx i).isOpen = false → s.reportCompleted i p = s)) ∧
  (∀ (s : State) (i : TxIx) (loss : CopyLoss),
    s.reportRemoved i loss = copyRemoved 33 loss ⟨[], 0⟩ i s ∧
    ∀ owed : Owed,
      ((s.tx i).isOpen = false → copyRemoved 33 loss owed i s = s) ∧
      (∀ c n d, s.tx i = .opened c n (some d) →
        copyRemoved 33 loss owed i s = s.setTx i (.opened c (n - 1) (some d))) ∧
      (∀ c n, s.tx i = .opened c n none →
        (1 < n → copyRemoved 33 loss owed i s = s.setTx i (.opened c (n - 1) none)) ∧
        (n ≤ 1 →
          let cause : NoticeCause :=
            match loss with
            | .undeliverable | .queueFull => .undeliverable
            | .window => .window
            | .contained => .contained
          let notice := generatedChars c.key.requester s.params.ownAddress c.key.tag .notice
            [cause.code, c.key.responder, c.key.exchange.code]
          copyRemoved 33 loss owed i s =
            match (s.setTx i .free).placeGenerated (copyRemoved 33 .queueFull) owed c.requesterSegment notice with
            | (some _, t) => t.count .noticesSent
            | (none, t) => t.count .noticesLost))) ∧
  (∀ (s : State) (i : TxIx), s.queuesSound = true →
    let gone := s.entries.filter fun e => !e.inTx && e.link == some i
    let w := s.withdraw i
    (∀ p, w.port p =
      { s.port p with
        queue := ((s.queue p).filter fun e => e.inTx || e.link != some i).map fun e =>
          if e.link = some i then { e with link := none, pendingRemoval := some .withdrawn } else e }) ∧
    w = { gone.foldl (fun t e => (t.release e.buffer).toldDeparture e) s with ports := w.ports }) ∧
  (∀ (s : State) (p : Port) (key : TxKey) (cause : NoticeCause),
    let notice := generatedChars key.requester s.params.ownAddress key.tag .notice
      [cause.code, key.responder, key.exchange.code]
    s.notify p key cause =
      match s.placeGenerated (copyRemoved 33 .queueFull) ⟨[], 0⟩ p notice with
      | (some _, t) => t.count .noticesSent
      | (none, t) => t.count .noticesLost) ∧
  ([NoticeCause.noAnswer, .undeliverable, .tableFull, .requesterLimit, .noRoute, .window, .contained].map
    NoticeCause.code = [1, 2, 3, 4, 5, 6, 7]) ∧
  ([Exchange.ordinary, .management].map Exchange.code = [0, 1])

/-! ### Transmission -/

/-- When the line has been quiet for QUIET ct (the stretch taken to have reached it, log 2), a port in LISTEN selects
the first entry of its queue, marks it and sends the first character of its frame with the address flag set (R20 to
R23, log 32); a port with an empty queue stays in LISTEN. A stretch of 2 ct or more has the busy span at zero (R30). On
a line without an idle stretch, and in any other state, nothing starts (R21, log 3). -/
def Obligations.QuietLineStartsATransmission : Prop :=
  ∀ (s : State) (p : Port), s.powered = true → s.quiescent = true →
    (∀ len, (s.port p).state = .listen → (s.port p).line = .idle len →
      let bit := (s.port p).params.baud.clkPerBit
      let stretch := max len ((s.port p).params.quiet * 11 * bit)
      let span := if 2 * 11 * bit ≤ stretch then 0 else (s.port p).busySpan
      (s.queue p = [] →
        exec (.startTransmission p) s = .next (s.updPort p fun u => { u with line := .idle stretch, busySpan := span })) ∧
      (∀ e rest, s.queue p = e :: rest →
        let t := s.updPort p fun u =>
          { u with
            line := .idle stretch
            busySpan := span
            state := .sending 0 0
            queue := { e with inTx := true } :: rest }
        exec (.startTransmission p) s = .next t ∧ (t.port p).state.dirAsserted = true ∧
          ∀ d cs, s.chars e.buffer = d :: cs → t.txd p = some (d, true))) ∧
    ((s.port p).state ≠ .listen ∨ (s.port p).line.idleStretch = none → exec (.startTransmission p) s = .next s)

/-- A character on the line and one read back are one event: it goes to the echo check in SENDING (R3), and in every
other state ECHO_CHARACTER goes where the port state sends a character (log 25). A character other than the last
that is read back as it was sent lets the transmitter go on (R24), the time since the first character began running
on (log 18). -/
def Obligations.CorrectEchoGoesOn : Prop :=
  (∀ (s : State) (p : Port) (v : Byte),
    exec (.addressCharacter p v) s = exec (.echoCharacter p (.good v true)) s ∧
      exec (.dataCharacter p v) s = exec (.echoCharacter p (.good v false)) s ∧
      exec (.framingErrorCharacter p) s = exec (.echoCharacter p .framingError) s) ∧
  (∀ (s : State) (p : Port) (pos elapsed : Nat) (e : QueueEntry) (v : Byte), s.hears p = true →
    (s.port p).state = .sending pos elapsed → inTransmission (s.queue p) = some e →
    (s.chars e.buffer)[pos]? = some v → pos + 1 < (s.chars e.buffer).length →
    exec (.echoCharacter p (.good v (pos == 0))) s =
      .next (s.updPort p fun u => u.heard (.sending (pos + 1) elapsed)))

/-- The last character read back as it was sent completes the attempt (R28, R55, R58): the entry leaves its
queue, its buffer reference is released, FRAMES_OUT advances, a linked transaction hears of it (R112), the
Management Unit is told (R55), and the port enters GUARD after a copy of a tracked request, else LISTEN. -/
def Obligations.LastEchoCompletes : Prop :=
  ∀ (s : State) (p : Port) (pos elapsed : Nat) (e : QueueEntry) (v : Byte), s.hears p = true →
    (s.port p).state = .sending pos elapsed → inTransmission (s.queue p) = some e →
    (s.chars e.buffer)[pos]? = some v → (s.chars e.buffer).length = pos + 1 →
    let t := ((s.dequeue p e).release e.buffer).countPort p .framesOut
    let t := match e.link with
      | some i => t.reportCompleted i p
      | none => t
    exec (.echoCharacter p (.good v (pos == 0))) s =
      .next ((t.toldDeparture e).updPort p fun u =>
        { u.heard
            (if (e.link.isSome = true ∨ e.pendingRemoval = some .withdrawn) ∧ 0 < u.params.guard then
              .guard (u.params.guard * 11 * u.params.baud.clkPerBit)
            else .listen) with
          busySpan := 0 }).settle

/-- A collision, by a character read back wrong or by a missing echo (R24, R25): COLLISIONS advances, the entry
is unmarked with one attempt more, the port enters BACKOFF for QUIET + a × (1 + own address mod 8) × 2 ct
(R26), and the entry's fate is settled: a withdrawn entry goes, one that a window still refuses goes (R58),
one at ATTEMPTS goes as UNDELIVERABLE, any other stays without a pending removal. MISSING_ECHO takes the time to have
come, whatever has passed since the character began (log 2). -/
def Obligations.CollisionsBackOff : Prop :=
  ∀ (s : State) (p : Port) (pos elapsed : Nat) (e : QueueEntry), s.powered = true → s.quiescent = true →
    (s.port p).state = .sending pos elapsed → inTransmission (s.queue p) = some e →
    let n := e.attempts + 1
    let x : QueueEntry := { e with attempts := n, inTx := false }
    let collided (t : State) : State :=
      (t.countPort p .collisions).updPort p fun u =>
        { u with
          state := .backoff ((s.port p).params.quiet + n * (1 + s.params.ownAddress.toNat % 8) * 2)
          busySpan := 0
          queue := u.queue.map fun y =>
            if y.stamp = e.stamp then { y with attempts := y.attempts + 1, inTx := false } else y }
    let limited (t : State) : State :=
      if (s.port p).params.attempts ≤ n then (collided t).remove p x .undeliverable
      else (collided t).updPort p fun u =>
        { u with queue := u.queue.map fun y => if y.stamp = e.stamp then { y with pendingRemoval := none } else y }
    let fate (t : State) : State :=
      match e.pendingRemoval with
      | some .withdrawn => (collided t).remove p x .withdrawn
      | some .window =>
        if (s.disposition p).admits e.rank e.origin = true then limited t else (collided t).remove p x .window
      | none => limited t
    (∀ c, (s.port p).line.decodable = true → c ≠ .good ((s.chars e.buffer).getD pos 0) (pos == 0) →
      exec (.echoCharacter p c) s = .next (fate (s.setLine p (lineAfter c) (holdAfter c))).settle) ∧
    exec (.missingEcho p) s = .next (fate s).settle

/-! ### Timers of the ports, the table and the alert output -/

/-- What ends by time: a backoff at its length of quiet (R27), a guard interval (R29), a containment, after
which the port watches its line afresh (R32), an idle stretch beginning again and a character in progress left undecoded
(R35), a grace period (R124), a pulse (R191). A row takes its time to have come (log 2). One whose time cannot come
leaves the state as it is (log 3): BACKOFF_END out of BACKOFF or on a line without an idle stretch, GUARD_EXPIRY out of
GUARD, CONTAINMENT_EXPIRY out of CONTAINED, MISSING_ECHO out of SENDING, GRACE_EXPIRY of an entry not LAPSED,
DEADLINE_EXPIRY of one without a running deadline. Left to time alone, an event is due (log 4): a missing echo 1 bit time after the character's 11 (R24, log 18), TRUNCATED when the stretch has passed 3 ct
(R16), CONTAINMENT, in LISTEN, RECEIVING, BACKOFF and GUARD alone (R30), when the busy span has passed JABBER_LIMIT (R31),
which in whole milliseconds is one more (log 23); at 2 ct (R30), the backoff length (R27), QUIET (R21) and zero of every
timer (R29, R32, R114, R124, R191) when it is reached. -/
def Obligations.TimersEnd : Prop :=
  (∀ (s : State) (p : Port), s.powered = true → s.quiescent = true →
    (∀ n len, (s.port p).state = .backoff n → (s.port p).line = .idle len →
      let bit := (s.port p).params.baud.clkPerBit
      let stretch := max len (n * 11 * bit)
      exec (.backoffEnd p) s =
        .next (s.updPort p fun u =>
          { u with
            state := .listen
            line := .idle stretch
            busySpan := if 2 * 11 * bit ≤ stretch then 0 else u.busySpan }).settle) ∧
    ((∀ n, (s.port p).state ≠ .backoff n) ∨ (∀ len, (s.port p).line ≠ .idle len) →
      exec (.backoffEnd p) s = .next s) ∧
    (∀ n, (s.port p).state = .guard n →
      exec (.guardExpiry p) s = .next (s.updPort p fun u => { u with state := .listen }).settle) ∧
    ((∀ n, (s.port p).state ≠ .guard n) → exec (.guardExpiry p) s = .next s) ∧
    (∀ n, (s.port p).state = .contained n →
      exec (.containmentExpiry p) s =
        .next (s.updPort p fun u =>
          { u with state := .listen, busySpan := 0, line := u.line.afresh, startHold := .oneCt }).settle) ∧
    ((∀ n, (s.port p).state ≠ .contained n) → exec (.containmentExpiry p) s = .next s) ∧
    ((∀ pos n, (s.port p).state ≠ .sending pos n) → exec (.missingEcho p) s = .next s) ∧
    (∀ i c m g, s.tx i = .lapsed c m g → exec (.graceExpiry i) s = .next (s.setTx i .free)) ∧
    (∀ i, (∀ c m g, s.tx i ≠ .lapsed c m g) → exec (.graceExpiry i) s = .next s) ∧
    (∀ i, (∀ c n d, s.tx i ≠ .opened c n (some d)) → exec (.deadlineExpiry i) s = .next s) ∧
    exec .pulseEnd s = .next { s with pulse := none }) ∧
  (∀ l : LineState, l.afresh =
    match l with
    | .idle _ => .idle 0
    | .startLevel => .startLevel
    | .character => .undecoded
    | .undecoded => .undecoded) ∧
  (∀ st : PortState, st.monitored =
    match st with
    | .listen => true
    | .receiving _ => true
    | .backoff _ => true
    | .guard _ => true
    | .disabled => false
    | .sending _ _ => false
    | .contained _ => false) ∧
  (∀ (s : State) (p : Port) (i : TxIx),
    let bit := (s.port p).params.baud.clkPerBit
    let idleFor (n : Nat) : Prop := ∃ len, (s.port p).line = .idle len ∧ n ≤ len
    (s.isDue (.missingEcho p) = true ↔
      ∃ pos n, (s.port p).state = .sending pos n ∧ ((pos + 1) * 11 + 1) * bit ≤ n) ∧
    (s.isDue (.truncated p) = true ↔ (∃ r, (s.port p).state = .receiving r) ∧ idleFor (3 * 11 * bit + 1)) ∧
    (s.isDue (.idleStretchReaches2Ct p) = true ↔ (s.port p).busySpan ≠ 0 ∧ idleFor (2 * 11 * bit)) ∧
    (s.isDue (.containment p) = true ↔
      (s.port p).state.monitored = true ∧ (s.port p).params.jabberLimit < (s.port p).busySpan) ∧
    (s.isDue (.backoffEnd p) = true ↔ ∃ n, (s.port p).state = .backoff n ∧ idleFor (n * 11 * bit)) ∧
    (s.isDue (.guardExpiry p) = true ↔ (s.port p).state = .guard 0) ∧
    (s.isDue (.containmentExpiry p) = true ↔ (s.port p).state = .contained 0) ∧
    (s.isDue (.startTransmission p) = true ↔
      (s.port p).state = .listen ∧ s.queue p ≠ [] ∧ idleFor ((s.port p).params.quiet * 11 * bit)) ∧
    (s.isDue (.deadlineExpiry i) = true ↔ ∃ c n q, s.tx i = .opened c n (some ⟨0, q⟩)) ∧
    (s.isDue (.graceExpiry i) = true ↔ ∃ c m, s.tx i = .lapsed c m 0) ∧
    (s.isDue .pulseEnd = true ↔ s.pulse = some 0))

/-- A containment (R31), whatever the busy span the row finds (log 2) and with a restart pending or not: a reception is
discarded, the port enters CONTAINED for CONTAIN_PERIOD ms and ignores its line, its entries are removed as UNREACHABLE
in queue order, the Transaction Table hears of it, CONTAINMENTS is one more and CONTAINMENT is raised. The table handles
each OPEN entry in ascending index order (R125): one whose requester segment is the port has its copies withdrawn and
becomes FREE without a notice; one of another requester segment whose deadline runs, with its responder segment or its
deadline segment the port, has its copies withdrawn, becomes FREE, and its requester gets a NOTICE CONTAINED; any other,
and every LAPSED one, stays as it is. So the port ends with an empty queue, and no OPEN transaction has its requester
there, or its responder or its deadline there with the deadline running. With no transaction open and no alert notice to
send, UNREACHABLE counts exactly the entries removed. A purged RESTART result makes the restart due (R55, R179). Outside
the monitored states the event cannot occur (R30, log 3). -/
def Obligations.ContainmentIsolatesThePort : Prop :=
  (∀ (s : State) (p : Port), s.powered = true → s.quiescent = true →
    ((s.port p).state.monitored = true → s.queuesSound = true →
      exec (.containment p) s = .next (s.contain p).settle ∧
      ∃ t, exec (.containment p) s = .next t ∧
        (t.port p).state = .contained (s.port p).params.containPeriod ∧ t.queue p = [] ∧
        (t.port p).params = (s.port p).params ∧
        t.portCounter p .containments = s.portCounter p .containments + 1 ∧
        t.pendingAlerts = s.pendingAlerts ||| 1#7 ∧ t.stations = s.stations ∧ t.calendar = s.calendar ∧
        ((∀ i, (s.tx i).isOpen = false) → s.params.alertRecipient = 0 →
          t.portCounter p .unreachable = s.portCounter p .unreachable + BitVec.ofNat 32 (s.queue p).length) ∧
        (∀ r, s.restart = some r → (∃ e ∈ s.queue p, e.origin = .generated ∧ e.buffer = r.buffer) →
          t.restart = some ⟨r.kind, r.buffer, true⟩) ∧
        ∀ i c n d, t.tx i = .opened c n d → c.requesterSegment ≠ p ∧
          ∀ x, d = some x → c.responderSegment ≠ some p ∧ x.segment ≠ p) ∧
    ((s.port p).state.monitored = false → exec (.containment p) s = .next s)) ∧
  (∀ (s : State) (p : Port), s.queuesSound = true →
    let stopped : State :=
      match (s.port p).state with
      | .receiving r => s.freeUp r.buffer
      | _ => s
    let contained : State := stopped.updPort p fun u =>
      { u with state := .contained u.params.containPeriod, line := u.line.ignored }
    let purged : State := (s.queue p).foldl (fun t e => t.remove p e .unreachable) contained
    s.contain p = ((purged.portLeft p).countPort p .containments).raise .containment) ∧
  (∀ l : LineState, l.ignored =
    match l with
    | .idle n => .idle n
    | .startLevel => .startLevel
    | .character => .undecoded
    | .undecoded => .undecoded) ∧
  (∀ (s : State) (p : Port), s.portLeft p = (List.finRange 32).foldl (fun t i => t.closeFor p i) s) ∧
  (∀ (s : State) (p : Port) (i : TxIx),
    (s.tx i = .free → s.closeFor p i = s) ∧
    (∀ c m g, s.tx i = .lapsed c m g → s.closeFor p i = s) ∧
    (∀ c n d, s.tx i = .opened c n d →
      (c.requesterSegment = p → s.closeFor p i = (s.withdraw i).setTx i .free) ∧
      (c.requesterSegment ≠ p →
        (d = none → s.closeFor p i = s) ∧
        (∀ x, d = some x →
          (c.responderSegment = some p ∨ x.segment = p →
            s.closeFor p i = ((s.withdraw i).setTx i .free).notify c.requesterSegment c.key .contained) ∧
          (c.responderSegment ≠ some p → x.segment ≠ p → s.closeFor p i = s)))))

/-- The deadline of an OPEN entry expires (R123): its copies are withdrawn, it becomes LAPSED with the next
lapse stamp and LAPSE_GRACE, TX_LAPSED advances, a NOTICE NO_ANSWER goes to the requester, and with
LAPSE_GRACE 0 it is FREE at once. The row takes the time to have come, whatever remains of the deadline (log 2). -/
def Obligations.DeadlinesLapse : Prop :=
  ∀ (s : State) (i : TxIx) (c : TxCore) (n : Nat) (d : Deadline), s.powered = true → s.quiescent = true →
    s.tx i = .opened c n (some d) →
    let t := s.withdraw i
    let t : State := { t.setTx i (.lapsed c t.nextLapse s.params.lapseGrace) with nextLapse := t.nextLapse + 1 }
    let t := (t.count .txLapsed).notify c.requesterSegment c.key .noAnswer
    exec (.deadlineExpiry i) s = .next (if s.params.lapseGrace = 0 then t.setTx i .free else t).settle

/-- An alert cause (R189 to R192): one already pending adds nothing; a masked one only enters the pending set;
an unmasked one also starts a pulse in PULSE mode and sends its notice to ALERT_RECIPIENT's home segment, counted as
sent, or as lost where there is no home segment, no free buffer or a refusal (R47, R53). The output follows the mode
(R191). -/
def Obligations.AlertsAreRaised : Prop :=
  (∀ (s : State) (c : AlertCause),
    let mask : AlertSet := 1#7 <<< c.code
    let entered : State := { s with pendingAlerts := s.pendingAlerts ||| mask }
    let driven : State := { entered with pulse := if s.params.alertMode = .pulse then some 10 else s.pulse }
    let a := s.params.alertRecipient
    (s.pendingAlerts &&& mask ≠ 0 → s.raise c = s) ∧
    (s.pendingAlerts &&& mask = 0 →
      (s.params.alertMask &&& mask ≠ 0 → s.raise c = entered) ∧
      (s.params.alertMask &&& mask = 0 →
        (a = 0 → s.raise c = driven) ∧
        (a ≠ 0 → (s.station a).state.home = none → s.raise c = driven.count .noticesLost) ∧
        (∀ p, a ≠ 0 → (s.station a).state.home = some p →
          s.raise c =
            match driven.placeGenerated (copyRemoved 33 .queueFull) ⟨[], 0⟩ p
                (generatedChars a s.params.ownAddress 0 .notice
                  [8, byteOf c.code, (s.pendingAlerts ||| mask).setWidth 8]) with
            | (some _, t) => t.count .noticesSent
            | (none, t) => t.count .noticesLost)))) ∧
  ([AlertCause.containment, .poolExhausted, .tableFull, .addressClash, .misplaced, .denied, .calendarLost].map
    AlertCause.code = [0, 1, 2, 3, 4, 5, 6]) ∧
  (∀ s : State, s.alertAsserted = true ↔
    (s.params.alertMode = .latched ∧ s.pendingAlerts &&& ~~~ s.params.alertMask ≠ 0) ∨
      (s.params.alertMode = .pulse ∧ s.pulse ≠ none))

/-! ### Calendar and windows -/

/-- A second tick, whatever the sub-second phase (log 2): none on HOLD (R136) or with the backup domain lost (log 12);
without main power the time advances and no consumer hears of it (R132); with it, a staged time is applied and the
windows evaluated (R137), or the time advances, and a carry into the minutes ages the stations and evaluates the windows
(R134, R135). Aging makes a LEARNED entry one minute older, or UNKNOWN with its ceiling kept where that reaches
AGE_LIMIT; with AGE_LIMIT 0 the age stops at 254; no other entry changes (R69). A second tick is the end of a crystal
period, and the next begins with it (R134, log 5). -/
def Obligations.SecondTicksAdvanceTheCalendar : Prop :=
  (∀ s : State, s.quiescent = true →
    let advanced : State :=
      { s with calendar := { s.calendar with now := s.calendar.now.nextSecond, phase := 0 }, crystalCount := 0 }
    (s.calendar.hold = true ∨ s.backupLost = true → exec .secondTick s = .next s) ∧
    (s.calendar.hold = false → s.backupLost = false →
      (s.powered = false → exec .secondTick s = .next advanced) ∧
      (s.powered = true → ∀ d, s.staged = some d →
        exec .secondTick s =
          .next (State.evaluate
            { s with calendar := ⟨d, 0, true, false⟩, crystalCount := 0, staged := none }).settle) ∧
      (s.powered = true → s.staged = none → s.calendar.now.second < 59 → exec .secondTick s = .next advanced) ∧
      (s.powered = true → s.staged = none → s.calendar.now.second = 59 →
        exec .secondTick s =
          .next (State.evaluate
            { advanced with stations := s.stations.map (StationEntry.aged s.params.ageLimit) }).settle))) ∧
  (∀ (limit : Nat) (e : StationEntry), StationEntry.aged limit e =
    match e.state with
    | .learned home age =>
      if limit = 0 then
        if age < 254 then ⟨.learned home (age + 1), e.ceiling⟩ else e
      else if limit ≤ age + 1 then ⟨.unknown, e.ceiling⟩
      else ⟨.learned home (age + 1), e.ceiling⟩
    | .unknown => e
    | .pinned _ => e
    | .barred => e)

/-- The carries of R134 make the calendar a count of seconds: the next date and time is real and one second
later, and the last one of the range is followed by the first, 2000-01-01 00:00:00, a Saturday. A month has the days of
R133, February 29 in a year divisible by 4, and a real date and time has each field in its range. The carry into the
minute is the same from every second (R141). -/
def Obligations.NextSecondIsOneSecondLater : Prop :=
  (∀ d : DateTime, d.real = true → d ≠ calendarEnd →
    d.nextSecond.real = true ∧ d.nextSecond.instant = d.instant + 1) ∧
  calendarEnd.nextSecond = calendarEpoch ∧
  (∀ d : DateTime, d.real = true → weekday d = (6 + d.instant / 86400) % 7) ∧
  (calendarEpoch = ⟨2000, 1, 1, 0, 0, 0⟩ ∧ calendarEpoch.instant = 0 ∧ weekday calendarEpoch = 6 ∧
    calendarEnd = ⟨2099, 12, 31, 23, 59, 59⟩) ∧
  (∀ year : Nat, 2000 ≤ year → year ≤ 2099 →
    [1, 2, 3, 4, 5, 6, 7, 8, 9, 10, 11, 12].map (monthLength year) =
      [31, if year % 4 = 0 then 29 else 28, 31, 30, 31, 30, 31, 31, 30, 31, 30, 31]) ∧
  (∀ d : DateTime, d.real = true ↔
    2000 ≤ d.year ∧ d.year ≤ 2099 ∧ 1 ≤ d.month ∧ d.month ≤ 12 ∧ 1 ≤ d.day ∧ d.day ≤ monthLength d.year d.month ∧
      d.hour ≤ 23 ∧ d.minute ≤ 59 ∧ d.second ≤ 59) ∧
  (∀ d : DateTime,
    (d.second < 59 → d.nextSecond = { d with second := d.second + 1 }) ∧
    (d.second = 59 → d.nextSecond =
      if d.minute < 59 then { d with minute := d.minute + 1, second := 0 }
      else if d.hour < 23 then { d with hour := d.hour + 1, minute := 0, second := 0 }
      else if d.day < monthLength d.year d.month then ⟨d.year, d.month, d.day + 1, 0, 0, 0⟩
      else if d.month < 12 then ⟨d.year, d.month + 1, 1, 0, 0, 0⟩
      else if d.year < 2099 then ⟨d.year + 1, 1, 1, 0, 0, 0⟩
      else calendarEpoch) ∧
    d.nextMinute = DateTime.nextSecond { d with second := 59 })

/-- An evaluation gives each segment the strictest action among the enabled entries that name it and are
active at the present weekday and minute, and OPEN where there is none or VALID is off (R148, R149). All four
dispositions are recorded first, and then the queues of exactly the segments that became stricter are purged, segments
ascending; nothing else changes (R152). -/
def Obligations.DispositionsAreTheStrictestAction : Prop :=
  (∀ (s : State) (p : Port),
    let day := weekday s.calendar.now
    let time := s.calendar.now.hour * 60 + s.calendar.now.minute
    let before := if day = 0 then 6 else day - 1
    let active (w : WindowEntry) : Prop :=
      w.enabled = true ∧ w.segments.getLsbD p.val = true ∧
        let start := w.start.hour * 60 + w.start.minute
        let stop := w.stop.hour * 60 + w.stop.minute
        (start < stop → w.days.getLsbD day = true ∧ start ≤ time ∧ time < stop) ∧
        (stop < start →
          (w.days.getLsbD day = true ∧ start ≤ time) ∨ (w.days.getLsbD before = true ∧ time < stop)) ∧
        (start = stop → w.days.getLsbD day = true)
    (s.calendar.valid = false → s.evaluate.disposition p = .opened) ∧
    (s.calendar.valid = true →
      (∀ i, active (s.windows.get i) → (s.windows.get i).action.code ≤ (s.evaluate.disposition p).code) ∧
      (s.evaluate.disposition p = .opened ∨
        ∃ i, active (s.windows.get i) ∧ s.evaluate.disposition p = (s.windows.get i).action))) ∧
  (∀ s : State,
    let recorded : State := { s with dispositions := s.evaluate.dispositions }
    let purged (t : State) (p : Port) : State :=
      if (s.disposition p).code < (recorded.disposition p).code then t.purgeWindow p else t
    s.evaluate = purged (purged (purged (purged recorded 0) 1) 2) 3 ∧ s.evaluate.dispositions = s.formDispositions) ∧
  [Disposition.opened, .limited1, .limited2, .limited3, .quiet, .closed].map Disposition.code = [0, 1, 2, 3, 4, 5]

/-! ### Management commands -/

/-- STATUS (R170), TIME READ (R138) and GET PARAM (R173) answer DONE with what they name, and change nothing. STATUS
shows the arrival port in LISTEN, the state it is in once the frame that carried the command is received (log 7). The
14 command codes, the 19 parameter identifiers (R197), the number each parameter is read as, the reset causes, the flag
bits and the result codes are those of chapter 11. A GET PARAM without its port character is refused (R165, log 19). -/
def Obligations.ReadsAnswerWhatTheyName : Prop :=
  ∀ (p : Port) (h : CommandHead),
    Executes (.status p h) p h .status []
      (fun u => ⟨.done, 0,
        [u.resetCause.code, flagByte u.calendar.valid u.calendar.hold u.params.forwarding, byteOf u.freeList.length,
          byteOf (u.countTx TxEntry.isOpen), byteOf (u.countTx TxEntry.isLapsed),
          (u.port 0).state.code, (u.port 1).state.code, (u.port 2).state.code, (u.port 3).state.code,
          byteOf (u.disposition 0).code, byteOf (u.disposition 1).code, byteOf (u.disposition 2).code,
          byteOf (u.disposition 3).code, u.pendingAlerts.setWidth 8, u.params.ownAddress]⟩) id ∧
    Executes (.timeRead p h) p h .timeRead []
      (fun u => ⟨.done, 0,
        [bcd (u.calendar.now.year - 2000), bcd u.calendar.now.month, bcd u.calendar.now.day, bcd u.calendar.now.hour,
          bcd u.calendar.now.minute, bcd u.calendar.now.second, byteOf (weekday u.calendar.now),
          flagByte u.calendar.valid u.calendar.hold u.staged.isSome]⟩) id ∧
    (∀ ident port : Byte,
      (paramOf ident = none →
        Executes (.getParam p h ident port) p h .getParam [ident, port] (fun _ => refusedResult .badIndex) id) ∧
      (∀ q, paramOf ident = some (.ofCoupler q) →
        Executes (.getParam p h ident port) p h .getParam [ident, port]
          (fun u => ⟨.done, 0, fourBytes (BitVec.ofNat 32 (u.params.read q))⟩) id) ∧
      (∀ q, paramOf ident = some (.ofPort q) →
        (4 ≤ port.toNat →
          Executes (.getParam p h ident port) p h .getParam [ident, port] (fun _ => refusedResult .badIndex) id) ∧
        ∀ x : Port, port.toNat = x.val →
          Executes (.getParam p h ident port) p h .getParam [ident, port]
            (fun u => ⟨.done, 0, fourBytes (BitVec.ofNat 32 ((u.port x).params.read q))⟩) id)) ∧
    (∀ (s : State) (b room : BufferIx) (u : State), CommandTaken s p h .status [] b room u →
      (u.port p).state = .listen) ∧
    (∀ (u : State) (room : BufferIx) (ident : Byte),
      u.executeCommand room [] .getParam = (refusedResult .badValue, u) ∧
      u.executeCommand room [ident] .getParam =
        (refusedResult (if paramOf ident = none then .badIndex else .badValue), u)) ∧
    ([ResetCause.cold, .power, .pin, .full, .warm].map ResetCause.code = [0, 1, 2, 3, 4]) ∧
    ([ResultCode.done, .denied, .unknownCommand, .badTable, .badIndex, .badValue, .busy].map ResultCode.code =
      [0, 1, 2, 3, 4, 5, 6]) ∧
    (∀ b0 b1 b2 : Bool, (flagByte b0 b1 b2).toNat =
      (if b0 then 1 else 0) + (if b1 then 2 else 0) + (if b2 then 4 else 0)) ∧
    (∀ (u : State) (f : TxEntry → Bool), u.countTx f = ((List.finRange 32).filter fun i => f (u.tx i)).length) ∧
    (∀ e : TxEntry, (e.isOpen = true ↔ ∃ c n d, e = .opened c n d) ∧ (e.isLapsed = true ↔ ∃ c m g, e = .lapsed c m g)) ∧
    ([CommandCode.status, .readEntries, .writeEntry, .getParam, .setParam, .readCounters, .timeRead, .timeSet,
      .timeRound, .timeHold, .timeRun, .clearAlert, .flushLearned, .restart].map CommandCode.code =
        [1, 2, 3, 4, 5, 6, 7, 8, 9, 10, 11, 12, 13, 14]) ∧
    ((List.range 256).filterMap fun n => (paramOf (byteOf n)).map fun q => (n, q)) =
      [(0x01, .ofPort .enable), (0x02, .ofPort .baud), (0x03, .ofPort .quiet), (0x04, .ofPort .guard),
        (0x05, .ofPort .attempts), (0x06, .ofPort .jabberLimit), (0x07, .ofPort .containPeriod),
        (0x08, .ofPort .replyTimeout), (0x09, .ofPort .mgmtAccept), (0x10, .ofCoupler .ownAddress),
        (0x11, .ofCoupler .forwarding), (0x12, .ofCoupler .unknownPolicy), (0x13, .ofCoupler .ageLimit),
        (0x14, .ofCoupler .reserve), (0x15, .ofCoupler .maxOutstanding), (0x16, .ofCoupler .lapseGrace),
        (0x17, .ofCoupler .alertMode), (0x18, .ofCoupler .alertMask), (0x19, .ofCoupler .alertRecipient)] ∧
    (∀ q : PortParams,
      [PortParam.enable, .quiet, .guard, .attempts, .jabberLimit, .containPeriod, .replyTimeout, .mgmtAccept].map
          q.read =
        [if q.enable then 1 else 0, q.quiet, q.guard, q.attempts, q.jabberLimit, q.containPeriod, q.replyTimeout,
          if q.mgmtAccept then 1 else 0]) ∧
    (∀ q : PortParams, q.read .baud =
      match q.baud with
      | .b9600 => 9600
      | .b19200 => 19200
      | .b38400 => 38400
      | .b57600 => 57600
      | .b115200 => 115200
      | .b230400 => 230400
      | .b460800 => 460800
      | .b921600 => 921600) ∧
    ∀ q : CouplerParams,
      [CouplerParam.ownAddress, .forwarding, .unknownPolicy, .ageLimit, .reserve, .maxOutstanding, .lapseGrace,
          .alertMode, .alertMask, .alertRecipient].map q.read =
        [q.ownAddress.toNat, if q.forwarding then 1 else 0, if q.unknownPolicy = .flood then 0 else 1, q.ageLimit,
          q.reserve, q.maxOutstanding, q.lapseGrace, if q.alertMode = .pulse then 0 else 1, q.alertMask.toNat,
          q.alertRecipient.toNat]

/-- READ ENTRIES of each table (R171): a first index outside the table is refused, any other returns the
records from it on, as many as the count asks, the table holds and 60 characters take, and changes nothing. The record
of each of the six tables is laid out as 11.3 says, absent fields marked (R198). The PORT record of the arrival port
shows LISTEN, the state it is in once the frame that carried the command is received (log 7). A table code that names
none of the six is refused, and so is a short payload, by its first test that fails (R165, log 19). -/
def Obligations.ReadEntriesReturnsRecords : Prop :=
  (∀ (t : TableName) (p : Port) (h : CommandHead) (first count : Byte),
    (first.toNat < t.first ∨ t.last < first.toNat →
      Executes (readRow t p h first count) p h .readEntries [t.code, first, count]
        (fun _ => refusedResult .badIndex) id) ∧
    (t.first ≤ first.toNat → first.toNat ≤ t.last →
      let n := min count.toNat (min (t.last - first.toNat + 1) (60 / t.recordSize))
      Executes (readRow t p h first count) p h .readEntries [t.code, first, count]
        (fun u => ⟨.done, n, ((List.range n).map fun k => u.record t (first.toNat + k)).flatten⟩) id)) ∧
  (∀ (u : State) (room : BufferIx) (first : Byte),
    u.executeCommand room [] .readEntries = (refusedResult .badValue, u) ∧
    (∀ (table : Byte) (rest : List Byte), (∀ t : TableName, t.code ≠ table) →
      u.executeCommand room (table :: rest) .readEntries = (refusedResult .badTable, u)) ∧
    ∀ t : TableName,
      u.executeCommand room [t.code] .readEntries = (refusedResult .badValue, u) ∧
      u.executeCommand room [t.code, first] .readEntries =
        (refusedResult (if first.toNat < t.first ∨ t.last < first.toNat then .badIndex else .badValue), u)) ∧
  (∀ (s : State) (p : Port) (h : CommandHead) (args : List Byte) (b room : BufferIx) (u : State),
    CommandTaken s p h .readEntries args b room u →
    (u.port p).state = .listen ∧ u.record .port p.val =
      [byteOf p.val, 1, byteOf (u.disposition p).code, byteOf (u.queue p).length, byteOf u.freeList.length]) ∧
  ([TableName.station, .group, .window, .manager, .transaction, .port].map
      fun t => (t.code, t.first, t.last, t.recordSize)) =
    [(1, 1, 239, 5), (2, 0, 15, 2), (3, 0, 23, 9), (4, 0, 3, 4), (5, 0, 31, 15), (6, 0, 3, 5)] ∧
  (∀ (u : State) (a : Byte), isStationAddress a = true →
    let ceiling : Byte := (u.station a).ceiling.setWidth 8
    u.record .station a.toNat =
      match (u.station a).state with
      | .unknown => [a, 0, 0xFF, 0xFF, ceiling]
      | .learned q age => [a, 1, byteOf q.val, byteOf age, ceiling]
      | .pinned q => [a, 2, byteOf q.val, 0xFF, ceiling]
      | .barred => [a, 3, 0xFF, 0xFF, ceiling]) ∧
  (∀ (u : State) (i : Fin 16), u.record .group i.val = [byteOf i.val, (u.groups.get i).setWidth 8]) ∧
  (∀ (u : State) (i : Fin 24),
    let w := u.windows.get i
    u.record .window i.val =
      [byteOf i.val, if w.enabled then 1 else 0, w.days.setWidth 8, bcd w.start.hour, bcd w.start.minute,
        bcd w.stop.hour, bcd w.stop.minute, w.segments.setWidth 8,
        match w.action with
        | .opened => 0
        | .limited1 => 1
        | .limited2 => 2
        | .limited3 => 3
        | .quiet => 4
        | .closed => 5]) ∧
  (∀ (u : State) (i : Fin 4), u.record .manager i.val =
    match u.managers.get i with
    | none => [byteOf i.val, 0, 0, 0xFF]
    | some ⟨a, none⟩ => [byteOf i.val, a, 0, 0xFF]
    | some ⟨a, some c⟩ => [byteOf i.val, a, 1, c.sequence]) ∧
  (∀ (u : State) (i : TxIx),
    let head (c : TxCore) (state copies : Byte) : List Byte :=
      [byteOf i.val, state, match c.key.exchange with
        | .ordinary => 0
        | .management => 1, c.key.requester, byteOf c.requesterSegment.val, c.key.responder,
        match c.responderSegment with
        | some q => byteOf q.val
        | none => 0xFF, c.key.tag, copies]
    u.record .transaction i.val =
      match u.tx i with
      | .free => [byteOf i.val, 0] ++ List.replicate 13 0xFF
      | .opened c n none => head c 1 (byteOf n) ++ [0xFF, 0xFF, 0xFF, byteOf c.retries, 0xFF, 0xFF]
      | .opened c n (some d) =>
        head c 1 (byteOf n) ++
          [byteOf (d.remaining / 256), byteOf d.remaining, byteOf d.segment.val, byteOf c.retries, 0xFF, 0xFF]
      | .lapsed c _ g => head c 2 0 ++ [0xFF, 0xFF, 0xFF, byteOf c.retries, byteOf (g / 256), byteOf g]) ∧
  (∀ (u : State) (q : Port), u.record .port q.val =
    [byteOf q.val,
      match (u.port q).state with
      | .disabled => 0
      | .listen => 1
      | .receiving _ => 2
      | .sending _ _ => 3
      | .backoff _ => 4
      | .guard _ => 5
      | .contained _ => 6,
      match u.disposition q with
      | .opened => 0
      | .limited1 => 1
      | .limited2 => 2
      | .limited3 => 3
      | .quiet => 4
      | .closed => 5,
      byteOf (u.queue q).length, byteOf u.freeList.length])

/-- READ COUNTERS returns the 11 counters of its scope, and with the clear flag sets exactly those to 0 in the
same act (R176, R187). A clear flag that is neither yes nor no is refused, after the scope was judged (R176), and so is a
short payload (R165, log 19). The counters of a port, and of COUPLER 1 and COUPLER 2 one after the other, stand in the
order of R186, and a count is one more of the counter in its place, from 4,294,967,295 to 0. -/
def Obligations.ReadCountersReadsAndClears : Prop :=
  (∀ (p : Port) (h : CommandHead) (scope : Byte),
    (5 < scope.toNat →
      Executes (.readCounters p h scope) p h .readCounters [scope, 0] (fun _ => refusedResult .badIndex) id ∧
      Executes (.readCountersClear p h scope) p h .readCounters [scope, 1] (fun _ => refusedResult .badIndex) id) ∧
    (∀ x : Port, scope.toNat = x.val →
      let values (u : State) : CommandResult := ⟨.done, 0, ((u.port x).counters.toList.map fourBytes).flatten⟩
      Executes (.readCounters p h scope) p h .readCounters [scope, 0] values id ∧
      Executes (.readCountersClear p h scope) p h .readCounters [scope, 1] values
        (fun u => u.updPort x fun v => { v with counters := Vector.replicate 11 0 })) ∧
    (scope = 4 →
      let values (u : State) : CommandResult := ⟨.done, 0, ((u.counters.toList.take 11).map fourBytes).flatten⟩
      Executes (.readCounters p h scope) p h .readCounters [scope, 0] values id ∧
      Executes (.readCountersClear p h scope) p h .readCounters [scope, 1] values
        (fun u => { u with counters := Vector.ofFn fun i : Fin 22 => if i.val < 11 then 0 else u.counters.get i })) ∧
    (scope = 5 →
      let values (u : State) : CommandResult := ⟨.done, 0, ((u.counters.toList.drop 11).map fourBytes).flatten⟩
      Executes (.readCounters p h scope) p h .readCounters [scope, 0] values id ∧
      Executes (.readCountersClear p h scope) p h .readCounters [scope, 1] values
        (fun u => { u with counters := Vector.ofFn fun i : Fin 22 => if i.val < 11 then u.counters.get i else 0 }))) ∧
  (∀ (u : State) (room : BufferIx) (scope : Byte),
    u.executeCommand room [] .readCounters = (refusedResult .badValue, u) ∧
    u.executeCommand room [scope] .readCounters =
      (refusedResult (if 5 < scope.toNat then .badIndex else .badValue), u) ∧
    ∀ (flag : Byte) (rest : List Byte), 1 < flag.toNat →
      u.executeCommand room (scope :: flag :: rest) .readCounters =
        (refusedResult (if 5 < scope.toNat then .badIndex else .badValue), u)) ∧
  ([PortCounter.framesIn, .framesOut, .checkErrors, .formatErrors, .noBuffer, .collisions, .undeliverable, .queueFull,
    .windowDrops, .unreachable, .containments].map PortCounter.index = List.finRange 11) ∧
  ([CouplerCounter.localFiltered, .noRoute, .barred, .misplaced, .addressClash, .forwardingOff, .poolLow, .stationMoves,
    .txOpened, .txAnswered, .txLapsed, .lateReplies, .unsolicited, .duplicates, .tableFull, .requesterLimit,
    .noticesSent, .noticesLost, .mgmtExecuted, .mgmtDenied, .mgmtRefused, .mgmtNoRoom].map CouplerCounter.index =
      List.finRange 22) ∧
  (∀ (s : State) (p : Port) (c : PortCounter),
    s.portCounter p c = (s.port p).counters.get c.index ∧
    s.countPort p c = s.updPort p fun u =>
      { u with counters := Vector.ofFn fun i => if i = c.index then u.counters.get i + 1 else u.counters.get i }) ∧
  (∀ (s : State) (c : CouplerCounter),
    s.counter c = s.counters.get c.index ∧
    s.count c =
      { s with counters := Vector.ofFn fun i => if i = c.index then s.counters.get i + 1 else s.counters.get i })

/-- A WRITE ENTRY to the STATION table (R73): its refusals in order, and the entry it leaves. A table code that names
no table that is written is refused, of whatever WRITE ENTRY (R172); a payload without a table code or an index, or with
fewer fields than the record of its table, is refused by its first test that fails, the index being judged before the
fields (R165, R73, R77, R154, R169, log 19). -/
def Obligations.StationWrites : Prop :=
  (∀ (p : Port) (h : CommandHead) (address state segment ceiling : Byte),
    let does := Executes (.writeEntryStation p h address state segment ceiling) p h .writeEntry
      [1, address, state, segment, ceiling]
    (isStation address = false → does (fun _ => refusedResult .badIndex) id) ∧
    (isStation address = true →
      ((state ≠ 0 ∧ state ≠ 2 ∧ state ≠ 3) ∨ 3 < ceiling.toNat ∨ (state = 2 ∧ 3 < segment.toNat) →
        does (fun _ => refusedResult .badValue) id) ∧
      (ceiling.toNat ≤ 3 →
        (state = 0 → does (fun _ => doneResult) fun u => u.setStation address ⟨.unknown, ceiling.setWidth 2⟩) ∧
        (state = 3 → does (fun _ => doneResult) fun u => u.setStation address ⟨.barred, ceiling.setWidth 2⟩) ∧
        (∀ q : Port, state = 2 → segment.toNat = q.val →
          does (fun _ => doneResult) fun u => u.setStation address ⟨.pinned q, ceiling.setWidth 2⟩)))) ∧
  (∀ (u : State) (room : BufferIx),
    u.executeCommand room [] .writeEntry = (refusedResult .badValue, u) ∧
    (∀ (table : Byte) (rest : List Byte), table.toNat = 0 ∨ 4 < table.toNat →
      u.executeCommand room (table :: rest) .writeEntry = (refusedResult .badTable, u)) ∧
    ∀ t ∈ [TableName.station, .group, .window, .manager],
      let fields : Nat :=
        match t with
        | .station => 3
        | .group => 1
        | .window => 8
        | .manager => 1
        | .transaction => 0
        | .port => 0
      u.executeCommand room [t.code] .writeEntry = (refusedResult .badValue, u) ∧
      ∀ (index : Byte) (rest : List Byte),
        (index.toNat < t.first ∨ t.last < index.toNat →
          u.executeCommand room (t.code :: index :: rest) .writeEntry = (refusedResult .badIndex, u)) ∧
        (t.first ≤ index.toNat → index.toNat ≤ t.last → rest.length < fields →
          u.executeCommand room (t.code :: index :: rest) .writeEntry = (refusedResult .badValue, u))) ∧
  (∀ (u : State) (a c : Byte) (e : StationEntry), isStation a = true →
    (u.setStation a e).station c = (if c = a then e else u.station c) ∧
      u.setStation a e = { u with stations := (u.setStation a e).stations }) ∧
  (∀ (st : StationState) (q : Port), st.home = some q ↔ (∃ age, st = .learned q age) ∨ st = .pinned q)

/-- WRITE ENTRY to the GROUP table (R77) and to the MANAGER table (R169): their refusals, and what they leave. -/
def Obligations.GroupAndManagerWrites : Prop :=
  ∀ (p : Port) (h : CommandHead) (index : Byte),
    (∀ mask : Byte,
      let does := Executes (.writeEntryGroup p h index mask) p h .writeEntry [2, index, mask]
      (16 ≤ index.toNat → does (fun _ => refusedResult .badIndex) id) ∧
      (index.toNat < 16 → 16 ≤ mask.toNat → does (fun _ => refusedResult .badValue) id) ∧
      (∀ i : Fin 16, index.toNat = i.val → mask.toNat < 16 →
        does (fun _ => doneResult) fun u => { u with groups := u.groups.set i.val (mask.setWidth 4) i.isLt })) ∧
    (∀ address : Byte,
      let does := Executes (.writeEntryManager p h index address) p h .writeEntry [4, index, address]
      let doesWhen (cond : State → Prop) :=
        ExecutesWhen cond (.writeEntryManager p h index address) p h .writeEntry [4, index, address]
      let heldElsewhere (u : State) : Prop :=
        address ≠ 0 ∧ ∃ j : Fin 4, j.val ≠ index.toNat ∧ (u.managers.get j).map (·.address) = some address
      (4 ≤ index.toNat → does (fun _ => refusedResult .badIndex) id) ∧
      (index.toNat < 4 → address ≠ 0 → isStation address = false → does (fun _ => refusedResult .badValue) id) ∧
      (∀ i : Fin 4, index.toNat = i.val → address = 0 ∨ isStation address = true →
        doesWhen heldElsewhere (fun _ => refusedResult .badValue) (fun _ u => u) ∧
        doesWhen (fun u => ¬ heldElsewhere u) (fun _ => doneResult) fun _ u =>
          { u with
            managers := u.managers.set i.val (if address = 0 then none else some ⟨address, none⟩) i.isLt }))

/-- A WRITE ENTRY to the WINDOW table (R154, R199): its refusals, and the entry it leaves with an evaluation. -/
def Obligations.WindowWrites : Prop :=
  ∀ (p : Port) (h : CommandHead) (index : Byte) (r : WindowRecord),
    let does := Executes (.writeEntryWindow p h index r) p h .writeEntry
      [3, index, r.enabled, r.dayMask, r.startHour, r.startMinute, r.endHour, r.endMinute, r.segmentMask, r.action]
    let hour (b : Byte) : Prop := ∃ n, n ≤ 23 ∧ b = bcd n
    let minute (b : Byte) : Prop := ∃ n, n ≤ 59 ∧ b = bcd n
    (24 ≤ index.toNat → does (fun _ => refusedResult .badIndex) id) ∧
    (index.toNat < 24 →
      1 < r.enabled.toNat ∨ 127 < r.dayMask.toNat ∨ ¬ hour r.startHour ∨ ¬ minute r.startMinute ∨ ¬ hour r.endHour ∨
        ¬ minute r.endMinute ∨ 15 < r.segmentMask.toNat ∨ r.action.toNat = 0 ∨ 5 < r.action.toNat →
      does (fun _ => refusedResult .badValue) id) ∧
    (∀ (i : Fin 24) (sh sm eh em : Nat) (a : Disposition), index.toNat = i.val → r.enabled.toNat ≤ 1 →
      r.dayMask.toNat ≤ 127 → sh ≤ 23 → r.startHour = bcd sh → sm ≤ 59 → r.startMinute = bcd sm → eh ≤ 23 →
      r.endHour = bcd eh → em ≤ 59 → r.endMinute = bcd em → r.segmentMask.toNat ≤ 15 → a ≠ .opened →
      r.action.toNat = a.code →
      does (fun _ => doneResult) fun u =>
        State.evaluate { u with
          windows := u.windows.set i.val
            ⟨r.enabled == 1, r.dayMask.setWidth 7, ⟨sh, sm⟩, ⟨eh, em⟩, r.segmentMask.setWidth 4, a⟩ i.isLt })

/-- SET PARAM of a per-port parameter (R36 to R38, R173): refused for a port that is none, a value out of range,
or a BAUD on a port not in LISTEN or DISABLED, the arrival port being in LISTEN once the frame that carried the
command is received (log 7); the value already held changes nothing (log 20); any other is written with the effect of
its rule. A BAUD leaves a character in progress undecoded (R37, log 31). A JABBER_LIMIT below the busy span contains the
port (R38), as ContainmentIsolatesThePort says of State.contain. PORT_ENABLE off (R33) discards a reception, removes the
entry in transmission as UNREACHABLE, puts the port in DISABLED with its line ignored, removes the entries left as
UNREACHABLE in queue order, and has the Transaction Table handle each OPEN entry as at a containment (R125,
ContainmentIsolatesThePort). That leaves the parameter off, the queue empty and no OPEN transaction relying on the port;
with no transaction open, UNREACHABLE counts exactly the entries removed. -/
def Obligations.PortParameterWrites : Prop :=
  (∀ (ident : Byte) (q : PortParam) (p : Port) (h : CommandHead) (port : Byte) (v : BitVec 32),
    paramOf ident = some (.ofPort q) →
    let does := Executes (setRow ident p h port v) p h .setParam ([ident, port] ++ fourBytes v)
    let doesWhen (cond : State → Prop) :=
      ExecutesWhen cond (setRow ident p h port v) p h .setParam ([ident, port] ++ fourBytes v)
    (4 ≤ port.toNat → does (fun _ => refusedResult .badIndex) id) ∧
    (∀ x : Port, port.toNat = x.val →
      (q.inRange v.toNat = false → does (fun _ => refusedResult .badValue) id) ∧
      (q.inRange v.toNat = true →
        let busy (u : State) : Prop := q = .baud ∧ (u.port x).state ≠ .listen ∧ (u.port x).state ≠ .disabled
        let same (u : State) : Prop := (u.port x).params.read q = v.toNat
        doesWhen busy (fun _ => refusedResult .busy) (fun _ u => u) ∧
        doesWhen (fun u => ¬ busy u ∧ same u) (fun _ => doneResult) (fun _ u => u) ∧
        doesWhen (fun u => ¬ busy u ∧ ¬ same u) (fun _ => doneResult) fun _ u => u.applyPortParam x v.toNat q))) ∧
  (∀ n : Nat,
    PortParam.inRange n .enable = decide (n ≤ 1) ∧ PortParam.inRange n .mgmtAccept = decide (n ≤ 1) ∧
    (PortParam.inRange n .baud = true ↔
      n ∈ [9600, 19200, 38400, 57600, 115200, 230400, 460800, 921600]) ∧
    PortParam.inRange n .quiet = decide (2 ≤ n ∧ n ≤ 15) ∧ PortParam.inRange n .guard = decide (n ≤ 255) ∧
    PortParam.inRange n .attempts = decide (1 ≤ n ∧ n ≤ 15) ∧
    PortParam.inRange n .jabberLimit = decide (10 ≤ n ∧ n ≤ 250) ∧
    PortParam.inRange n .containPeriod = decide (100 ≤ n ∧ n ≤ 25500 ∧ n % 100 = 0) ∧
    PortParam.inRange n .replyTimeout = decide (5 ≤ n ∧ n ≤ 5000)) ∧
  (∀ (u : State) (x : Port) (n : Nat),
    u.applyPortParam x n .quiet = u.updPort x (fun w => { w with params := { w.params with quiet := n } }) ∧
    u.applyPortParam x n .guard = u.updPort x (fun w => { w with params := { w.params with guard := n } }) ∧
    u.applyPortParam x n .attempts = u.updPort x (fun w => { w with params := { w.params with attempts := n } }) ∧
    u.applyPortParam x n .containPeriod =
      u.updPort x (fun w => { w with params := { w.params with containPeriod := n } }) ∧
    u.applyPortParam x n .replyTimeout =
      u.updPort x (fun w => { w with params := { w.params with replyTimeout := n } }) ∧
    u.applyPortParam x n .mgmtAccept =
      u.updPort x (fun w => { w with params := { w.params with mgmtAccept := n == 1 } }) ∧
    (∀ r : Baud, n = r.rate → u.applyPortParam x n .baud =
      u.updPort x (fun w =>
        { w with params := { w.params with baud := r }, line := w.line.afresh, startHold := .oneCt })) ∧
    ((u.port x).state.monitored = false ∨ (u.port x).busySpan ≤ n → u.applyPortParam x n .jabberLimit =
      u.updPort x (fun w => { w with params := { w.params with jabberLimit := n } })) ∧
    ((u.port x).state.monitored = true → n < (u.port x).busySpan → u.applyPortParam x n .jabberLimit =
      (u.updPort x (fun w => { w with params := { w.params with jabberLimit := n } })).contain x) ∧
    (n = 1 → (u.port x).state ≠ .disabled → u.applyPortParam x n .enable =
      u.updPort x (fun w => { w with params := { w.params with enable := true } })) ∧
    (n = 1 → (u.port x).state = .disabled → u.applyPortParam x n .enable =
      u.updPort x (fun w =>
        { w with params := { w.params with enable := true }, state := .listen, busySpan := 0,
                 line := w.line.afresh, startHold := .oneCt })) ∧
    (n = 0 → (u.port x).state = .disabled → u.applyPortParam x n .enable =
      u.updPort x (fun w => { w with params := { w.params with enable := false } })) ∧
    (n = 0 → (u.port x).state ≠ .disabled → u.queuesSound = true →
      let off : State := u.updPort x (fun w => { w with params := { w.params with enable := false } })
      let stopped : State :=
        match (u.port x).state, inTransmission (u.queue x) with
        | .receiving r, _ => off.freeUp r.buffer
        | .sending _ _, some e => off.remove x e .unreachable
        | _, _ => off
      let disabled : State := stopped.updPort x fun w => { w with state := .disabled, line := w.line.ignored }
      let purged : State := (disabled.queue x).foldl (fun t e => t.remove x e .unreachable) disabled
      let t := u.applyPortParam x n .enable
      t = purged.portLeft x ∧
      (t.port x).state = .disabled ∧ (t.port x).params = { (u.port x).params with enable := false } ∧
      t.params = u.params ∧ t.queue x = [] ∧
      t.portCounter x .containments = u.portCounter x .containments ∧ t.pendingAlerts = u.pendingAlerts ∧
      ((∀ i, (u.tx i).isOpen = false) →
        t.portCounter x .unreachable = u.portCounter x .unreachable + BitVec.ofNat 32 (u.queue x).length) ∧
      ∀ i c k d, t.tx i = .opened c k d → c.requesterSegment ≠ x ∧
        ∀ y, d = some y → c.responderSegment ≠ some x ∧ y.segment ≠ x))

/-- SET PARAM of a coupler parameter (R70, R173 to R175, R191, R193): refused out of range; the value already
held changes nothing; any other is written, AGE_LIMIT with its effect on the stations, ALERT_MODE with its
effect on a running pulse. An identifier that names no parameter is refused. Of any SET PARAM, a payload without its
identifier, its port or its four value characters is refused by its first test that fails (R165, log 19). -/
def Obligations.CouplerParameterWrites : Prop :=
  (∀ (ident : Byte) (p : Port) (h : CommandHead) (port : Byte) (v : BitVec 32),
    let row := setRow ident p h port v
    let args := [ident, port] ++ fourBytes v
    (paramOf ident = none → Executes row p h .setParam args (fun _ => refusedResult .badIndex) id) ∧
    (∀ q, paramOf ident = some (.ofCoupler q) →
      (q.inRange v.toNat = false → Executes row p h .setParam args (fun _ => refusedResult .badValue) id) ∧
      (q.inRange v.toNat = true → Executes row p h .setParam args (fun _ => doneResult) fun u =>
        if u.params.read q = v.toNat then u else u.applyCouplerParam v.toNat q))) ∧
  (∀ n : Nat,
    CouplerParam.inRange n .ownAddress = decide (1 ≤ n ∧ n ≤ 239) ∧ CouplerParam.inRange n .forwarding = decide (n ≤ 1) ∧
    CouplerParam.inRange n .unknownPolicy = decide (n ≤ 1) ∧ CouplerParam.inRange n .ageLimit = decide (n ≤ 255) ∧
    CouplerParam.inRange n .reserve = decide (n ≤ 12) ∧
    CouplerParam.inRange n .maxOutstanding = decide (1 ≤ n ∧ n ≤ 8) ∧
    CouplerParam.inRange n .lapseGrace = decide (n ≤ 5000) ∧ CouplerParam.inRange n .alertMode = decide (n ≤ 1) ∧
    CouplerParam.inRange n .alertMask = decide (n ≤ 127) ∧ CouplerParam.inRange n .alertRecipient = decide (n ≤ 239)) ∧
  (∀ (u : State) (n : Nat),
    u.applyCouplerParam n .ownAddress = { u with params := { u.params with ownAddress := byteOf n } } ∧
    u.applyCouplerParam n .forwarding = { u with params := { u.params with forwarding := n == 1 } } ∧
    u.applyCouplerParam 0 .unknownPolicy = { u with params := { u.params with unknownPolicy := .flood } } ∧
    u.applyCouplerParam 1 .unknownPolicy = { u with params := { u.params with unknownPolicy := .drop } } ∧
    u.applyCouplerParam n .reserve = { u with params := { u.params with reserve := n } } ∧
    u.applyCouplerParam n .maxOutstanding = { u with params := { u.params with maxOutstanding := n } } ∧
    u.applyCouplerParam n .lapseGrace = { u with params := { u.params with lapseGrace := n } } ∧
    u.applyCouplerParam n .alertMask = { u with params := { u.params with alertMask := BitVec.ofNat 7 n } } ∧
    u.applyCouplerParam n .alertRecipient = { u with params := { u.params with alertRecipient := byteOf n } } ∧
    u.applyCouplerParam 0 .alertMode = { u with params := { u.params with alertMode := .pulse }, pulse := none } ∧
    u.applyCouplerParam 1 .alertMode = { u with params := { u.params with alertMode := .latched }, pulse := none } ∧
    (u.applyCouplerParam n .ageLimit).params = { u.params with ageLimit := n } ∧
    (∀ a : Byte, isStationAddress a = true → (u.applyCouplerParam n .ageLimit).station a =
      match (u.station a).state with
      | .learned _ age => if n ≠ 0 ∧ n ≤ age then { u.station a with state := .unknown } else u.station a
      | _ => u.station a) ∧
    u.applyCouplerParam n .ageLimit =
      { u with params := { u.params with ageLimit := n }, stations := (u.applyCouplerParam n .ageLimit).stations }) ∧
  (∀ (u : State) (room : BufferIx),
    u.executeCommand room [] .setParam = (refusedResult .badValue, u) ∧
    ∀ ident : Byte,
      (paramOf ident = none → ∀ rest, u.executeCommand room (ident :: rest) .setParam = (refusedResult .badIndex, u)) ∧
      (∀ name, paramOf ident = some name →
        u.executeCommand room [ident] .setParam = (refusedResult .badValue, u) ∧
        ∀ (port : Byte) (rest : List Byte),
          ((∃ q, name = .ofPort q) → 4 ≤ port.toNat →
            u.executeCommand room (ident :: port :: rest) .setParam = (refusedResult .badIndex, u)) ∧
          ((∃ q, name = .ofCoupler q) ∨ port.toNat < 4 → rest.length < 4 →
            u.executeCommand room (ident :: port :: rest) .setParam = (refusedResult .badValue, u))))

/-- TIME SET (R139, R140): a record that names no real date and time is refused; any other is staged while the
calendar runs, and applied at once, with an evaluation, while it is held. TIME ROUND (R141) rounds to the nearest
minute, a carry being a real minute tick, and is BUSY while a time is staged; TIME HOLD (R142) applies a staged time
and stops the calendar; TIME RUN (R143) starts it from phase 0. Phase 0 begins a crystal period, so that the next second
tick of a running calendar comes exactly one second after the command (R141, R143, log 5). A TIME SET with fewer than
six characters is refused (R165). -/
def Obligations.CalendarCommands : Prop :=
  (∀ (p : Port) (h : CommandHead) (t : TimeRecord),
    let does := Executes (.timeSet p h t) p h .timeSet [t.year, t.month, t.day, t.hour, t.minute, t.second]
    ((∀ d : DateTime, d.real = true → t ≠ d.record) → does (fun _ => refusedResult .badValue) id) ∧
    (∀ d : DateTime, d.real = true → t = d.record → does (fun _ => doneResult) fun u =>
      if u.calendar.hold = true then
        State.evaluate
          { u with
            calendar := { u.calendar with now := d, valid := true, phase := 0 }, crystalCount := 0, staged := none }
      else { u with staged := some d })) ∧
  (∀ (p : Port) (h : CommandHead),
    Executes (.timeRound p h) p h .timeRound []
      (fun u => if u.staged.isSome = true then refusedResult .busy else doneResult)
      (fun u =>
        if u.staged.isSome = true then u
        else if u.calendar.now.second < 30 then
          { u with
            calendar := { u.calendar with now := { u.calendar.now with second := 0 }, phase := 0 }, crystalCount := 0 }
        else
          State.evaluate
            { u with
              calendar := { u.calendar with now := u.calendar.now.nextMinute, phase := 0 }
              crystalCount := 0
              stations := u.stations.map (StationEntry.aged u.params.ageLimit) }) ∧
    Executes (.timeHold p h) p h .timeHold [] (fun _ => doneResult)
      (fun u =>
        match u.staged with
        | none => { u with calendar := { u.calendar with hold := true } }
        | some d =>
          let t := State.evaluate
            { u with
              calendar := { u.calendar with now := d, valid := true, phase := 0 }, crystalCount := 0, staged := none }
          { t with calendar := ⟨d, 0, true, true⟩ }) ∧
    Executes (.timeRun p h) p h .timeRun [] (fun _ => doneResult)
      (fun u => { u with calendar := { u.calendar with hold := false, phase := 0 }, crystalCount := 0 })) ∧
  (∀ (u : State) (room : BufferIx) (args : List Byte), args.length < 6 →
    u.executeCommand room args .timeSet = (refusedResult .badValue, u))

/-- CLEAR ALERT removes the causes it names from the pending set (R177, R193); FLUSH LEARNED turns every
LEARNED entry into UNKNOWN, its ceiling kept, and touches nothing else (R71). A CLEAR ALERT without its set is refused
(R165). -/
def Obligations.ClearAlertAndFlushLearned : Prop :=
  (∀ (u : State) (room : BufferIx), u.executeCommand room [] .clearAlert = (refusedResult .badValue, u)) ∧
  ∀ (p : Port) (h : CommandHead),
    (∀ causes : Byte,
      (127 < causes.toNat →
        Executes (.clearAlert p h causes) p h .clearAlert [causes] (fun _ => refusedResult .badValue) id) ∧
      (causes.toNat ≤ 127 →
        Executes (.clearAlert p h causes) p h .clearAlert [causes] (fun _ => doneResult)
          fun u => { u with pendingAlerts := u.pendingAlerts &&& ~~~ causes.setWidth 7 })) ∧
    Executes (.flushLearned p h) p h .flushLearned [] (fun _ => doneResult) fun u =>
      { u with
        stations := u.stations.map fun e =>
          match e.state with
          | .learned _ _ => ⟨.unknown, e.ceiling⟩
          | .unknown => e
          | .pinned _ => e
          | .barred => e }

/-- RESTART is answered DONE and enters RESTART PENDING with its kind and the buffer of its result; the restart
itself does not take place in this event (R178). Any other value than the two kinds is refused (R178), and so is a
payload without one (R165). -/
def Obligations.RestartBecomesPending : Prop :=
  (∀ (p : Port) (h : CommandHead),
    let pends (i : Instr) (kind : RestartKind) (code : Byte) : Prop :=
      ExecutesWhen (fun _ => True) i p h .restart [code] (fun _ => doneResult)
        fun room u => { u with restart := some ⟨kind, room, false⟩ }
    pends (.restartWarm p h) .warm 1 ∧ pends (.restartFull p h) .full 2) ∧
  (∀ (u : State) (room : BufferIx),
    u.executeCommand room [] .restart = (refusedResult .badValue, u) ∧
    ∀ (kind : Byte) (rest : List Byte), kind ≠ 1 → kind ≠ 2 →
      u.executeCommand room (kind :: rest) .restart = (refusedResult .badValue, u))

/-- A MANAGE frame for the own address, judged in the order of R161: refused without a result (R162), DENIED (R163),
without room (R164), BUSY while a restart is pending (R178), UNKNOWN_COMMAND (R165), each of these with 0 for a header
character that is missing (log 16), answered from the cached result (R166), or executed, counted, its result stored in its source's slot after execution (R167) and sent (R168), though not
into a room that was purged meanwhile (R33). The room, like every generated frame, is refused where no buffer is free
or the queue refuses, and may displace an entry (R47, R53, R164). `u` is the state after learning, `v` the frame. Argument
characters beyond those a command uses are disregarded (R165). A management row is the MANAGE frame of class 3 that
carries its command to the own address (log 27), once a restart that fell due has taken effect (log 8); it executes
wherever R161 does not turn it away and room stands free. -/
def Obligations.CommandsAreTurnedAwayOrExecuted : Prop :=
  let holds (s : State) (a : Byte) (i : Fin 4) : Prop := (s.managers.get i).map (·.address) = some a
  (∀ (u : State) (p : Port) (v : FrameView),
    let code := v.payload.getD 0 0
    let sequence := v.payload.getD 1 0
    let answer (payload : List Byte) : List Byte :=
      generatedChars v.source u.params.ownAddress v.tag .result payload
    let placed (s : State) (chars : List Byte) := s.placeGenerated (copyRemoved 33 .queueFull) ⟨[], 0⟩ p chars
    ((u.port p).params.mgmtAccept = false → u.manage p v = u.count .mgmtRefused) ∧
    ((u.port p).params.mgmtAccept = true → u.denies v.source = true →
      u.manage p v =
        match placed ((u.count .mgmtDenied).raise .denied) (answer [code, sequence, 1, 0]) with
        | (some _, t) => t
        | (none, t) => t.count .mgmtNoRoom) ∧
    ((u.port p).params.mgmtAccept = true → u.denies v.source = false →
      (∀ w, placed u [] = (none, w) → u.manage p v = w.count .mgmtNoRoom) ∧
      (∀ room w, placed u [] = (some room, w) →
        (u.restart.isSome = true → u.manage p v = w.setChars room (answer [code, sequence, 6, 0])) ∧
        (u.restart = none → v.payload.length < 2 ∨ commandOf code = none →
          u.manage p v = w.setChars room (answer [code, sequence, 2, 0])) ∧
        (∀ payload, u.restart = none → 2 ≤ v.payload.length → (commandOf code).isSome = true →
          u.cachedFor v.source sequence = some payload → u.manage p v = w.setChars room (answer payload)) ∧
        (∀ c r t, u.restart = none → 2 ≤ v.payload.length → commandOf code = some c →
          u.cachedFor v.source sequence = none → w.executeCommand room (v.payload.drop 2) c = (r, t) →
          let payload := [code, sequence, r.code.code, byteOf r.records] ++ r.data
          u.manage p v =
            ((t.count .mgmtExecuted).storeResult v.source sequence payload).fillRoom p room (answer payload))))) ∧
  (∀ (s : State) (a sequence : Byte) (payload : List Byte),
    (s.denies a = true ↔ (∃ i, s.managers.get i ≠ none) ∧ ∀ i, ¬ holds s a i) ∧
    ((∀ i, ¬ holds s a i) →
      s.cachedFor a sequence = none ∧ s.storeResult a sequence payload = s) ∧
    (∀ i, holds s a i → (∀ j, j < i → ¬ holds s a j) →
      (s.cachedFor a sequence = some payload ↔ s.managers.get i = some ⟨a, some ⟨sequence, payload⟩⟩) ∧
      s.storeResult a sequence payload =
        { s with managers := s.managers.set i.val (some ⟨a, some ⟨sequence, payload⟩⟩) i.isLt })) ∧
  (∀ (s : State) (p : Port) (room : BufferIx) (chars : List Byte),
    ((∃ e ∈ s.queue p, e.buffer = room ∧ e.origin = .generated) → s.fillRoom p room chars = s.setChars room chars) ∧
    ((∀ e ∈ s.queue p, ¬ (e.buffer = room ∧ e.origin = .generated)) → s.fillRoom p room chars = s)) ∧
  (∀ (b : Byte) (c : CommandCode), commandOf b = some c ↔ c.code = b) ∧
  (∀ (s : State) (room : BufferIx) (args : List Byte) (c : CommandCode),
    let used : Nat :=
      match c with
      | .readEntries => 3
      | .writeEntry => 10
      | .getParam => 2
      | .setParam => 6
      | .readCounters => 2
      | .timeSet => 6
      | .clearAlert => 1
      | .restart => 1
      | .status => 0
      | .timeRead => 0
      | .timeRound => 0
      | .timeHold => 0
      | .timeRun => 0
      | .flushLearned => 0
    s.executeCommand room args c = s.executeCommand room (args.take used) c) ∧
  (∀ (s : State) (i : Instr) (p : Port) (h : CommandHead) (c : CommandCode) (args : List Byte),
    carriedCommand i = some (p, h, c, args) →
    exec i s =
      exec (.manage p
        { dest := s.restartFirst.params.ownAddress, source := h.source, cls := 3, unused := 0, tag := h.tag,
          payload := [c.code, h.sequence] ++ args }) s) ∧
  (∀ (s : State) (p : Port) (h : CommandHead) (c : CommandCode) (args : List Byte) (b room : BufferIx)
    (rest : List BufferIx), s.canReceive p = true → s.letsThrough p h.source = true → s.admitsCommand p h = true →
    args.length ≤ 62 → (s.queue p).length < 16 → s.freeList = b :: room :: rest →
    let t := (s.arrived p b (room :: rest)
      (framedChars (commandFrame s.params.ownAddress c h args) .manage)).heardFrom p h.source
    CommandTaken s p h c args b room
      ({ t.enqueue p ⟨room, .express, .generated, none⟩ with freeList := rest }.setBuffer room ⟨.held 1, []⟩))

/-! ### Resets and supplies -/

/-- A cold start: the whole part at its reset values (R39, R40, R49, R59, R63, R78, R106, R144, R156, R174,
R181 to R183, R188), CALENDAR_LOST pending (R194), VBAK present again (log 12). With open straps and idle lines it is
State.reset (log 10). The parameters have the defaults of R36 and R174, and take from the straps what R181 gives them:
own address 224 and the ADDR number, FORWARDING from BOOT, MGMT_ACCEPT from MSEG, of port 0 always on. The model's
choices, which no rule states: the buffers are emptied (log 14), arrival and lapse stamps start at 0 (log 28), and the
count of CLK periods that times the millisecond goes on as it was (log 5). The phase begins with a crystal period, so
the first second tick comes one second after the cold start (R144). -/
def Obligations.ColdStartResetsEverything : Prop :=
  (∀ (s : State) (straps : Straps),
    exec (.coldStart straps) s =
      .next { s.afterReset .cold straps with
        calendar := ⟨⟨2000, 1, 1, 0, 0, 0⟩, 0, false, false⟩, crystalCount := 0, backupSupply := true,
        backupLost := false, pendingAlerts := 0b1000000#7 }) ∧
  exec (.coldStart ⟨0, true, true⟩) State.reset = .next State.reset ∧
  (∀ (straps : Straps) (p : Port),
    resetPort straps p = ⟨.listen, .idle 0, .oneCt, 0, defaultPortParams straps p, [], Vector.replicate 11 0⟩ ∧
    defaultPortParams straps p =
      { enable := true, baud := .b19200, quiet := 4, guard := 20, attempts := 8, jabberLimit := 50,
        containPeriod := 2000, replyTimeout := 250, mgmtAccept := straps.msegOpen || p == 0 } ∧
    defaultCouplerParams straps =
      { ownAddress := BitVec.ofNat 8 (224 + straps.addr.toNat), forwarding := straps.bootOpen,
        unknownPolicy := .flood, ageLimit := 30, reserve := 6, maxOutstanding := 2, lapseGrace := 1000,
        alertMode := .latched, alertMask := 0, alertRecipient := 0 }) ∧
  let t := State.reset
  t.stations = Vector.replicate 239 ⟨.unknown, 3⟩ ∧ t.groups = Vector.replicate 16 0b1111#4 ∧
    t.windows = Vector.replicate 24 ⟨false, 0, ⟨0, 0⟩, ⟨0, 0⟩, 0, .quiet⟩ ∧ t.managers = Vector.replicate 4 none ∧
    t.transactions = Vector.replicate 32 .free ∧ t.dispositions = Vector.replicate 4 .opened ∧
    t.pool = Vector.replicate 48 ⟨.free, []⟩ ∧ t.freeList = List.finRange 48 ∧ t.counters = Vector.replicate 22 0 ∧
    t.staged = none ∧ t.restart = none ∧ t.pulse = none ∧ t.powered = true ∧ t.nextStamp = 0 ∧ t.nextLapse = 0

/-- A power start, a pin reset and a full restart whose result has left its queue reset the part but for its backup
domain and record their cause (R144, R179, R181 to R183, R194). A power-on that finds the backup domain lost, or VBAK
absent with main power, is a cold start (R132, log 12). A full restart that has not fallen due does not occur (log 3,
log 8), and its row and WARM_RESTART then leave the state as it is; the row of the one kind with a restart of the other
due is that other restart, a full one with the straps last read (R179, log 8, log 17). The model's choices in the state
that is left, which no rule states: the buffers are emptied (log 14), arrival and lapse stamps start at 0 (log 28), and
the count of CLK periods that times the millisecond goes on as it was (log 5). The crystal counts on undisturbed (R144). -/
def Obligations.SampledResetsKeepTheCalendar : Prop :=
  ∀ (s : State) (straps : Straps),
    (s.backupLost = false → s.backupSupply = true → exec (.powerStart straps) s = .next (s.afterReset .power straps)) ∧
    (s.backupLost = true ∨ s.backupSupply = false → exec (.powerStart straps) s = exec (.coldStart straps) s) ∧
    (s.powered = true →
      exec (.pinReset straps) s = .next (s.afterReset .pin straps) ∧
      (∀ b, s.restart = some ⟨.full, b, true⟩ →
        exec (.fullRestart straps) s = .next (s.afterReset .full straps) ∧
        exec .warmRestart s = .next (s.afterReset .full s.straps)) ∧
      (∀ b, s.restart = some ⟨.warm, b, true⟩ → exec (.fullRestart straps) s = exec .warmRestart s) ∧
      (s.quiescent = true →
        exec (.fullRestart straps) s = .next s ∧ exec .warmRestart s = .next s))

/-- A warm restart whose result has left its queue, which is when it takes effect (log 8) (R39, R40, R49, R59, R63, R106, R156, R179, R183, R188, R194): parameters, tables and
counters stay, manager addresses stay without their cached results, everything under way is gone, and the
dispositions are formed anew. The model's choices, which no rule states: the buffers hold no characters (log 14), arrival
and lapse stamps start at 0 (log 28), and the count of CLK periods that times the millisecond goes on as it was (log 5).
The crystal counts on undisturbed (R144). -/
def Obligations.WarmRestartKeepsTheTables : Prop :=
  ∀ (s : State) (b : BufferIx), s.powered = true → s.restart = some ⟨.warm, b, true⟩ →
    let port (p : Port) : PortUnit :=
      ⟨if (s.port p).params.enable then .listen else .disabled, (s.port p).line.afresh, .oneCt, 0, (s.port p).params, [],
        (s.port p).counters⟩
    exec .warmRestart s =
      .next { s with
        ports := #v[port 0, port 1, port 2, port 3]
        pool := Vector.replicate 48 ⟨.free, []⟩
        freeList := List.finRange 48
        nextStamp := 0
        transactions := Vector.replicate 32 .free
        nextLapse := 0
        dispositions := s.formDispositions
        staged := none
        managers := s.managers.map fun m => m.map fun r => ⟨r.address, none⟩
        pendingAlerts := 0
        pulse := none
        restart := none
        resetCause := .warm }

/-- The supplies (R132). Main power removed: nothing is driven, queued, received or tracked. The backup domain keeps its
contents from VBAK and loses them where VBAK is absent; with main power present the loss of VBAK loses nothing, but it
stays absent until a power-on, and the next removal of main power takes the contents with it (log 12). -/
def Obligations.SuppliesAreLost : Prop :=
  ∀ s : State,
    let lost : Calendar := ⟨⟨2000, 1, 1, 0, 0, 0⟩, 0, false, false⟩
    (s.powered = true →
      exec .backupSupplyLoss s = .next { s.restartFirst with backupSupply := false } ∧
      ∃ t, exec .mainPowerLoss s = .next t ∧ t.powered = false ∧ t.backupSupply = s.backupSupply ∧
        (s.backupSupply = true → t.calendar = s.calendar ∧ t.backupLost = s.backupLost) ∧
        (s.backupSupply = false → t.calendar = lost ∧ t.backupLost = true) ∧
        t.staged = none ∧ t.pendingAlerts = 0 ∧ t.pulse = none ∧ t.restart = none ∧
        t.freeList = List.finRange 48 ∧ (∀ i, t.tx i = .free) ∧
        ∀ p, (t.port p).state = .disabled ∧ t.queue p = [] ∧ t.txd p = none) ∧
    (s.powered = false →
      exec .mainPowerLoss s = .next s ∧
      exec .backupSupplyLoss s = .next { s with backupSupply := false, backupLost := true, calendar := lost })
end

