-- ==== Sys2Proof/Laws/State.lean ====
section
/-! SUPPORT. What each small update of State leaves in each field: one lemma per field per update, true by definition. -/

namespace Sys2Proof.Machine

/-! ### updPort -/

@[simp] theorem State.updPort_ports (s : State) (p : Port) (f : PortUnit → PortUnit) : (s.updPort p f).ports = s.ports.set p.val (f (s.port p)) p.isLt := rfl
@[simp] theorem State.updPort_pool (s : State) (p : Port) (f : PortUnit → PortUnit) : (s.updPort p f).pool = s.pool := rfl
@[simp] theorem State.updPort_freeList (s : State) (p : Port) (f : PortUnit → PortUnit) : (s.updPort p f).freeList = s.freeList := rfl
@[simp] theorem State.updPort_nextStamp (s : State) (p : Port) (f : PortUnit → PortUnit) : (s.updPort p f).nextStamp = s.nextStamp := rfl
@[simp] theorem State.updPort_stations (s : State) (p : Port) (f : PortUnit → PortUnit) : (s.updPort p f).stations = s.stations := rfl
@[simp] theorem State.updPort_groups (s : State) (p : Port) (f : PortUnit → PortUnit) : (s.updPort p f).groups = s.groups := rfl
@[simp] theorem State.updPort_transactions (s : State) (p : Port) (f : PortUnit → PortUnit) : (s.updPort p f).transactions = s.transactions := rfl
@[simp] theorem State.updPort_nextLapse (s : State) (p : Port) (f : PortUnit → PortUnit) : (s.updPort p f).nextLapse = s.nextLapse := rfl
@[simp] theorem State.updPort_windows (s : State) (p : Port) (f : PortUnit → PortUnit) : (s.updPort p f).windows = s.windows := rfl
@[simp] theorem State.updPort_dispositions (s : State) (p : Port) (f : PortUnit → PortUnit) : (s.updPort p f).dispositions = s.dispositions := rfl
@[simp] theorem State.updPort_calendar (s : State) (p : Port) (f : PortUnit → PortUnit) : (s.updPort p f).calendar = s.calendar := rfl
@[simp] theorem State.updPort_backupSupply (s : State) (p : Port) (f : PortUnit → PortUnit) : (s.updPort p f).backupSupply = s.backupSupply := rfl
@[simp] theorem State.updPort_backupLost (s : State) (p : Port) (f : PortUnit → PortUnit) : (s.updPort p f).backupLost = s.backupLost := rfl
@[simp] theorem State.updPort_staged (s : State) (p : Port) (f : PortUnit → PortUnit) : (s.updPort p f).staged = s.staged := rfl
@[simp] theorem State.updPort_managers (s : State) (p : Port) (f : PortUnit → PortUnit) : (s.updPort p f).managers = s.managers := rfl
@[simp] theorem State.updPort_params (s : State) (p : Port) (f : PortUnit → PortUnit) : (s.updPort p f).params = s.params := rfl
@[simp] theorem State.updPort_counters (s : State) (p : Port) (f : PortUnit → PortUnit) : (s.updPort p f).counters = s.counters := rfl
@[simp] theorem State.updPort_pendingAlerts (s : State) (p : Port) (f : PortUnit → PortUnit) : (s.updPort p f).pendingAlerts = s.pendingAlerts := rfl
@[simp] theorem State.updPort_pulse (s : State) (p : Port) (f : PortUnit → PortUnit) : (s.updPort p f).pulse = s.pulse := rfl
@[simp] theorem State.updPort_resetCause (s : State) (p : Port) (f : PortUnit → PortUnit) : (s.updPort p f).resetCause = s.resetCause := rfl
@[simp] theorem State.updPort_restart (s : State) (p : Port) (f : PortUnit → PortUnit) : (s.updPort p f).restart = s.restart := rfl
@[simp] theorem State.updPort_straps (s : State) (p : Port) (f : PortUnit → PortUnit) : (s.updPort p f).straps = s.straps := rfl
@[simp] theorem State.updPort_powered (s : State) (p : Port) (f : PortUnit → PortUnit) : (s.updPort p f).powered = s.powered := rfl
@[simp] theorem State.updPort_crystalCount (s : State) (p : Port) (f : PortUnit → PortUnit) : (s.updPort p f).crystalCount = s.crystalCount := rfl
@[simp] theorem State.updPort_msCount (s : State) (p : Port) (f : PortUnit → PortUnit) : (s.updPort p f).msCount = s.msCount := rfl
@[simp] theorem State.updPort_pending (s : State) (p : Port) (f : PortUnit → PortUnit) : (s.updPort p f).pending = s.pending := rfl

/-! ### setPortState -/

@[simp] theorem State.setPortState_ports (s : State) (p : Port) (x : PortState) : (s.setPortState p x).ports = s.ports.set p.val { s.port p with state := x } p.isLt := rfl
@[simp] theorem State.setPortState_pool (s : State) (p : Port) (x : PortState) : (s.setPortState p x).pool = s.pool := rfl
@[simp] theorem State.setPortState_freeList (s : State) (p : Port) (x : PortState) : (s.setPortState p x).freeList = s.freeList := rfl
@[simp] theorem State.setPortState_nextStamp (s : State) (p : Port) (x : PortState) : (s.setPortState p x).nextStamp = s.nextStamp := rfl
@[simp] theorem State.setPortState_stations (s : State) (p : Port) (x : PortState) : (s.setPortState p x).stations = s.stations := rfl
@[simp] theorem State.setPortState_groups (s : State) (p : Port) (x : PortState) : (s.setPortState p x).groups = s.groups := rfl
@[simp] theorem State.setPortState_transactions (s : State) (p : Port) (x : PortState) : (s.setPortState p x).transactions = s.transactions := rfl
@[simp] theorem State.setPortState_nextLapse (s : State) (p : Port) (x : PortState) : (s.setPortState p x).nextLapse = s.nextLapse := rfl
@[simp] theorem State.setPortState_windows (s : State) (p : Port) (x : PortState) : (s.setPortState p x).windows = s.windows := rfl
@[simp] theorem State.setPortState_dispositions (s : State) (p : Port) (x : PortState) : (s.setPortState p x).dispositions = s.dispositions := rfl
@[simp] theorem State.setPortState_calendar (s : State) (p : Port) (x : PortState) : (s.setPortState p x).calendar = s.calendar := rfl
@[simp] theorem State.setPortState_backupSupply (s : State) (p : Port) (x : PortState) : (s.setPortState p x).backupSupply = s.backupSupply := rfl
@[simp] theorem State.setPortState_backupLost (s : State) (p : Port) (x : PortState) : (s.setPortState p x).backupLost = s.backupLost := rfl
@[simp] theorem State.setPortState_staged (s : State) (p : Port) (x : PortState) : (s.setPortState p x).staged = s.staged := rfl
@[simp] theorem State.setPortState_managers (s : State) (p : Port) (x : PortState) : (s.setPortState p x).managers = s.managers := rfl
@[simp] theorem State.setPortState_params (s : State) (p : Port) (x : PortState) : (s.setPortState p x).params = s.params := rfl
@[simp] theorem State.setPortState_counters (s : State) (p : Port) (x : PortState) : (s.setPortState p x).counters = s.counters := rfl
@[simp] theorem State.setPortState_pendingAlerts (s : State) (p : Port) (x : PortState) : (s.setPortState p x).pendingAlerts = s.pendingAlerts := rfl
@[simp] theorem State.setPortState_pulse (s : State) (p : Port) (x : PortState) : (s.setPortState p x).pulse = s.pulse := rfl
@[simp] theorem State.setPortState_resetCause (s : State) (p : Port) (x : PortState) : (s.setPortState p x).resetCause = s.resetCause := rfl
@[simp] theorem State.setPortState_restart (s : State) (p : Port) (x : PortState) : (s.setPortState p x).restart = s.restart := rfl
@[simp] theorem State.setPortState_straps (s : State) (p : Port) (x : PortState) : (s.setPortState p x).straps = s.straps := rfl
@[simp] theorem State.setPortState_powered (s : State) (p : Port) (x : PortState) : (s.setPortState p x).powered = s.powered := rfl
@[simp] theorem State.setPortState_crystalCount (s : State) (p : Port) (x : PortState) : (s.setPortState p x).crystalCount = s.crystalCount := rfl
@[simp] theorem State.setPortState_msCount (s : State) (p : Port) (x : PortState) : (s.setPortState p x).msCount = s.msCount := rfl
@[simp] theorem State.setPortState_pending (s : State) (p : Port) (x : PortState) : (s.setPortState p x).pending = s.pending := rfl

/-! ### setQueue -/

@[simp] theorem State.setQueue_ports (s : State) (p : Port) (x : List QueueEntry) : (s.setQueue p x).ports = s.ports.set p.val { s.port p with queue := x } p.isLt := rfl
@[simp] theorem State.setQueue_pool (s : State) (p : Port) (x : List QueueEntry) : (s.setQueue p x).pool = s.pool := rfl
@[simp] theorem State.setQueue_freeList (s : State) (p : Port) (x : List QueueEntry) : (s.setQueue p x).freeList = s.freeList := rfl
@[simp] theorem State.setQueue_nextStamp (s : State) (p : Port) (x : List QueueEntry) : (s.setQueue p x).nextStamp = s.nextStamp := rfl
@[simp] theorem State.setQueue_stations (s : State) (p : Port) (x : List QueueEntry) : (s.setQueue p x).stations = s.stations := rfl
@[simp] theorem State.setQueue_groups (s : State) (p : Port) (x : List QueueEntry) : (s.setQueue p x).groups = s.groups := rfl
@[simp] theorem State.setQueue_transactions (s : State) (p : Port) (x : List QueueEntry) : (s.setQueue p x).transactions = s.transactions := rfl
@[simp] theorem State.setQueue_nextLapse (s : State) (p : Port) (x : List QueueEntry) : (s.setQueue p x).nextLapse = s.nextLapse := rfl
@[simp] theorem State.setQueue_windows (s : State) (p : Port) (x : List QueueEntry) : (s.setQueue p x).windows = s.windows := rfl
@[simp] theorem State.setQueue_dispositions (s : State) (p : Port) (x : List QueueEntry) : (s.setQueue p x).dispositions = s.dispositions := rfl
@[simp] theorem State.setQueue_calendar (s : State) (p : Port) (x : List QueueEntry) : (s.setQueue p x).calendar = s.calendar := rfl
@[simp] theorem State.setQueue_backupSupply (s : State) (p : Port) (x : List QueueEntry) : (s.setQueue p x).backupSupply = s.backupSupply := rfl
@[simp] theorem State.setQueue_backupLost (s : State) (p : Port) (x : List QueueEntry) : (s.setQueue p x).backupLost = s.backupLost := rfl
@[simp] theorem State.setQueue_staged (s : State) (p : Port) (x : List QueueEntry) : (s.setQueue p x).staged = s.staged := rfl
@[simp] theorem State.setQueue_managers (s : State) (p : Port) (x : List QueueEntry) : (s.setQueue p x).managers = s.managers := rfl
@[simp] theorem State.setQueue_params (s : State) (p : Port) (x : List QueueEntry) : (s.setQueue p x).params = s.params := rfl
@[simp] theorem State.setQueue_counters (s : State) (p : Port) (x : List QueueEntry) : (s.setQueue p x).counters = s.counters := rfl
@[simp] theorem State.setQueue_pendingAlerts (s : State) (p : Port) (x : List QueueEntry) : (s.setQueue p x).pendingAlerts = s.pendingAlerts := rfl
@[simp] theorem State.setQueue_pulse (s : State) (p : Port) (x : List QueueEntry) : (s.setQueue p x).pulse = s.pulse := rfl
@[simp] theorem State.setQueue_resetCause (s : State) (p : Port) (x : List QueueEntry) : (s.setQueue p x).resetCause = s.resetCause := rfl
@[simp] theorem State.setQueue_restart (s : State) (p : Port) (x : List QueueEntry) : (s.setQueue p x).restart = s.restart := rfl
@[simp] theorem State.setQueue_straps (s : State) (p : Port) (x : List QueueEntry) : (s.setQueue p x).straps = s.straps := rfl
@[simp] theorem State.setQueue_powered (s : State) (p : Port) (x : List QueueEntry) : (s.setQueue p x).powered = s.powered := rfl
@[simp] theorem State.setQueue_crystalCount (s : State) (p : Port) (x : List QueueEntry) : (s.setQueue p x).crystalCount = s.crystalCount := rfl
@[simp] theorem State.setQueue_msCount (s : State) (p : Port) (x : List QueueEntry) : (s.setQueue p x).msCount = s.msCount := rfl
@[simp] theorem State.setQueue_pending (s : State) (p : Port) (x : List QueueEntry) : (s.setQueue p x).pending = s.pending := rfl

/-! ### countPort -/

@[simp] theorem State.countPort_pool (s : State) (p : Port) (x : PortCounter) : (s.countPort p x).pool = s.pool := rfl
@[simp] theorem State.countPort_freeList (s : State) (p : Port) (x : PortCounter) : (s.countPort p x).freeList = s.freeList := rfl
@[simp] theorem State.countPort_nextStamp (s : State) (p : Port) (x : PortCounter) : (s.countPort p x).nextStamp = s.nextStamp := rfl
@[simp] theorem State.countPort_stations (s : State) (p : Port) (x : PortCounter) : (s.countPort p x).stations = s.stations := rfl
@[simp] theorem State.countPort_groups (s : State) (p : Port) (x : PortCounter) : (s.countPort p x).groups = s.groups := rfl
@[simp] theorem State.countPort_transactions (s : State) (p : Port) (x : PortCounter) : (s.countPort p x).transactions = s.transactions := rfl
@[simp] theorem State.countPort_nextLapse (s : State) (p : Port) (x : PortCounter) : (s.countPort p x).nextLapse = s.nextLapse := rfl
@[simp] theorem State.countPort_windows (s : State) (p : Port) (x : PortCounter) : (s.countPort p x).windows = s.windows := rfl
@[simp] theorem State.countPort_dispositions (s : State) (p : Port) (x : PortCounter) : (s.countPort p x).dispositions = s.dispositions := rfl
@[simp] theorem State.countPort_calendar (s : State) (p : Port) (x : PortCounter) : (s.countPort p x).calendar = s.calendar := rfl
@[simp] theorem State.countPort_backupSupply (s : State) (p : Port) (x : PortCounter) : (s.countPort p x).backupSupply = s.backupSupply := rfl
@[simp] theorem State.countPort_backupLost (s : State) (p : Port) (x : PortCounter) : (s.countPort p x).backupLost = s.backupLost := rfl
@[simp] theorem State.countPort_staged (s : State) (p : Port) (x : PortCounter) : (s.countPort p x).staged = s.staged := rfl
@[simp] theorem State.countPort_managers (s : State) (p : Port) (x : PortCounter) : (s.countPort p x).managers = s.managers := rfl
@[simp] theorem State.countPort_params (s : State) (p : Port) (x : PortCounter) : (s.countPort p x).params = s.params := rfl
@[simp] theorem State.countPort_counters (s : State) (p : Port) (x : PortCounter) : (s.countPort p x).counters = s.counters := rfl
@[simp] theorem State.countPort_pendingAlerts (s : State) (p : Port) (x : PortCounter) : (s.countPort p x).pendingAlerts = s.pendingAlerts := rfl
@[simp] theorem State.countPort_pulse (s : State) (p : Port) (x : PortCounter) : (s.countPort p x).pulse = s.pulse := rfl
@[simp] theorem State.countPort_resetCause (s : State) (p : Port) (x : PortCounter) : (s.countPort p x).resetCause = s.resetCause := rfl
@[simp] theorem State.countPort_restart (s : State) (p : Port) (x : PortCounter) : (s.countPort p x).restart = s.restart := rfl
@[simp] theorem State.countPort_straps (s : State) (p : Port) (x : PortCounter) : (s.countPort p x).straps = s.straps := rfl
@[simp] theorem State.countPort_powered (s : State) (p : Port) (x : PortCounter) : (s.countPort p x).powered = s.powered := rfl
@[simp] theorem State.countPort_crystalCount (s : State) (p : Port) (x : PortCounter) : (s.countPort p x).crystalCount = s.crystalCount := rfl
@[simp] theorem State.countPort_msCount (s : State) (p : Port) (x : PortCounter) : (s.countPort p x).msCount = s.msCount := rfl
@[simp] theorem State.countPort_pending (s : State) (p : Port) (x : PortCounter) : (s.countPort p x).pending = s.pending := rfl

/-! ### setLine -/

@[simp] theorem State.setLine_pool (s : State) (p : Port) (l : LineState) (x : StartHold) : (s.setLine p l x).pool = s.pool := rfl
@[simp] theorem State.setLine_freeList (s : State) (p : Port) (l : LineState) (x : StartHold) : (s.setLine p l x).freeList = s.freeList := rfl
@[simp] theorem State.setLine_nextStamp (s : State) (p : Port) (l : LineState) (x : StartHold) : (s.setLine p l x).nextStamp = s.nextStamp := rfl
@[simp] theorem State.setLine_stations (s : State) (p : Port) (l : LineState) (x : StartHold) : (s.setLine p l x).stations = s.stations := rfl
@[simp] theorem State.setLine_groups (s : State) (p : Port) (l : LineState) (x : StartHold) : (s.setLine p l x).groups = s.groups := rfl
@[simp] theorem State.setLine_transactions (s : State) (p : Port) (l : LineState) (x : StartHold) : (s.setLine p l x).transactions = s.transactions := rfl
@[simp] theorem State.setLine_nextLapse (s : State) (p : Port) (l : LineState) (x : StartHold) : (s.setLine p l x).nextLapse = s.nextLapse := rfl
@[simp] theorem State.setLine_windows (s : State) (p : Port) (l : LineState) (x : StartHold) : (s.setLine p l x).windows = s.windows := rfl
@[simp] theorem State.setLine_dispositions (s : State) (p : Port) (l : LineState) (x : StartHold) : (s.setLine p l x).dispositions = s.dispositions := rfl
@[simp] theorem State.setLine_calendar (s : State) (p : Port) (l : LineState) (x : StartHold) : (s.setLine p l x).calendar = s.calendar := rfl
@[simp] theorem State.setLine_backupSupply (s : State) (p : Port) (l : LineState) (x : StartHold) : (s.setLine p l x).backupSupply = s.backupSupply := rfl
@[simp] theorem State.setLine_backupLost (s : State) (p : Port) (l : LineState) (x : StartHold) : (s.setLine p l x).backupLost = s.backupLost := rfl
@[simp] theorem State.setLine_staged (s : State) (p : Port) (l : LineState) (x : StartHold) : (s.setLine p l x).staged = s.staged := rfl
@[simp] theorem State.setLine_managers (s : State) (p : Port) (l : LineState) (x : StartHold) : (s.setLine p l x).managers = s.managers := rfl
@[simp] theorem State.setLine_params (s : State) (p : Port) (l : LineState) (x : StartHold) : (s.setLine p l x).params = s.params := rfl
@[simp] theorem State.setLine_counters (s : State) (p : Port) (l : LineState) (x : StartHold) : (s.setLine p l x).counters = s.counters := rfl
@[simp] theorem State.setLine_pendingAlerts (s : State) (p : Port) (l : LineState) (x : StartHold) : (s.setLine p l x).pendingAlerts = s.pendingAlerts := rfl
@[simp] theorem State.setLine_pulse (s : State) (p : Port) (l : LineState) (x : StartHold) : (s.setLine p l x).pulse = s.pulse := rfl
@[simp] theorem State.setLine_resetCause (s : State) (p : Port) (l : LineState) (x : StartHold) : (s.setLine p l x).resetCause = s.resetCause := rfl
@[simp] theorem State.setLine_restart (s : State) (p : Port) (l : LineState) (x : StartHold) : (s.setLine p l x).restart = s.restart := rfl
@[simp] theorem State.setLine_straps (s : State) (p : Port) (l : LineState) (x : StartHold) : (s.setLine p l x).straps = s.straps := rfl
@[simp] theorem State.setLine_powered (s : State) (p : Port) (l : LineState) (x : StartHold) : (s.setLine p l x).powered = s.powered := rfl
@[simp] theorem State.setLine_crystalCount (s : State) (p : Port) (l : LineState) (x : StartHold) : (s.setLine p l x).crystalCount = s.crystalCount := rfl
@[simp] theorem State.setLine_msCount (s : State) (p : Port) (l : LineState) (x : StartHold) : (s.setLine p l x).msCount = s.msCount := rfl
@[simp] theorem State.setLine_pending (s : State) (p : Port) (l : LineState) (x : StartHold) : (s.setLine p l x).pending = s.pending := rfl

/-! ### dequeue -/

@[simp] theorem State.dequeue_pool (s : State) (p : Port) (x : QueueEntry) : (s.dequeue p x).pool = s.pool := rfl
@[simp] theorem State.dequeue_freeList (s : State) (p : Port) (x : QueueEntry) : (s.dequeue p x).freeList = s.freeList := rfl
@[simp] theorem State.dequeue_nextStamp (s : State) (p : Port) (x : QueueEntry) : (s.dequeue p x).nextStamp = s.nextStamp := rfl
@[simp] theorem State.dequeue_stations (s : State) (p : Port) (x : QueueEntry) : (s.dequeue p x).stations = s.stations := rfl
@[simp] theorem State.dequeue_groups (s : State) (p : Port) (x : QueueEntry) : (s.dequeue p x).groups = s.groups := rfl
@[simp] theorem State.dequeue_transactions (s : State) (p : Port) (x : QueueEntry) : (s.dequeue p x).transactions = s.transactions := rfl
@[simp] theorem State.dequeue_nextLapse (s : State) (p : Port) (x : QueueEntry) : (s.dequeue p x).nextLapse = s.nextLapse := rfl
@[simp] theorem State.dequeue_windows (s : State) (p : Port) (x : QueueEntry) : (s.dequeue p x).windows = s.windows := rfl
@[simp] theorem State.dequeue_dispositions (s : State) (p : Port) (x : QueueEntry) : (s.dequeue p x).dispositions = s.dispositions := rfl
@[simp] theorem State.dequeue_calendar (s : State) (p : Port) (x : QueueEntry) : (s.dequeue p x).calendar = s.calendar := rfl
@[simp] theorem State.dequeue_backupSupply (s : State) (p : Port) (x : QueueEntry) : (s.dequeue p x).backupSupply = s.backupSupply := rfl
@[simp] theorem State.dequeue_backupLost (s : State) (p : Port) (x : QueueEntry) : (s.dequeue p x).backupLost = s.backupLost := rfl
@[simp] theorem State.dequeue_staged (s : State) (p : Port) (x : QueueEntry) : (s.dequeue p x).staged = s.staged := rfl
@[simp] theorem State.dequeue_managers (s : State) (p : Port) (x : QueueEntry) : (s.dequeue p x).managers = s.managers := rfl
@[simp] theorem State.dequeue_params (s : State) (p : Port) (x : QueueEntry) : (s.dequeue p x).params = s.params := rfl
@[simp] theorem State.dequeue_counters (s : State) (p : Port) (x : QueueEntry) : (s.dequeue p x).counters = s.counters := rfl
@[simp] theorem State.dequeue_pendingAlerts (s : State) (p : Port) (x : QueueEntry) : (s.dequeue p x).pendingAlerts = s.pendingAlerts := rfl
@[simp] theorem State.dequeue_pulse (s : State) (p : Port) (x : QueueEntry) : (s.dequeue p x).pulse = s.pulse := rfl
@[simp] theorem State.dequeue_resetCause (s : State) (p : Port) (x : QueueEntry) : (s.dequeue p x).resetCause = s.resetCause := rfl
@[simp] theorem State.dequeue_restart (s : State) (p : Port) (x : QueueEntry) : (s.dequeue p x).restart = s.restart := rfl
@[simp] theorem State.dequeue_straps (s : State) (p : Port) (x : QueueEntry) : (s.dequeue p x).straps = s.straps := rfl
@[simp] theorem State.dequeue_powered (s : State) (p : Port) (x : QueueEntry) : (s.dequeue p x).powered = s.powered := rfl
@[simp] theorem State.dequeue_crystalCount (s : State) (p : Port) (x : QueueEntry) : (s.dequeue p x).crystalCount = s.crystalCount := rfl
@[simp] theorem State.dequeue_msCount (s : State) (p : Port) (x : QueueEntry) : (s.dequeue p x).msCount = s.msCount := rfl
@[simp] theorem State.dequeue_pending (s : State) (p : Port) (x : QueueEntry) : (s.dequeue p x).pending = s.pending := rfl

/-! ### enterMonitored -/

@[simp] theorem State.enterMonitored_pool (s : State) (p : Port) (x : PortState) : (s.enterMonitored p x).pool = s.pool := rfl
@[simp] theorem State.enterMonitored_freeList (s : State) (p : Port) (x : PortState) : (s.enterMonitored p x).freeList = s.freeList := rfl
@[simp] theorem State.enterMonitored_nextStamp (s : State) (p : Port) (x : PortState) : (s.enterMonitored p x).nextStamp = s.nextStamp := rfl
@[simp] theorem State.enterMonitored_stations (s : State) (p : Port) (x : PortState) : (s.enterMonitored p x).stations = s.stations := rfl
@[simp] theorem State.enterMonitored_groups (s : State) (p : Port) (x : PortState) : (s.enterMonitored p x).groups = s.groups := rfl
@[simp] theorem State.enterMonitored_transactions (s : State) (p : Port) (x : PortState) : (s.enterMonitored p x).transactions = s.transactions := rfl
@[simp] theorem State.enterMonitored_nextLapse (s : State) (p : Port) (x : PortState) : (s.enterMonitored p x).nextLapse = s.nextLapse := rfl
@[simp] theorem State.enterMonitored_windows (s : State) (p : Port) (x : PortState) : (s.enterMonitored p x).windows = s.windows := rfl
@[simp] theorem State.enterMonitored_dispositions (s : State) (p : Port) (x : PortState) : (s.enterMonitored p x).dispositions = s.dispositions := rfl
@[simp] theorem State.enterMonitored_calendar (s : State) (p : Port) (x : PortState) : (s.enterMonitored p x).calendar = s.calendar := rfl
@[simp] theorem State.enterMonitored_backupSupply (s : State) (p : Port) (x : PortState) : (s.enterMonitored p x).backupSupply = s.backupSupply := rfl
@[simp] theorem State.enterMonitored_backupLost (s : State) (p : Port) (x : PortState) : (s.enterMonitored p x).backupLost = s.backupLost := rfl
@[simp] theorem State.enterMonitored_staged (s : State) (p : Port) (x : PortState) : (s.enterMonitored p x).staged = s.staged := rfl
@[simp] theorem State.enterMonitored_managers (s : State) (p : Port) (x : PortState) : (s.enterMonitored p x).managers = s.managers := rfl
@[simp] theorem State.enterMonitored_params (s : State) (p : Port) (x : PortState) : (s.enterMonitored p x).params = s.params := rfl
@[simp] theorem State.enterMonitored_counters (s : State) (p : Port) (x : PortState) : (s.enterMonitored p x).counters = s.counters := rfl
@[simp] theorem State.enterMonitored_pendingAlerts (s : State) (p : Port) (x : PortState) : (s.enterMonitored p x).pendingAlerts = s.pendingAlerts := rfl
@[simp] theorem State.enterMonitored_pulse (s : State) (p : Port) (x : PortState) : (s.enterMonitored p x).pulse = s.pulse := rfl
@[simp] theorem State.enterMonitored_resetCause (s : State) (p : Port) (x : PortState) : (s.enterMonitored p x).resetCause = s.resetCause := rfl
@[simp] theorem State.enterMonitored_restart (s : State) (p : Port) (x : PortState) : (s.enterMonitored p x).restart = s.restart := rfl
@[simp] theorem State.enterMonitored_straps (s : State) (p : Port) (x : PortState) : (s.enterMonitored p x).straps = s.straps := rfl
@[simp] theorem State.enterMonitored_powered (s : State) (p : Port) (x : PortState) : (s.enterMonitored p x).powered = s.powered := rfl
@[simp] theorem State.enterMonitored_crystalCount (s : State) (p : Port) (x : PortState) : (s.enterMonitored p x).crystalCount = s.crystalCount := rfl
@[simp] theorem State.enterMonitored_msCount (s : State) (p : Port) (x : PortState) : (s.enterMonitored p x).msCount = s.msCount := rfl
@[simp] theorem State.enterMonitored_pending (s : State) (p : Port) (x : PortState) : (s.enterMonitored p x).pending = s.pending := rfl

/-! ### leaveService -/

@[simp] theorem State.leaveService_pool (s : State) (p : Port) (x : PortState) : (s.leaveService p x).pool = s.pool := rfl
@[simp] theorem State.leaveService_freeList (s : State) (p : Port) (x : PortState) : (s.leaveService p x).freeList = s.freeList := rfl
@[simp] theorem State.leaveService_nextStamp (s : State) (p : Port) (x : PortState) : (s.leaveService p x).nextStamp = s.nextStamp := rfl
@[simp] theorem State.leaveService_stations (s : State) (p : Port) (x : PortState) : (s.leaveService p x).stations = s.stations := rfl
@[simp] theorem State.leaveService_groups (s : State) (p : Port) (x : PortState) : (s.leaveService p x).groups = s.groups := rfl
@[simp] theorem State.leaveService_transactions (s : State) (p : Port) (x : PortState) : (s.leaveService p x).transactions = s.transactions := rfl
@[simp] theorem State.leaveService_nextLapse (s : State) (p : Port) (x : PortState) : (s.leaveService p x).nextLapse = s.nextLapse := rfl
@[simp] theorem State.leaveService_windows (s : State) (p : Port) (x : PortState) : (s.leaveService p x).windows = s.windows := rfl
@[simp] theorem State.leaveService_dispositions (s : State) (p : Port) (x : PortState) : (s.leaveService p x).dispositions = s.dispositions := rfl
@[simp] theorem State.leaveService_calendar (s : State) (p : Port) (x : PortState) : (s.leaveService p x).calendar = s.calendar := rfl
@[simp] theorem State.leaveService_backupSupply (s : State) (p : Port) (x : PortState) : (s.leaveService p x).backupSupply = s.backupSupply := rfl
@[simp] theorem State.leaveService_backupLost (s : State) (p : Port) (x : PortState) : (s.leaveService p x).backupLost = s.backupLost := rfl
@[simp] theorem State.leaveService_staged (s : State) (p : Port) (x : PortState) : (s.leaveService p x).staged = s.staged := rfl
@[simp] theorem State.leaveService_managers (s : State) (p : Port) (x : PortState) : (s.leaveService p x).managers = s.managers := rfl
@[simp] theorem State.leaveService_params (s : State) (p : Port) (x : PortState) : (s.leaveService p x).params = s.params := rfl
@[simp] theorem State.leaveService_counters (s : State) (p : Port) (x : PortState) : (s.leaveService p x).counters = s.counters := rfl
@[simp] theorem State.leaveService_pendingAlerts (s : State) (p : Port) (x : PortState) : (s.leaveService p x).pendingAlerts = s.pendingAlerts := rfl
@[simp] theorem State.leaveService_pulse (s : State) (p : Port) (x : PortState) : (s.leaveService p x).pulse = s.pulse := rfl
@[simp] theorem State.leaveService_resetCause (s : State) (p : Port) (x : PortState) : (s.leaveService p x).resetCause = s.resetCause := rfl
@[simp] theorem State.leaveService_restart (s : State) (p : Port) (x : PortState) : (s.leaveService p x).restart = s.restart := rfl
@[simp] theorem State.leaveService_straps (s : State) (p : Port) (x : PortState) : (s.leaveService p x).straps = s.straps := rfl
@[simp] theorem State.leaveService_powered (s : State) (p : Port) (x : PortState) : (s.leaveService p x).powered = s.powered := rfl
@[simp] theorem State.leaveService_crystalCount (s : State) (p : Port) (x : PortState) : (s.leaveService p x).crystalCount = s.crystalCount := rfl
@[simp] theorem State.leaveService_msCount (s : State) (p : Port) (x : PortState) : (s.leaveService p x).msCount = s.msCount := rfl
@[simp] theorem State.leaveService_pending (s : State) (p : Port) (x : PortState) : (s.leaveService p x).pending = s.pending := rfl

/-! ### resume -/

@[simp] theorem State.resume_pool (s : State) (p : Port) : (s.resume p).pool = s.pool := rfl
@[simp] theorem State.resume_freeList (s : State) (p : Port) : (s.resume p).freeList = s.freeList := rfl
@[simp] theorem State.resume_nextStamp (s : State) (p : Port) : (s.resume p).nextStamp = s.nextStamp := rfl
@[simp] theorem State.resume_stations (s : State) (p : Port) : (s.resume p).stations = s.stations := rfl
@[simp] theorem State.resume_groups (s : State) (p : Port) : (s.resume p).groups = s.groups := rfl
@[simp] theorem State.resume_transactions (s : State) (p : Port) : (s.resume p).transactions = s.transactions := rfl
@[simp] theorem State.resume_nextLapse (s : State) (p : Port) : (s.resume p).nextLapse = s.nextLapse := rfl
@[simp] theorem State.resume_windows (s : State) (p : Port) : (s.resume p).windows = s.windows := rfl
@[simp] theorem State.resume_dispositions (s : State) (p : Port) : (s.resume p).dispositions = s.dispositions := rfl
@[simp] theorem State.resume_calendar (s : State) (p : Port) : (s.resume p).calendar = s.calendar := rfl
@[simp] theorem State.resume_backupSupply (s : State) (p : Port) : (s.resume p).backupSupply = s.backupSupply := rfl
@[simp] theorem State.resume_backupLost (s : State) (p : Port) : (s.resume p).backupLost = s.backupLost := rfl
@[simp] theorem State.resume_staged (s : State) (p : Port) : (s.resume p).staged = s.staged := rfl
@[simp] theorem State.resume_managers (s : State) (p : Port) : (s.resume p).managers = s.managers := rfl
@[simp] theorem State.resume_params (s : State) (p : Port) : (s.resume p).params = s.params := rfl
@[simp] theorem State.resume_counters (s : State) (p : Port) : (s.resume p).counters = s.counters := rfl
@[simp] theorem State.resume_pendingAlerts (s : State) (p : Port) : (s.resume p).pendingAlerts = s.pendingAlerts := rfl
@[simp] theorem State.resume_pulse (s : State) (p : Port) : (s.resume p).pulse = s.pulse := rfl
@[simp] theorem State.resume_resetCause (s : State) (p : Port) : (s.resume p).resetCause = s.resetCause := rfl
@[simp] theorem State.resume_restart (s : State) (p : Port) : (s.resume p).restart = s.restart := rfl
@[simp] theorem State.resume_straps (s : State) (p : Port) : (s.resume p).straps = s.straps := rfl
@[simp] theorem State.resume_powered (s : State) (p : Port) : (s.resume p).powered = s.powered := rfl
@[simp] theorem State.resume_crystalCount (s : State) (p : Port) : (s.resume p).crystalCount = s.crystalCount := rfl
@[simp] theorem State.resume_msCount (s : State) (p : Port) : (s.resume p).msCount = s.msCount := rfl
@[simp] theorem State.resume_pending (s : State) (p : Port) : (s.resume p).pending = s.pending := rfl

/-! ### reachQuiet -/

@[simp] theorem State.reachQuiet_pool (s : State) (p : Port) (x : Nat) : (s.reachQuiet p x).pool = s.pool := rfl
@[simp] theorem State.reachQuiet_freeList (s : State) (p : Port) (x : Nat) : (s.reachQuiet p x).freeList = s.freeList := rfl
@[simp] theorem State.reachQuiet_nextStamp (s : State) (p : Port) (x : Nat) : (s.reachQuiet p x).nextStamp = s.nextStamp := rfl
@[simp] theorem State.reachQuiet_stations (s : State) (p : Port) (x : Nat) : (s.reachQuiet p x).stations = s.stations := rfl
@[simp] theorem State.reachQuiet_groups (s : State) (p : Port) (x : Nat) : (s.reachQuiet p x).groups = s.groups := rfl
@[simp] theorem State.reachQuiet_transactions (s : State) (p : Port) (x : Nat) : (s.reachQuiet p x).transactions = s.transactions := rfl
@[simp] theorem State.reachQuiet_nextLapse (s : State) (p : Port) (x : Nat) : (s.reachQuiet p x).nextLapse = s.nextLapse := rfl
@[simp] theorem State.reachQuiet_windows (s : State) (p : Port) (x : Nat) : (s.reachQuiet p x).windows = s.windows := rfl
@[simp] theorem State.reachQuiet_dispositions (s : State) (p : Port) (x : Nat) : (s.reachQuiet p x).dispositions = s.dispositions := rfl
@[simp] theorem State.reachQuiet_calendar (s : State) (p : Port) (x : Nat) : (s.reachQuiet p x).calendar = s.calendar := rfl
@[simp] theorem State.reachQuiet_backupSupply (s : State) (p : Port) (x : Nat) : (s.reachQuiet p x).backupSupply = s.backupSupply := rfl
@[simp] theorem State.reachQuiet_backupLost (s : State) (p : Port) (x : Nat) : (s.reachQuiet p x).backupLost = s.backupLost := rfl
@[simp] theorem State.reachQuiet_staged (s : State) (p : Port) (x : Nat) : (s.reachQuiet p x).staged = s.staged := rfl
@[simp] theorem State.reachQuiet_managers (s : State) (p : Port) (x : Nat) : (s.reachQuiet p x).managers = s.managers := rfl
@[simp] theorem State.reachQuiet_params (s : State) (p : Port) (x : Nat) : (s.reachQuiet p x).params = s.params := rfl
@[simp] theorem State.reachQuiet_counters (s : State) (p : Port) (x : Nat) : (s.reachQuiet p x).counters = s.counters := rfl
@[simp] theorem State.reachQuiet_pendingAlerts (s : State) (p : Port) (x : Nat) : (s.reachQuiet p x).pendingAlerts = s.pendingAlerts := rfl
@[simp] theorem State.reachQuiet_pulse (s : State) (p : Port) (x : Nat) : (s.reachQuiet p x).pulse = s.pulse := rfl
@[simp] theorem State.reachQuiet_resetCause (s : State) (p : Port) (x : Nat) : (s.reachQuiet p x).resetCause = s.resetCause := rfl
@[simp] theorem State.reachQuiet_restart (s : State) (p : Port) (x : Nat) : (s.reachQuiet p x).restart = s.restart := rfl
@[simp] theorem State.reachQuiet_straps (s : State) (p : Port) (x : Nat) : (s.reachQuiet p x).straps = s.straps := rfl
@[simp] theorem State.reachQuiet_powered (s : State) (p : Port) (x : Nat) : (s.reachQuiet p x).powered = s.powered := rfl
@[simp] theorem State.reachQuiet_crystalCount (s : State) (p : Port) (x : Nat) : (s.reachQuiet p x).crystalCount = s.crystalCount := rfl
@[simp] theorem State.reachQuiet_msCount (s : State) (p : Port) (x : Nat) : (s.reachQuiet p x).msCount = s.msCount := rfl
@[simp] theorem State.reachQuiet_pending (s : State) (p : Port) (x : Nat) : (s.reachQuiet p x).pending = s.pending := rfl

/-! ### updPortParams -/

@[simp] theorem State.updPortParams_pool (s : State) (p : Port) (f : PortParams → PortParams) : (s.updPortParams p f).pool = s.pool := rfl
@[simp] theorem State.updPortParams_freeList (s : State) (p : Port) (f : PortParams → PortParams) : (s.updPortParams p f).freeList = s.freeList := rfl
@[simp] theorem State.updPortParams_nextStamp (s : State) (p : Port) (f : PortParams → PortParams) : (s.updPortParams p f).nextStamp = s.nextStamp := rfl
@[simp] theorem State.updPortParams_stations (s : State) (p : Port) (f : PortParams → PortParams) : (s.updPortParams p f).stations = s.stations := rfl
@[simp] theorem State.updPortParams_groups (s : State) (p : Port) (f : PortParams → PortParams) : (s.updPortParams p f).groups = s.groups := rfl
@[simp] theorem State.updPortParams_transactions (s : State) (p : Port) (f : PortParams → PortParams) : (s.updPortParams p f).transactions = s.transactions := rfl
@[simp] theorem State.updPortParams_nextLapse (s : State) (p : Port) (f : PortParams → PortParams) : (s.updPortParams p f).nextLapse = s.nextLapse := rfl
@[simp] theorem State.updPortParams_windows (s : State) (p : Port) (f : PortParams → PortParams) : (s.updPortParams p f).windows = s.windows := rfl
@[simp] theorem State.updPortParams_dispositions (s : State) (p : Port) (f : PortParams → PortParams) : (s.updPortParams p f).dispositions = s.dispositions := rfl
@[simp] theorem State.updPortParams_calendar (s : State) (p : Port) (f : PortParams → PortParams) : (s.updPortParams p f).calendar = s.calendar := rfl
@[simp] theorem State.updPortParams_backupSupply (s : State) (p : Port) (f : PortParams → PortParams) : (s.updPortParams p f).backupSupply = s.backupSupply := rfl
@[simp] theorem State.updPortParams_backupLost (s : State) (p : Port) (f : PortParams → PortParams) : (s.updPortParams p f).backupLost = s.backupLost := rfl
@[simp] theorem State.updPortParams_staged (s : State) (p : Port) (f : PortParams → PortParams) : (s.updPortParams p f).staged = s.staged := rfl
@[simp] theorem State.updPortParams_managers (s : State) (p : Port) (f : PortParams → PortParams) : (s.updPortParams p f).managers = s.managers := rfl
@[simp] theorem State.updPortParams_params (s : State) (p : Port) (f : PortParams → PortParams) : (s.updPortParams p f).params = s.params := rfl
@[simp] theorem State.updPortParams_counters (s : State) (p : Port) (f : PortParams → PortParams) : (s.updPortParams p f).counters = s.counters := rfl
@[simp] theorem State.updPortParams_pendingAlerts (s : State) (p : Port) (f : PortParams → PortParams) : (s.updPortParams p f).pendingAlerts = s.pendingAlerts := rfl
@[simp] theorem State.updPortParams_pulse (s : State) (p : Port) (f : PortParams → PortParams) : (s.updPortParams p f).pulse = s.pulse := rfl
@[simp] theorem State.updPortParams_resetCause (s : State) (p : Port) (f : PortParams → PortParams) : (s.updPortParams p f).resetCause = s.resetCause := rfl
@[simp] theorem State.updPortParams_restart (s : State) (p : Port) (f : PortParams → PortParams) : (s.updPortParams p f).restart = s.restart := rfl
@[simp] theorem State.updPortParams_straps (s : State) (p : Port) (f : PortParams → PortParams) : (s.updPortParams p f).straps = s.straps := rfl
@[simp] theorem State.updPortParams_powered (s : State) (p : Port) (f : PortParams → PortParams) : (s.updPortParams p f).powered = s.powered := rfl
@[simp] theorem State.updPortParams_crystalCount (s : State) (p : Port) (f : PortParams → PortParams) : (s.updPortParams p f).crystalCount = s.crystalCount := rfl
@[simp] theorem State.updPortParams_msCount (s : State) (p : Port) (f : PortParams → PortParams) : (s.updPortParams p f).msCount = s.msCount := rfl
@[simp] theorem State.updPortParams_pending (s : State) (p : Port) (f : PortParams → PortParams) : (s.updPortParams p f).pending = s.pending := rfl

/-! ### count -/

@[simp] theorem State.count_ports (s : State) (x : CouplerCounter) : (s.count x).ports = s.ports := rfl
@[simp] theorem State.count_pool (s : State) (x : CouplerCounter) : (s.count x).pool = s.pool := rfl
@[simp] theorem State.count_freeList (s : State) (x : CouplerCounter) : (s.count x).freeList = s.freeList := rfl
@[simp] theorem State.count_nextStamp (s : State) (x : CouplerCounter) : (s.count x).nextStamp = s.nextStamp := rfl
@[simp] theorem State.count_stations (s : State) (x : CouplerCounter) : (s.count x).stations = s.stations := rfl
@[simp] theorem State.count_groups (s : State) (x : CouplerCounter) : (s.count x).groups = s.groups := rfl
@[simp] theorem State.count_transactions (s : State) (x : CouplerCounter) : (s.count x).transactions = s.transactions := rfl
@[simp] theorem State.count_nextLapse (s : State) (x : CouplerCounter) : (s.count x).nextLapse = s.nextLapse := rfl
@[simp] theorem State.count_windows (s : State) (x : CouplerCounter) : (s.count x).windows = s.windows := rfl
@[simp] theorem State.count_dispositions (s : State) (x : CouplerCounter) : (s.count x).dispositions = s.dispositions := rfl
@[simp] theorem State.count_calendar (s : State) (x : CouplerCounter) : (s.count x).calendar = s.calendar := rfl
@[simp] theorem State.count_backupSupply (s : State) (x : CouplerCounter) : (s.count x).backupSupply = s.backupSupply := rfl
@[simp] theorem State.count_backupLost (s : State) (x : CouplerCounter) : (s.count x).backupLost = s.backupLost := rfl
@[simp] theorem State.count_staged (s : State) (x : CouplerCounter) : (s.count x).staged = s.staged := rfl
@[simp] theorem State.count_managers (s : State) (x : CouplerCounter) : (s.count x).managers = s.managers := rfl
@[simp] theorem State.count_params (s : State) (x : CouplerCounter) : (s.count x).params = s.params := rfl
@[simp] theorem State.count_counters (s : State) (x : CouplerCounter) : (s.count x).counters = s.counters.set x.index.val (s.counters.get x.index + 1) x.index.isLt := rfl
@[simp] theorem State.count_pendingAlerts (s : State) (x : CouplerCounter) : (s.count x).pendingAlerts = s.pendingAlerts := rfl
@[simp] theorem State.count_pulse (s : State) (x : CouplerCounter) : (s.count x).pulse = s.pulse := rfl
@[simp] theorem State.count_resetCause (s : State) (x : CouplerCounter) : (s.count x).resetCause = s.resetCause := rfl
@[simp] theorem State.count_restart (s : State) (x : CouplerCounter) : (s.count x).restart = s.restart := rfl
@[simp] theorem State.count_straps (s : State) (x : CouplerCounter) : (s.count x).straps = s.straps := rfl
@[simp] theorem State.count_powered (s : State) (x : CouplerCounter) : (s.count x).powered = s.powered := rfl
@[simp] theorem State.count_crystalCount (s : State) (x : CouplerCounter) : (s.count x).crystalCount = s.crystalCount := rfl
@[simp] theorem State.count_msCount (s : State) (x : CouplerCounter) : (s.count x).msCount = s.msCount := rfl
@[simp] theorem State.count_pending (s : State) (x : CouplerCounter) : (s.count x).pending = s.pending := rfl

/-! ### setTx -/

@[simp] theorem State.setTx_ports (s : State) (i : TxIx) (x : TxEntry) : (s.setTx i x).ports = s.ports := rfl
@[simp] theorem State.setTx_pool (s : State) (i : TxIx) (x : TxEntry) : (s.setTx i x).pool = s.pool := rfl
@[simp] theorem State.setTx_freeList (s : State) (i : TxIx) (x : TxEntry) : (s.setTx i x).freeList = s.freeList := rfl
@[simp] theorem State.setTx_nextStamp (s : State) (i : TxIx) (x : TxEntry) : (s.setTx i x).nextStamp = s.nextStamp := rfl
@[simp] theorem State.setTx_stations (s : State) (i : TxIx) (x : TxEntry) : (s.setTx i x).stations = s.stations := rfl
@[simp] theorem State.setTx_groups (s : State) (i : TxIx) (x : TxEntry) : (s.setTx i x).groups = s.groups := rfl
@[simp] theorem State.setTx_transactions (s : State) (i : TxIx) (x : TxEntry) : (s.setTx i x).transactions = s.transactions.set i.val x i.isLt := rfl
@[simp] theorem State.setTx_nextLapse (s : State) (i : TxIx) (x : TxEntry) : (s.setTx i x).nextLapse = s.nextLapse := rfl
@[simp] theorem State.setTx_windows (s : State) (i : TxIx) (x : TxEntry) : (s.setTx i x).windows = s.windows := rfl
@[simp] theorem State.setTx_dispositions (s : State) (i : TxIx) (x : TxEntry) : (s.setTx i x).dispositions = s.dispositions := rfl
@[simp] theorem State.setTx_calendar (s : State) (i : TxIx) (x : TxEntry) : (s.setTx i x).calendar = s.calendar := rfl
@[simp] theorem State.setTx_backupSupply (s : State) (i : TxIx) (x : TxEntry) : (s.setTx i x).backupSupply = s.backupSupply := rfl
@[simp] theorem State.setTx_backupLost (s : State) (i : TxIx) (x : TxEntry) : (s.setTx i x).backupLost = s.backupLost := rfl
@[simp] theorem State.setTx_staged (s : State) (i : TxIx) (x : TxEntry) : (s.setTx i x).staged = s.staged := rfl
@[simp] theorem State.setTx_managers (s : State) (i : TxIx) (x : TxEntry) : (s.setTx i x).managers = s.managers := rfl
@[simp] theorem State.setTx_params (s : State) (i : TxIx) (x : TxEntry) : (s.setTx i x).params = s.params := rfl
@[simp] theorem State.setTx_counters (s : State) (i : TxIx) (x : TxEntry) : (s.setTx i x).counters = s.counters := rfl
@[simp] theorem State.setTx_pendingAlerts (s : State) (i : TxIx) (x : TxEntry) : (s.setTx i x).pendingAlerts = s.pendingAlerts := rfl
@[simp] theorem State.setTx_pulse (s : State) (i : TxIx) (x : TxEntry) : (s.setTx i x).pulse = s.pulse := rfl
@[simp] theorem State.setTx_resetCause (s : State) (i : TxIx) (x : TxEntry) : (s.setTx i x).resetCause = s.resetCause := rfl
@[simp] theorem State.setTx_restart (s : State) (i : TxIx) (x : TxEntry) : (s.setTx i x).restart = s.restart := rfl
@[simp] theorem State.setTx_straps (s : State) (i : TxIx) (x : TxEntry) : (s.setTx i x).straps = s.straps := rfl
@[simp] theorem State.setTx_powered (s : State) (i : TxIx) (x : TxEntry) : (s.setTx i x).powered = s.powered := rfl
@[simp] theorem State.setTx_crystalCount (s : State) (i : TxIx) (x : TxEntry) : (s.setTx i x).crystalCount = s.crystalCount := rfl
@[simp] theorem State.setTx_msCount (s : State) (i : TxIx) (x : TxEntry) : (s.setTx i x).msCount = s.msCount := rfl
@[simp] theorem State.setTx_pending (s : State) (i : TxIx) (x : TxEntry) : (s.setTx i x).pending = s.pending := rfl

/-! ### setBuffer -/

@[simp] theorem State.setBuffer_ports (s : State) (b : BufferIx) (x : Buffer) : (s.setBuffer b x).ports = s.ports := rfl
@[simp] theorem State.setBuffer_pool (s : State) (b : BufferIx) (x : Buffer) : (s.setBuffer b x).pool = s.pool.set b.val x b.isLt := rfl
@[simp] theorem State.setBuffer_freeList (s : State) (b : BufferIx) (x : Buffer) : (s.setBuffer b x).freeList = s.freeList := rfl
@[simp] theorem State.setBuffer_nextStamp (s : State) (b : BufferIx) (x : Buffer) : (s.setBuffer b x).nextStamp = s.nextStamp := rfl
@[simp] theorem State.setBuffer_stations (s : State) (b : BufferIx) (x : Buffer) : (s.setBuffer b x).stations = s.stations := rfl
@[simp] theorem State.setBuffer_groups (s : State) (b : BufferIx) (x : Buffer) : (s.setBuffer b x).groups = s.groups := rfl
@[simp] theorem State.setBuffer_transactions (s : State) (b : BufferIx) (x : Buffer) : (s.setBuffer b x).transactions = s.transactions := rfl
@[simp] theorem State.setBuffer_nextLapse (s : State) (b : BufferIx) (x : Buffer) : (s.setBuffer b x).nextLapse = s.nextLapse := rfl
@[simp] theorem State.setBuffer_windows (s : State) (b : BufferIx) (x : Buffer) : (s.setBuffer b x).windows = s.windows := rfl
@[simp] theorem State.setBuffer_dispositions (s : State) (b : BufferIx) (x : Buffer) : (s.setBuffer b x).dispositions = s.dispositions := rfl
@[simp] theorem State.setBuffer_calendar (s : State) (b : BufferIx) (x : Buffer) : (s.setBuffer b x).calendar = s.calendar := rfl
@[simp] theorem State.setBuffer_backupSupply (s : State) (b : BufferIx) (x : Buffer) : (s.setBuffer b x).backupSupply = s.backupSupply := rfl
@[simp] theorem State.setBuffer_backupLost (s : State) (b : BufferIx) (x : Buffer) : (s.setBuffer b x).backupLost = s.backupLost := rfl
@[simp] theorem State.setBuffer_staged (s : State) (b : BufferIx) (x : Buffer) : (s.setBuffer b x).staged = s.staged := rfl
@[simp] theorem State.setBuffer_managers (s : State) (b : BufferIx) (x : Buffer) : (s.setBuffer b x).managers = s.managers := rfl
@[simp] theorem State.setBuffer_params (s : State) (b : BufferIx) (x : Buffer) : (s.setBuffer b x).params = s.params := rfl
@[simp] theorem State.setBuffer_counters (s : State) (b : BufferIx) (x : Buffer) : (s.setBuffer b x).counters = s.counters := rfl
@[simp] theorem State.setBuffer_pendingAlerts (s : State) (b : BufferIx) (x : Buffer) : (s.setBuffer b x).pendingAlerts = s.pendingAlerts := rfl
@[simp] theorem State.setBuffer_pulse (s : State) (b : BufferIx) (x : Buffer) : (s.setBuffer b x).pulse = s.pulse := rfl
@[simp] theorem State.setBuffer_resetCause (s : State) (b : BufferIx) (x : Buffer) : (s.setBuffer b x).resetCause = s.resetCause := rfl
@[simp] theorem State.setBuffer_restart (s : State) (b : BufferIx) (x : Buffer) : (s.setBuffer b x).restart = s.restart := rfl
@[simp] theorem State.setBuffer_straps (s : State) (b : BufferIx) (x : Buffer) : (s.setBuffer b x).straps = s.straps := rfl
@[simp] theorem State.setBuffer_powered (s : State) (b : BufferIx) (x : Buffer) : (s.setBuffer b x).powered = s.powered := rfl
@[simp] theorem State.setBuffer_crystalCount (s : State) (b : BufferIx) (x : Buffer) : (s.setBuffer b x).crystalCount = s.crystalCount := rfl
@[simp] theorem State.setBuffer_msCount (s : State) (b : BufferIx) (x : Buffer) : (s.setBuffer b x).msCount = s.msCount := rfl
@[simp] theorem State.setBuffer_pending (s : State) (b : BufferIx) (x : Buffer) : (s.setBuffer b x).pending = s.pending := rfl

/-! ### setCondition -/

@[simp] theorem State.setCondition_ports (s : State) (b : BufferIx) (x : BufferCondition) : (s.setCondition b x).ports = s.ports := rfl
@[simp] theorem State.setCondition_pool (s : State) (b : BufferIx) (x : BufferCondition) : (s.setCondition b x).pool = s.pool.set b.val { s.pool.get b with condition := x } b.isLt := rfl
@[simp] theorem State.setCondition_freeList (s : State) (b : BufferIx) (x : BufferCondition) : (s.setCondition b x).freeList = s.freeList := rfl
@[simp] theorem State.setCondition_nextStamp (s : State) (b : BufferIx) (x : BufferCondition) : (s.setCondition b x).nextStamp = s.nextStamp := rfl
@[simp] theorem State.setCondition_stations (s : State) (b : BufferIx) (x : BufferCondition) : (s.setCondition b x).stations = s.stations := rfl
@[simp] theorem State.setCondition_groups (s : State) (b : BufferIx) (x : BufferCondition) : (s.setCondition b x).groups = s.groups := rfl
@[simp] theorem State.setCondition_transactions (s : State) (b : BufferIx) (x : BufferCondition) : (s.setCondition b x).transactions = s.transactions := rfl
@[simp] theorem State.setCondition_nextLapse (s : State) (b : BufferIx) (x : BufferCondition) : (s.setCondition b x).nextLapse = s.nextLapse := rfl
@[simp] theorem State.setCondition_windows (s : State) (b : BufferIx) (x : BufferCondition) : (s.setCondition b x).windows = s.windows := rfl
@[simp] theorem State.setCondition_dispositions (s : State) (b : BufferIx) (x : BufferCondition) : (s.setCondition b x).dispositions = s.dispositions := rfl
@[simp] theorem State.setCondition_calendar (s : State) (b : BufferIx) (x : BufferCondition) : (s.setCondition b x).calendar = s.calendar := rfl
@[simp] theorem State.setCondition_backupSupply (s : State) (b : BufferIx) (x : BufferCondition) : (s.setCondition b x).backupSupply = s.backupSupply := rfl
@[simp] theorem State.setCondition_backupLost (s : State) (b : BufferIx) (x : BufferCondition) : (s.setCondition b x).backupLost = s.backupLost := rfl
@[simp] theorem State.setCondition_staged (s : State) (b : BufferIx) (x : BufferCondition) : (s.setCondition b x).staged = s.staged := rfl
@[simp] theorem State.setCondition_managers (s : State) (b : BufferIx) (x : BufferCondition) : (s.setCondition b x).managers = s.managers := rfl
@[simp] theorem State.setCondition_params (s : State) (b : BufferIx) (x : BufferCondition) : (s.setCondition b x).params = s.params := rfl
@[simp] theorem State.setCondition_counters (s : State) (b : BufferIx) (x : BufferCondition) : (s.setCondition b x).counters = s.counters := rfl
@[simp] theorem State.setCondition_pendingAlerts (s : State) (b : BufferIx) (x : BufferCondition) : (s.setCondition b x).pendingAlerts = s.pendingAlerts := rfl
@[simp] theorem State.setCondition_pulse (s : State) (b : BufferIx) (x : BufferCondition) : (s.setCondition b x).pulse = s.pulse := rfl
@[simp] theorem State.setCondition_resetCause (s : State) (b : BufferIx) (x : BufferCondition) : (s.setCondition b x).resetCause = s.resetCause := rfl
@[simp] theorem State.setCondition_restart (s : State) (b : BufferIx) (x : BufferCondition) : (s.setCondition b x).restart = s.restart := rfl
@[simp] theorem State.setCondition_straps (s : State) (b : BufferIx) (x : BufferCondition) : (s.setCondition b x).straps = s.straps := rfl
@[simp] theorem State.setCondition_powered (s : State) (b : BufferIx) (x : BufferCondition) : (s.setCondition b x).powered = s.powered := rfl
@[simp] theorem State.setCondition_crystalCount (s : State) (b : BufferIx) (x : BufferCondition) : (s.setCondition b x).crystalCount = s.crystalCount := rfl
@[simp] theorem State.setCondition_msCount (s : State) (b : BufferIx) (x : BufferCondition) : (s.setCondition b x).msCount = s.msCount := rfl
@[simp] theorem State.setCondition_pending (s : State) (b : BufferIx) (x : BufferCondition) : (s.setCondition b x).pending = s.pending := rfl

/-! ### setChars -/

@[simp] theorem State.setChars_ports (s : State) (b : BufferIx) (x : List Byte) : (s.setChars b x).ports = s.ports := rfl
@[simp] theorem State.setChars_pool (s : State) (b : BufferIx) (x : List Byte) : (s.setChars b x).pool = s.pool.set b.val { s.pool.get b with chars := x } b.isLt := rfl
@[simp] theorem State.setChars_freeList (s : State) (b : BufferIx) (x : List Byte) : (s.setChars b x).freeList = s.freeList := rfl
@[simp] theorem State.setChars_nextStamp (s : State) (b : BufferIx) (x : List Byte) : (s.setChars b x).nextStamp = s.nextStamp := rfl
@[simp] theorem State.setChars_stations (s : State) (b : BufferIx) (x : List Byte) : (s.setChars b x).stations = s.stations := rfl
@[simp] theorem State.setChars_groups (s : State) (b : BufferIx) (x : List Byte) : (s.setChars b x).groups = s.groups := rfl
@[simp] theorem State.setChars_transactions (s : State) (b : BufferIx) (x : List Byte) : (s.setChars b x).transactions = s.transactions := rfl
@[simp] theorem State.setChars_nextLapse (s : State) (b : BufferIx) (x : List Byte) : (s.setChars b x).nextLapse = s.nextLapse := rfl
@[simp] theorem State.setChars_windows (s : State) (b : BufferIx) (x : List Byte) : (s.setChars b x).windows = s.windows := rfl
@[simp] theorem State.setChars_dispositions (s : State) (b : BufferIx) (x : List Byte) : (s.setChars b x).dispositions = s.dispositions := rfl
@[simp] theorem State.setChars_calendar (s : State) (b : BufferIx) (x : List Byte) : (s.setChars b x).calendar = s.calendar := rfl
@[simp] theorem State.setChars_backupSupply (s : State) (b : BufferIx) (x : List Byte) : (s.setChars b x).backupSupply = s.backupSupply := rfl
@[simp] theorem State.setChars_backupLost (s : State) (b : BufferIx) (x : List Byte) : (s.setChars b x).backupLost = s.backupLost := rfl
@[simp] theorem State.setChars_staged (s : State) (b : BufferIx) (x : List Byte) : (s.setChars b x).staged = s.staged := rfl
@[simp] theorem State.setChars_managers (s : State) (b : BufferIx) (x : List Byte) : (s.setChars b x).managers = s.managers := rfl
@[simp] theorem State.setChars_params (s : State) (b : BufferIx) (x : List Byte) : (s.setChars b x).params = s.params := rfl
@[simp] theorem State.setChars_counters (s : State) (b : BufferIx) (x : List Byte) : (s.setChars b x).counters = s.counters := rfl
@[simp] theorem State.setChars_pendingAlerts (s : State) (b : BufferIx) (x : List Byte) : (s.setChars b x).pendingAlerts = s.pendingAlerts := rfl
@[simp] theorem State.setChars_pulse (s : State) (b : BufferIx) (x : List Byte) : (s.setChars b x).pulse = s.pulse := rfl
@[simp] theorem State.setChars_resetCause (s : State) (b : BufferIx) (x : List Byte) : (s.setChars b x).resetCause = s.resetCause := rfl
@[simp] theorem State.setChars_restart (s : State) (b : BufferIx) (x : List Byte) : (s.setChars b x).restart = s.restart := rfl
@[simp] theorem State.setChars_straps (s : State) (b : BufferIx) (x : List Byte) : (s.setChars b x).straps = s.straps := rfl
@[simp] theorem State.setChars_powered (s : State) (b : BufferIx) (x : List Byte) : (s.setChars b x).powered = s.powered := rfl
@[simp] theorem State.setChars_crystalCount (s : State) (b : BufferIx) (x : List Byte) : (s.setChars b x).crystalCount = s.crystalCount := rfl
@[simp] theorem State.setChars_msCount (s : State) (b : BufferIx) (x : List Byte) : (s.setChars b x).msCount = s.msCount := rfl
@[simp] theorem State.setChars_pending (s : State) (b : BufferIx) (x : List Byte) : (s.setChars b x).pending = s.pending := rfl

/-! ### freeUp -/

@[simp] theorem State.freeUp_ports (s : State) (b : BufferIx) : (s.freeUp b).ports = s.ports := rfl
@[simp] theorem State.freeUp_pool (s : State) (b : BufferIx) : (s.freeUp b).pool = s.pool.set b.val { s.pool.get b with condition := .free } b.isLt := rfl
@[simp] theorem State.freeUp_freeList (s : State) (b : BufferIx) : (s.freeUp b).freeList = s.freeList ++ [b] := rfl
@[simp] theorem State.freeUp_nextStamp (s : State) (b : BufferIx) : (s.freeUp b).nextStamp = s.nextStamp := rfl
@[simp] theorem State.freeUp_stations (s : State) (b : BufferIx) : (s.freeUp b).stations = s.stations := rfl
@[simp] theorem State.freeUp_groups (s : State) (b : BufferIx) : (s.freeUp b).groups = s.groups := rfl
@[simp] theorem State.freeUp_transactions (s : State) (b : BufferIx) : (s.freeUp b).transactions = s.transactions := rfl
@[simp] theorem State.freeUp_nextLapse (s : State) (b : BufferIx) : (s.freeUp b).nextLapse = s.nextLapse := rfl
@[simp] theorem State.freeUp_windows (s : State) (b : BufferIx) : (s.freeUp b).windows = s.windows := rfl
@[simp] theorem State.freeUp_dispositions (s : State) (b : BufferIx) : (s.freeUp b).dispositions = s.dispositions := rfl
@[simp] theorem State.freeUp_calendar (s : State) (b : BufferIx) : (s.freeUp b).calendar = s.calendar := rfl
@[simp] theorem State.freeUp_backupSupply (s : State) (b : BufferIx) : (s.freeUp b).backupSupply = s.backupSupply := rfl
@[simp] theorem State.freeUp_backupLost (s : State) (b : BufferIx) : (s.freeUp b).backupLost = s.backupLost := rfl
@[simp] theorem State.freeUp_staged (s : State) (b : BufferIx) : (s.freeUp b).staged = s.staged := rfl
@[simp] theorem State.freeUp_managers (s : State) (b : BufferIx) : (s.freeUp b).managers = s.managers := rfl
@[simp] theorem State.freeUp_params (s : State) (b : BufferIx) : (s.freeUp b).params = s.params := rfl
@[simp] theorem State.freeUp_counters (s : State) (b : BufferIx) : (s.freeUp b).counters = s.counters := rfl
@[simp] theorem State.freeUp_pendingAlerts (s : State) (b : BufferIx) : (s.freeUp b).pendingAlerts = s.pendingAlerts := rfl
@[simp] theorem State.freeUp_pulse (s : State) (b : BufferIx) : (s.freeUp b).pulse = s.pulse := rfl
@[simp] theorem State.freeUp_resetCause (s : State) (b : BufferIx) : (s.freeUp b).resetCause = s.resetCause := rfl
@[simp] theorem State.freeUp_restart (s : State) (b : BufferIx) : (s.freeUp b).restart = s.restart := rfl
@[simp] theorem State.freeUp_straps (s : State) (b : BufferIx) : (s.freeUp b).straps = s.straps := rfl
@[simp] theorem State.freeUp_powered (s : State) (b : BufferIx) : (s.freeUp b).powered = s.powered := rfl
@[simp] theorem State.freeUp_crystalCount (s : State) (b : BufferIx) : (s.freeUp b).crystalCount = s.crystalCount := rfl
@[simp] theorem State.freeUp_msCount (s : State) (b : BufferIx) : (s.freeUp b).msCount = s.msCount := rfl
@[simp] theorem State.freeUp_pending (s : State) (b : BufferIx) : (s.freeUp b).pending = s.pending := rfl

/-! ### enqueue -/

@[simp] theorem State.enqueue_pool (s : State) (p : Port) (x : NewEntry) : (s.enqueue p x).pool = s.pool := rfl
@[simp] theorem State.enqueue_freeList (s : State) (p : Port) (x : NewEntry) : (s.enqueue p x).freeList = s.freeList := rfl
@[simp] theorem State.enqueue_nextStamp (s : State) (p : Port) (x : NewEntry) : (s.enqueue p x).nextStamp = s.nextStamp + 1 := rfl
@[simp] theorem State.enqueue_stations (s : State) (p : Port) (x : NewEntry) : (s.enqueue p x).stations = s.stations := rfl
@[simp] theorem State.enqueue_groups (s : State) (p : Port) (x : NewEntry) : (s.enqueue p x).groups = s.groups := rfl
@[simp] theorem State.enqueue_transactions (s : State) (p : Port) (x : NewEntry) : (s.enqueue p x).transactions = s.transactions := rfl
@[simp] theorem State.enqueue_nextLapse (s : State) (p : Port) (x : NewEntry) : (s.enqueue p x).nextLapse = s.nextLapse := rfl
@[simp] theorem State.enqueue_windows (s : State) (p : Port) (x : NewEntry) : (s.enqueue p x).windows = s.windows := rfl
@[simp] theorem State.enqueue_dispositions (s : State) (p : Port) (x : NewEntry) : (s.enqueue p x).dispositions = s.dispositions := rfl
@[simp] theorem State.enqueue_calendar (s : State) (p : Port) (x : NewEntry) : (s.enqueue p x).calendar = s.calendar := rfl
@[simp] theorem State.enqueue_backupSupply (s : State) (p : Port) (x : NewEntry) : (s.enqueue p x).backupSupply = s.backupSupply := rfl
@[simp] theorem State.enqueue_backupLost (s : State) (p : Port) (x : NewEntry) : (s.enqueue p x).backupLost = s.backupLost := rfl
@[simp] theorem State.enqueue_staged (s : State) (p : Port) (x : NewEntry) : (s.enqueue p x).staged = s.staged := rfl
@[simp] theorem State.enqueue_managers (s : State) (p : Port) (x : NewEntry) : (s.enqueue p x).managers = s.managers := rfl
@[simp] theorem State.enqueue_params (s : State) (p : Port) (x : NewEntry) : (s.enqueue p x).params = s.params := rfl
@[simp] theorem State.enqueue_counters (s : State) (p : Port) (x : NewEntry) : (s.enqueue p x).counters = s.counters := rfl
@[simp] theorem State.enqueue_pendingAlerts (s : State) (p : Port) (x : NewEntry) : (s.enqueue p x).pendingAlerts = s.pendingAlerts := rfl
@[simp] theorem State.enqueue_pulse (s : State) (p : Port) (x : NewEntry) : (s.enqueue p x).pulse = s.pulse := rfl
@[simp] theorem State.enqueue_resetCause (s : State) (p : Port) (x : NewEntry) : (s.enqueue p x).resetCause = s.resetCause := rfl
@[simp] theorem State.enqueue_restart (s : State) (p : Port) (x : NewEntry) : (s.enqueue p x).restart = s.restart := rfl
@[simp] theorem State.enqueue_straps (s : State) (p : Port) (x : NewEntry) : (s.enqueue p x).straps = s.straps := rfl
@[simp] theorem State.enqueue_powered (s : State) (p : Port) (x : NewEntry) : (s.enqueue p x).powered = s.powered := rfl
@[simp] theorem State.enqueue_crystalCount (s : State) (p : Port) (x : NewEntry) : (s.enqueue p x).crystalCount = s.crystalCount := rfl
@[simp] theorem State.enqueue_msCount (s : State) (p : Port) (x : NewEntry) : (s.enqueue p x).msCount = s.msCount := rfl
@[simp] theorem State.enqueue_pending (s : State) (p : Port) (x : NewEntry) : (s.enqueue p x).pending = s.pending := rfl

/-! ### setNow -/

@[simp] theorem State.setNow_ports (s : State) (x : DateTime) : (s.setNow x).ports = s.ports := rfl
@[simp] theorem State.setNow_pool (s : State) (x : DateTime) : (s.setNow x).pool = s.pool := rfl
@[simp] theorem State.setNow_freeList (s : State) (x : DateTime) : (s.setNow x).freeList = s.freeList := rfl
@[simp] theorem State.setNow_nextStamp (s : State) (x : DateTime) : (s.setNow x).nextStamp = s.nextStamp := rfl
@[simp] theorem State.setNow_stations (s : State) (x : DateTime) : (s.setNow x).stations = s.stations := rfl
@[simp] theorem State.setNow_groups (s : State) (x : DateTime) : (s.setNow x).groups = s.groups := rfl
@[simp] theorem State.setNow_transactions (s : State) (x : DateTime) : (s.setNow x).transactions = s.transactions := rfl
@[simp] theorem State.setNow_nextLapse (s : State) (x : DateTime) : (s.setNow x).nextLapse = s.nextLapse := rfl
@[simp] theorem State.setNow_windows (s : State) (x : DateTime) : (s.setNow x).windows = s.windows := rfl
@[simp] theorem State.setNow_dispositions (s : State) (x : DateTime) : (s.setNow x).dispositions = s.dispositions := rfl
@[simp] theorem State.setNow_calendar (s : State) (x : DateTime) : (s.setNow x).calendar = { s.calendar with now := x } := rfl
@[simp] theorem State.setNow_backupSupply (s : State) (x : DateTime) : (s.setNow x).backupSupply = s.backupSupply := rfl
@[simp] theorem State.setNow_backupLost (s : State) (x : DateTime) : (s.setNow x).backupLost = s.backupLost := rfl
@[simp] theorem State.setNow_staged (s : State) (x : DateTime) : (s.setNow x).staged = s.staged := rfl
@[simp] theorem State.setNow_managers (s : State) (x : DateTime) : (s.setNow x).managers = s.managers := rfl
@[simp] theorem State.setNow_params (s : State) (x : DateTime) : (s.setNow x).params = s.params := rfl
@[simp] theorem State.setNow_counters (s : State) (x : DateTime) : (s.setNow x).counters = s.counters := rfl
@[simp] theorem State.setNow_pendingAlerts (s : State) (x : DateTime) : (s.setNow x).pendingAlerts = s.pendingAlerts := rfl
@[simp] theorem State.setNow_pulse (s : State) (x : DateTime) : (s.setNow x).pulse = s.pulse := rfl
@[simp] theorem State.setNow_resetCause (s : State) (x : DateTime) : (s.setNow x).resetCause = s.resetCause := rfl
@[simp] theorem State.setNow_restart (s : State) (x : DateTime) : (s.setNow x).restart = s.restart := rfl
@[simp] theorem State.setNow_straps (s : State) (x : DateTime) : (s.setNow x).straps = s.straps := rfl
@[simp] theorem State.setNow_powered (s : State) (x : DateTime) : (s.setNow x).powered = s.powered := rfl
@[simp] theorem State.setNow_crystalCount (s : State) (x : DateTime) : (s.setNow x).crystalCount = s.crystalCount := rfl
@[simp] theorem State.setNow_msCount (s : State) (x : DateTime) : (s.setNow x).msCount = s.msCount := rfl
@[simp] theorem State.setNow_pending (s : State) (x : DateTime) : (s.setNow x).pending = s.pending := rfl

/-! ### zeroPhase -/

@[simp] theorem State.zeroPhase_ports (s : State) : (s.zeroPhase).ports = s.ports := rfl
@[simp] theorem State.zeroPhase_pool (s : State) : (s.zeroPhase).pool = s.pool := rfl
@[simp] theorem State.zeroPhase_freeList (s : State) : (s.zeroPhase).freeList = s.freeList := rfl
@[simp] theorem State.zeroPhase_nextStamp (s : State) : (s.zeroPhase).nextStamp = s.nextStamp := rfl
@[simp] theorem State.zeroPhase_stations (s : State) : (s.zeroPhase).stations = s.stations := rfl
@[simp] theorem State.zeroPhase_groups (s : State) : (s.zeroPhase).groups = s.groups := rfl
@[simp] theorem State.zeroPhase_transactions (s : State) : (s.zeroPhase).transactions = s.transactions := rfl
@[simp] theorem State.zeroPhase_nextLapse (s : State) : (s.zeroPhase).nextLapse = s.nextLapse := rfl
@[simp] theorem State.zeroPhase_windows (s : State) : (s.zeroPhase).windows = s.windows := rfl
@[simp] theorem State.zeroPhase_dispositions (s : State) : (s.zeroPhase).dispositions = s.dispositions := rfl
@[simp] theorem State.zeroPhase_calendar (s : State) : (s.zeroPhase).calendar = { s.calendar with phase := 0 } := rfl
@[simp] theorem State.zeroPhase_backupSupply (s : State) : (s.zeroPhase).backupSupply = s.backupSupply := rfl
@[simp] theorem State.zeroPhase_backupLost (s : State) : (s.zeroPhase).backupLost = s.backupLost := rfl
@[simp] theorem State.zeroPhase_staged (s : State) : (s.zeroPhase).staged = s.staged := rfl
@[simp] theorem State.zeroPhase_managers (s : State) : (s.zeroPhase).managers = s.managers := rfl
@[simp] theorem State.zeroPhase_params (s : State) : (s.zeroPhase).params = s.params := rfl
@[simp] theorem State.zeroPhase_counters (s : State) : (s.zeroPhase).counters = s.counters := rfl
@[simp] theorem State.zeroPhase_pendingAlerts (s : State) : (s.zeroPhase).pendingAlerts = s.pendingAlerts := rfl
@[simp] theorem State.zeroPhase_pulse (s : State) : (s.zeroPhase).pulse = s.pulse := rfl
@[simp] theorem State.zeroPhase_resetCause (s : State) : (s.zeroPhase).resetCause = s.resetCause := rfl
@[simp] theorem State.zeroPhase_restart (s : State) : (s.zeroPhase).restart = s.restart := rfl
@[simp] theorem State.zeroPhase_straps (s : State) : (s.zeroPhase).straps = s.straps := rfl
@[simp] theorem State.zeroPhase_powered (s : State) : (s.zeroPhase).powered = s.powered := rfl
@[simp] theorem State.zeroPhase_crystalCount (s : State) : (s.zeroPhase).crystalCount = 0 := rfl
@[simp] theorem State.zeroPhase_msCount (s : State) : (s.zeroPhase).msCount = s.msCount := rfl
@[simp] theorem State.zeroPhase_pending (s : State) : (s.zeroPhase).pending = s.pending := rfl

/-! ### updParams -/

@[simp] theorem State.updParams_ports (s : State) (f : CouplerParams → CouplerParams) : (s.updParams f).ports = s.ports := rfl
@[simp] theorem State.updParams_pool (s : State) (f : CouplerParams → CouplerParams) : (s.updParams f).pool = s.pool := rfl
@[simp] theorem State.updParams_freeList (s : State) (f : CouplerParams → CouplerParams) : (s.updParams f).freeList = s.freeList := rfl
@[simp] theorem State.updParams_nextStamp (s : State) (f : CouplerParams → CouplerParams) : (s.updParams f).nextStamp = s.nextStamp := rfl
@[simp] theorem State.updParams_stations (s : State) (f : CouplerParams → CouplerParams) : (s.updParams f).stations = s.stations := rfl
@[simp] theorem State.updParams_groups (s : State) (f : CouplerParams → CouplerParams) : (s.updParams f).groups = s.groups := rfl
@[simp] theorem State.updParams_transactions (s : State) (f : CouplerParams → CouplerParams) : (s.updParams f).transactions = s.transactions := rfl
@[simp] theorem State.updParams_nextLapse (s : State) (f : CouplerParams → CouplerParams) : (s.updParams f).nextLapse = s.nextLapse := rfl
@[simp] theorem State.updParams_windows (s : State) (f : CouplerParams → CouplerParams) : (s.updParams f).windows = s.windows := rfl
@[simp] theorem State.updParams_dispositions (s : State) (f : CouplerParams → CouplerParams) : (s.updParams f).dispositions = s.dispositions := rfl
@[simp] theorem State.updParams_calendar (s : State) (f : CouplerParams → CouplerParams) : (s.updParams f).calendar = s.calendar := rfl
@[simp] theorem State.updParams_backupSupply (s : State) (f : CouplerParams → CouplerParams) : (s.updParams f).backupSupply = s.backupSupply := rfl
@[simp] theorem State.updParams_backupLost (s : State) (f : CouplerParams → CouplerParams) : (s.updParams f).backupLost = s.backupLost := rfl
@[simp] theorem State.updParams_staged (s : State) (f : CouplerParams → CouplerParams) : (s.updParams f).staged = s.staged := rfl
@[simp] theorem State.updParams_managers (s : State) (f : CouplerParams → CouplerParams) : (s.updParams f).managers = s.managers := rfl
@[simp] theorem State.updParams_params (s : State) (f : CouplerParams → CouplerParams) : (s.updParams f).params = f s.params := rfl
@[simp] theorem State.updParams_counters (s : State) (f : CouplerParams → CouplerParams) : (s.updParams f).counters = s.counters := rfl
@[simp] theorem State.updParams_pendingAlerts (s : State) (f : CouplerParams → CouplerParams) : (s.updParams f).pendingAlerts = s.pendingAlerts := rfl
@[simp] theorem State.updParams_pulse (s : State) (f : CouplerParams → CouplerParams) : (s.updParams f).pulse = s.pulse := rfl
@[simp] theorem State.updParams_resetCause (s : State) (f : CouplerParams → CouplerParams) : (s.updParams f).resetCause = s.resetCause := rfl
@[simp] theorem State.updParams_restart (s : State) (f : CouplerParams → CouplerParams) : (s.updParams f).restart = s.restart := rfl
@[simp] theorem State.updParams_straps (s : State) (f : CouplerParams → CouplerParams) : (s.updParams f).straps = s.straps := rfl
@[simp] theorem State.updParams_powered (s : State) (f : CouplerParams → CouplerParams) : (s.updParams f).powered = s.powered := rfl
@[simp] theorem State.updParams_crystalCount (s : State) (f : CouplerParams → CouplerParams) : (s.updParams f).crystalCount = s.crystalCount := rfl
@[simp] theorem State.updParams_msCount (s : State) (f : CouplerParams → CouplerParams) : (s.updParams f).msCount = s.msCount := rfl
@[simp] theorem State.updParams_pending (s : State) (f : CouplerParams → CouplerParams) : (s.updParams f).pending = s.pending := rfl

/-! ### setSlot -/

@[simp] theorem State.setSlot_ports (s : State) (i : Fin 4) (x : Option ManagerRecord) : (s.setSlot i x).ports = s.ports := rfl
@[simp] theorem State.setSlot_pool (s : State) (i : Fin 4) (x : Option ManagerRecord) : (s.setSlot i x).pool = s.pool := rfl
@[simp] theorem State.setSlot_freeList (s : State) (i : Fin 4) (x : Option ManagerRecord) : (s.setSlot i x).freeList = s.freeList := rfl
@[simp] theorem State.setSlot_nextStamp (s : State) (i : Fin 4) (x : Option ManagerRecord) : (s.setSlot i x).nextStamp = s.nextStamp := rfl
@[simp] theorem State.setSlot_stations (s : State) (i : Fin 4) (x : Option ManagerRecord) : (s.setSlot i x).stations = s.stations := rfl
@[simp] theorem State.setSlot_groups (s : State) (i : Fin 4) (x : Option ManagerRecord) : (s.setSlot i x).groups = s.groups := rfl
@[simp] theorem State.setSlot_transactions (s : State) (i : Fin 4) (x : Option ManagerRecord) : (s.setSlot i x).transactions = s.transactions := rfl
@[simp] theorem State.setSlot_nextLapse (s : State) (i : Fin 4) (x : Option ManagerRecord) : (s.setSlot i x).nextLapse = s.nextLapse := rfl
@[simp] theorem State.setSlot_windows (s : State) (i : Fin 4) (x : Option ManagerRecord) : (s.setSlot i x).windows = s.windows := rfl
@[simp] theorem State.setSlot_dispositions (s : State) (i : Fin 4) (x : Option ManagerRecord) : (s.setSlot i x).dispositions = s.dispositions := rfl
@[simp] theorem State.setSlot_calendar (s : State) (i : Fin 4) (x : Option ManagerRecord) : (s.setSlot i x).calendar = s.calendar := rfl
@[simp] theorem State.setSlot_backupSupply (s : State) (i : Fin 4) (x : Option ManagerRecord) : (s.setSlot i x).backupSupply = s.backupSupply := rfl
@[simp] theorem State.setSlot_backupLost (s : State) (i : Fin 4) (x : Option ManagerRecord) : (s.setSlot i x).backupLost = s.backupLost := rfl
@[simp] theorem State.setSlot_staged (s : State) (i : Fin 4) (x : Option ManagerRecord) : (s.setSlot i x).staged = s.staged := rfl
@[simp] theorem State.setSlot_managers (s : State) (i : Fin 4) (x : Option ManagerRecord) : (s.setSlot i x).managers = s.managers.set i.val x i.isLt := rfl
@[simp] theorem State.setSlot_params (s : State) (i : Fin 4) (x : Option ManagerRecord) : (s.setSlot i x).params = s.params := rfl
@[simp] theorem State.setSlot_counters (s : State) (i : Fin 4) (x : Option ManagerRecord) : (s.setSlot i x).counters = s.counters := rfl
@[simp] theorem State.setSlot_pendingAlerts (s : State) (i : Fin 4) (x : Option ManagerRecord) : (s.setSlot i x).pendingAlerts = s.pendingAlerts := rfl
@[simp] theorem State.setSlot_pulse (s : State) (i : Fin 4) (x : Option ManagerRecord) : (s.setSlot i x).pulse = s.pulse := rfl
@[simp] theorem State.setSlot_resetCause (s : State) (i : Fin 4) (x : Option ManagerRecord) : (s.setSlot i x).resetCause = s.resetCause := rfl
@[simp] theorem State.setSlot_restart (s : State) (i : Fin 4) (x : Option ManagerRecord) : (s.setSlot i x).restart = s.restart := rfl
@[simp] theorem State.setSlot_straps (s : State) (i : Fin 4) (x : Option ManagerRecord) : (s.setSlot i x).straps = s.straps := rfl
@[simp] theorem State.setSlot_powered (s : State) (i : Fin 4) (x : Option ManagerRecord) : (s.setSlot i x).powered = s.powered := rfl
@[simp] theorem State.setSlot_crystalCount (s : State) (i : Fin 4) (x : Option ManagerRecord) : (s.setSlot i x).crystalCount = s.crystalCount := rfl
@[simp] theorem State.setSlot_msCount (s : State) (i : Fin 4) (x : Option ManagerRecord) : (s.setSlot i x).msCount = s.msCount := rfl
@[simp] theorem State.setSlot_pending (s : State) (i : Fin 4) (x : Option ManagerRecord) : (s.setSlot i x).pending = s.pending := rfl

/-! ### setStation -/

@[simp] theorem State.setStation_ports (s : State) (a : Byte) (e : StationEntry) : (s.setStation a e).ports = s.ports := by
  unfold State.setStation; split <;> rfl
@[simp] theorem State.setStation_pool (s : State) (a : Byte) (e : StationEntry) : (s.setStation a e).pool = s.pool := by
  unfold State.setStation; split <;> rfl
@[simp] theorem State.setStation_freeList (s : State) (a : Byte) (e : StationEntry) : (s.setStation a e).freeList = s.freeList := by
  unfold State.setStation; split <;> rfl
@[simp] theorem State.setStation_nextStamp (s : State) (a : Byte) (e : StationEntry) : (s.setStation a e).nextStamp = s.nextStamp := by
  unfold State.setStation; split <;> rfl
@[simp] theorem State.setStation_groups (s : State) (a : Byte) (e : StationEntry) : (s.setStation a e).groups = s.groups := by
  unfold State.setStation; split <;> rfl
@[simp] theorem State.setStation_transactions (s : State) (a : Byte) (e : StationEntry) : (s.setStation a e).transactions = s.transactions := by
  unfold State.setStation; split <;> rfl
@[simp] theorem State.setStation_nextLapse (s : State) (a : Byte) (e : StationEntry) : (s.setStation a e).nextLapse = s.nextLapse := by
  unfold State.setStation; split <;> rfl
@[simp] theorem State.setStation_windows (s : State) (a : Byte) (e : StationEntry) : (s.setStation a e).windows = s.windows := by
  unfold State.setStation; split <;> rfl
@[simp] theorem State.setStation_dispositions (s : State) (a : Byte) (e : StationEntry) : (s.setStation a e).dispositions = s.dispositions := by
  unfold State.setStation; split <;> rfl
@[simp] theorem State.setStation_calendar (s : State) (a : Byte) (e : StationEntry) : (s.setStation a e).calendar = s.calendar := by
  unfold State.setStation; split <;> rfl
@[simp] theorem State.setStation_backupSupply (s : State) (a : Byte) (e : StationEntry) : (s.setStation a e).backupSupply = s.backupSupply := by
  unfold State.setStation; split <;> rfl
@[simp] theorem State.setStation_backupLost (s : State) (a : Byte) (e : StationEntry) : (s.setStation a e).backupLost = s.backupLost := by
  unfold State.setStation; split <;> rfl
@[simp] theorem State.setStation_staged (s : State) (a : Byte) (e : StationEntry) : (s.setStation a e).staged = s.staged := by
  unfold State.setStation; split <;> rfl
@[simp] theorem State.setStation_managers (s : State) (a : Byte) (e : StationEntry) : (s.setStation a e).managers = s.managers := by
  unfold State.setStation; split <;> rfl
@[simp] theorem State.setStation_params (s : State) (a : Byte) (e : StationEntry) : (s.setStation a e).params = s.params := by
  unfold State.setStation; split <;> rfl
@[simp] theorem State.setStation_counters (s : State) (a : Byte) (e : StationEntry) : (s.setStation a e).counters = s.counters := by
  unfold State.setStation; split <;> rfl
@[simp] theorem State.setStation_pendingAlerts (s : State) (a : Byte) (e : StationEntry) : (s.setStation a e).pendingAlerts = s.pendingAlerts := by
  unfold State.setStation; split <;> rfl
@[simp] theorem State.setStation_pulse (s : State) (a : Byte) (e : StationEntry) : (s.setStation a e).pulse = s.pulse := by
  unfold State.setStation; split <;> rfl
@[simp] theorem State.setStation_resetCause (s : State) (a : Byte) (e : StationEntry) : (s.setStation a e).resetCause = s.resetCause := by
  unfold State.setStation; split <;> rfl
@[simp] theorem State.setStation_restart (s : State) (a : Byte) (e : StationEntry) : (s.setStation a e).restart = s.restart := by
  unfold State.setStation; split <;> rfl
@[simp] theorem State.setStation_straps (s : State) (a : Byte) (e : StationEntry) : (s.setStation a e).straps = s.straps := by
  unfold State.setStation; split <;> rfl
@[simp] theorem State.setStation_powered (s : State) (a : Byte) (e : StationEntry) : (s.setStation a e).powered = s.powered := by
  unfold State.setStation; split <;> rfl
@[simp] theorem State.setStation_crystalCount (s : State) (a : Byte) (e : StationEntry) : (s.setStation a e).crystalCount = s.crystalCount := by
  unfold State.setStation; split <;> rfl
@[simp] theorem State.setStation_msCount (s : State) (a : Byte) (e : StationEntry) : (s.setStation a e).msCount = s.msCount := by
  unfold State.setStation; split <;> rfl
@[simp] theorem State.setStation_pending (s : State) (a : Byte) (e : StationEntry) : (s.setStation a e).pending = s.pending := by
  unfold State.setStation; split <;> rfl

/-! ### Reading back -/

/-- A vector read where, or elsewhere than where, it was written. -/
theorem get_set {α : Type} {n : Nat} (v : Vector α n) (i j : Fin n) (x : α) :
    (v.set i.val x i.isLt).get j = if j = i then x else v.get j := by
  change (v.set i.val x i.isLt)[j.val] = if j = i then x else v[j.val]
  rw [Vector.getElem_set]
  by_cases h : j = i
  · simp [h]
  · have h' : ¬ i.val = j.val := fun e => h (Fin.ext e.symm)
    simp [h, h']

/-- Port `q` after an update of port `p`. -/
theorem State.port_updPort (s : State) (p q : Port) (f : PortUnit → PortUnit) :
    (s.updPort p f).port q = if q = p then f (s.port p) else s.port q :=
  get_set s.ports p q (f (s.port p))

@[simp] theorem State.port_updPort_self (s : State) (p : Port) (f : PortUnit → PortUnit) :
    (s.updPort p f).port p = f (s.port p) := by simp [State.port_updPort]

theorem State.port_updPort_ne (s : State) {p q : Port} (h : q ≠ p) (f : PortUnit → PortUnit) :
    (s.updPort p f).port q = s.port q := by simp [State.port_updPort, h]

/-- The queue of port `q` after that of port `p` is replaced. -/
theorem State.queue_setQueue (s : State) (p q : Port) (x : List QueueEntry) :
    (s.setQueue p x).queue q = if q = p then x else s.queue q := by
  unfold State.queue State.setQueue
  rw [State.port_updPort]
  split <;> simp_all

/-- Transaction entry `j` after entry `i` is replaced. -/
theorem State.tx_setTx (s : State) (i j : TxIx) (e : TxEntry) :
    (s.setTx i e).tx j = if j = i then e else s.tx j := get_set s.transactions i j e

/-- Buffer `c` after buffer `b` is replaced. -/
theorem State.pool_get_setBuffer (s : State) (b c : BufferIx) (v : Buffer) :
    (s.setBuffer b v).pool.get c = if c = b then v else s.pool.get c := get_set s.pool b c v

/-- A coupler counter after one has advanced. -/
theorem State.counter_count (s : State) (c d : CouplerCounter) :
    (s.count c).counter d = if d.index = c.index then s.counter c + 1 else s.counter d :=
  get_set s.counters c.index d.index (s.counters.get c.index + 1)

/-- A counter of port `q` after one of port `p` has advanced. -/
theorem State.portCounter_countPort (s : State) (p q : Port) (c d : PortCounter) :
    (s.countPort p c).portCounter q d =
      if q = p ∧ d.index = c.index then s.portCounter p c + 1 else s.portCounter q d := by
  unfold State.portCounter State.countPort
  rw [State.port_updPort]
  by_cases h : q = p
  · subst h
    simp only [if_true, true_and]
    exact get_set _ c.index d.index _
  · simp [h]

end Sys2Proof.Machine
end

