-- ==== Sys2Proof/Laws/Traffic.lean ====
section
/-! SUPPORT. What the traffic operations (buffers, queues, transactions, notices, alerts) can touch, said once: each lemma says that an operation stays within the relation Traffic. -/

namespace Sys2Proof.Machine

/-- Two ports that differ at most in their queue and counters: an empty queue out of service stays empty
(R32), a queue within 16 entries, `owed` places of it being owed (R53), stays so (R50), and no
containment is counted (R31). -/
structure SamePort (owed : Nat) (u v : PortUnit) : Prop where
  state : v.state = u.state
  line : v.line = u.line
  startHold : v.startHold = u.startHold
  busySpan : v.busySpan = u.busySpan
  params : v.params = u.params
  stillEmpty : u.state.outOfService = true → u.queue = [] → v.queue = []
  fits : u.queue.length + owed ≤ Config.queueSize → v.queue.length + owed ≤ Config.queueSize
  containments : v.counters.get 10 = u.counters.get 10

/-- What a restart is, whether or not it has fallen due. -/
def restartKey (r : Option Restart) : Option (RestartKind × BufferIx) := r.map fun r => (r.kind, r.buffer)

/-- `t` comes from `s` by traffic alone, the places of `places` being owed: only queues, counters, buffers,
stamps, transactions, the pending alerts with their pulse, and the mark of a restart that has fallen
due may differ. -/
structure TrafficOwing (places : List Port) (s t : State) : Prop where
  ports : ∀ p, SamePort (places.count p) (s.port p) (t.port p)
  stations : t.stations = s.stations
  groups : t.groups = s.groups
  windows : t.windows = s.windows
  dispositions : t.dispositions = s.dispositions
  calendar : t.calendar = s.calendar
  backupSupply : t.backupSupply = s.backupSupply
  backupLost : t.backupLost = s.backupLost
  staged : t.staged = s.staged
  managers : t.managers = s.managers
  params : t.params = s.params
  resetCause : t.resetCause = s.resetCause
  restart : restartKey t.restart = restartKey s.restart
  straps : t.straps = s.straps
  powered : t.powered = s.powered
  crystalCount : t.crystalCount = s.crystalCount
  msCount : t.msCount = s.msCount
  pending : t.pending = s.pending

/-- Traffic while no displacement is under way. -/
abbrev Traffic : State → State → Prop := TrafficOwing []

variable {ps : List Port}

theorem SamePort.refl {n : Nat} (u : PortUnit) : SamePort n u u := ⟨rfl, rfl, rfl, rfl, rfl, fun _ h => h, fun h => h, rfl⟩

theorem SamePort.trans {n : Nat} {u v w : PortUnit} (h : SamePort n u v) (k : SamePort n v w) : SamePort n u w :=
  ⟨k.1.trans h.1, k.2.trans h.2, k.3.trans h.3, k.4.trans h.4, k.5.trans h.5,
    fun a b => k.6 (by rw [h.1]; exact a) (h.6 a b), fun a => k.7 (h.7 a), k.8.trans h.8⟩

theorem TrafficOwing.refl (s : State) : TrafficOwing ps s s := by constructor <;> intros <;> first | rfl | exact SamePort.refl _

theorem TrafficOwing.trans {s t u : State} (h : TrafficOwing ps s t) (k : TrafficOwing ps t u) : TrafficOwing ps s u where
  ports p := (h.ports p).trans (k.ports p)
  stations := k.stations.trans h.stations
  groups := k.groups.trans h.groups
  windows := k.windows.trans h.windows
  dispositions := k.dispositions.trans h.dispositions
  calendar := k.calendar.trans h.calendar
  backupSupply := k.backupSupply.trans h.backupSupply
  backupLost := k.backupLost.trans h.backupLost
  staged := k.staged.trans h.staged
  managers := k.managers.trans h.managers
  params := k.params.trans h.params
  resetCause := k.resetCause.trans h.resetCause
  restart := k.restart.trans h.restart
  straps := k.straps.trans h.straps
  powered := k.powered.trans h.powered
  crystalCount := k.crystalCount.trans h.crystalCount
  msCount := k.msCount.trans h.msCount
  pending := k.pending.trans h.pending

/-- An update that leaves every named field but those of traffic alone. -/
theorem TrafficOwing.of_ports {s t : State} (h : ∀ p, SamePort (ps.count p) (s.port p) (t.port p))
    (e : t = { s with
      ports := t.ports, pool := t.pool, freeList := t.freeList, nextStamp := t.nextStamp,
      transactions := t.transactions, nextLapse := t.nextLapse, counters := t.counters,
      pendingAlerts := t.pendingAlerts, pulse := t.pulse }) : TrafficOwing ps s t := by
  refine ⟨h, ?_, ?_, ?_, ?_, ?_, ?_, ?_, ?_, ?_, ?_, ?_, ?_, ?_, ?_, ?_, ?_, ?_⟩ <;> rw [e]

/-- A change of the queue or the counters of one port. -/
theorem State.updPort_traffic (s : State) (p : Port) (f : PortUnit → PortUnit)
    (h : SamePort (ps.count p) (s.port p) (f (s.port p))) : TrafficOwing ps s (s.updPort p f) := by
  refine TrafficOwing.of_ports (fun q => ?_) rfl
  rw [State.port_updPort]
  by_cases e : q = p
  · subst e; simpa using h
  · simpa [e] using SamePort.refl _

theorem State.countPort_traffic (s : State) (p : Port) (c : PortCounter) (h : c ≠ .containments) :
    TrafficOwing ps s (s.countPort p c) := by
  refine s.updPort_traffic p _ ⟨rfl, rfl, rfl, rfl, rfl, fun _ h => h, fun h => h, ?_⟩
  refine (get_set _ c.index 10 _).trans (if_neg ?_)
  cases c <;> first | exact absurd rfl h | decide

/-- A queue replaced by one that is no longer. -/
theorem State.setQueue_traffic (s : State) (p : Port) (x : List QueueEntry)
    (h : x.length ≤ (s.queue p).length) : TrafficOwing ps s (s.setQueue p x) := by
  refine s.updPort_traffic p _ ⟨rfl, rfl, rfl, rfl, rfl, fun _ e => ?_, fun k => Nat.le_trans (Nat.add_le_add_right h _) k, rfl⟩
  have : (s.queue p).length = 0 := by rw [State.queue, e]; rfl
  have z : x.length = 0 := by omega
  exact List.length_eq_zero_iff.mp z

theorem State.dequeue_traffic (s : State) (p : Port) (e : QueueEntry) : TrafficOwing ps s (s.dequeue p e) :=
  s.setQueue_traffic p _ (List.length_filter_le _ _)

theorem State.count_traffic (s : State) (c : CouplerCounter) : TrafficOwing ps s (s.count c) :=
  TrafficOwing.of_ports (fun _ => SamePort.refl _) rfl

theorem State.setTx_traffic (s : State) (i : TxIx) (e : TxEntry) : TrafficOwing ps s (s.setTx i e) :=
  TrafficOwing.of_ports (fun _ => SamePort.refl _) rfl

theorem State.setBuffer_traffic (s : State) (b : BufferIx) (v : Buffer) : TrafficOwing ps s (s.setBuffer b v) :=
  TrafficOwing.of_ports (fun _ => SamePort.refl _) rfl

theorem State.setCondition_traffic (s : State) (b : BufferIx) (v : BufferCondition) :
    TrafficOwing ps s (s.setCondition b v) := s.setBuffer_traffic b _

theorem State.setChars_traffic (s : State) (b : BufferIx) (v : List Byte) : TrafficOwing ps s (s.setChars b v) :=
  s.setBuffer_traffic b _

theorem State.freeUp_traffic (s : State) (b : BufferIx) : TrafficOwing ps s (s.freeUp b) :=
  TrafficOwing.of_ports (fun _ => SamePort.refl _) rfl

theorem State.release_traffic (s : State) (b : BufferIx) : TrafficOwing ps s (s.release b) := by
  unfold State.release
  split
  · split
    · exact s.freeUp_traffic b
    · exact s.setCondition_traffic b _
  · exact TrafficOwing.refl s
  · exact TrafficOwing.refl s

theorem State.settleBuffer_traffic (s : State) (b : BufferIx) (n : Nat) : TrafficOwing ps s (s.settleBuffer b n) := by
  unfold State.settleBuffer
  split
  · exact s.freeUp_traffic b
  · exact s.setCondition_traffic b _

/-- An entry more in a queue. -/
theorem insertEntry_length (e : QueueEntry) (q : List QueueEntry) : (insertEntry e q).length = q.length + 1 := by
  induction q with
  | nil => rfl
  | cons x xs ih =>
    unfold insertEntry
    split
    · rfl
    · simp [ih]

/-- The state of port `q` and the depth of its queue are those a release or a count leaves. -/
theorem TrafficOwing.outOfService {s t : State} (h : TrafficOwing ps s t) (p : Port) :
    (t.port p).state.outOfService = (s.port p).state.outOfService := by rw [(h.ports p).state]

theorem State.release_ports (s : State) (b : BufferIx) : (s.release b).ports = s.ports := by
  unfold State.release
  split
  · split <;> rfl
  all_goals rfl

/-- The entry that is dequeued takes at least one place with it. -/
theorem filter_stamp_length (q : List QueueEntry) (e : QueueEntry) (h : e ∈ q) :
    (q.filter fun x => x.stamp != e.stamp).length < q.length := by
  apply List.length_filter_lt_length_iff_exists.mpr
  exact ⟨e, h, by simp⟩

theorem displaceable_mem {q : List QueueEntry} {e : QueueEntry} (h : displaceable q = some e) : e ∈ q := by
  unfold displaceable at h
  split at h
  · rename_i x hx
    split at h
    · exact absurd h (by simp)
    · injection h with h
      subst h
      exact List.mem_of_getLast? hx
  · exact absurd h (by simp)

theorem State.queue_displace (s : State) (p : Port) (e : QueueEntry) :
    (s.displace p e).queue p = (s.queue p).filter fun x => x.stamp != e.stamp := by
  have r : ((s.dequeue p e).release e.buffer).port p = (s.dequeue p e).port p := by
    simp only [State.port, State.release_ports]
  unfold State.displace State.queue State.countPort
  rw [State.port_updPort_self, r]
  unfold State.dequeue State.setQueue
  rw [State.port_updPort_self]
  rfl

theorem State.displace_traffic (s : State) (p : Port) (e : QueueEntry) : TrafficOwing ps s (s.displace p e) :=
  ((s.dequeue_traffic p e).trans (State.release_traffic _ e.buffer)).trans
    (State.countPort_traffic _ p .queueFull (by decide))

/-- A report stays within traffic, whatever is owed. -/
def ReportsTraffic (report : Owed → TxIx → State → State) : Prop :=
  ∀ o t s, TrafficOwing o.places s (report o t s)

/-- What a judgement found true of the queue it displaces from. -/
theorem State.judgeAdmission_displaces {s : State} {owed : Owed} {p : Port} {r : Rank} {o : Origin} {e : QueueEntry}
    (h : s.judgeAdmission owed p r o = .displaces e) : e ∈ s.queue p ∧ (s.port p).state.outOfService = false := by
  unfold State.judgeAdmission at h
  split at h
  · exact absurd h (by simp)
  · rename_i out
    split at h
    · exact absurd h (by simp)
    · split at h
      · exact absurd h (by simp)
      · split at h
        · rename_i hx _
          injection h with h
          subst h
          exact ⟨displaceable_mem hx, by simpa using out⟩
        all_goals exact absurd h (by simp)

/-- What a judgement that finds room found. -/
theorem State.judgeAdmission_room {s : State} {owed : Owed} {p : Port} {r : Rank} {o : Origin}
    (h : s.judgeAdmission owed p r o = .room) :
    (s.queue p).length + owed.places.count p < Config.queueSize ∧ (s.port p).state.outOfService = false := by
  unfold State.judgeAdmission at h
  split at h
  · exact absurd h (by simp)
  · rename_i out
    split at h
    · exact absurd h (by simp)
    · split at h
      · exact ⟨by assumption, by simpa using out⟩
      · split at h <;> exact absurd h (by simp)

/-- A place of queue `p` is freed, and traffic that owes it follows: the place is still there. -/
theorem TrafficOwing.after_place {s t u : State} {p : Port} (h : TrafficOwing ps s t)
    (lt : (t.queue p).length < (s.queue p).length) (k : TrafficOwing (p :: ps) t u) :
    TrafficOwing ps s u ∧
      ((s.queue p).length + ps.count p ≤ Config.queueSize → (u.queue p).length + ps.count p < Config.queueSize) := by
  have room : (s.queue p).length + ps.count p ≤ Config.queueSize →
      (u.queue p).length + ps.count p < Config.queueSize := fun le => by
    have := (k.ports p).fits
    rw [List.count_cons_self] at this
    have := this (by change (t.queue p).length + _ ≤ _; omega)
    change (u.queue p).length + _ ≤ _ at this
    omega
  refine ⟨⟨fun q => ?_, k.stations.trans h.stations, k.groups.trans h.groups, k.windows.trans h.windows,
    k.dispositions.trans h.dispositions, k.calendar.trans h.calendar, k.backupSupply.trans h.backupSupply,
    k.backupLost.trans h.backupLost, k.staged.trans h.staged, k.managers.trans h.managers, k.params.trans h.params,
    k.resetCause.trans h.resetCause, k.restart.trans h.restart, k.straps.trans h.straps, k.powered.trans h.powered,
    k.crystalCount.trans h.crystalCount, k.msCount.trans h.msCount, k.pending.trans h.pending⟩, room⟩
  have a := h.ports q
  have b := k.ports q
  refine ⟨b.state.trans a.state, b.line.trans a.line, b.startHold.trans a.startHold, b.busySpan.trans a.busySpan,
    b.params.trans a.params, fun x y => b.stillEmpty (by rw [a.state]; exact x) (a.stillEmpty x y), fun le => ?_,
    b.containments.trans a.containments⟩
  by_cases e : q = p
  · subst e
    exact Nat.le_of_lt (room le)
  · have c := b.fits
    rw [List.count_cons_of_ne (fun x => e x.symm)] at c
    exact c (a.fits le)

/-- A request made room for stays within traffic, and where it is admitted the queue has a place for it. -/
theorem State.makePlace_traffic (s : State) (report : Owed → TxIx → State → State) (h : ReportsTraffic report)
    (owed : Owed) (n : Nat) (p : Port) (r : Rank) (o : Origin) :
    TrafficOwing owed.places s (s.makePlace report owed n p r o).2 ∧
      ((s.makePlace report owed n p r o).1 = .admitted →
        (s.port p).state.outOfService = false ∧
          ((s.queue p).length + owed.places.count p ≤ Config.queueSize →
            ((s.makePlace report owed n p r o).2.queue p).length + owed.places.count p < Config.queueSize)) := by
  unfold State.makePlace
  split
  · rename_i j
    exact ⟨TrafficOwing.refl s, fun _ => ⟨(State.judgeAdmission_room j).2, fun _ => (State.judgeAdmission_room j).1⟩⟩
  · rename_i e j
    have lt : ((s.displace p e).queue p).length < (s.queue p).length := by
      rw [State.queue_displace]
      exact filter_stamp_length _ e (State.judgeAdmission_displaces j).1
    have d := s.displace_traffic (ps := owed.places) p e
    split
    · rename_i t _
      have a := d.after_place lt (h ⟨p :: owed.places, owed.buffers + n⟩ t (s.displace p e))
      exact ⟨a.1, fun _ => ⟨(State.judgeAdmission_displaces j).2, a.2⟩⟩
    · have a := d.after_place lt (TrafficOwing.refl (s.displace p e))
      exact ⟨a.1, fun _ => ⟨(State.judgeAdmission_displaces j).2, a.2⟩⟩
  all_goals exact ⟨s.countPort_traffic p _ (by decide), fun x => by simp at x⟩

/-- Traffic, and an entry joined to a queue that has a place for it. -/
theorem TrafficOwing.enqueue {s t : State} {p : Port} (h : TrafficOwing ps s t) (n : NewEntry)
    (out : (s.port p).state.outOfService = false)
    (room : (s.queue p).length + ps.count p ≤ Config.queueSize → (t.queue p).length + ps.count p < Config.queueSize) :
    TrafficOwing ps s (t.enqueue p n) := by
  refine ⟨fun q => ?_, h.stations, h.groups, h.windows, h.dispositions, h.calendar, h.backupSupply, h.backupLost,
    h.staged, h.managers, h.params, h.resetCause, h.restart, h.straps, h.powered, h.crystalCount, h.msCount, h.pending⟩
  change SamePort _ (s.port q) ((t.setQueue p _).port q)
  rw [State.setQueue, State.port_updPort]
  by_cases e : q = p
  · subst e
    have a := h.ports q
    simp only [if_true]
    refine ⟨a.state, a.line, a.startHold, a.busySpan, a.params,
      fun x => by rw [out] at x; exact absurd x (by decide), fun le => ?_, a.containments⟩
    change (insertEntry _ (t.queue q)).length + _ ≤ _
    rw [insertEntry_length]
    have := room le
    omega
  · simpa [e] using h.ports q

theorem State.placeGenerated_traffic (s : State) (report : Owed → TxIx → State → State) (h : ReportsTraffic report)
    (owed : Owed) (p : Port) (cs : List Byte) : TrafficOwing owed.places s (s.placeGenerated report owed p cs).2 := by
  unfold State.placeGenerated
  split
  · exact TrafficOwing.refl s
  · have k := s.makePlace_traffic report h owed 1 p .express .generated
    split <;> rename_i e <;> rw [e] at k
    · rename_i t
      unfold State.joinGenerated
      split
      · exact k.1
      · rename_i b rest _
        have a := k.1.enqueue ⟨b, .express, .generated, none⟩ (k.2 rfl).1 (k.2 rfl).2
        have f : TrafficOwing owed.places (t.enqueue p ⟨b, .express, .generated, none⟩)
            { t.enqueue p ⟨b, .express, .generated, none⟩ with freeList := rest } :=
          TrafficOwing.of_ports (fun _ => SamePort.refl _) rfl
        exact (a.trans f).trans (State.setBuffer_traffic _ _ _)
    all_goals exact k.1

theorem State.dropCopy_traffic (s : State) (t : TxIx) : TrafficOwing ps s (s.dropCopy t).2 := by
  unfold State.dropCopy
  split
  · split <;> exact s.setTx_traffic t _
  · exact s.setTx_traffic t _
  · exact TrafficOwing.refl s
  · exact TrafficOwing.refl s

theorem State.countNotice_traffic {s : State} {r : Option BufferIx × State} (h : TrafficOwing ps s r.2) :
    TrafficOwing ps s (State.countNotice r) := by
  obtain ⟨o, t⟩ := r
  cases o
  · exact h.trans (State.count_traffic _ _)
  · exact h.trans (State.count_traffic _ _)

theorem copyRemoved_traffic (n : Nat) : ∀ l : CopyLoss, ReportsTraffic (copyRemoved n l) := by
  induction n with
  | zero => intro l o t s; exact TrafficOwing.refl s
  | succ n ih =>
    intro l o t s
    unfold copyRemoved
    have h := s.dropCopy_traffic (ps := o.places) t
    split <;> rename_i e <;> rw [e] at h
    · exact h
    · exact h.trans (State.countNotice_traffic (State.placeGenerated_traffic _ _ (ih _) o _ _))

theorem State.reportRemoved_traffic (s : State) (t : TxIx) (l : CopyLoss) : Traffic s (s.reportRemoved t l) :=
  copyRemoved_traffic 33 l .nothing t s

theorem State.requestAdmission_traffic (s : State) (p : Port) (n : NewEntry) :
    Traffic s (s.requestAdmission p n).2 := by
  unfold State.requestAdmission
  have h := s.makePlace_traffic _ (copyRemoved_traffic 33 .queueFull) .nothing 0 p n.rank n.origin
  split <;> rename_i e <;> rw [e] at h
  · exact h.1.enqueue n (h.2 rfl).1 (h.2 rfl).2
  all_goals exact h.1

theorem State.generate_traffic (s : State) (p : Port) (cs : List Byte) : Traffic s (s.generate p cs).2 :=
  s.placeGenerated_traffic _ (copyRemoved_traffic 33 .queueFull) .nothing p cs

theorem State.sendNotice_traffic (s : State) (p : Port) (cs : List Byte) : Traffic s (s.sendNotice p cs) :=
  State.countNotice_traffic (s.generate_traffic p cs)

theorem State.notify_traffic (s : State) (p : Port) (k : TxKey) (c : NoticeCause) : Traffic s (s.notify p k c) :=
  s.sendNotice_traffic p _

theorem State.reportCompleted_traffic (s : State) (t : TxIx) (p : Port) : Traffic s (s.reportCompleted t p) := by
  unfold State.reportCompleted
  split
  · exact s.setTx_traffic t _
  all_goals exact TrafficOwing.refl s

theorem State.toldDeparture_traffic (s : State) (e : QueueEntry) : Traffic s (s.toldDeparture e) := by
  unfold State.toldDeparture
  split
  · rename_i r hr _
    split
    · constructor <;> intros <;> first | rfl | exact SamePort.refl _ | simp [restartKey, hr]
    · exact TrafficOwing.refl s
  all_goals exact TrafficOwing.refl s

theorem State.countPortOpt_traffic (s : State) (p : Port) (c : RemovalCause) :
    Traffic s (s.countPortOpt p c.counter) := by
  cases c <;> first | exact s.countPort_traffic p _ (by decide) | exact TrafficOwing.refl s

theorem State.reportRemoval_traffic (s : State) (p : Port) (t : TxIx) (c : RemovalCause) :
    Traffic s (s.reportRemoval p t c) := by
  cases c
  · exact s.reportCompleted_traffic t p
  · exact s.reportRemoved_traffic t _
  · exact s.reportRemoved_traffic t _
  · exact s.reportRemoved_traffic t _
  · exact TrafficOwing.refl s

theorem State.remove_traffic (s : State) (p : Port) (e : QueueEntry) (c : RemovalCause) :
    Traffic s (s.remove p e c) := by
  unfold State.remove
  have h := ((s.dequeue_traffic p e).trans (State.release_traffic _ e.buffer)).trans
    (State.countPortOpt_traffic _ p c)
  refine TrafficOwing.trans ?_ (State.toldDeparture_traffic _ e)
  cases e.link
  · exact h
  · exact h.trans (State.reportRemoval_traffic _ _ _ _)

theorem removeAll_traffic (p : Port) (d : QueueEntry → Bool) (c : RemovalCause) (n : Nat) :
    ∀ s : State, Traffic s (removeAll p d c n s) := by
  induction n with
  | zero => intro s; exact TrafficOwing.refl s
  | succ n ih =>
    intro s
    unfold removeAll
    split
    · exact (s.remove_traffic p _ c).trans (ih _)
    · exact TrafficOwing.refl s

theorem State.purgeUnreachable_traffic (s : State) (p : Port) : Traffic s (s.purgeUnreachable p) :=
  removeAll_traffic p _ _ _ s

theorem State.purgeWindow_traffic (s : State) (p : Port) : Traffic s (s.purgeWindow p) :=
  (s.setQueue_traffic p _ (by simp)).trans (removeAll_traffic p _ _ _ _)

theorem State.withdrawFrom_traffic (s : State) (t : TxIx) (p : Port) : Traffic s (s.withdrawFrom t p) :=
  (s.setQueue_traffic p _ (by simp)).trans (removeAll_traffic p _ _ _ _)

/-- A fold of traffic is traffic. -/
theorem foldl_traffic {α : Type} (f : State → α → State) (h : ∀ s a, Traffic s (f s a)) (l : List α) :
    ∀ s : State, Traffic s (l.foldl f s) := by
  induction l with
  | nil => intro s; exact TrafficOwing.refl s
  | cons a l ih => intro s; exact (h s a).trans (ih _)

theorem State.withdraw_traffic (s : State) (t : TxIx) : Traffic s (s.withdraw t) :=
  foldl_traffic _ (fun s p => s.withdrawFrom_traffic t p) _ s

theorem State.alertNotice_traffic (s : State) (c : AlertCause) : Traffic s (s.alertNotice c) := by
  unfold State.alertNotice
  dsimp only
  split
  · exact TrafficOwing.refl s
  · split
    · exact s.sendNotice_traffic _ _
    · exact s.count_traffic _

theorem State.raise_traffic (s : State) (c : AlertCause) : Traffic s (s.raise c) := by
  unfold State.raise
  dsimp only
  split
  · exact TrafficOwing.refl s
  · have h : Traffic s { s with pendingAlerts := s.pendingAlerts ||| c.mask } :=
      TrafficOwing.of_ports (fun _ => SamePort.refl _) rfl
    split
    · exact h
    · refine TrafficOwing.trans ?_ (State.alertNotice_traffic _ c)
      split
      · exact h.trans (TrafficOwing.of_ports (fun _ => SamePort.refl _) rfl)
      · exact h

/-! ### The Transaction Table (chapter 6) -/

theorem admitEach_traffic (e : NewEntry) (ps : List Port) :
    ∀ s : State, Traffic s (admitEach e ps s).2 := by
  induction ps with
  | nil => intro s; exact TrafficOwing.refl s
  | cons p ps ih => intro s; exact (s.requestAdmission_traffic p e).trans (ih _)

theorem State.refuse_traffic (s : State) (r : Tracked) (c : NoticeCause) : Traffic s (s.refuse r c) :=
  (s.notify_traffic _ _ _).trans (State.settleBuffer_traffic _ _ _)

theorem State.refuseAtLimit_traffic (s : State) (r : Tracked) : Traffic s (s.refuseAtLimit r) :=
  (s.count_traffic _).trans (State.refuse_traffic _ _ _)

theorem State.openRequest_traffic (s : State) (r : Tracked) : Traffic s (s.openRequest r) := by
  unfold State.openRequest
  split
  · exact s.refuseAtLimit_traffic r
  · split
    · exact ((s.count_traffic _).trans (State.raise_traffic _ _)).trans (State.refuse_traffic _ _ _)
    · rename_i t _
      have h := (s.setTx_traffic t .free).trans
        (admitEach_traffic ⟨r.buffer, r.rank, .forwarded, some t⟩ r.targets _)
      dsimp only
      split
      · exact h.trans (State.refuse_traffic _ _ _)
      · exact ((h.trans (State.setTx_traffic _ _ _)).trans (State.count_traffic _ _)).trans
          (State.settleBuffer_traffic _ _ _)

theorem State.sendAfresh_traffic (s : State) (t : TxIx) (c : TxCore) (r : Tracked) :
    Traffic s (s.sendAfresh t c r) := by
  unfold State.sendAfresh
  dsimp only
  have h := admitEach_traffic ⟨r.buffer, r.rank, .forwarded, some t⟩
    (retryTargets { c with requesterSegment := r.segment, retries := min 255 (c.retries + 1) } r) s
  split
  · exact (h.trans (State.setTx_traffic _ _ _)).trans (State.refuse_traffic _ _ _)
  · exact (h.trans (State.setTx_traffic _ _ _)).trans (State.settleBuffer_traffic _ _ _)

theorem State.track_traffic (s : State) (r : Tracked) : Traffic s (s.track r) := by
  unfold State.track
  split
  · exact s.openRequest_traffic r
  · split
    · exact (s.count_traffic _).trans (State.settleBuffer_traffic _ _ _)
    · exact (s.withdraw_traffic _).trans (State.sendAfresh_traffic _ _ _ _)
    · split
      · exact s.refuseAtLimit_traffic r
      · exact s.sendAfresh_traffic _ _ r
    · exact s.openRequest_traffic r

theorem State.forwardAnswer_traffic (s : State) (p q : Port) (b : BufferIx) : Traffic s (s.forwardAnswer p q b) := by
  unfold State.forwardAnswer
  split
  · exact s.settleBuffer_traffic b 0
  · have h := s.requestAdmission_traffic q ⟨b, .express, .forwarded, none⟩
    split <;> rename_i e <;> rw [e] at h
    · exact h.trans (State.settleBuffer_traffic _ _ _)
    all_goals exact h.trans (State.settleBuffer_traffic _ _ _)

theorem State.answer_traffic (s : State) (p : Port) (k : TxKey) (b : BufferIx) : Traffic s (s.answer p k b) := by
  unfold State.answer
  split
  · exact (s.count_traffic _).trans (State.settleBuffer_traffic _ _ _)
  · split
    · exact (((s.withdraw_traffic _).trans (State.setTx_traffic _ _ _)).trans (State.count_traffic _ _)).trans
        (State.forwardAnswer_traffic _ _ _ _)
    all_goals exact (s.count_traffic _).trans (State.settleBuffer_traffic _ _ _)

theorem State.setLapsed_traffic (s : State) (t : TxIx) (c : TxCore) : Traffic s (s.setLapsed t c) :=
  TrafficOwing.of_ports (fun _ => SamePort.refl _) rfl

theorem State.freeWithoutGrace_traffic (s : State) (t : TxIx) : Traffic s (s.freeWithoutGrace t) := by
  unfold State.freeWithoutGrace
  split
  · exact s.setTx_traffic t _
  · exact TrafficOwing.refl s

theorem State.lapse_traffic (s : State) (t : TxIx) : Traffic s (s.lapse t) := by
  unfold State.lapse
  split
  · exact ((((s.withdraw_traffic t).trans (State.setLapsed_traffic _ _ _)).trans (State.count_traffic _ _)).trans
      (State.notify_traffic _ _ _ _)).trans (State.freeWithoutGrace_traffic _ _)
  all_goals exact TrafficOwing.refl s

theorem State.endGrace_traffic (s : State) (t : TxIx) : Traffic s (s.endGrace t) := by
  unfold State.endGrace
  split
  · exact s.setTx_traffic t _
  all_goals exact TrafficOwing.refl s

theorem State.closeFor_traffic (s : State) (p : Port) (t : TxIx) : Traffic s (s.closeFor p t) := by
  unfold State.closeFor
  split
  · split
    · exact (s.withdraw_traffic t).trans (State.setTx_traffic _ _ _)
    · split
      · split
        · exact ((s.withdraw_traffic t).trans (State.setTx_traffic _ _ _)).trans (State.notify_traffic _ _ _ _)
        · exact TrafficOwing.refl s
      · exact TrafficOwing.refl s
  all_goals exact TrafficOwing.refl s

theorem State.portLeft_traffic (s : State) (p : Port) : Traffic s (s.portLeft p) :=
  foldl_traffic _ (fun s t => s.closeFor_traffic p t) _ s

/-- An evaluation is the recording of the dispositions it forms, and then traffic (R152). -/
theorem State.evaluate_traffic (s : State) : Traffic { s with dispositions := s.formDispositions } s.evaluate :=
  foldl_traffic _
    (fun t p => by
      split
      · exact t.purgeWindow_traffic p
      · exact TrafficOwing.refl t) _ _

@[simp] theorem State.evaluate_dispositions (s : State) : s.evaluate.dispositions = s.formDispositions :=
  s.evaluate_traffic.dispositions

@[simp] theorem State.evaluate_params (s : State) : s.evaluate.params = s.params := s.evaluate_traffic.params

theorem State.evaluate_restart_of_none (s : State) (h : s.restart = none) : s.evaluate.restart = none := by
  have k := s.evaluate_traffic.restart
  simpa [restartKey, h] using k

end Sys2Proof.Machine
end

