-- ==== Sys2Proof/Laws/Events.lean ====
section
/-! SUPPORT. The small lemmas of an event's beginning and end: what a pending restart, a line and a due event leave as they are. -/

namespace Sys2Proof.Machine

@[simp] theorem restartFirst_of_none (s : State) (h : s.restart = none) : s.restartFirst = s := by
  simp [State.restartFirst, h]

theorem restartFirst_of_notDue (s : State) (r : Restart) (h : s.restart = some r) (d : r.due = false) :
    s.restartFirst = s := by
  simp [State.restartFirst, h, d]

theorem foldl_updPort_restart (f : Port → PortUnit → PortUnit) (l : List Port) :
    ∀ s : State, (l.foldl (fun s p => s.updPort p (f p)) s).restart = s.restart := by
  induction l with
  | nil => exact fun _ => rfl
  | cons p l ih => exact fun s => ih (s.updPort p (f p))

/-- A restart that is taken is pending no longer (R183). -/
@[simp] theorem takeRestart_restart (s : State) (k : RestartKind) : (s.takeRestart k).restart = none := by
  cases k
  · simp only [State.takeRestart, State.resetWarm]
    refine State.evaluate_restart_of_none _ ?_
    simp only [State.resetPortsKept, foldl_updPort_restart fun _ u => u.reset u.params u.counters, State.clearVolatile]
  · simp only [State.takeRestart, State.resetToDefaults]
    refine State.evaluate_restart_of_none _ ?_
    simp only [State.setDefaults, State.resetPortsToDefaults, State.clearVolatile,
      foldl_updPort_restart fun p u => u.reset (defaultPortParams s.straps p) (Vector.replicate 11 0)]

theorem restartFirst_of_due (s : State) (r : Restart) (h : s.restart = some r) (d : r.due = true)
    (w : s.powered = true) : s.restartFirst = s.takeRestart r.kind := by
  simp [State.restartFirst, h, d, w]

/-- A restart that fell due is taken once: nothing is left for the next event to take. -/
@[simp] theorem restartFirst_restartFirst (s : State) : s.restartFirst.restartFirst = s.restartFirst := by
  by_cases h : ∃ r, s.restart = some r ∧ r.due = true ∧ s.powered = true
  · obtain ⟨r, h, d, w⟩ := h
    rw [restartFirst_of_due s r h d w]
    exact restartFirst_of_none _ (takeRestart_restart s r.kind)
  · have e : s.restartFirst = s := by
      unfold State.restartFirst
      split
      · rename_i r k
        split
        · rename_i d
          exact absurd ⟨r, k, by simpa using d⟩ h
        · rfl
      · rfl
    rw [e, e]

@[simp] theorem settle_of_none (s : State) (h : s.restart = none) : s.settle = s.testStarts := by
  simp [State.settle, h]

@[simp] theorem afresh_afresh (l : LineState) : l.afresh.afresh = l.afresh := by cases l <;> rfl

@[simp] theorem ignored_ignored (l : LineState) : l.ignored.ignored = l.ignored := by cases l <;> rfl

@[simp] theorem released_released (l : LineState) : l.released.released = l.released := by cases l <;> rfl

theorem reachQuiet_of_idle (u : PortUnit) (n len : Nat) (h : u.line = .idle len) :
    PortUnit.reachQuiet n u =
      { u with
        line := .idle (max len n)
        busySpan := if u.params.baud.ct 2 ≤ max len n then 0 else u.busySpan } := by
  simp [PortUnit.reachQuiet, h]

theorem reachQuiet_of_not_idle (u : PortUnit) (n : Nat) (h : u.line.idleStretch = none) :
    PortUnit.reachQuiet n u = u := by
  unfold PortUnit.reachQuiet
  cases e : u.line <;> simp [e, LineState.idleStretch] at h ⊢

theorem takeDue_of_notDue (s : State) (c : Instr) (h : s.restartFirst = s) (d : s.isDue c = false) :
    s.takeDue c = s := by
  simp [State.takeDue, h, d]

/-- Nothing due, nothing taken. -/
theorem foldl_takeDue_of_notDue (l : List Instr) (s : State) (h : s.restartFirst = s)
    (d : ∀ c ∈ l, s.isDue c = false) : l.foldl State.takeDue s = s := by
  induction l with
  | nil => rfl
  | cons c rest ih =>
    rw [List.foldl_cons, takeDue_of_notDue s c h (d c (List.mem_cons_self ..))]
    exact ih fun x hx => d x (List.mem_cons_of_mem _ hx)

end Sys2Proof.Machine
end

