-- ==== Sys2Proof/Laws/PerInstr.lean ====
section
/-! SUPPORT. The family CommandFrame: the frame a command carries onto its line, by constructor; a well-formed command carries a frame that a receiver accepts (R4, R17). -/

namespace Sys2Proof.Laws.CommandFrame

open Sys2Proof.Machine

/-- The frame a command carries, addressed to the own address `own` where it is a management command. -/
def carried (own : Byte) : Instr → Option Frame
  | .datagram _ f | .request _ f | .reply _ f | .notice _ f | .manage _ f | .result _ f => some f
  | i => (carriedCommand i).map fun c => commandFrame own c.2.2.1 c.2.1 c.2.2.2

/-- A well-formed command carries only a well-formed frame. -/
def Statement (i : Instr) : Prop :=
  i.wellFormed = true → ∀ (own : Byte) (f : Frame), carried own i = some f → f.wellFormed = true

/-- A command frame of a station is well-formed when its arguments leave room for the request header (R165). -/
theorem commandFrame_wellFormed (own : Byte) (c : CommandCode) (h : CommandHead) (args : List Byte)
    (w : h.wellFormed = true) (l : args.length ≤ 62) : (commandFrame own c h args).wellFormed = true := by
  have s : isStationAddress (commandFrame own c h args).source = true := w
  have n : (commandFrame own c h args).payload.length ≤ Config.maxPayload := by
    simp only [commandFrame, commandPayload, List.length_append, List.length_cons, List.length_nil, Config.maxPayload]
    omega
  simp [Frame.wellFormed, s, n]

/-- A command frame that a command carries is well-formed. -/
theorem of_commandFrame {own : Byte} {c : CommandCode} {h : CommandHead} {args : List Byte} {f : Frame}
    (w : h.wellFormed = true) (l : args.length ≤ 62) (e : some (commandFrame own c h args) = some f) :
    f.wellFormed = true := by
  injection e with e
  subst e
  exact commandFrame_wellFormed own c h args w l

theorem of_none {f : Frame} (e : (none : Option Frame) = some f) : f.wellFormed = true := by
  exact absurd e (by simp)

theorem addressCharacter (p : Port) (value : Byte) : Statement (.addressCharacter p value) :=
  fun _ _ _ e => of_none e

theorem dataCharacter (p : Port) (value : Byte) : Statement (.dataCharacter p value) :=
  fun _ _ _ e => of_none e

theorem framingErrorCharacter (p : Port) : Statement (.framingErrorCharacter p) :=
  fun _ _ _ e => of_none e

theorem truncated (p : Port) : Statement (.truncated p) :=
  fun _ _ _ e => of_none e

theorem datagram (p : Port) (f : Frame) : Statement (.datagram p f) :=
  fun w _ _ e => by injection e with e; subst e; exact w

theorem request (p : Port) (f : Frame) : Statement (.request p f) :=
  fun w _ _ e => by injection e with e; subst e; exact w

theorem reply (p : Port) (f : Frame) : Statement (.reply p f) :=
  fun w _ _ e => by injection e with e; subst e; exact w

theorem notice (p : Port) (f : Frame) : Statement (.notice p f) :=
  fun w _ _ e => by injection e with e; subst e; exact w

theorem manage (p : Port) (f : Frame) : Statement (.manage p f) :=
  fun w _ _ e => by injection e with e; subst e; exact w

theorem result (p : Port) (f : Frame) : Statement (.result p f) :=
  fun w _ _ e => by injection e with e; subst e; exact w

theorem status (p : Port) (h : CommandHead) : Statement (.status p h) :=
  fun w _ _ e => of_commandFrame w (by simp) e

theorem readEntriesStation (p : Port) (h : CommandHead) (first count : Byte) : Statement (.readEntriesStation p h first count) :=
  fun w _ _ e => of_commandFrame w (by simp [readArgs]) e

theorem readEntriesGroup (p : Port) (h : CommandHead) (first count : Byte) : Statement (.readEntriesGroup p h first count) :=
  fun w _ _ e => of_commandFrame w (by simp [readArgs]) e

theorem readEntriesWindow (p : Port) (h : CommandHead) (first count : Byte) : Statement (.readEntriesWindow p h first count) :=
  fun w _ _ e => of_commandFrame w (by simp [readArgs]) e

theorem readEntriesManager (p : Port) (h : CommandHead) (first count : Byte) : Statement (.readEntriesManager p h first count) :=
  fun w _ _ e => of_commandFrame w (by simp [readArgs]) e

theorem readEntriesTransaction (p : Port) (h : CommandHead) (first count : Byte) : Statement (.readEntriesTransaction p h first count) :=
  fun w _ _ e => of_commandFrame w (by simp [readArgs]) e

theorem readEntriesPort (p : Port) (h : CommandHead) (first count : Byte) : Statement (.readEntriesPort p h first count) :=
  fun w _ _ e => of_commandFrame w (by simp [readArgs]) e

theorem writeEntryStation (p : Port) (h : CommandHead) (address state segment ceiling : Byte) : Statement (.writeEntryStation p h address state segment ceiling) :=
  fun w _ _ e => of_commandFrame w (by simp) e

theorem writeEntryGroup (p : Port) (h : CommandHead) (index mask : Byte) : Statement (.writeEntryGroup p h index mask) :=
  fun w _ _ e => of_commandFrame w (by simp) e

theorem writeEntryWindow (p : Port) (h : CommandHead) (index : Byte) (r : WindowRecord) : Statement (.writeEntryWindow p h index r) :=
  fun w _ _ e => of_commandFrame w (by simp [windowArgs]) e

theorem writeEntryManager (p : Port) (h : CommandHead) (index address : Byte) : Statement (.writeEntryManager p h index address) :=
  fun w _ _ e => of_commandFrame w (by simp) e

theorem getParam (p : Port) (h : CommandHead) (ident port : Byte) : Statement (.getParam p h ident port) :=
  fun w _ _ e => of_commandFrame w (by simp) e

theorem setParam (p : Port) (h : CommandHead) (ident port : Byte) (value : BitVec 32) : Statement (.setParam p h ident port value) :=
  fun w _ _ e => of_commandFrame (Bool.and_eq_true _ _ ▸ w).1 (by simp [setArgs, fourBytes]) e

theorem setParamPortEnable (p : Port) (h : CommandHead) (port : Byte) (value : BitVec 32) : Statement (.setParamPortEnable p h port value) :=
  fun w _ _ e => of_commandFrame w (by simp [setArgs, fourBytes]) e

theorem setParamBaud (p : Port) (h : CommandHead) (port : Byte) (value : BitVec 32) : Statement (.setParamBaud p h port value) :=
  fun w _ _ e => of_commandFrame w (by simp [setArgs, fourBytes]) e

theorem setParamJabberLimit (p : Port) (h : CommandHead) (port : Byte) (value : BitVec 32) : Statement (.setParamJabberLimit p h port value) :=
  fun w _ _ e => of_commandFrame w (by simp [setArgs, fourBytes]) e

theorem setParamAgeLimit (p : Port) (h : CommandHead) (port : Byte) (value : BitVec 32) : Statement (.setParamAgeLimit p h port value) :=
  fun w _ _ e => of_commandFrame w (by simp [setArgs, fourBytes]) e

theorem setParamOwnAddress (p : Port) (h : CommandHead) (port : Byte) (value : BitVec 32) : Statement (.setParamOwnAddress p h port value) :=
  fun w _ _ e => of_commandFrame w (by simp [setArgs, fourBytes]) e

theorem setParamAlertMode (p : Port) (h : CommandHead) (port : Byte) (value : BitVec 32) : Statement (.setParamAlertMode p h port value) :=
  fun w _ _ e => of_commandFrame w (by simp [setArgs, fourBytes]) e

theorem setParamAlertMask (p : Port) (h : CommandHead) (port : Byte) (value : BitVec 32) : Statement (.setParamAlertMask p h port value) :=
  fun w _ _ e => of_commandFrame w (by simp [setArgs, fourBytes]) e

theorem readCounters (p : Port) (h : CommandHead) (scope : Byte) : Statement (.readCounters p h scope) :=
  fun w _ _ e => of_commandFrame w (by simp) e

theorem readCountersClear (p : Port) (h : CommandHead) (scope : Byte) : Statement (.readCountersClear p h scope) :=
  fun w _ _ e => of_commandFrame w (by simp) e

theorem timeRead (p : Port) (h : CommandHead) : Statement (.timeRead p h) :=
  fun w _ _ e => of_commandFrame w (by simp) e

theorem timeSet (p : Port) (h : CommandHead) (t : TimeRecord) : Statement (.timeSet p h t) :=
  fun w _ _ e => of_commandFrame w (by simp) e

theorem timeRound (p : Port) (h : CommandHead) : Statement (.timeRound p h) :=
  fun w _ _ e => of_commandFrame w (by simp) e

theorem timeHold (p : Port) (h : CommandHead) : Statement (.timeHold p h) :=
  fun w _ _ e => of_commandFrame w (by simp) e

theorem timeRun (p : Port) (h : CommandHead) : Statement (.timeRun p h) :=
  fun w _ _ e => of_commandFrame w (by simp) e

theorem clearAlert (p : Port) (h : CommandHead) (causes : Byte) : Statement (.clearAlert p h causes) :=
  fun w _ _ e => of_commandFrame w (by simp) e

theorem flushLearned (p : Port) (h : CommandHead) : Statement (.flushLearned p h) :=
  fun w _ _ e => of_commandFrame w (by simp) e

theorem restartWarm (p : Port) (h : CommandHead) : Statement (.restartWarm p h) :=
  fun w _ _ e => of_commandFrame w (by simp) e

theorem restartFull (p : Port) (h : CommandHead) : Statement (.restartFull p h) :=
  fun w _ _ e => of_commandFrame w (by simp) e

theorem startTransmission (p : Port) : Statement (.startTransmission p) :=
  fun _ _ _ e => of_none e

theorem echoCharacter (p : Port) (c : LineCharacter) : Statement (.echoCharacter p c) :=
  fun _ _ _ e => of_none e

theorem missingEcho (p : Port) : Statement (.missingEcho p) :=
  fun _ _ _ e => of_none e

theorem backoffEnd (p : Port) : Statement (.backoffEnd p) :=
  fun _ _ _ e => of_none e

theorem guardExpiry (p : Port) : Statement (.guardExpiry p) :=
  fun _ _ _ e => of_none e

theorem containment (p : Port) : Statement (.containment p) :=
  fun _ _ _ e => of_none e

theorem containmentExpiry (p : Port) : Statement (.containmentExpiry p) :=
  fun _ _ _ e => of_none e

theorem deadlineExpiry (t : TxIx) : Statement (.deadlineExpiry t) :=
  fun _ _ _ e => of_none e

theorem graceExpiry (t : TxIx) : Statement (.graceExpiry t) :=
  fun _ _ _ e => of_none e

theorem secondTick : Statement (.secondTick) :=
  fun _ _ _ e => of_none e

theorem pulseEnd : Statement (.pulseEnd) :=
  fun _ _ _ e => of_none e

theorem coldStart (straps : Straps) : Statement (.coldStart straps) :=
  fun _ _ _ e => of_none e

theorem powerStart (straps : Straps) : Statement (.powerStart straps) :=
  fun _ _ _ e => of_none e

theorem pinReset (straps : Straps) : Statement (.pinReset straps) :=
  fun _ _ _ e => of_none e

theorem fullRestart (straps : Straps) : Statement (.fullRestart straps) :=
  fun _ _ _ e => of_none e

theorem warmRestart : Statement (.warmRestart) :=
  fun _ _ _ e => of_none e

theorem startBit (p : Port) : Statement (.startBit p) :=
  fun _ _ _ e => of_none e

theorem lineReturnsToIdle (p : Port) : Statement (.lineReturnsToIdle p) :=
  fun _ _ _ e => of_none e

theorem idleStretchReaches2Ct (p : Port) : Statement (.idleStretchReaches2Ct p) :=
  fun _ _ _ e => of_none e

theorem mainPowerLoss : Statement (.mainPowerLoss) :=
  fun _ _ _ e => of_none e

theorem backupSupplyLoss : Statement (.backupSupplyLoss) :=
  fun _ _ _ e => of_none e

end Sys2Proof.Laws.CommandFrame
end

