-- ==== Sys2Proof/Laws/Reports.lean ====
section
/-! SUPPORT. A chain of reports closes one OPEN entry a turn, so its fuel never runs out and how much of it is left does not matter. -/

namespace Sys2Proof.Machine

/-- The OPEN entries of the Transaction Table. -/
def State.openEntries (s : State) : Finset TxIx := Finset.univ.filter fun t => (s.tx t).isOpen = true

theorem tx_setTx (s : State) (t u : TxIx) (e : TxEntry) :
    (s.setTx t e).tx u = if t = u then e else s.tx u := by
  simp only [State.tx, State.setTx, Vector.get_eq_getElem, Vector.getElem_set, Fin.ext_iff]

theorem openEntries_setTx_free_lt (s : State) (t : TxIx) (h : (s.tx t).isOpen = true) :
    (s.setTx t .free).openEntries.card < s.openEntries.card := by
  apply Finset.card_lt_card
  rw [Finset.ssubset_iff_of_subset]
  · exact ⟨t, by simp [State.openEntries, h], by simp [State.openEntries, tx_setTx, TxEntry.isOpen]⟩
  · intro u hu
    simp only [State.openEntries, tx_setTx, Finset.mem_filter, Finset.mem_univ, true_and] at hu ⊢
    split at hu
    · exact absurd hu (by simp [TxEntry.isOpen])
    · exact hu

theorem openEntries_card_le (s : State) : s.openEntries.card ≤ 32 := by
  simpa using Finset.card_le_univ s.openEntries

/-- Displacement, but for its report, leaves the Transaction Table as it is. -/
theorem transactions_displace (s : State) (p : Port) (e : QueueEntry) : (s.displace p e).transactions = s.transactions := by
  simp only [State.displace, State.release, State.freeUp, State.setCondition, State.setBuffer, State.dequeue,
    State.setQueue, State.updPort, State.countPort]
  split <;> [split; skip; skip] <;> rfl

/-- An entry a report closes was OPEN, and the state it leaves has it FREE. -/
theorem dropCopy_some {s t : State} {i : TxIx} {c : TxCore} (h : s.dropCopy i = (some c, t)) :
    (s.tx i).isOpen = true ∧ t = s.setTx i .free := by
  unfold State.dropCopy at h
  split at h
  · split at h
    · rename_i e _
      simp only [Prod.mk.injEq, Option.some.injEq] at h
      exact ⟨by rw [e]; rfl, h.2.symm⟩
    · simp at h
  · simp at h
  · simp at h
  · simp at h

/-- Two reports that agree on every state with the same Transaction Table place a generated frame alike. -/
theorem placeGenerated_congr {f g : Owed → TxIx → State → State} (s : State) (owed : Owed) (p : Port)
    (chars : List Byte) (h : ∀ o t u, u.transactions = s.transactions → f o t u = g o t u) :
    s.placeGenerated f owed p chars = s.placeGenerated g owed p chars := by
  have e : s.makePlace f owed 1 p .express .generated = s.makePlace g owed 1 p .express .generated := by
    unfold State.makePlace
    split
    · rfl
    · split
      · rw [h _ _ _ (transactions_displace s p _)]
      · rfl
    · rfl
    · rfl
    · rfl
  unfold State.placeGenerated
  rw [e]

/-- Fuel beyond the number of OPEN entries does not matter. -/
theorem copyRemoved_fuel (n m : Nat) (loss : CopyLoss) (owed : Owed) (t : TxIx) (s : State)
    (hn : s.openEntries.card < n) (hm : s.openEntries.card < m) :
    copyRemoved n loss owed t s = copyRemoved m loss owed t s := by
  induction n generalizing m loss owed t s with
  | zero => exact absurd hn (Nat.not_lt_zero _)
  | succ n ih =>
    cases m with
    | zero => exact absurd hm (Nat.not_lt_zero _)
    | succ m =>
      unfold copyRemoved
      split
      · rfl
      · rename_i core u e
        obtain ⟨isOpen, rfl⟩ := dropCopy_some e
        have less := openEntries_setTx_free_lt s t isOpen
        rw [placeGenerated_congr (f := copyRemoved n .queueFull) (g := copyRemoved m .queueFull)]
        intro o i v hv
        have same : v.openEntries = (s.setTx t .free).openEntries := by
          unfold State.openEntries State.tx
          rw [hv]
        exact ih m .queueFull o i v (by rw [same]; omega) (by rw [same]; omega)

/-- The report of a copy removed, in one turn: what it leaves of the entry, and the notice it owes. -/
theorem copyRemoved_unfold (loss : CopyLoss) (owed : Owed) (t : TxIx) (s : State) :
    copyRemoved 33 loss owed t s =
      match s.dropCopy t with
      | (none, u) => u
      | (some core, u) =>
        State.countNotice
          (u.placeGenerated (copyRemoved 33 .queueFull) owed core.requesterSegment
            (noticeChars u.params.ownAddress core.key loss.notice)) := by
  have := openEntries_card_le s
  exact (copyRemoved_fuel 33 34 loss owed t s (by omega) (by omega)).trans rfl

end Sys2Proof.Machine
end

