-- ==== Sys2Proof/Tests/Slice0.lean ====
section
/-! SUPPORT. Tests: ill-formed commands are refused, worked values of the spec come out, and every statement's hypotheses are met by a small state, in which the command answers what the statement says. -/

namespace Sys2Proof.Tests

set_option Elab.async false

open Sys2Proof.Machine

/-! ### Well-formedness: an ill-formed term for each check -/

def badSource : Frame := ⟨2, 240, 0, 0, 0, []⟩
def noSource : Frame := ⟨2, 0, 0, 0, 0, []⟩
def tooLong : Frame := ⟨2, 1, 0, 0, 0, List.replicate 65 0⟩
def goodFrame : Frame := ⟨2, 1, 3, 0, 7, [0xAA]⟩
def badHead : CommandHead := ⟨0, 0, 0⟩
def head : CommandHead := ⟨1, 9, 5⟩

theorem test_wellFormed_frames :
    (Instr.datagram 0 badSource).wellFormed = false ∧ (Instr.request 0 noSource).wellFormed = false ∧
      (Instr.reply 0 tooLong).wellFormed = false ∧ (Instr.notice 0 badSource).wellFormed = false ∧
      (Instr.manage 0 tooLong).wellFormed = false ∧ (Instr.result 0 noSource).wellFormed = false ∧
      (Instr.datagram 0 goodFrame).wellFormed = true := by decide

theorem test_wellFormed_commands :
    (Instr.status 0 badHead).wellFormed = false ∧ (Instr.readEntriesPort 0 badHead 0 1).wellFormed = false ∧
      (Instr.writeEntryGroup 0 badHead 0 0).wellFormed = false ∧ (Instr.getParam 0 badHead 1 0).wellFormed = false ∧
      (Instr.setParamBaud 0 badHead 0 0).wellFormed = false ∧ (Instr.timeRun 0 badHead).wellFormed = false ∧
      (Instr.status 0 head).wellFormed = true := by decide

theorem test_wellFormed_setParam :
    (Instr.setParam 0 head 0x01 0 0).wellFormed = false ∧ (Instr.setParam 0 badHead 0x03 0 4).wellFormed = false ∧
      (Instr.setParam 0 head 0x03 0 4).wellFormed = true := by decide

/-! ### Worked values of the spec -/

theorem test_check_of_the_programming_note :
    checkOf [0x31, 0x32, 0x33, 0x34, 0x35, 0x36, 0x37, 0x38, 0x39] = 0x29B1#16 := by decide +kernel

theorem test_weekdays :
    weekday ⟨2000, 1, 1, 0, 0, 0⟩ = 6 ∧ weekday ⟨2024, 1, 1, 0, 0, 0⟩ = 1 ∧ weekday ⟨2024, 2, 29, 0, 0, 0⟩ = 4 ∧
      weekday ⟨2099, 12, 31, 0, 0, 0⟩ = 4 := by decide

theorem test_backoff_lengths :
    [1, 2, 3].map (fun a => backoffLength 4 a 224) = [6, 8, 10] ∧ backoffLength 15 15 231 = 255 := by decide

theorem test_decode_no_row_gives_bits : decodeTableWord 16 0x1234 = none := rfl

/-! ### Small states -/

/-- Equality of two states, field by field, in a form the kernel evaluates quickly. -/
def same (t u : State) : Bool :=
  t.ports.toList == u.ports.toList && t.pool.toList == u.pool.toList && t.freeList == u.freeList &&
    t.nextStamp == u.nextStamp && t.stations.toList == u.stations.toList && t.groups.toList == u.groups.toList &&
    t.transactions.toList == u.transactions.toList && t.nextLapse == u.nextLapse &&
    t.windows.toList == u.windows.toList && t.dispositions.toList == u.dispositions.toList &&
    t.calendar == u.calendar && t.backupSupply == u.backupSupply && t.backupLost == u.backupLost && t.staged == u.staged &&
    t.managers.toList == u.managers.toList && t.params == u.params && t.counters.toList == u.counters.toList &&
    t.pendingAlerts == u.pendingAlerts && t.pulse == u.pulse && t.resetCause == u.resetCause &&
    t.restart == u.restart && t.straps == u.straps && t.powered == u.powered && t.crystalCount == u.crystalCount &&
    t.msCount == u.msCount && t.pending == u.pending

theorem eq_of_same {t u : State} (h : same t u = true) : t = u := by
  cases t
  cases u
  simpa [same, Vector.toList_inj, and_assoc] using h

/-- Whether an outcome is a given next state. -/
def answers (o : Host.Outcome State Fault Refusal) (t : State) : Bool :=
  match o with
  | .next u => same u t
  | .fault _ | .refused _ => false

theorem eq_of_answers {o : Host.Outcome State Fault Refusal} {t : State} (h : answers o t = true) : o = .next t := by
  cases o with
  | next u => exact congrArg _ (eq_of_same h)
  | fault _ => exact absurd h (by simp [answers])
  | refused _ => exact absurd h (by simp [answers])

/-- Whether an outcome is a next state with a property. -/
def answersWith (o : Host.Outcome State Fault Refusal) (f : State → Bool) : Bool :=
  match o with
  | .next u => f u
  | .fault _ | .refused _ => false

def s0 : State := State.reset
def tail48 : List BufferIx := (List.finRange 48).tail

/-- Port 0 in a state, on a line. -/
def inState (st : PortState) (l : LineState) : State := s0.updPort 0 fun u => { u with state := st, line := l }

/-- A frame of 6 characters on the way to its seventh, in buffer 0, with a running check. -/
def lastAwaited (cs : List Byte) (c : Check) : State :=
  (({ s0 with freeList := tail48 }).setBuffer 0 ⟨.reception 0, cs⟩).updPort 0 fun u =>
    { u with state := .receiving ⟨0, 6, some 7, c⟩, line := .character }

/-- Port 0 in RECEIVING with a buffer and `held` characters. -/
def receivingAt (held : Nat) : State :=
  (({ s0 with freeList := tail48 }).setBuffer 0 ⟨.reception 0, List.replicate held 1⟩).updPort 0 fun u =>
    { u with state := .receiving ⟨0, held, none, 0x1234⟩, line := .idle 5 }

/-- An entry for buffer 0, which is held once. -/
def entry0 : QueueEntry := ⟨0, .c2, 0, 0, false, .forwarded, none, none⟩

def heldState (cs : List Byte) : State :=
  { ({ s0 with freeList := tail48 }).setBuffer 0 ⟨.held 1, cs⟩ with nextStamp := 1 }

/-- Port 0 with an entry in its queue, in a state, on a line. -/
def queued (e : QueueEntry) (st : PortState) (l : LineState) : State :=
  (heldState (framedChars goodFrame .datagram)).updPort 0 fun u => { u with queue := [e], state := st, line := l }

def sendingAt (e : QueueEntry) (pos : Nat) : State := queued { e with inTx := true } (.sending pos 0) .character

def key12 : TxKey := ⟨1, 2, 7, .ordinary⟩

/-- Transaction 0 in a state. -/
def withTx (t : TxEntry) : State := s0.setTx 0 t

/-! ### The machine and its invariants -/

theorem test_front_command_runs :
    answers (step { s0 with pending := [.pulseEnd, .secondTick] }) { s0 with pending := [.secondTick] } = true ∧
      ({ s0 with pending := [.pulseEnd] } : State).pending = [.pulseEnd] := by decide +kernel

theorem test_idle_step :
    s0.pending = [] ∧ s0.restartFirst = s0 ∧ s0.crystalCount + 1 < 900 ∧
      answersWith (step s0) (fun t => t.calendar = s0.calendar && t.crystalCount == 1 && (t.port 0).line == .idle 1) = true ∧
      answersWith (step { s0 with crystalCount := 899 }) (fun t => t.calendar.phase == 1 && t.crystalCount == 0) = true ∧
      answersWith (step { s0 with crystalCount := 899, calendar := { s0.calendar with phase := 32767 } })
        (fun t => t.calendar.phase == 0 && t.calendar.now == s0.calendar.now.nextSecond) = true := by decide +kernel

theorem test_idle_step_on_hold_or_lost :
    let held : State := { s0 with crystalCount := 899, calendar := { s0.calendar with hold := true } }
    let lost : State := { s0 with crystalCount := 899, backupLost := true }
    held.calendar.hold = true ∧ answersWith (step held) (fun t => t.calendar.phase == 0 && t.crystalCount == 0) = true ∧
      lost.backupLost = true ∧ answersWith (step lost) (fun t => t.calendar.phase == 0 && t.crystalCount == 0) = true := by
  decide +kernel

/-- A state one CLK period before the end of a millisecond. -/
def lastOfMs (s : State) : State := { s with msCount := 294902 }

/-- What one CLK period moves on a port, and what a millisecond does. -/
theorem test_clk_period :
    let s := (inState (.guard 9) (.idle 33791)).updPort 0 fun u => { u with busySpan := 7 }
    let busy := (inState .listen .character).updPort 0 fun u => { u with busySpan := 7 }
    ((s.clkPass.port 0).state = .guard 8 ∧ s.clkPass.msCount = 10 ∧ (s.clkPass.port 0).busySpan = 7) ∧
      ((lastOfMs s).clkPass.msCount = 0 ∧ ((lastOfMs s).clkPass.port 0).busySpan = 7) ∧
      ((lastOfMs busy).clkPass.port 0).busySpan = 8 ∧
      ((inState (.sending 3 5) .character).clkPass.port 0).state = .sending 3 6 ∧
      ((inState (.contained 4) .startLevel).clkPass.port 0).state = .contained 4 ∧
      ((lastOfMs (inState (.contained 4) .startLevel)).clkPass.port 0).state = .contained 3 ∧
      same { s0 with powered := false }.clkPass { s0 with powered := false } = true := by decide +kernel

theorem test_ms_of_the_tables :
    let s := lastOfMs ({ withTx (.opened ⟨key12, 1, none, 0⟩ 0 (some ⟨5, 3⟩)) with pulse := some 10 }.setTx 1
      (.lapsed ⟨key12, 0, none, 0⟩ 0 500))
    s.clkPass.tx 0 = .opened ⟨key12, 1, none, 0⟩ 0 (some ⟨4, 3⟩) ∧
      s.clkPass.tx 1 = .lapsed ⟨key12, 0, none, 0⟩ 0 499 ∧ s.clkPass.pulse = some 9 := by decide +kernel

/-- The moment each event falls due: the last period before it, and it. -/
theorem test_events_fall_due :
    let echo (n : Nat) := (queued { entry0 with inTx := true } (.sending 1 n) .character)
    let quiet (n : Nat) := (receivingAt 3).updPort 0 fun u => { u with line := .idle n }
    let span (n : Nat) := (inState .listen (.idle 33792)).updPort 0 fun u => { u with busySpan := n }
    ((echo 35327).isDue (.missingEcho 0) = false ∧ (echo 35328).isDue (.missingEcho 0) = true) ∧
      ((quiet 50688).isDue (.truncated 0) = false ∧ (quiet 50689).isDue (.truncated 0) = true) ∧
      ((span 0).isDue (.idleStretchReaches2Ct 0) = false ∧ (span 1).isDue (.idleStretchReaches2Ct 0) = true) ∧
      ((span 50).isDue (.containment 0) = false ∧ (span 51).isDue (.containment 0) = true) ∧
      ((inState (.backoff 6) (.idle 101375)).isDue (.backoffEnd 0) = false ∧
        (inState (.backoff 6) (.idle 101376)).isDue (.backoffEnd 0) = true) ∧
      ((inState (.guard 1) .character).isDue (.guardExpiry 0) = false ∧
        (inState (.guard 0) .character).isDue (.guardExpiry 0) = true) := by decide +kernel

theorem test_more_events_fall_due :
    ((inState (.contained 1) .character).isDue (.containmentExpiry 0) = false ∧
        (inState (.contained 0) .character).isDue (.containmentExpiry 0) = true) ∧
      ((queued entry0 .listen (.idle 67583)).isDue (.startTransmission 0) = false ∧
        (queued entry0 .listen (.idle 67584)).isDue (.startTransmission 0) = true) ∧
      ((withTx (.opened ⟨key12, 1, none, 0⟩ 0 (some ⟨1, 3⟩))).isDue (.deadlineExpiry 0) = false ∧
        (withTx (.opened ⟨key12, 1, none, 0⟩ 0 (some ⟨0, 3⟩))).isDue (.deadlineExpiry 0) = true) ∧
      ((withTx (.lapsed ⟨key12, 0, none, 0⟩ 0 1)).isDue (.graceExpiry 0) = false ∧
        (withTx (.lapsed ⟨key12, 0, none, 0⟩ 0 0)).isDue (.graceExpiry 0) = true) ∧
      (({ s0 with pulse := some 1 } : State).isDue .pulseEnd = false ∧
        ({ s0 with pulse := some 0 } : State).isDue .pulseEnd = true) := by decide +kernel

/-- A step without a command takes what falls due in it: an echo that is missing, a deadline. -/
theorem test_due_events_are_taken :
    answersWith (step (queued { entry0 with inTx := true } (.sending 0 18431) .character))
        (fun t => (t.port 0).state == .backoff 6) = true ∧
      answersWith (step (lastOfMs (withTx (.opened ⟨key12, 1, none, 0⟩ 0 (some ⟨1, 3⟩)))))
        (fun t => (t.tx 0).isLapsed && t.counter .txLapsed == 1) = true ∧
      Instr.missingEcho 0 ∈ timedEvents ∧ Instr.deadlineExpiry 0 ∈ timedEvents := by decide +kernel

theorem test_unpowered :
    let s : State := { s0 with powered := false }
    s.powered = false ∧ answers (exec (.datagram 0 goodFrame) s) s = true ∧ answers (exec (.truncated 0) s) s = true ∧
      answers (exec (.startBit 0) s) (s.updPort 0 fun u => { u with line := .undecoded }) = true ∧
      answers (exec (.framingErrorCharacter 0) s) (s.updPort 0 fun u => { u with line := .startLevel }) = true ∧
      answers (exec (.lineReturnsToIdle 0) (s.updPort 0 fun u => { u with line := .startLevel })) s = true ∧
      answers (exec (.echoCharacter 0 (.good 1 true)) (s.updPort 0 fun u => { u with line := .idle 9 })) s = true := by
  decide +kernel

theorem test_end_of_event_starts :
    ((queued entry0 .listen (.idle 67584)).restart = none ∧
      same (queued entry0 .listen (.idle 67584)).settle
        (queued { entry0 with inTx := true } (.sending 0 0) (.idle 67584)) = true) ∧
      same (queued entry0 .listen (.idle 67583)).settle (queued entry0 .listen (.idle 67583)) = true := by decide +kernel

/-- A restart that fell due is the next thing that happens: before it nothing starts, with it the kind's reset. -/
theorem test_end_of_event_restarts :
    let due (k : RestartKind) : State := { queued entry0 .listen (.idle 67584) with restart := some ⟨k, 7, true⟩ }
    same (due .warm).settle (due .warm) = true ∧ (due .warm).restartFirst.resetCause = .warm ∧
      (due .full).restartFirst.resetCause = .full ∧
      answersWith (exec .pulseEnd (due .warm)) (fun t => t.resetCause == .warm && t.queue 0 == [] && t.restart == none) =
        true ∧
      same { due .warm with powered := false }.restartFirst { due .warm with powered := false } = true := by
  decide +kernel

/-- The last character of the awaited result is read back: FRAMES_OUT is counted before the restart that follows. -/
theorem test_restart_falls_due :
    let e : QueueEntry := { entry0 with origin := .generated, inTx := true }
    let s : State := { queued e (.sending 7 0) .character with restart := some ⟨.warm, 0, false⟩ }
    s.quiescent = true ∧
      answersWith (exec (.echoCharacter 0 (.good ((s.chars 0).getD 7 0) false)) s)
        (fun t => t.restart == some ⟨.warm, 0, true⟩ && t.portCounter 0 .framesOut == 1 && t.resetCause == .cold &&
          answersWith (step t) fun r => r.resetCause == .warm && r.restart == none && r.portCounter 0 .framesOut == 1) =
        true := by decide +kernel

/-- The hypotheses of every statement about a step: the state after reset meets them, and its step goes on. -/
theorem test_reset_steps :
    (s0.quiescent && s0.eventsComplete && s0.darkUnpowered && s0.calendarReal && s0.nothingStagedOnHold &&
      s0.queuesSound && s0.marksSound && s0.buffersSound && s0.transactionsSound && s0.paramsInRange && s0.agesFit &&
      s0.managersDistinct && s0.pulseOnlyInPulseMode) = true ∧
      answersWith (step s0) (fun _ => true) = true := by decide +kernel

/-! ### Characters -/

theorem test_address_character :
    (s0.hears 0 = true ∧ (s0.port 0).state.awaitsFrame = true ∧ s0.freeList = 0 :: tail48) ∧
      answers (exec (.addressCharacter 0 2) s0)
        ((({ s0 with freeList := tail48 }).setBuffer 0 ⟨.reception 0, [2]⟩).updPort 0 fun u =>
          u.heard (.receiving ⟨0, 1, none, checkByte 0xFFFF 2⟩)) = true := by decide +kernel

theorem test_address_character_without_buffer :
    ({ s0 with freeList := [] } : State).hears 0 = true ∧ ({ s0 with freeList := [] } : State).paramsInRange = true ∧
      answers (exec (.addressCharacter 0 2) { s0 with freeList := [] })
        (((State.countPort { s0 with freeList := [] } 0 .noBuffer).updPort 0 fun u => u.heard .listen).raise
          .poolExhausted) = true := by decide +kernel

theorem test_resync :
    (receivingAt 3).hears 0 = true ∧ ((receivingAt 3).port 0).state = .receiving ⟨0, 3, none, 0x1234⟩ ∧
      answers (exec (.addressCharacter 0 9) (receivingAt 3))
        ((((receivingAt 3).setChars 0 [9]).countPort 0 .formatErrors).updPort 0 fun u =>
          u.heard (.receiving ⟨0, 1, none, checkByte 0xFFFF 9⟩)) = true ∧
      answers (exec (.framingErrorCharacter 0) (receivingAt 3))
        ((((receivingAt 3).freeUp 0).countPort 0 .formatErrors).updPort 0 fun u =>
          { u with state := .listen, line := .startLevel, startHold := .oneBit }) = true := by decide +kernel

theorem test_data_character_stored :
    (receivingAt 4).hears 0 = true ∧ ((receivingAt 4).port 0).state = .receiving ⟨0, 4, none, 0x1234⟩ ∧
      answers (exec (.dataCharacter 0 64) (receivingAt 4))
        (((receivingAt 4).setChars 0 [1, 1, 1, 1, 64]).updPort 0 fun u =>
          u.heard (.receiving ⟨0, 5, some 71, checkByte 0x1234 64⟩)) = true ∧
      answers (exec (.dataCharacter 0 7) (receivingAt 2))
        (((receivingAt 2).setChars 0 [1, 1, 7]).updPort 0 fun u =>
          u.heard (.receiving ⟨0, 3, none, checkByte 0x1234 7⟩)) = true := by decide +kernel

theorem test_long_frame :
    (receivingAt 4).paramsInRange = true ∧
      answers (exec (.dataCharacter 0 65) (receivingAt 4))
        (((((receivingAt 4).setChars 0 [1, 1, 1, 1, 65]).freeUp 0).countPort 0 .formatErrors).updPort 0 fun u =>
          u.heard .listen) = true ∧
      answers (exec (.framingErrorCharacter 0) (receivingAt 4))
        ((((receivingAt 4).freeUp 0).countPort 0 .formatErrors).updPort 0 fun u =>
          { u with state := .listen, line := .startLevel, startHold := .oneBit }) = true := by decide +kernel

/-- The last character of a frame whose checks pass: the frame is classified in that event. -/
theorem test_last_character_completes :
    let s := lastAwaited [2, 1, 0x10, 7, 0, 0x12] 0x1234
    let t := (((s.setChars 0 [2, 1, 0x10, 7, 0, 0x12, 0x34]).countPort 0 .framesIn).updPort 0 fun u => u.heard .listen)
    (s.hears 0 = true ∧ (s.chars 0).length = 6 ∧ kindOf 0x10 = some .datagram ∧ isStation 1 = true) ∧
      answers (exec (.dataCharacter 0 0x34) s) (t.classify 0 ⟨2, 1, .datagram, 2, 7, []⟩ 0).settle = true ∧
      answersWith (exec (.dataCharacter 0 0x34) s)
        (fun w => (w.queue 1).map (·.rank) == [.c2] && (w.pool.get 0).condition == .held 3) = true := by decide +kernel

/-- At the last character: a wrong check; a bad source and a bad kind under a right one. -/
theorem test_completion_checks :
    let dropped (s : State) (v : Byte) (c : PortCounter) : State :=
      (((s.setChars 0 (s.chars 0 ++ [v])).freeUp 0).countPort 0 c).updPort 0 fun u => u.heard .listen
    let wrong := lastAwaited [2, 1, 0, 7, 0, 0x12] 0x1234
    let source := lastAwaited [2, 240, 0, 7, 0, 0x12] 0x1234
    let kind := lastAwaited [2, 1, 6, 7, 0, 0x12] 0x1234
    (wrong.hears 0 = true ∧ (wrong.chars 0).length = 6 ∧ checkValue 0x12 0x35 ≠ 0x1234 ∧
      answers (exec (.dataCharacter 0 0x35) wrong) (dropped wrong 0x35 .checkErrors) = true) ∧
    (checkValue 0x12 0x34 = 0x1234 ∧ isStation 240 = false ∧ kindOf 6 = none) ∧
    answers (exec (.dataCharacter 0 0x34) source) (dropped source 0x34 .formatErrors) = true ∧
    answers (exec (.dataCharacter 0 0x34) kind) (dropped kind 0x34 .formatErrors) = true := by decide +kernel

theorem test_stray_characters :
    (s0.powered = true ∧ s0.quiescent = true ∧ s0.paramsInRange = true) ∧
      answers (exec (.dataCharacter 0 5) s0)
        (s0.updPort 0 fun u => { u with line := .idle 0, startHold := .ready }) = true ∧
      answers (exec (.framingErrorCharacter 0) s0)
        (s0.updPort 0 fun u => { u with line := .startLevel, startHold := .oneBit }) = true ∧
      answers (exec (.addressCharacter 0 5) (inState .disabled .character))
        ((inState .disabled (.idle 0)).updPort 0 fun u => { u with startHold := .ready }) = true ∧
      answers (exec (.addressCharacter 0 5) (inState .listen .undecoded)) (inState .listen (.idle 0)) = true ∧
      answers (exec (.framingErrorCharacter 0) (inState .listen .undecoded)) (inState .listen .startLevel) = true := by
  decide +kernel

/-- A line held at the start level is decoded again only after it has returned to the idle level. -/
theorem test_start_level_is_not_decoded :
    answers (exec (.addressCharacter 0 2) (inState .listen .startLevel)) (inState .listen (.idle 0)) = true ∧
      answers (exec (.dataCharacter 0 2) (inState .listen .startLevel)) (inState .listen (.idle 0)) = true ∧
      answers (exec (.framingErrorCharacter 0) (inState .listen .startLevel)) (inState .listen .startLevel) = true ∧
      (inState .listen .startLevel).hears 0 = false ∧ (inState .listen (.idle 0)).hears 0 = true := by decide +kernel

theorem test_start_bits :
    answers (exec (.startBit 0) (inState .listen (.idle 16896)))
        ((inState .listen .character).updPort 0 fun u => { u with startHold := .ready }) = true ∧
      answers (exec (.startBit 0) (inState .listen (.idle 16895))) (inState .listen .undecoded) = true ∧
      answers (exec (.startBit 0) (inState .disabled (.idle 99999))) (inState .disabled .undecoded) = true ∧
      answers (exec (.startBit 0) (inState .listen .undecoded)) (inState .listen .undecoded) = true ∧
      answers (exec (.startBit 0) (inState .listen .startLevel)) (inState .listen .startLevel) = true ∧
      answers (exec (.startBit 0) (inState .listen .character)) (inState .listen .character) = true := by decide +kernel

theorem test_start_bit_after_a_framing_error :
    let s (n : Nat) := (inState .listen (.idle n)).updPort 0 fun u => { u with startHold := .oneBit }
    answers (exec (.startBit 0) (s 1535)) ((s 0).updPort 0 fun u => { u with line := .undecoded }) = true ∧
      answers (exec (.startBit 0) (s 1536))
        ((s 0).updPort 0 fun u => { u with line := .character, startHold := .ready }) = true := by decide +kernel

theorem test_line_returns_to_idle :
    answers (exec (.lineReturnsToIdle 0) (inState .listen .startLevel)) (inState .listen (.idle 0)) = true ∧
      answers (exec (.lineReturnsToIdle 0) (inState .listen .undecoded)) (inState .listen (.idle 0)) = true ∧
      answers (exec (.lineReturnsToIdle 0) (inState .listen .character)) (inState .listen .character) = true ∧
      answers (exec (.lineReturnsToIdle 0) (inState .listen (.idle 3))) (inState .listen (.idle 3)) = true := by
  decide +kernel

theorem test_idle_stretches :
    answers (exec (.truncated 0) ((receivingAt 3).updPort 0 fun u => { u with busySpan := 9 }))
        ((((receivingAt 3).freeUp 0).countPort 0 .formatErrors).updPort 0 fun u =>
          { u with state := .listen, line := .idle 50689 }).settle = true ∧
      answers (exec (.idleStretchReaches2Ct 0) (s0.updPort 0 fun u => { u with busySpan := 40 }))
        (s0.updPort 0 fun u => { u with line := .idle 33792 }) = true ∧
      answers (exec (.truncated 0) (inState .listen .character)) (inState .listen .character) = true ∧
      answers (exec (.idleStretchReaches2Ct 0) (inState .listen .character)) (inState .listen .character) = true := by
  decide +kernel

theorem test_encodings :
    sampleCharacter (characterBits 0xA5 true).tail = .good 0xA5 true ∧
      viewFrame (framedChars goodFrame .request) .request = viewOf goodFrame .request ∧
      generatedChars 2 1 7 .notice [0xAA] = framedChars goodFrame .notice ∧ kindOf 0xF6 = none ∧
      numberOf 0x00 0x0E 0x10 0x00 = 921600 ∧ ofBcd (bcd 59) = some 59 ∧ ofBcd 0x5A = none := by decide +kernel

/-! ### Received frames -/

/-- The state in which the classification of a frame from port 0 begins. -/
def arrivedState (s : State) (k : Kind) (f : Frame) : State := s.arrived 0 0 s.freeList.tail (framedChars f k)

/-- The state in which the classification of a frame from port 0 goes on after learning. -/
def learnedState (s : State) (k : Kind) (f : Frame) : State := (arrivedState s k f).heardFrom 0 f.source

/-- The hypotheses of FrameArrives, for port 0 and buffer 0. -/
def arrives (s : State) (f : Frame) : Bool := s.canReceive 0 && f.wellFormed && s.freeList.head? == some 0

/-- The hypotheses of FrameLearned, for port 0 and buffer 0. -/
def learns (s : State) (f : Frame) : Bool := arrives s f && s.letsThrough 0 f.source

theorem frameArrives_of {s : State} {k : Kind} {f : Frame} (h : arrives s f = true) :
    FrameArrives s k 0 f 0 (arrivedState s k f) := by
  simp only [arrives, Bool.and_eq_true, beq_iff_eq] at h
  refine ⟨h.1.1, h.1.2, s.freeList.tail, ?_, rfl⟩
  cases e : s.freeList with
  | nil => rw [e] at h; exact absurd h.2 (by simp)
  | cons b rest => rw [e] at h; simpa using h.2

theorem frameLearned_of {s : State} {k : Kind} {f : Frame} (h : learns s f = true) :
    FrameLearned s k 0 f 0 (learnedState s k f) := by
  simp only [learns, Bool.and_eq_true] at h
  exact ⟨h.2, _, frameArrives_of h.1, rfl⟩

theorem test_frame_arrives (k : Kind) : FrameArrives s0 k 0 goodFrame 0 (arrivedState s0 k goodFrame) :=
  frameArrives_of (by decide +kernel)

theorem test_frame_learned (k : Kind) : FrameLearned s0 k 0 goodFrame 0 (learnedState s0 k goodFrame) :=
  frameLearned_of (by decide +kernel)

theorem test_frame_classified :
    answers (exec (.datagram 0 goodFrame) s0)
      ((arrivedState s0 .datagram goodFrame).classify 0 (viewOf goodFrame .datagram) 0).settle =
        true := by decide +kernel

/-- Learning drops: from the own address, BARRED, PINNED on another segment. -/
theorem test_learning_drops :
    let own : Frame := { goodFrame with source := 224 }
    let barred := s0.setStation 1 ⟨.barred, 3⟩
    let pinned := s0.setStation 1 ⟨.pinned 2, 3⟩
    (arrives s0 own = true ∧ arrives barred goodFrame = true ∧ arrives pinned goodFrame = true) ∧
      own.source = s0.params.ownAddress ∧
      answers (exec (.datagram 0 own) s0)
        ((((arrivedState s0 .datagram own).count .addressClash).raise .addressClash).freeUp 0).settle =
          true ∧
      answers (exec (.request 0 goodFrame) barred)
        (((arrivedState barred .request goodFrame).count .barred).freeUp 0).settle = true ∧
      answers (exec (.reply 0 goodFrame) pinned)
        ((((arrivedState pinned .reply goodFrame).count .misplaced).raise .misplaced).freeUp 0).settle =
          true := by decide +kernel

def toOwn : Frame := { goodFrame with dest := 224 }

theorem test_frames_for_the_own_address :
    toOwn.dest = s0.params.ownAddress ∧ learns s0 toOwn = true ∧
      answers (exec (.result 0 toOwn) s0) (((learnedState s0 .result toOwn).count .unsolicited).freeUp 0).settle = true ∧
      answers (exec (.notice 0 toOwn) s0)
        (((learnedState s0 .notice toOwn).countPort 0 .formatErrors).freeUp 0).settle = true ∧
      answers (exec (.manage 0 toOwn) s0)
        (((learnedState s0 .manage toOwn).manage 0 (viewOf toOwn .manage)).freeUp 0).settle = true := by decide +kernel

theorem test_forwarding_off :
    let s : State := { s0 with params := { s0.params with forwarding := false } }
    learns s goodFrame = true ∧
      answers (exec (.reply 0 goodFrame) s) (((learnedState s .reply goodFrame).count .forwardingOff).freeUp 0).settle =
        true := by decide +kernel

/-- Filtered locally, barred, no route under DROP, no route to an empty group, and the reserve. -/
theorem test_frames_that_go_no_further :
    let near := s0.setStation 2 ⟨.pinned 0, 3⟩
    let barred := s0.setStation 2 ⟨.barred, 3⟩
    let drop : State := { s0 with params := { s0.params with unknownPolicy := .drop } }
    let groupless : State := { s0 with groups := Vector.replicate 16 1 }
    let toGroup : Frame := { goodFrame with dest := 241 }
    let key : TxKey := ⟨1, 2, 7, .ordinary⟩
    ([near, barred, drop].all fun s => learns s goodFrame) = true ∧ learns groupless toGroup = true ∧
      answers (exec (.request 0 goodFrame) near)
        (((learnedState near .request goodFrame).count .localFiltered).freeUp 0).settle = true ∧
      answers (exec (.request 0 goodFrame) barred)
        ((((learnedState barred .request goodFrame).count .barred).notify 0 key .noRoute).freeUp 0).settle = true ∧
      answers (exec (.datagram 0 goodFrame) drop)
        (((learnedState drop .datagram goodFrame).count .noRoute).freeUp 0).settle = true ∧
      (learnedState groupless .datagram toGroup).targetsFor 0 241 = [] ∧
      answers (exec (.datagram 0 toGroup) groupless)
        (((learnedState groupless .datagram toGroup).count .noRoute).freeUp 0).settle = true := by decide +kernel

theorem test_below_the_reserve :
    let s : State := { s0 with freeList := [0, 1, 2, 3, 4, 5] }
    learns s goodFrame = true ∧ (learnedState s .datagram goodFrame).freeList.length < s.params.reserve ∧
      answersWith (exec (.datagram 0 goodFrame) s)
        (fun t => t.counter .poolLow == 1 && t.pendingAlerts == 0b1000010 && t.freeList == [1, 2, 3, 4, 5, 0]) = true := by
  decide +kernel

theorem test_untracked_frames :
    let u := learnedState s0 .datagram goodFrame
    u.targetsFor 0 2 = [1, 2, 3] ∧ (u.takers [1, 2, 3] (u.rankFor goodFrame)).length = 3 ∧
      s0.params.reserve ≤ u.freeList.length ∧
      answers (exec (.datagram 0 goodFrame) s0)
        ((u.offerEach [1, 2, 3] ⟨0, .c3, .forwarded, none⟩).setCondition 0 (.held 3)).settle = true := by decide +kernel

/-- Targets that refuse: port 1 contained, segment 2 closed, then port 3 disabled too. -/
def partly : State :=
  let s := s0.updPort 1 fun u => { u with state := .contained 9 }
  { s with dispositions := s.dispositions.set 2 .closed }

def nowhere : State := partly.updPort 3 fun u => { u with state := .disabled }

theorem test_targets_that_refuse :
    let u := learnedState partly .datagram goodFrame
    let w := learnedState nowhere .datagram goodFrame
    (learns partly goodFrame = true ∧ learns nowhere goodFrame = true) ∧
      ([1, 2, 3].map fun p => u.verdictFor p .c3) = [.unreachable, .window, .admitted] ∧
      answers (exec (.datagram 0 goodFrame) partly)
        ((u.offerEach [1, 2, 3] ⟨0, .c3, .forwarded, none⟩).setCondition 0 (.held 1)).settle = true ∧
      w.takers [1, 2, 3] .c3 = [] ∧
      answers (exec (.datagram 0 goodFrame) nowhere)
        ((w.offerEach [1, 2, 3] ⟨0, .c3, .forwarded, none⟩).freeUp 0).settle = true ∧
      (w.offerEach [1, 2, 3] ⟨0, .c3, .forwarded, none⟩).portCounter 3 .unreachable = 1 := by decide +kernel

theorem test_untracked_broadcast_request :
    let f : Frame := { goodFrame with dest := 0, cls := 1 }
    let u := learnedState s0 .request f
    learns s0 f = true ∧ isStationAddress 0 = false ∧ u.targetsFor 0 0 = [1, 2, 3] ∧
      answers (exec (.request 0 f) s0)
        ((u.offerEach [1, 2, 3] ⟨0, .c1, .forwarded, none⟩).setCondition 0 (.held 3)).settle = true := by decide +kernel

theorem test_request_opens :
    let s := s0.setStation 2 ⟨.pinned 3, 3⟩
    let u := learnedState s .request goodFrame
    learns s goodFrame = true ∧ (allTx.all fun j => u.keyOf j != some key12) = true ∧
      u.openCount 1 < s.params.maxOutstanding ∧ u.tx 0 = .free ∧ u.targetsFor 0 2 = [3] ∧
      u.takers [3] (u.rankFor goodFrame) = [3] ∧
      answers (exec (.request 0 goodFrame) s)
        ((((u.offerEach [3] ⟨0, .c3, .forwarded, some 0⟩).setTx 0 (.opened ⟨key12, 0, some 3, 0⟩ 1 none)).count
          .txOpened).setCondition 0 (.held 1)).settle = true := by decide +kernel

theorem test_request_refused_by_targets :
    let u := learnedState partly .request goodFrame
    let w := learnedState nowhere .request goodFrame
    answers (exec (.request 0 goodFrame) partly)
        ((((u.offerEach [1, 2, 3] ⟨0, .c3, .forwarded, some 0⟩).setTx 0 (.opened ⟨key12, 0, none, 0⟩ 1 none)).count
          .txOpened).setCondition 0 (.held 1)).settle = true ∧
      w.refusalCause [1, 2, 3] .c3 = .contained ∧
      answers (exec (.request 0 goodFrame) nowhere)
        (((w.offerEach [1, 2, 3] ⟨0, .c3, .forwarded, some 0⟩).notify 0 key12 .contained).freeUp 0).settle = true := by
  decide +kernel

/-- A table without a FREE entry: two LAPSED, of which the one with the smaller stamp is reclaimed, the rest OPEN. -/
def lapsedTable (s : State) : State :=
  let c : TxCore := ⟨⟨5, 3, 0, .ordinary⟩, 0, none, 0⟩
  (({ s with transactions := Vector.replicate 32 (.opened c 0 none) }).setTx 4 (.lapsed c 8 9)).setTx 6 (.lapsed c 7 9)

theorem test_request_reclaims :
    let u := learnedState (lapsedTable s0) .request goodFrame
    let w := learnedState (lapsedTable nowhere) .request goodFrame
    (learns (lapsedTable s0) goodFrame = true ∧ (allTx.all fun j => u.tx j != .free) = true ∧
      (allTx.all fun j => u.keyOf j != some key12) = true ∧ u.openCount 1 = 0) ∧
      answers (exec (.request 0 goodFrame) (lapsedTable s0))
        ((((u.offerEach [1, 2, 3] ⟨0, .c3, .forwarded, some 6⟩).setTx 6 (.opened ⟨key12, 0, none, 0⟩ 3 none)).count
          .txOpened).setCondition 0 (.held 3)).settle = true ∧
      answers (exec (.request 0 goodFrame) (lapsedTable nowhere))
        ((((w.setTx 6 .free).offerEach [1, 2, 3] ⟨0, .c3, .forwarded, some 6⟩).notify 0 key12 .contained).freeUp
          0).settle = true := by decide +kernel

/-- Transaction 0 open for goodFrame's key with its one copy in the queue of port 3. -/
def openTx (d : Option Deadline) : State :=
  ((s0.setBuffer 47 ⟨.held 1, []⟩).setTx 0 (.opened ⟨key12, 0, none, 0⟩ 1 d)).updPort 3 fun u =>
    { u with queue := [⟨47, .c3, 0, 0, false, .forwarded, some 0, none⟩] }

theorem test_duplicate_request :
    let u := learnedState (openTx none) .request goodFrame
    learns (openTx none) goodFrame = true ∧ u.transactionsSound = true ∧ u.tx 0 = .opened ⟨key12, 0, none, 0⟩ 1 none ∧
      answers (exec (.request 0 goodFrame) (openTx none)) ((u.count .duplicates).freeUp 0).settle = true := by
  decide +kernel

/-- A retry sent afresh to all segments, as the entry of goodFrame's key names no responder segment. -/
def afresh (w : State) : State :=
  ((w.offerEach [1, 2, 3] ⟨0, .c3, .forwarded, some 0⟩).setTx 0 (.opened ⟨key12, 0, none, 1⟩ 3 none)).setCondition 0
    (.held 3)

theorem test_retries :
    let s := openTx (some ⟨100, 3⟩)
    let u := learnedState s .request goodFrame
    let late := withTx (.lapsed ⟨key12, 0, none, 0⟩ 0 500)
    let v := learnedState late .request goodFrame
    (learns s goodFrame = true ∧ u.transactionsSound = true ∧ ([1, 2, 3].all fun q => (u.withdraw 0).takes q .c3 .forwarded) = true ∧
      answers (exec (.request 0 goodFrame) s) (afresh (u.withdraw 0)).settle = true) ∧
    (learns late goodFrame = true ∧ v.transactionsSound = true ∧ v.openCount 1 < late.params.maxOutstanding ∧
      ([1, 2, 3].all fun q => v.takes q .c3 .forwarded) = true ∧
      answers (exec (.request 0 goodFrame) late) (afresh v).settle = true) := by decide +kernel

theorem test_retry_at_the_limit :
    let s := (withTx (.lapsed ⟨key12, 0, none, 0⟩ 0 500)).setTx 1 (.opened ⟨⟨1, 3, 0, .ordinary⟩, 0, none, 0⟩ 0 (some ⟨9, 1⟩))
    let s : State := { s with params := { s.params with maxOutstanding := 1 } }
    let u := learnedState s .request goodFrame
    learns s goodFrame = true ∧ u.transactionsSound = true ∧ s.params.maxOutstanding ≤ u.openCount 1 ∧
      answers (exec (.request 0 goodFrame) s)
        (((u.count .requesterLimit).notify 0 key12 .requesterLimit).freeUp 0).settle = true := by decide +kernel

theorem test_retry_refused_by_every_target :
    let s := nowhere.setTx 0 (.lapsed ⟨key12, 0, none, 0⟩ 0 500)
    let u := learnedState s .request goodFrame
    learns s goodFrame = true ∧ u.transactionsSound = true ∧ u.takers [1, 2, 3] .c3 = [] ∧
      answers (exec (.request 0 goodFrame) s)
        ((((u.offerEach [1, 2, 3] ⟨0, .c3, .forwarded, some 0⟩).setTx 0 .free).notify 0 key12 .contained).freeUp
          0).settle = true := by decide +kernel

theorem test_requests_refused :
    let s : State := { s0 with transactions := Vector.replicate 32 (.opened ⟨⟨1, 3, 0, .ordinary⟩, 0, none, 0⟩ 0 none) }
    let full : State := { s0 with transactions := Vector.replicate 32 (.opened ⟨⟨5, 3, 0, .ordinary⟩, 0, none, 0⟩ 0 none) }
    let u := learnedState s .request goodFrame
    let w := learnedState full .request goodFrame
    (learns s goodFrame = true ∧ learns full goodFrame = true) ∧
    ((allTx.all fun j => u.keyOf j != some key12) = true ∧ s.params.maxOutstanding ≤ u.openCount 1 ∧
      answers (exec (.request 0 goodFrame) s)
        (((u.count .requesterLimit).notify 0 key12 .requesterLimit).freeUp 0).settle = true) ∧
    ((allTx.all fun j => w.keyOf j != some key12) = true ∧ w.openCount 1 < full.params.maxOutstanding ∧ (allTx.all fun j => (w.tx j).isOpen) = true ∧
      answers (exec (.request 0 goodFrame) full)
        ((((w.count .tableFull).raise .tableFull).notify 0 key12 .tableFull).freeUp 0).settle = true) := by decide +kernel

/-- Answers by station 2 to station 1: on the requester's segment, on another, late, and unasked. -/
theorem test_answers :
    let f : Frame := ⟨1, 2, 3, 0, 7, []⟩
    let near := openTx (some ⟨100, 3⟩)
    let far := near.setTx 0 (.opened ⟨key12, 2, none, 0⟩ 1 (some ⟨100, 3⟩))
    let late := withTx (.lapsed ⟨key12, 0, none, 0⟩ 0 500)
    let closed (s : State) := (((learnedState s .reply f).withdraw 0).setTx 0 .free).count .txAnswered
    ([near, far, late, s0].all fun s => learns s f) = true ∧ (learnedState far .reply f).transactionsSound = true ∧
    ((learnedState near .reply f).transactionsSound = true ∧
      answers (exec (.reply 0 f) near) ((closed near).freeUp 0).settle = true) ∧
    ((closed far).takes 2 .express .forwarded = true ∧
      answers (exec (.reply 0 f) far)
        (((closed far).enqueue 2 ⟨0, .express, .forwarded, none⟩).setCondition 0 (.held 1)).settle = true) ∧
    answers (exec (.reply 0 f) late) (((learnedState late .reply f).count .lateReplies).freeUp 0).settle = true ∧
    (learnedState late .reply f).transactionsSound = true ∧
    answers (exec (.result 0 f) s0) (((learnedState s0 .result f).count .unsolicited).freeUp 0).settle = true := by
  decide +kernel

/-- An answer that the requester segment's disposition refuses is dropped, counted there. -/
theorem test_answer_refused :
    let f : Frame := ⟨1, 2, 3, 0, 7, []⟩
    let far := (openTx (some ⟨100, 3⟩)).setTx 0 (.opened ⟨key12, 2, none, 0⟩ 1 (some ⟨100, 3⟩))
    let s : State := { far with dispositions := far.dispositions.set 2 .closed }
    let u := learnedState s .reply f
    learns s f = true ∧ u.transactionsSound = true ∧
      answers (exec (.reply 0 f) s)
        (((((u.withdraw 0).setTx 0 .free).count .txAnswered).countPort 2 .windowDrops).freeUp 0).settle = true := by
  decide +kernel

/-! ### Queues -/

theorem test_dispositions :
    Disposition.limited2.admits .c1 .forwarded = false ∧ Disposition.limited2.admits .c2 .forwarded = true ∧
      Disposition.closed.admits .express .generated = true := by decide

def newEntry (r : Rank) : NewEntry := ⟨9, r, .forwarded, none⟩

/-- Whether an admission on port 0 has a verdict and a state. -/
def judged (s : State) (r : Rank) (v : Verdict) (t : State) : Bool :=
  (s.requestAdmission 0 (newEntry r)).1 == v && same (s.requestAdmission 0 (newEntry r)).2 t

/-- A queue of 16 entries on port 0, the last of a rank. -/
def fullQueue (last : Rank) (inTx : Bool) : State :=
  s0.updPort 0 fun u =>
    { u with
      queue := (List.range 15).map (fun n => ⟨Fin.ofNat 48 n, .express, n, 0, false, .forwarded, none, none⟩) ++
        [⟨15, last, 15, 0, inTx, .forwarded, none, none⟩] }

theorem test_admission :
    ((inState .disabled (.idle 0)).port 0).state.outOfService = true ∧
      judged (inState .disabled (.idle 0)) .c0 .unreachable ((inState .disabled (.idle 0)).countPort 0 .unreachable) = true ∧
      s0.takes 0 .c0 .forwarded = true ∧
      judged { s0 with dispositions := Vector.replicate 4 .closed } .c0 .window
        (State.countPort { s0 with dispositions := Vector.replicate 4 .closed } 0 .windowDrops) = true := by
  decide +kernel

theorem test_admission_at_a_full_queue :
    16 ≤ ((fullQueue .c0 false).queue 0).length ∧
      judged (fullQueue .c0 false) .c3 .queueFull ((fullQueue .c0 false).countPort 0 .queueFull) = true ∧
      ((fullQueue .c0 true).requestAdmission 0 (newEntry .express)).1 = .queueFull ∧
      ((fullQueue .express false).requestAdmission 0 (newEntry .express)).1 = .queueFull ∧
      ((fullQueue .c0 false).requestAdmission 0 (newEntry .express)).1 = .admitted := by decide +kernel

/-- The last entry of a full queue is the one copy of an exchange whose requester is on segment `q`. -/
def displacing (q : Port) : State :=
  ((fullQueue .c0 false).setQueue 0 (((fullQueue .c0 false).queue 0).map fun e =>
    if e.stamp = 15 then { e with link := some 0 } else e)).setTx 0 (.opened ⟨key12, q, none, 0⟩ 1 none)

/-- The displaced copy is reported, and its requester's notice queued, before the EXPRESS entry is admitted. -/
theorem test_displacement_reports_first :
    let s : State := { displacing 1 with nextStamp := 16 }
    let t := (s.requestAdmission 0 (newEntry .express)).2
    (s.requestAdmission 0 (newEntry .express)).1 = .admitted ∧
      ((t.queue 1).map (·.stamp) = [16] ∧ ((t.queue 0).map (·.stamp)).getLast? = some 17) ∧ t.tx 0 = .free ∧
      t.counter .noticesSent = 1 ∧ (t.queue 0).length = 16 := by decide +kernel

/-- A notice for the very queue that displaced finds the place kept for the EXPRESS entry, and is lost. -/
theorem test_displacement_keeps_its_place :
    let s : State := { displacing 0 with nextStamp := 16 }
    let t := (s.requestAdmission 0 (newEntry .express)).2
    (s.requestAdmission 0 (newEntry .express)).1 = .admitted ∧ t.counter .noticesLost = 1 ∧
      t.portCounter 0 .queueFull = 2 ∧ (t.queue 0).length = 16 := by decide +kernel

/-- Whether a generated frame that others owe places and buffers to is placed so. -/
def placed (s : State) (owed : Owed) (b : Option BufferIx) (t : State) : Bool :=
  let r := s.placeGenerated (copyRemoved 33 .queueFull) owed 0 [7]
  r.1 == b && same r.2 t

theorem test_generated_frame_is_refused :
    placed (inState .disabled (.idle 0)) .nothing none ((inState .disabled (.idle 0)).countPort 0 .unreachable) = true ∧
      placed { s0 with freeList := [40] } ⟨[], 1⟩ none { s0 with freeList := [40] } = true ∧
      placed s0 ⟨List.replicate 16 0, 0⟩ none (s0.countPort 0 .queueFull) = true ∧
      placed (fullQueue .express false) .nothing none ((fullQueue .express false).countPort 0 .queueFull) = true ∧
      placed s0 ⟨List.replicate 15 0, 47⟩ (some 0)
        ({ s0.enqueue 0 ⟨0, .express, .generated, none⟩ with freeList := tail48 }.setBuffer 0 ⟨.held 1, [7]⟩) = true := by
  decide +kernel

/-- A generated frame that displaces keeps a buffer for itself: with one free buffer the notice is lost. -/
theorem test_generated_frame_keeps_its_buffer :
    let s : State := { displacing 1 with nextStamp := 16, freeList := [40] }
    let t := (s.generate 0 [7]).2
    (s.generate 0 [7]).1 = some 40 ∧ t.counter .noticesLost = 1 ∧ t.freeList = [] ∧
      ({ s with freeList := [] } : State).generate 0 [7] = (none, { s with freeList := [] }) ∧
      (s.generate 1 [7]).1 = some 40 ∧ ((displacing 1).generate 0 [7]).2.counter .noticesSent = 1 := by
  refine ⟨by decide +kernel, by decide +kernel, by decide +kernel, ?_, by decide +kernel, by decide +kernel⟩
  rfl

/-- A queue of two forwarded entries, the first in transmission, under CLOSED: the purge marks one, removes the other. -/
theorem test_window_purge :
    let s := queued { entry0 with inTx := true } (.sending 0 0) .character
    let s := s.setQueue 0 (s.queue 0 ++ [{ entry0 with stamp := 5, buffer := 7 }])
    let s : State := { s with dispositions := Vector.replicate 4 .closed, nextStamp := 6 }
    s.queuesSound = true ∧ (s.purgeWindow 0).queue 0 = [{ entry0 with inTx := true, pendingRemoval := some .window }] ∧
      (s.purgeWindow 0).portCounter 0 .windowDrops = 1 := by decide +kernel

/-- A removal of each cause, of an exchange's one copy: counters, the report, and the notice's cause. -/
theorem test_removals :
    let s := openTx none
    let e : QueueEntry := ⟨47, .c3, 0, 0, false, .forwarded, some 0, none⟩
    let cause (c : RemovalCause) : Option Byte := ((s.remove 3 e c).queue 0).head?.map fun n => ((s.remove 3 e c).chars n.buffer).getD 5 0
    ([RemovalCause.undeliverable, .window, .unreachable].map cause = [some 2, some 6, some 7]) ∧
      (s.remove 3 e .completion).tx 0 = .opened ⟨key12, 0, none, 0⟩ 0 (some ⟨250, 3⟩) ∧
      ((s.remove 3 e .withdrawn).tx 0 = s.tx 0 ∧ (s.remove 3 e .withdrawn).queue 3 = []) ∧
      ((s.remove 3 e .window).portCounter 3 .windowDrops = 1 ∧ (s.remove 3 e .window).freeList.getLast? = some 47) := by
  decide +kernel

/-- A notice about a request: sent to the requester with the codes of 11.4, and lost without a buffer. -/
theorem test_notices :
    let key : TxKey := ⟨1, 2, 7, .management⟩
    let dry : State := { s0 with freeList := [] }
    (s0.notify 2 key .requesterLimit).chars 0 = generatedChars 1 224 7 .notice [4, 2, 1] ∧
      (s0.notify 2 key .requesterLimit).counter .noticesSent = 1 ∧ ((s0.notify 2 key .noAnswer).queue 2).length = 1 ∧
      same (dry.notify 2 key .noRoute) (dry.count .noticesLost) = true := by decide +kernel

/-- Of two copies the second removal frees the entry; a running deadline keeps it open. -/
theorem test_copies_removed :
    let two := withTx (.opened ⟨key12, 0, none, 0⟩ 2 none)
    let runs := withTx (.opened ⟨key12, 0, none, 0⟩ 1 (some ⟨9, 3⟩))
    (two.reportRemoved 0 .window).tx 0 = .opened ⟨key12, 0, none, 0⟩ 1 none ∧
      ((two.reportRemoved 0 .window).reportRemoved 0 .queueFull).tx 0 = .free ∧
      (runs.reportRemoved 0 .window).tx 0 = .opened ⟨key12, 0, none, 0⟩ 0 (some ⟨9, 3⟩) ∧
      same (s0.reportRemoved 0 .contained) s0 = true := by decide +kernel

/-- A withdrawal takes a waiting copy, and unlinks one in transmission. -/
theorem test_withdrawal :
    let s := (openTx none).updPort 1 fun u =>
      { u with state := .sending 0 0, queue := [⟨46, .c3, 1, 0, true, .forwarded, some 0, none⟩] }
    let s : State := { s with nextStamp := 2 }
    s.queuesSound = true ∧ (s.withdraw 0).queue 3 = [] ∧ (s.withdraw 0).freeList.getLast? = some 47 ∧
      (s.withdraw 0).queue 1 = [⟨46, .c3, 1, 0, true, .forwarded, none, some .withdrawn⟩] := by decide +kernel

/-! ### Transmission and timers -/

theorem test_start_transmission :
    let s := (queued entry0 .listen (.idle 0)).updPort 0 fun u => { u with busySpan := 9 }
    let t := queued { entry0 with inTx := true } (.sending 0 0) (.idle 67584)
    s.quiescent = true ∧ answers (exec (.startTransmission 0) s) t = true ∧ t.txd 0 = some (2, true) ∧
      answers (exec (.startTransmission 0) s0) (inState .listen (.idle 67584)) = true ∧
      answers (exec (.startTransmission 0) (receivingAt 3)) (receivingAt 3) = true ∧
      answers (exec (.startTransmission 0) (queued entry0 .listen .character)) (queued entry0 .listen .character) =
        true := by decide +kernel

theorem test_echo_goes_on :
    let s := queued { entry0 with inTx := true } (.sending 0 77) .character
    s.hears 0 = true ∧ inTransmission (s.queue 0) = some { entry0 with inTx := true } ∧ (s.chars 0)[0]? = some 2 ∧
      answers (exec (.echoCharacter 0 (.good 2 true)) s) (s.updPort 0 fun u => u.heard (.sending 1 77)) = true := by
  decide +kernel

/-- The last of the 8 characters of goodFrame, read back. -/
theorem test_last_echo :
    let s := sendingAt entry0 7
    let v := (s.chars 0).getD 7 0
    (s.chars 0)[7]? = some v ∧ (s.chars 0).length = 8 ∧
      answers (exec (.echoCharacter 0 (.good v false)) s)
        ((((s.setQueue 0 []).freeUp 0).countPort 0 .framesOut).updPort 0 fun u => u.heard .listen) = true := by
  decide +kernel

theorem test_last_echo_of_a_copy :
    let s := (sendingAt { entry0 with link := some 0 } 7).setTx 0 (.opened ⟨key12, 1, none, 0⟩ 1 none)
    answersWith (exec (.echoCharacter 0 (.good ((s.chars 0).getD 7 0) false)) s)
      (fun t => t.tx 0 == .opened ⟨key12, 1, none, 0⟩ 0 (some ⟨250, 0⟩) && (t.port 0).state == .guard 337920) = true := by
  decide +kernel

theorem test_collision :
    let s := sendingAt entry0 3
    s.powered = true ∧ s.quiescent = true ∧ (.good 0x55 false : LineCharacter) ≠ .good ((s.chars 0).getD 3 0) (3 == 0) ∧
      answersWith (exec (.echoCharacter 0 (.good 0x55 false)) s)
        (fun t => t.queue 0 == [{ entry0 with attempts := 1 }] && (t.port 0).state == .backoff 6) = true ∧
      answersWith (exec (.missingEcho 0) s)
        (fun t => t.queue 0 == [{ entry0 with attempts := 1 }] && t.portCounter 0 .collisions == 1) = true := by
  decide +kernel

/-- A collision at the attempt limit, of a withdrawn entry, and of one a window refuses or admits again. -/
theorem test_collision_removes :
    let last := sendingAt { entry0 with attempts := 7 } 3
    let gone := sendingAt { entry0 with pendingRemoval := some .withdrawn } 3
    let window := sendingAt { entry0 with pendingRemoval := some .window } 3
    let closed : State := { window with dispositions := Vector.replicate 4 .closed }
    answersWith (exec (.missingEcho 0) last) (fun t => t.queue 0 == [] && t.portCounter 0 .undeliverable == 1) = true ∧
      answersWith (exec (.missingEcho 0) gone) (fun t => t.queue 0 == [] && t.portCounter 0 .undeliverable == 0) = true ∧
      answersWith (exec (.missingEcho 0) closed) (fun t => t.queue 0 == [] && t.portCounter 0 .windowDrops == 1) = true ∧
      answersWith (exec (.missingEcho 0) window) (fun t => t.queue 0 == [{ entry0 with attempts := 1 }]) = true := by
  decide +kernel

theorem test_timers_end :
    answers (exec (.backoffEnd 0) (inState (.backoff 6) (.idle 0))) (inState .listen (.idle 101376)) = true ∧
      answers (exec (.guardExpiry 0) (inState (.guard 9) (.idle 0))) (inState .listen (.idle 0)) = true ∧
      answers (exec (.containmentExpiry 0) (inState (.contained 9) .startLevel)) (inState .listen .startLevel) = true ∧
      answers (exec (.guardExpiry 0) s0) s0 = true := by decide +kernel

/-- Rows whose time cannot come: the wrong state, and a backoff on a line that carries a character. -/
theorem test_timers_that_cannot_end :
    let waits := inState (.backoff 6) .character
    let guards := inState (.guard 9) (.idle 0)
    (answers (exec (.backoffEnd 0) waits) waits && answers (exec (.backoffEnd 0) guards) guards &&
      answers (exec (.guardExpiry 0) waits) waits && answers (exec (.containmentExpiry 0) guards) guards &&
      answers (exec (.missingEcho 0) waits) waits) = true ∧
      (waits.powered = true ∧ waits.quiescent = true ∧ guards.quiescent = true) ∧
      LineState.character.afresh = .undecoded ∧ (LineState.idle 9).afresh = .idle 0 := by decide +kernel

theorem test_table_and_pulse_timers :
    let late := withTx (.lapsed ⟨key12, 0, none, 0⟩ 0 500)
    answers (exec (.graceExpiry 0) late) s0 = true ∧ (s0.tx 0).isLapsed = false ∧
      answers (exec (.graceExpiry 0) s0) s0 = true ∧
      answers (exec .pulseEnd { s0 with pulse := some 3 }) s0 = true := by decide +kernel

theorem test_containment :
    let s := { queued { entry0 with origin := .generated } .listen (.idle 0) with restart := some ⟨.warm, 0, false⟩ }
    (s.quiescent = true ∧ s.queuesSound = true ∧ (s.port 0).state.monitored = true) ∧
      answersWith (exec (.containment 0) s)
        (fun t => t.queue 0 == [] && (t.port 0).state == .contained 2000 && t.pendingAlerts == 0b1000001 &&
          t.portCounter 0 .unreachable == 1 && t.restart == some ⟨.warm, 0, true⟩) = true ∧
      answers (exec (.containment 0) (inState .disabled (.idle 0))) (inState .disabled (.idle 0)) = true := by
  decide +kernel

/-- Six entries at the loss of port 1: requester there; responder, then deadline there; none running; elsewhere; LAPSED. -/
def relying : State :=
  ((((((s0.setTx 0 (.opened ⟨key12, 1, some 3, 0⟩ 0 (some ⟨9, 3⟩))).setTx 1
    (.opened ⟨key12, 0, some 1, 0⟩ 0 (some ⟨9, 3⟩))).setTx 2 (.opened ⟨key12, 0, none, 0⟩ 0 (some ⟨9, 1⟩))).setTx 3
    (.opened ⟨key12, 0, some 1, 0⟩ 1 none)).setTx 4 (.opened ⟨key12, 2, some 3, 0⟩ 0 (some ⟨9, 3⟩))).setTx 5
    (.lapsed ⟨key12, 1, some 1, 0⟩ 0 500))

/-- What R125 leaves of `relying`: two notices, three entries FREE. -/
def relyingLeft (s : State) : State :=
  ((((s.setTx 0 .free).setTx 1 .free).notify 0 key12 .contained).setTx 2 .free).notify 0 key12 .contained

theorem test_port_left_entry_by_entry :
    relying.queuesSound = true ∧ same (relying.portLeft 1) (relyingLeft relying) = true ∧
      (relyingLeft relying).chars 0 = generatedChars 1 224 7 .notice [7, 2, 0] ∧
      ((relyingLeft relying).queue 0).length = 2 ∧
      same (relying.contain 1)
        (((relyingLeft (relying.updPort 1 fun u => { u with state := .contained 2000 })).countPort 1 .containments).raise
          .containment) = true ∧
      same (relying.applyPortParam 1 0 .enable)
        (relyingLeft (relying.updPort 1 fun u =>
          { u with params := { u.params with enable := false }, state := .disabled })) = true := by decide +kernel

/-- A copy of an entry closed for its requester's port is withdrawn: the waiting copy in queue 3 goes with it. -/
theorem test_port_left_withdraws :
    let e : QueueEntry := { entry0 with link := some 0 }
    let held := heldState (framedChars goodFrame .request)
    let s := (held.setTx 0 (.opened ⟨key12, 1, some 3, 0⟩ 1 (some ⟨9, 3⟩))).updPort 3 fun u => { u with queue := [e] }
    (s.closeFor 1 0).tx 0 = .free ∧ (s.closeFor 1 0).queue 3 = [] ∧ (s.closeFor 1 0).freeList.getLast? = some 0 := by
  decide +kernel

/-- A port that leaves service while it receives frees the buffer; the character in progress is not decoded. -/
theorem test_containment_discards_a_reception :
    let s := (receivingAt 3).updPort 0 fun u => { u with line := .character }
    ((s.contain 0).port 0).line = .undecoded ∧ (s.contain 0).freeList.length = 48 ∧
      ((s.applyPortParam 0 0 .enable).port 0).line = .undecoded ∧
      (s.applyPortParam 0 0 .enable).freeList.length = 48 := by decide +kernel

theorem test_deadline :
    let s := openTx (some ⟨3, 3⟩)
    let u := s.setTx 0 (.opened ⟨key12, 1, none, 0⟩ 0 (some ⟨3, 3⟩))
    s.quiescent = true ∧
      answersWith (exec (.deadlineExpiry 0) s)
        (fun t => t.tx 0 == .lapsed ⟨key12, 0, none, 0⟩ 0 1000 && t.queue 3 == [] && (t.queue 0).length == 1) = true ∧
      answersWith (exec (.deadlineExpiry 0) { u with params := { u.params with lapseGrace := 0 } })
        (fun t => t.tx 0 == .free && t.counter .txLapsed == 1) = true ∧
      s.tx 1 = .free ∧ answers (exec (.deadlineExpiry 1) s) s = true := by decide +kernel

/-- Alert causes: pending already, masked, without recipient, with one whose home is not known, and sent. -/
theorem test_alerts :
    let masked : State := { s0 with params := { s0.params with alertMask := 127 } }
    let told : State := { s0 with params := { s0.params with alertRecipient := 5, alertMode := .pulse } }
    let home := told.setStation 5 ⟨.pinned 2, 3⟩
    let entered (s : State) : State := { s with pendingAlerts := 0b1000001, pulse := if s.params.alertMode = .pulse then some 10 else none }
    same (s0.raise .calendarLost) s0 = true ∧ same (masked.raise .containment) (entered masked) = true ∧
      same (s0.raise .containment) (entered s0) = true ∧
      same (told.raise .containment) ((entered told).count .noticesLost) = true ∧
      home.takes 2 .express .generated = true ∧
      same (home.raise .containment)
        (({ (entered home).enqueue 2 ⟨0, .express, .generated, none⟩ with freeList := tail48 }.setBuffer 0
          ⟨.held 1, generatedChars 5 224 0 .notice [8, 0, 0x41]⟩).count .noticesSent) = true := by decide +kernel

/-! ### Calendar and windows -/

/-- The state after reset at another time. -/
def atTime (d : DateTime) : State := { s0 with calendar := { s0.calendar with now := d } }

theorem test_second_tick :
    answers (exec .secondTick s0) (atTime ⟨2000, 1, 1, 0, 0, 1⟩) = true ∧
      answers (exec .secondTick (atTime calendarEnd)) s0 = true ∧
      answersWith (exec .secondTick { s0 with staged := some calendarEnd })
        (fun t => t.calendar == ⟨calendarEnd, 0, true, false⟩ && t.staged == none) = true ∧
      answers (exec .secondTick { s0 with powered := false }) { atTime ⟨2000, 1, 1, 0, 0, 1⟩ with powered := false } =
        true := by decide +kernel

theorem test_minute_tick_ages :
    let s := (atTime ⟨2000, 1, 1, 0, 0, 59⟩).setStation 5 ⟨.learned 1 28, 3⟩
    let t := (atTime ⟨2000, 1, 1, 0, 0, 59⟩).setStation 5 ⟨.learned 1 29, 3⟩
    answersWith (exec .secondTick s) (fun u => u.station 5 == ⟨.learned 1 29, 3⟩) = true ∧
      answersWith (exec .secondTick t) (fun u => u.station 5 == ⟨.unknown, 3⟩) = true := by decide +kernel

/-- Ages under AGE_LIMIT 30 and under 0, at the bounds. -/
theorem test_aging :
    let learned (age : Nat) : StationEntry := ⟨.learned 1 age, 2⟩
    StationEntry.aged 30 (learned 28) = learned 29 ∧ StationEntry.aged 30 (learned 29) = ⟨.unknown, 2⟩ ∧
      StationEntry.aged 0 (learned 253) = learned 254 ∧ StationEntry.aged 0 (learned 254) = learned 254 ∧
      StationEntry.aged 1 ⟨.pinned 3, 0⟩ = ⟨.pinned 3, 0⟩ := by decide

theorem test_month_lengths :
    (monthLength 2000 2 = 29 ∧ monthLength 2099 2 = 28 ∧ monthLength 2024 12 = 31) ∧ calendarEpoch.instant = 0 ∧
      (⟨2023, 12, 31, 23, 59, 59⟩ : DateTime).nextSecond = ⟨2024, 1, 1, 0, 0, 0⟩ ∧
      (⟨2023, 2, 28, 23, 59, 30⟩ : DateTime).nextMinute = ⟨2023, 3, 1, 0, 0, 0⟩ := by decide

theorem test_next_second :
    (⟨2024, 2, 28, 23, 59, 59⟩ : DateTime).real = true ∧ (⟨2024, 2, 28, 23, 59, 59⟩ : DateTime) ≠ calendarEnd ∧
      (⟨2024, 2, 28, 23, 59, 59⟩ : DateTime).nextSecond = ⟨2024, 2, 29, 0, 0, 0⟩ ∧
      (⟨2100, 1, 1, 0, 0, 0⟩ : DateTime).real = false := by decide

/-- A window from 22:00 to 06:00 of Fridays, on segment 1, is active in the first hours of Saturday 2000-01-01. -/
theorem test_dispositions_are_the_strictest_action :
    let w : WindowEntry := ⟨true, 0b0100000, ⟨22, 0⟩, ⟨6, 0⟩, 0b0010, .quiet⟩
    let s : State := { atTime ⟨2000, 1, 1, 5, 59, 0⟩ with windows := s0.windows.set 0 w }
    let v : State := { s with calendar := { s.calendar with valid := true } }
    s.evaluate.disposition 1 = .opened ∧ v.evaluate.disposition 1 = .quiet ∧ v.evaluate.disposition 0 = .opened := by
  decide +kernel

/-- An evaluation that makes segment 0 stricter records the disposition and purges that queue. -/
theorem test_evaluation_purges :
    let w : WindowEntry := ⟨true, 127, ⟨0, 0⟩, ⟨0, 0⟩, 0b0001, .limited3⟩
    let s := queued entry0 .listen (.idle 0)
    let s : State := { s with windows := s0.windows.set 0 w, calendar := { s0.calendar with valid := true } }
    let recorded : State := { s with dispositions := s.dispositions.set 0 .limited3 }
    same s.evaluate (recorded.purgeWindow 0) = true ∧ s.evaluate.queue 0 = [] ∧
      s.evaluate.portCounter 0 .windowDrops = 1 ∧ same recorded.evaluate recorded = true := by decide +kernel

/-! ### Commands -/

/-- The room secured on port 0 for the result of a command from `head`, and the state in which it executes. -/
def taken (s : State) (c : CommandCode) (args : List Byte) : Option BufferIx × State :=
  (learnedState s .manage (commandFrame s.params.ownAddress c head args)).placeGenerated (copyRemoved 33 .queueFull)
    ⟨[], 0⟩ 0 []

/-- The hypotheses of CommandTaken, for port 0, buffer 0 and a room. -/
def takes (s : State) (c : CommandCode) (args : List Byte) (room : BufferIx) : Bool :=
  s.admitsCommand 0 head && learns s (commandFrame s.params.ownAddress c head args) &&
    (taken s c args).1 == some room

theorem commandTaken_of {s : State} {c : CommandCode} {args : List Byte} {room : BufferIx}
    (h : takes s c args room = true) : CommandTaken s 0 head c args 0 room (taken s c args).2 := by
  simp only [takes, Bool.and_eq_true, beq_iff_eq] at h
  exact ⟨h.1.1, _, frameLearned_of h.1.2, Prod.ext h.2 rfl⟩

/-- The hypotheses of every statement about an executed command are met by the state after reset. -/
theorem test_command_taken :
    CommandTaken s0 0 head .status [] 0 1 (taken s0 .status []).2 := commandTaken_of (by decide +kernel)

theorem test_command_taken_into_a_free_place :
    s0.canReceive 0 = true ∧ s0.letsThrough 0 head.source = true ∧ s0.admitsCommand 0 head = true ∧
      (s0.queue 0).length < 16 ∧ s0.freeList = 0 :: 1 :: (List.finRange 48).drop 2 := by decide +kernel

/-- Whether a command that state `s` takes, its room in buffer 1, executes with a result and an effect. -/
def executesAt (s : State) (i : Instr) (c : CommandCode) (args : List Byte) (r : CommandResult) (e : State → State) :
    Bool :=
  let u := (taken s c args).2
  takes s c args 1 && (u.executeCommand 1 args c).1 == r && same (u.executeCommand 1 args c).2 (e u) &&
    answers (exec i s) ((e u).commandDone 0 head c s.params.ownAddress 0 1 r).settle

/-- The same of the state after reset. -/
def executes (i : Instr) (c : CommandCode) (args : List Byte) (r : CommandResult) (e : State → State) : Bool :=
  executesAt s0 i c args r e

/-- A command whose room displaces the last entry of a full queue executes. -/
theorem test_command_displaces :
    let s := fullQueue .c0 false
    (s.queue 0).length = 16 ∧
      executesAt s (.timeRead 0 head) .timeRead [] ⟨.done, 0, [0, 1, 1, 0, 0, 0, 6, 0]⟩ id = true ∧
      ((taken s .timeRead []).2.queue 0).length = 16 ∧ (taken s .timeRead []).2.portCounter 0 .queueFull = 1 := by
  decide +kernel

/-- A management row goes to the own address that a full restart fallen due leaves, and is executed after it. -/
theorem test_management_row_after_a_due_restart :
    let s : State := { s0 with restart := some ⟨.full, 7, true⟩, params := { s0.params with ownAddress := 9 } }
    s.restartFirst.params.ownAddress = 224 ∧
      carriedCommand (.status 0 head) = some (0, head, .status, []) ∧
      answersWith (exec (.status 0 head) s.restartFirst) (fun t => answers (exec (.status 0 head) s) t) = true ∧
      answersWith (exec (.status 0 head) s) (fun t => t.counter .mgmtExecuted == 1 && t.resetCause == .full) = true := by
  decide +kernel

theorem test_status :
    executes (.status 0 head) .status [] ⟨.done, 0, [0, 4, 46, 0, 0, 1, 1, 1, 1, 0, 0, 0, 0, 0x40, 224]⟩ id = true := by
  decide +kernel

theorem test_time_read :
    executes (.timeRead 0 head) .timeRead [] ⟨.done, 0, [0, 1, 1, 0, 0, 0, 6, 0]⟩ id = true := by decide +kernel

theorem test_get_param :
    (paramOf 0x1A = none ∧ paramOf 0x13 = some (.ofCoupler .ageLimit) ∧ paramOf 0x02 = some (.ofPort .baud)) ∧
      executes (.getParam 0 head 0x1A 0) .getParam [0x1A, 0] (refusedResult .badIndex) id = true ∧
      executes (.getParam 0 head 0x13 9) .getParam [0x13, 9] ⟨.done, 0, [0, 0, 0, 30]⟩ id = true ∧
      executes (.getParam 0 head 0x02 4) .getParam [0x02, 4] (refusedResult .badIndex) id = true ∧
      executes (.getParam 0 head 0x02 3) .getParam [0x02, 3] ⟨.done, 0, [0, 0, 0x4B, 0]⟩ id = true := by decide +kernel

theorem test_read_entries :
    executes (.readEntriesStation 0 head 239 9) .readEntries [1, 239, 9] ⟨.done, 1, [239, 0, 255, 255, 3]⟩ id = true ∧
      executes (.readEntriesStation 0 head 0 1) .readEntries [1, 0, 1] (refusedResult .badIndex) id = true ∧
      executes (.readEntriesGroup 0 head 15 2) .readEntries [2, 15, 2] ⟨.done, 1, [15, 15]⟩ id = true ∧
      executes (.readEntriesWindow 0 head 23 1) .readEntries [3, 23, 1] ⟨.done, 1, [23, 0, 0, 0, 0, 0, 0, 0, 4]⟩ id =
        true := by decide +kernel

theorem test_read_more_entries :
    executes (.readEntriesManager 0 head 3 1) .readEntries [4, 3, 1] ⟨.done, 1, [3, 0, 0, 255]⟩ id = true ∧
      executes (.readEntriesTransaction 0 head 31 1) .readEntries [5, 31, 1]
        ⟨.done, 1, 31 :: 0 :: List.replicate 13 255⟩ id = true ∧
      executes (.readEntriesPort 0 head 0 1) .readEntries [6, 0, 1] ⟨.done, 1, [0, 1, 0, 1, 46]⟩ id = true := by
  decide +kernel

theorem test_transaction_records :
    let c : TxCore := ⟨⟨1, 2, 7, .management⟩, 3, some 2, 4⟩
    (withTx (.opened c 2 none)).record .transaction 0 = [0, 1, 1, 1, 3, 2, 2, 7, 2, 255, 255, 255, 4, 255, 255] ∧
      (withTx (.opened c 2 (some ⟨5000, 1⟩))).record .transaction 0 =
        [0, 1, 1, 1, 3, 2, 2, 7, 2, 0x13, 0x88, 1, 4, 255, 255] ∧
      (withTx (.lapsed c 8 1000)).record .transaction 0 = [0, 2, 1, 1, 3, 2, 2, 7, 0, 255, 255, 255, 4, 0x03, 0xE8] := by
  decide +kernel

theorem test_station_and_manager_records :
    (s0.setStation 9 ⟨.learned 2 254, 1⟩).record .station 9 = [9, 1, 2, 254, 1] ∧
      (s0.setStation 9 ⟨.pinned 0, 0⟩).record .station 9 = [9, 2, 0, 255, 0] ∧
      (s0.setStation 9 ⟨.barred, 3⟩).record .station 9 = [9, 3, 255, 255, 3] ∧
      (s0.setSlot 1 (some ⟨7, none⟩)).record .manager 1 = [1, 7, 0, 255] ∧
      (s0.setSlot 1 (some ⟨7, some ⟨255, [1]⟩⟩)).record .manager 1 = [1, 7, 1, 255] := by decide +kernel

theorem test_read_counters :
    executes (.readCounters 0 head 6) .readCounters [6, 0] (refusedResult .badIndex) id = true ∧
      answersWith (exec (.readCounters 0 head 0) s0)
        (fun t => ((t.chars 1).drop 5).take 8 == [6, 5, 0, 0, 0, 0, 0, 1] && t.portCounter 0 .framesIn == 1) = true ∧
      answersWith (exec (.readCountersClear 0 head 0) s0)
        (fun t => ((t.chars 1).drop 5).take 8 == [6, 5, 0, 0, 0, 0, 0, 1] && t.portCounter 0 .framesIn == 0) = true := by
  decide +kernel

theorem test_clear_coupler_counters :
    let s := (s0.count .noRoute).count .lateReplies
    s.admitsCommand 0 head = true ∧
      answersWith (exec (.readCountersClear 0 head 4) s)
        (fun t => t.counter .noRoute == 0 && t.counter .lateReplies == 1 && t.counter .mgmtExecuted == 1) = true ∧
      answersWith (exec (.readCountersClear 0 head 5) s)
        (fun t => t.counter .noRoute == 1 && t.counter .lateReplies == 0 && t.counter .mgmtExecuted == 1) = true := by
  decide +kernel

theorem test_station_write :
    executes (.writeEntryStation 0 head 240 2 1 3) .writeEntry [1, 240, 2, 1, 3] (refusedResult .badIndex) id = true ∧
      executes (.writeEntryStation 0 head 9 2 4 3) .writeEntry [1, 9, 2, 4, 3] (refusedResult .badValue) id = true ∧
      executes (.writeEntryStation 0 head 9 2 3 1) .writeEntry [1, 9, 2, 3, 1] doneResult
        (fun u => u.setStation 9 ⟨.pinned 3, 1⟩) = true ∧
      executes (.writeEntryStation 0 head 9 3 9 3) .writeEntry [1, 9, 3, 9, 3] doneResult
        (fun u => u.setStation 9 ⟨.barred, 3⟩) = true ∧
      executes (.writeEntryStation 0 head 9 0 9 0) .writeEntry [1, 9, 0, 9, 0] doneResult
        (fun u => u.setStation 9 ⟨.unknown, 0⟩) = true := by decide +kernel

theorem test_group_write :
    executes (.writeEntryGroup 0 head 16 1) .writeEntry [2, 16, 1] (refusedResult .badIndex) id = true ∧
      executes (.writeEntryGroup 0 head 15 16) .writeEntry [2, 15, 16] (refusedResult .badValue) id = true ∧
      executes (.writeEntryGroup 0 head 15 9) .writeEntry [2, 15, 9] doneResult
        (fun u => { u with groups := u.groups.set 15 9 }) = true := by decide +kernel

theorem test_manager_write :
    executes (.writeEntryManager 0 head 4 1) .writeEntry [4, 4, 1] (refusedResult .badIndex) id = true ∧
      executes (.writeEntryManager 0 head 0 240) .writeEntry [4, 0, 240] (refusedResult .badValue) id = true ∧
      executes (.writeEntryManager 0 head 0 7) .writeEntry [4, 0, 7] doneResult (fun u => u.setSlot 0 (some ⟨7, none⟩)) =
        true := by decide +kernel

theorem test_manager_write_held_elsewhere :
    let s := s0.setSlot 2 (some ⟨1, none⟩)
    s.admitsCommand 0 head = true ∧
      answersWith (exec (.writeEntryManager 0 head 0 1) s)
        (fun t => takes s .writeEntry [4, 0, 1] 1 && (t.managers.get 0).isNone && t.managers.get 2 == some ⟨1, some ⟨5, [3, 5, 5, 0]⟩⟩) = true := by
  decide +kernel

def window : WindowRecord := ⟨1, 127, 0x22, 0x00, 0x06, 0x00, 1, 4⟩

theorem test_window_write :
    executes (.writeEntryWindow 0 head 24 window) .writeEntry ([3, 24] ++ windowArgs window) (refusedResult .badIndex) id =
        true ∧
      executes (.writeEntryWindow 0 head 0 { window with startHour := 0x24 }) .writeEntry
        ([3, 0] ++ windowArgs { window with startHour := 0x24 }) (refusedResult .badValue) id = true ∧
      executes (.writeEntryWindow 0 head 0 window) .writeEntry ([3, 0] ++ windowArgs window) doneResult
        (fun u => { u with windows := u.windows.set 0 ⟨true, 127, ⟨22, 0⟩, ⟨6, 0⟩, 1, .quiet⟩ }) = true ∧
      (bcd 22 = 0x22 ∧ (4 : Byte).toNat = Disposition.quiet.code) := by decide +kernel

theorem test_port_parameters :
    executes (.setParam 0 head 0x03 4 5) .setParam [3, 4, 0, 0, 0, 5] (refusedResult .badIndex) id = true ∧
      executes (.setParam 0 head 0x03 0 16) .setParam [3, 0, 0, 0, 0, 16] (refusedResult .badValue) id = true ∧
      executes (.setParam 0 head 0x03 0 4) .setParam [3, 0, 0, 0, 0, 4] doneResult id = true ∧
      executes (.setParam 0 head 0x03 0 15) .setParam [3, 0, 0, 0, 0, 15] doneResult
        (fun u => u.updPort 0 fun w => { w with params := { w.params with quiet := 15 } }) = true := by decide +kernel

theorem test_port_rows :
    executes (.setParamBaud 0 head 1 9600) .setParam [2, 1, 0, 0, 0x25, 0x80] doneResult
        (fun u => u.updPort 1 fun w => { w with params := { w.params with baud := .b9600 } }) = true ∧
      executes (.setParamPortEnable 0 head 1 0) .setParam [1, 1, 0, 0, 0, 0] doneResult
        (fun u => u.updPort 1 fun w => { w with params := { w.params with enable := false }, state := .disabled }) = true ∧
      executes (.setParamJabberLimit 0 head 1 10) .setParam [6, 1, 0, 0, 0, 10] doneResult
        (fun u => u.updPort 1 fun w => { w with params := { w.params with jabberLimit := 10 } }) = true := by decide +kernel

/-- A limit below the busy span contains the port; PORT_ENABLE on resumes a disabled one, off disables any. -/
theorem test_port_parameter_effects :
    let long := s0.updPort 1 fun u => { u with busySpan := 40 }
    let off := s0.updPort 1 fun u => { u with state := .disabled, params := { u.params with enable := false } }
    (long.port 1).state.monitored = true ∧ ((long.applyPortParam 1 30 .jabberLimit).port 1).state = .contained 2000 ∧
      ((off.applyPortParam 1 1 .enable).port 1).state = .listen ∧
      ((s0.applyPortParam 1 0 .enable).port 1).state = .disabled ∧
      (s0.applyPortParam 1 0 .enable).pendingAlerts = s0.pendingAlerts := by decide +kernel

theorem test_disabling_empties_the_queue :
    let s := sendingAt entry0 3
    s.queuesSound = true ∧ (s.port 0).state ≠ .disabled ∧ ((s.applyPortParam 0 0 .enable).port 0).params.enable = false ∧
      (s.applyPortParam 0 0 .enable).queue 0 = [] ∧ (s.applyPortParam 0 0 .enable).portCounter 0 .unreachable = 1 := by
  decide +kernel

theorem test_baud_busy :
    let s := s0.updPort 1 fun u => { u with state := .backoff 6 }
    s.admitsCommand 0 head = true ∧
      executesAt s (.setParamBaud 0 head 1 9600) .setParam [2, 1, 0, 0, 0x25, 0x80] (refusedResult .busy) id = true := by
  decide +kernel

/-- Malformed payloads: no table of that code, no argument, a first argument out of range, one missing. -/
theorem test_malformed_payloads :
    let answers (c : CommandCode) (args : List Byte) (code : ResultCode) : Bool :=
      (s0.executeCommand 1 args c).1 == refusedResult code && same (s0.executeCommand 1 args c).2 s0
    (answers .readEntries [] .badValue && answers .readEntries [7, 0, 1] .badTable && answers .readEntries [2] .badValue &&
      answers .readEntries [2, 16] .badIndex && answers .readEntries [2, 15] .badValue) = true ∧
    (answers .writeEntry [] .badValue && answers .writeEntry [0] .badTable && answers .writeEntry [5, 0] .badTable &&
      answers .writeEntry [1] .badValue && answers .writeEntry [1, 240] .badIndex && answers .writeEntry [1, 9, 0, 0] .badValue) =
        true ∧
    (answers .getParam [] .badValue && answers .getParam [0x1A] .badIndex && answers .getParam [0x10] .badValue) = true ∧
    (answers .setParam [] .badValue && answers .setParam [0x0A] .badIndex && answers .setParam [3] .badValue &&
      answers .setParam [3, 4] .badIndex && answers .setParam [3, 3, 0, 0, 0] .badValue &&
      answers .setParam [0x10, 9, 0, 0, 0] .badValue) = true ∧
    (answers .readCounters [] .badValue && answers .readCounters [6] .badIndex && answers .readCounters [5] .badValue &&
      answers .readCounters [6, 2] .badIndex && answers .readCounters [5, 2, 0] .badValue) = true ∧
    (answers .timeSet [0, 1, 1, 0, 0] .badValue && answers .clearAlert [] .badValue && answers .restart [] .badValue &&
      answers .restart [0] .badValue && answers .restart [3, 1] .badValue) = true := by decide +kernel

theorem test_coupler_parameters :
    executes (.setParam 0 head 0x1A 0 0) .setParam [0x1A, 0, 0, 0, 0, 0] (refusedResult .badIndex) id = true ∧
      executes (.setParam 0 head 0x14 0 13) .setParam [0x14, 0, 0, 0, 0, 13] (refusedResult .badValue) id = true ∧
      executes (.setParamOwnAddress 0 head 9 7) .setParam [0x10, 9, 0, 0, 0, 7] doneResult
        (fun u => { u with params := { u.params with ownAddress := 7 } }) = true ∧
      executes (.setParamAgeLimit 0 head 0 1) .setParam [0x13, 0, 0, 0, 0, 1] doneResult
        (fun u => { u with params := { u.params with ageLimit := 1 } }) = true := by decide +kernel

theorem test_alert_parameters :
    executes (.setParamAlertMode 0 head 0 0) .setParam [0x17, 0, 0, 0, 0, 0] doneResult
        (fun u => { u with params := { u.params with alertMode := .pulse } }) = true ∧
      executes (.setParamAlertMask 0 head 0 127) .setParam [0x18, 0, 0, 0, 0, 127] doneResult
        (fun u => { u with params := { u.params with alertMask := 127 } }) = true ∧
      executes (.setParamAlertMask 0 head 0 128) .setParam [0x18, 0, 0, 0, 0, 128] (refusedResult .badValue) id = true := by
  decide +kernel

theorem test_time_set :
    executes (.timeSet 0 head ⟨0x23, 0x02, 0x29, 0, 0, 0⟩) .timeSet [0x23, 0x02, 0x29, 0, 0, 0] (refusedResult .badValue)
        id = true ∧
      (⟨2024, 2, 29, 23, 59, 58⟩ : DateTime).record = ⟨0x24, 0x02, 0x29, 0x23, 0x59, 0x58⟩ ∧
      executes (.timeSet 0 head ⟨0x24, 0x02, 0x29, 0x23, 0x59, 0x58⟩) .timeSet [0x24, 0x02, 0x29, 0x23, 0x59, 0x58]
        doneResult (fun u => { u with staged := some ⟨2024, 2, 29, 23, 59, 58⟩ }) = true := by decide +kernel

/-- No real date and time of the calendar's range is written 29 February 2023. -/
theorem test_time_set_refused_record (d : DateTime) (h : d.real = true) :
    (⟨0x23, 0x02, 0x29, 0, 0, 0⟩ : TimeRecord) ≠ d.record := by
  intro e
  obtain ⟨y, mo, da, ho, mi, se⟩ := d
  simp only [DateTime.record, DateTime.real, TimeRecord.mk.injEq, Bool.and_eq_true, decide_eq_true_eq] at e h
  have hy : y = 2023 := by
    have : ∀ n, n < 100 → (0x23 : Byte) = bcd n → n = 23 := by decide
    have := this (y - 2000) (by omega) e.1
    omega
  have hm : mo = 2 := by
    have : ∀ n, n < 13 → (0x02 : Byte) = bcd n → n = 2 := by decide
    exact this mo (by omega) e.2.1
  have hd : da = 29 := by
    have : ∀ n, n < 32 → (0x29 : Byte) = bcd n → n = 29 := by decide
    refine this da ?_ e.2.2.1
    subst hy hm
    have : monthLength 2023 2 = 28 := by decide
    omega
  subst hy hm hd
  have : monthLength 2023 2 = 28 := by decide
  omega

theorem test_time_round :
    executes (.timeRound 0 head) .timeRound [] doneResult id = true ∧
      executes (.timeRun 0 head) .timeRun [] doneResult id = true ∧
      executes (.timeHold 0 head) .timeHold [] doneResult
        (fun u => { u with calendar := { u.calendar with hold := true } }) = true := by decide +kernel

/-- The phase set to 0 begins a crystal period: the next second tick is one whole second away (R141, R143, R144). -/
theorem test_phase_zero_begins_a_crystal_period :
    let s : State := { s0 with crystalCount := 899, calendar := { s0.calendar with phase := 32767 } }
    let whole (t : State) : Bool := t.calendar.phase == 0 && t.crystalCount == 0
    answersWith (exec (.timeRun 0 head) s) whole = true ∧ answersWith (exec (.timeRound 0 head) s) whole = true ∧
      answersWith (exec .secondTick s) whole = true ∧ answersWith (exec (.coldStart s.straps) s) whole = true ∧
      answersWith (exec (.pinReset s.straps) s) (fun t => t.calendar.phase == 32767 && t.crystalCount == 899) = true := by
  decide +kernel

theorem test_time_round_up_and_busy :
    answersWith (exec (.timeRound 0 head) (atTime ⟨2000, 1, 1, 0, 0, 30⟩))
        (fun t => t.calendar.now == ⟨2000, 1, 1, 0, 1, 0⟩) = true ∧
      answersWith (exec (.timeRound 0 head) { s0 with staged := some calendarEnd })
        (fun t => t.staged == some calendarEnd) = true ∧
      answersWith (exec (.timeHold 0 head) { s0 with staged := some calendarEnd })
        (fun t => t.calendar == ⟨calendarEnd, 0, true, true⟩) = true := by decide +kernel

theorem test_clear_alert_and_flush :
    executes (.clearAlert 0 head 128) .clearAlert [128] (refusedResult .badValue) id = true ∧
      executes (.clearAlert 0 head 127) .clearAlert [127] doneResult (fun u => { u with pendingAlerts := 0 }) = true ∧
      executes (.flushLearned 0 head) .flushLearned [] doneResult (fun u => u.setStation 1 ⟨.unknown, 3⟩) = true := by
  decide +kernel

theorem test_restart_pending :
    executes (.restartWarm 0 head) .restart [1] doneResult (fun u => { u with restart := some ⟨.warm, 1, false⟩ }) = true ∧
      executes (.restartFull 0 head) .restart [2] doneResult (fun u => { u with restart := some ⟨.full, 1, false⟩ }) = true := by
  decide +kernel

def statusView : FrameView := ⟨224, 1, .manage, 3, 9, [1, 5]⟩

theorem test_commands_turned_away :
    let closed := s0.updPort 0 fun u => { u with params := { u.params with mgmtAccept := false } }
    let managed := s0.setSlot 0 (some ⟨9, none⟩)
    let dry : State := { s0 with freeList := [] }
    let cached := s0.setSlot 0 (some ⟨1, some ⟨5, [1, 5, 0, 0, 77]⟩⟩)
    let busy : State := { s0 with restart := some ⟨.warm, 40, false⟩ }
    let sent (s : State) (payload : List Byte) : Bool :=
      s.chars 0 == generatedChars 1 224 9 .result payload && (s.queue 0).length == 1
    same (closed.manage 0 statusView) (closed.count .mgmtRefused) = true ∧
      (managed.denies 1 = true ∧ sent (managed.manage 0 statusView) [1, 5, 1, 0] = true) ∧
      same (dry.manage 0 statusView) (dry.count .mgmtNoRoom) = true ∧
      (busy.takes 0 .express .generated = true ∧ sent (busy.manage 0 statusView) [1, 5, 6, 0] = true) ∧
      (commandOf 0x0F = none ∧ sent (s0.manage 0 { statusView with payload := [0x0F, 5] }) [0x0F, 5, 2, 0] = true) ∧
      (cached.cachedFor 1 5 = some [1, 5, 0, 0, 77] ∧ sent (cached.manage 0 statusView) [1, 5, 0, 0, 77] = true) := by
  decide +kernel

/-- A raw MANAGE frame with a surplus argument from a listed manager is executed, and its result stored in that slot. -/
theorem test_raw_command_executed :
    let s := s0.setSlot 2 (some ⟨1, some ⟨4, []⟩⟩)
    let t := s.manage 0 { statusView with payload := [14, 5, 9, 1], cls := 0 }
    (s.denies 1 = false ∧ s.denies 2 = true ∧ s.cachedFor 1 5 = none ∧ s.cachedFor 1 4 = some []) ∧
      t.chars 0 = generatedChars 1 224 9 .result [14, 5, 5, 0] ∧ t.managers.get 2 = some ⟨1, some ⟨5, [14, 5, 5, 0]⟩⟩ ∧
      t.counter .mgmtExecuted = 1 ∧ commandOf 14 = some .restart ∧ same (s.storeResult 2 5 []) s = true := by
  decide +kernel

/-- A result is written to its room while its entry stands in the queue, and not after the queue was purged. -/
theorem test_room_purged :
    let s := queued { entry0 with origin := .generated } .listen (.idle 0)
    same (s.fillRoom 0 0 [7]) (s.setChars 0 [7]) = true ∧ same (s0.fillRoom 0 0 [7]) s0 = true := by decide +kernel

/-- With its arrival queue full of EXPRESS entries a command finds no room; with a class entry last it displaces it. -/
theorem test_command_room_at_a_full_queue :
    same ((fullQueue .express false).manage 0 statusView)
        (((fullQueue .express false).countPort 0 .queueFull).count .mgmtNoRoom) = true ∧
      ((fullQueue .c0 false).manage 0 statusView).counter .mgmtExecuted = 1 ∧
      (((fullQueue .c0 false).manage 0 statusView).queue 0).length = 16 := by decide +kernel

/-- An alert notice that its queue refuses is lost. -/
theorem test_alert_notice_refused :
    let told : State := { s0 with params := { s0.params with alertRecipient := 5 } }
    let s := (told.setStation 5 ⟨.pinned 2, 3⟩).updPort 2 fun u => { u with state := .disabled }
    let t : State := { s with pendingAlerts := 0b1000001 }
    same (s.raise .containment) ((t.countPort 2 .unreachable).count .noticesLost) = true := by decide +kernel

/-! ### Resets and supplies -/

theorem test_cold_start : answers (exec (.coldStart ⟨0, true, true⟩) s0) s0 = true := by decide +kernel

theorem test_sampled_resets :
    let straps : Straps := ⟨5, false, false⟩
    (s0.backupLost = false ∧ s0.backupSupply = true ∧ s0.powered = true ∧ s0.quiescent = true) ∧
      answers (exec (.powerStart straps) s0) (s0.afterReset .power straps) = true ∧
      answers (exec (.pinReset straps) s0) (s0.afterReset .pin straps) = true ∧
      answers (exec (.fullRestart straps) { s0 with restart := some ⟨.full, 3, true⟩ }) (s0.afterReset .full straps) =
        true ∧
      answers (exec (.fullRestart straps) { s0 with restart := some ⟨.full, 3, false⟩ })
        { s0 with restart := some ⟨.full, 3, false⟩ } = true ∧
      answers (exec .warmRestart { s0 with restart := some ⟨.warm, 3, false⟩ })
        { s0 with restart := some ⟨.warm, 3, false⟩ } = true := by
  decide +kernel

/-- The row of one restart kind, with a restart of the other kind due, is that other restart. -/
theorem test_restart_rows_of_the_other_kind :
    let due (k : RestartKind) : State := { s0 with restart := some ⟨k, 3, true⟩ }
    answersWith (exec .warmRestart (due .warm)) (fun t => answers (exec (.fullRestart ⟨5, false, false⟩) (due .warm)) t) =
        true ∧
      answers (exec .warmRestart (due .full)) ((due .full).afterReset .full openStraps) = true := by decide +kernel

theorem test_defaults :
    (defaultPortParams ⟨0, true, false⟩ 0).mgmtAccept = true ∧ (defaultPortParams ⟨0, true, false⟩ 1).mgmtAccept = false ∧
      (defaultCouplerParams ⟨15, false, true⟩).ownAddress = 239 ∧
      (defaultCouplerParams ⟨15, false, true⟩).forwarding = false := by decide

theorem test_power_on_without_the_backup_domain :
    answersWith (exec (.powerStart openStraps) { s0 with backupLost := true }) (fun t => t.resetCause == .cold) = true ∧
      answersWith (exec (.powerStart openStraps) { s0 with backupSupply := false })
        (fun t => t.resetCause == .cold && t.backupSupply) = true := by decide +kernel

theorem test_warm_restart :
    let s := ({ s0 with restart := some ⟨.warm, 3, true⟩ }).setSlot 1 (some ⟨4, some ⟨1, [2]⟩⟩)
    answers (exec .warmRestart s)
      { s0.setSlot 1 (some ⟨4, none⟩) with pendingAlerts := 0, resetCause := .warm } = true := by decide +kernel

theorem test_supplies :
    let running := { s0 with calendar := ⟨⟨2024, 2, 29, 1, 2, 3⟩, 5, true, false⟩ }
    let bare : State := { running with backupSupply := false }
    answers (exec .backupSupplyLoss running) bare = true ∧
      answersWith (exec .mainPowerLoss running)
        (fun t => !t.powered && (t.port 0).state == .disabled && t.calendar == running.calendar && !t.backupLost) = true ∧
      answersWith (exec .mainPowerLoss bare) (fun t => !t.powered && t.calendar == coldCalendar && t.backupLost) = true ∧
      answers (exec .backupSupplyLoss { running with powered := false })
        { s0 with powered := false, backupSupply := false, backupLost := true } = true := by decide +kernel

end Sys2Proof.Tests
end

