-- ==== Sys2Proof/Proofs/Ports.lean ====
section
/-! SUPPORT. Port updates: how they compose and what they commute with, and the test of the start condition (R21) as a
test of one port. -/

namespace Sys2Proof.Machine

/-! ### Port updates compose and commute -/

theorem State.updPort_updPort (s : State) (p : Port) (f g : PortUnit → PortUnit) :
    (s.updPort p f).updPort p g = s.updPort p fun u => g (f u) := by
  unfold State.updPort State.port
  simp only [get_set, if_true, Vector.set_set]

/-- An update of a port depends on the port as it stands alone. -/
theorem State.updPort_congr (s : State) (p : Port) {f g : PortUnit → PortUnit} (h : f (s.port p) = g (s.port p)) :
    s.updPort p f = s.updPort p g := by
  unfold State.updPort
  rw [h]

theorem State.updPort_of_eq (s : State) (p : Port) {f : PortUnit → PortUnit} (h : f (s.port p) = s.port p) :
    s.updPort p f = s := by
  have same : s.ports.set p.val (s.port p) p.isLt = s.ports := Vector.set_getElem_self p.isLt
  unfold State.updPort
  rw [h, same]

theorem State.freeUp_updPort (s : State) (p : Port) (f : PortUnit → PortUnit) (b : BufferIx) :
    (s.updPort p f).freeUp b = (s.freeUp b).updPort p f := rfl

theorem State.setChars_updPort (s : State) (p : Port) (f : PortUnit → PortUnit) (b : BufferIx) (cs : List Byte) :
    (s.updPort p f).setChars b cs = (s.setChars b cs).updPort p f := rfl

@[simp] theorem State.port_freeUp (s : State) (b : BufferIx) (p : Port) : (s.freeUp b).port p = s.port p := rfl

@[simp] theorem State.chars_updPort (s : State) (p : Port) (f : PortUnit → PortUnit) (b : BufferIx) :
    (s.updPort p f).chars b = s.chars b := rfl

@[simp] theorem State.chars_setBuffer (s : State) (b : BufferIx) (v : Buffer) : (s.setBuffer b v).chars b = v.chars := by
  rw [State.chars, State.pool_get_setBuffer, if_pos rfl]

@[simp] theorem State.chars_setChars (s : State) (b : BufferIx) (cs : List Byte) : (s.setChars b cs).chars b = cs :=
  State.chars_setBuffer s b _

theorem State.setBuffer_setBuffer (s : State) (b : BufferIx) (v w : Buffer) :
    (s.setBuffer b v).setBuffer b w = s.setBuffer b w := by
  simp [State.setBuffer, Vector.set_set]

theorem State.setChars_setBuffer (s : State) (b : BufferIx) (v : Buffer) (cs : List Byte) :
    (s.setBuffer b v).setChars b cs = s.setBuffer b ⟨v.condition, cs⟩ := by
  unfold State.setChars
  rw [State.pool_get_setBuffer, if_pos rfl, State.setBuffer_setBuffer]

/-! ### The receiver's updates of its port -/

/-- A per-port counter of a port unit advances (R186). -/
def PortUnit.counted (c : PortCounter) (u : PortUnit) : PortUnit :=
  { u with counters := u.counters.set c.index.val (u.counters.get c.index + 1) c.index.isLt }

theorem State.countPort_eq (s : State) (p : Port) (c : PortCounter) :
    s.countPort p c = s.updPort p (PortUnit.counted c) := rfl

theorem State.setPortState_eq (s : State) (p : Port) (st : PortState) :
    s.setPortState p st = s.updPort p fun u => { u with state := st } := rfl

theorem State.setLine_eq (s : State) (p : Port) (l : LineState) (h : StartHold) :
    s.setLine p l h = s.updPort p fun u => { u with line := l, startHold := h } := rfl

/-! ### The start condition of one port -/

/-- The start condition of a port unit (R21). -/
def PortUnit.canStart (u : PortUnit) : Bool :=
  u.state == .listen && !u.queue.isEmpty && u.line.quietFor (u.params.baud.ct u.params.quiet)

theorem State.canStart_eq (s : State) (p : Port) : s.canStart p = (s.port p).canStart := rfl

theorem PortUnit.canStart_of_state {u : PortUnit} (h : u.state ≠ .listen) : u.canStart = false := by
  simp [PortUnit.canStart, h]

theorem PortUnit.canStart_of_line {u : PortUnit} (h : u.line.idleStretch = none) : u.canStart = false := by
  simp [PortUnit.canStart, LineState.quietFor, h]

theorem Baud.clkPerBit_pos (b : Baud) : 0 < b.clkPerBit := by cases b <;> decide

theorem Baud.ct_eq (b : Baud) (n : Nat) : b.ct n = n * 11 * b.clkPerBit := rfl

/-- No transmission starts on a line whose idle stretch begins now, QUIET being at least 1 (R21, R36). -/
theorem PortUnit.canStart_of_idle_zero {u : PortUnit} (h : u.line = .idle 0) (q : 1 ≤ u.params.quiet) :
    u.canStart = false := by
  have wait : 0 < u.params.baud.ct u.params.quiet :=
    Nat.mul_pos (Nat.mul_pos q (by decide)) (Baud.clkPerBit_pos _)
  have short : ¬ u.params.baud.ct u.params.quiet ≤ 0 := by omega
  simp [PortUnit.canStart, LineState.quietFor, LineState.idleStretch, h, short]

/-- QUIET is at least 2 (R36). -/
theorem State.one_le_quiet {s : State} (h : s.paramsInRange = true) (p : Port) : 1 ≤ (s.port p).params.quiet := by
  have ports : ∀ q ∈ allPorts, (s.port q).params.inRange = true :=
    List.all_eq_true.mp (Bool.and_eq_true _ _ ▸ h).2
  have range := ports p (List.mem_finRange p)
  simp only [PortParams.inRange, PortParam.inRange, Bool.and_eq_true, decide_eq_true_eq] at range
  omega

end Sys2Proof.Machine
end

