-- ==== Sys2Proof/Proofs/Quiescence.lean ====
section
/-! SUPPORT. A quiescent part: an event begins and ends in it without a restart and without a start, so that a row on it
is its own effect and the start condition afterwards. -/

namespace Sys2Proof.Machine

/-! ### What quiescence says and what keeps it -/

theorem State.quiescent_iff (s : State) :
    s.quiescent = true ↔ (s.restart.any fun r => r.due) = false ∧ ∀ p, (s.port p).canStart = false := by
  simp [State.quiescent, allPorts, State.canStart_eq]

/-- Quiescence speaks of the ports and of the pending restart alone. -/
theorem State.quiescent_of_ports {s : State} (t : State) (h : s.quiescent = true) (ports : t.ports = s.ports)
    (restart : t.restart = s.restart) : t.quiescent = true := by
  rw [State.quiescent_iff] at h ⊢
  rw [restart]
  exact ⟨h.1, fun p => by rw [State.port, ports]; exact h.2 p⟩

/-- A port that cannot start afterwards may be changed. -/
theorem State.quiescent_updPort {s : State} (h : s.quiescent = true) {p : Port} {f : PortUnit → PortUnit}
    (stays : (f (s.port p)).canStart = false) : (s.updPort p f).quiescent = true := by
  rw [State.quiescent_iff] at h ⊢
  refine ⟨h.1, fun q => ?_⟩
  rw [State.port_updPort]
  split
  · exact stays
  · exact h.2 q

/-! ### Events on a quiescent part -/

theorem State.restartFirst_of_quiescent {s : State} (h : s.quiescent = true) : s.restartFirst = s := by
  have notDue := ((State.quiescent_iff s).mp h).1
  cases r : s.restart with
  | none => exact restartFirst_of_none s r
  | some r' => exact restartFirst_of_notDue s r' r (by simpa [r] using notDue)

theorem State.settle_of_quiescent {s : State} (h : s.quiescent = true) : s.settle = s := by
  obtain ⟨notDue, cannotStart⟩ := (State.quiescent_iff s).mp h
  have test (p : Port) : s.testStart p = s := by simp [State.testStart, State.canStart_eq, cannotStart p]
  simp [State.settle, notDue, State.testStarts, allPorts, List.finRange_succ, test]

theorem event_of_quiescent {s : State} (w : s.powered = true) (h : s.quiescent = true) (f : State → State) :
    event f s = .next (f s).settle := by
  simp [event, w, State.inEvent, State.restartFirst_of_quiescent h]

/-- An event after which the part is quiescent again is its effect alone. -/
theorem event_of_quiescent_after {s t : State} (w : s.powered = true) (h : s.quiescent = true) {f : State → State}
    (e : f s = t) (after : t.quiescent = true) : event f s = .next t := by
  rw [event_of_quiescent w h, e, State.settle_of_quiescent after]

/-- A row that has no effect on a quiescent part leaves it as it is (log 3). -/
theorem event_unchanged {s : State} {f : State → State} (powered : s.powered = true) (quiescent : s.quiescent = true)
    (e : f s = s) : event f s = .next s := event_of_quiescent_after powered quiescent e quiescent

theorem State.lineEvent_of_quiescent {s : State} (w : s.powered = true) (h : s.quiescent = true) (p : Port)
    (f : State → State) (level : LineState → LineState) : s.lineEvent p f level = (f s).settle := by
  simp [State.lineEvent, w, State.inEvent, State.restartFirst_of_quiescent h]

theorem State.takeCharacter_of_quiescent {s : State} (w : s.powered = true) (h : s.quiescent = true) (p : Port)
    (c : LineCharacter) : s.takeCharacter p c = (s.receiveCharacter p c).settle :=
  State.lineEvent_of_quiescent w h p _ _

end Sys2Proof.Machine
end

