-- ==== Sys2Proof/Proofs/Characters.lean ====
section
/-! SUPPORT. A character on the line of a port: what the receiver does with it by the state of the port, one equation per
case (R1, R3, R8 to R18). -/

namespace Sys2Proof.Machine

theorem State.hears_iff (s : State) (p : Port) :
    s.hears p = true ↔ s.powered = true ∧ s.quiescent = true ∧ (s.port p).line.decodable = true := by
  simp [State.hears, and_assoc]

/-- The port states in which a character may start a frame (R8). -/
theorem PortState.awaitsFrame_cases {st : PortState} (h : st.awaitsFrame = true) :
    st = .listen ∨ (∃ n, st = .guard n) ∨ ∃ n, st = .backoff n := by
  cases st <;> simp_all [PortState.awaitsFrame]

/-- The port states whose receiver ignores the line (R3). -/
theorem PortState.outOfService_cases {st : PortState} (h : st.outOfService = true) :
    st = .disabled ∨ ∃ n, st = .contained n := by
  cases st <;> simp_all [PortState.outOfService]

/-! ### Where a character goes -/

theorem State.state_setLine (s : State) (p : Port) (l : LineState) (h : StartHold) :
    ((s.setLine p l h).port p).state = (s.port p).state := by simp [State.setLine_eq]

theorem State.receiveCharacter_decoded {s : State} {p : Port} (h : (s.port p).line.decodable = true)
    (c : LineCharacter) :
    s.receiveCharacter p c = (s.setLine p (lineAfter c) (holdAfter c)).routeCharacter p c := if_pos h

theorem State.receiveCharacter_undecoded {s : State} {p : Port} (h : (s.port p).line.decodable = false)
    (c : LineCharacter) :
    s.receiveCharacter p c = s.updPort p fun u => { u with line := lineAfter c } := by
  simp only [State.receiveCharacter, h, Bool.false_eq_true, if_false, State.setLine_eq]
  exact s.updPort_congr p rfl

theorem State.routeCharacter_awaiting {s : State} {p : Port} (h : (s.port p).state.awaitsFrame = true)
    (c : LineCharacter) : s.routeCharacter p c = s.offer p c := by
  obtain e | ⟨n, e⟩ | ⟨n, e⟩ := PortState.awaitsFrame_cases h <;> simp [State.routeCharacter, e]

theorem State.routeCharacter_receiving {s : State} {p : Port} {r : Reception} (h : (s.port p).state = .receiving r)
    (c : LineCharacter) : s.routeCharacter p c = s.assemble p r c := by simp [State.routeCharacter, h]

theorem State.routeCharacter_sending {s : State} {p : Port} {pos elapsed : Nat}
    (h : (s.port p).state = .sending pos elapsed) (c : LineCharacter) :
    s.routeCharacter p c = s.echo p pos elapsed c := by simp [State.routeCharacter, h]

theorem State.routeCharacter_outOfService {s : State} {p : Port} (h : (s.port p).state.outOfService = true)
    (c : LineCharacter) : s.routeCharacter p c = s := by
  obtain e | ⟨n, e⟩ := PortState.outOfService_cases h <;> simp [State.routeCharacter, e]

theorem State.offer_address (s : State) (p : Port) (v : Byte) : s.offer p (.good v true) = s.startFrame p v := rfl

theorem State.assemble_address (s : State) (p : Port) (r : Reception) (v : Byte) :
    s.assemble p r (.good v true) = s.resync p r v := rfl

theorem State.assemble_data (s : State) (p : Port) (r : Reception) (v : Byte) :
    s.assemble p r (.good v false) = s.storeCharacter p r v := rfl

theorem State.assemble_framingError (s : State) (p : Port) (r : Reception) :
    s.assemble p r .framingError = s.abandon p r.buffer .formatErrors := rfl

/-! ### Character rows -/

/-- A character that a port hears is routed, and the event ends. -/
theorem characterEvent_of_hears {s : State} {p : Port} (h : s.hears p = true) (c : LineCharacter) :
    characterEvent p c s =
      .next ((s.setLine p (lineAfter c) (holdAfter c)).routeCharacter p c).settle := by
  obtain ⟨powered, quiescent, decodable⟩ := (s.hears_iff p).mp h
  rw [characterEvent, State.takeCharacter_of_quiescent powered quiescent, State.receiveCharacter_decoded decodable]

/-- A character heard inside a frame. -/
theorem characterEvent_receiving {s : State} {p : Port} {r : Reception} (h : s.hears p = true)
    (st : (s.port p).state = .receiving r) (c : LineCharacter) :
    characterEvent p c s = .next ((s.setLine p (lineAfter c) (holdAfter c)).assemble p r c).settle := by
  rw [characterEvent_of_hears h, State.routeCharacter_receiving (by rw [State.state_setLine, st])]

theorem exec_addressCharacter (p : Port) (v : Byte) (s : State) :
    exec (.addressCharacter p v) s = characterEvent p (.good v true) s := rfl

theorem exec_dataCharacter (p : Port) (v : Byte) (s : State) :
    exec (.dataCharacter p v) s = characterEvent p (.good v false) s := rfl

theorem exec_framingErrorCharacter (p : Port) (s : State) :
    exec (.framingErrorCharacter p) s = characterEvent p .framingError s := rfl

theorem exec_echoCharacter (p : Port) (c : LineCharacter) (s : State) :
    exec (.echoCharacter p c) s = characterEvent p c s := rfl

/-! ### The beginning of a frame (R8, R9, R14) -/

theorem State.startFrame_setLine {s : State} {b : BufferIx} {rest : List BufferIx} (free : s.freeList = b :: rest)
    (p : Port) (v : Byte) :
    (s.setLine p (.idle 0) .ready).startFrame p v =
      (({ s with freeList := rest }).setBuffer b ⟨.reception p, [v]⟩).updPort p fun u =>
        u.heard (.receiving (firstCharacter b v)) := by
  have free' : (s.setLine p (.idle 0) .ready).freeList = b :: rest := free
  simp only [State.startFrame, free']
  exact State.updPort_updPort
    (({ s with freeList := rest }).setBuffer b ⟨.reception p, [v]⟩) p
    (fun u => { u with line := .idle 0, startHold := .ready }) fun u =>
      { u with state := .receiving (firstCharacter b v) }

theorem State.startFrame_setLine_noBuffer {s : State} (free : s.freeList = []) (p : Port) (v : Byte) :
    (s.setLine p (.idle 0) .ready).startFrame p v =
      ((s.countPort p .noBuffer).updPort p fun u => u.heard .listen).raise .poolExhausted := by
  have free' : (s.setLine p (.idle 0) .ready).freeList = [] := free
  simp only [State.startFrame, free']
  simp only [State.countPort_eq, State.setPortState_eq, State.setLine_eq, State.updPort_updPort]
  rfl

theorem State.resync_setLine (s : State) (p : Port) (r : Reception) (v : Byte) :
    (s.setLine p (.idle 0) .ready).resync p r v =
      ((s.setChars r.buffer [v]).countPort p .formatErrors).updPort p fun u =>
        u.heard (.receiving (firstCharacter r.buffer v)) := by
  simp only [State.resync, State.countPort_eq, State.setPortState_eq, State.setLine_eq, State.setChars_updPort,
    State.updPort_updPort]
  rfl

/-! ### The end of a frame (R12) -/

/-- A frame abandoned with the line as a character left it: the port listens on that line. -/
theorem State.abandon_setLine (s : State) (p : Port) (l : LineState) (h : StartHold) (b : BufferIx) (c : PortCounter) :
    (s.setLine p l h).abandon p b c =
      ((s.freeUp b).countPort p c).updPort p fun u => { u with state := .listen, line := l, startHold := h } := by
  simp only [State.abandon, State.countPort_eq, State.setPortState_eq, State.setLine_eq, State.freeUp_updPort,
    State.updPort_updPort]
  rfl

/-! ### A character stored (R11, R13) -/

theorem State.storeCharacter_long {s : State} {p : Port} {r : Reception} {v : Byte} (fifth : r.held + 1 = 5)
    (long : 64 < v.toNat) :
    s.storeCharacter p r v =
      (s.setChars r.buffer (s.chars r.buffer ++ [v])).abandon p r.buffer .formatErrors := if_pos ⟨fifth, long⟩

theorem State.storeCharacter_fifth {s : State} {p : Port} {r : Reception} {v : Byte} (fifth : r.held + 1 = 5)
    (fits : v.toNat ≤ 64) :
    s.storeCharacter p r v =
      (s.setChars r.buffer (s.chars r.buffer ++ [v])).setPortState p
        (.receiving ⟨r.buffer, 5, some (7 + v.toNat), checkByte r.check v⟩) := by
  have notLong : ¬ Config.maxPayload < v.toNat := by simp only [Config.maxPayload]; omega
  have notLast : ¬ 7 + v.toNat = 5 := by omega
  simp [State.storeCharacter, expectedAfter, entersCheck, fifth, notLong, notLast]

theorem State.storeCharacter_inside {s : State} {p : Port} {r : Reception} {v : Byte} (notFifth : r.held + 1 ≠ 5)
    (notLast : r.expected ≠ some (r.held + 1)) :
    s.storeCharacter p r v =
      (s.setChars r.buffer (s.chars r.buffer ++ [v])).setPortState p
        (.receiving ⟨r.buffer, r.held + 1, r.expected,
          if entersCheck r.expected (r.held + 1) then checkByte r.check v else r.check⟩) := by
  simp only [State.storeCharacter, expectedAfter, notFifth, notLast, false_and, if_false]

/-- The last character of a frame, the second of its check, does not enter the running check (R11). -/
theorem State.storeCharacter_last {s : State} {p : Port} {r : Reception} {v : Byte} (notFifth : r.held + 1 ≠ 5)
    (last : r.expected = some (r.held + 1)) :
    s.storeCharacter p r v =
      (s.setChars r.buffer (s.chars r.buffer ++ [v])).completeReception p r.buffer (r.held + 1) r.check := by
  have past : ¬ r.held + 1 + 2 ≤ r.held + 1 := by omega
  simp [State.storeCharacter, expectedAfter, entersCheck, notFifth, last, past]

/-- A character stored in the frame in progress of a port that has just heard it. -/
theorem State.receiving_setLine (s : State) (p : Port) (b : BufferIx) (cs : List Byte) (r : Reception) :
    ((s.setLine p (.idle 0) .ready).setChars b cs).setPortState p (.receiving r) =
      (s.setChars b cs).updPort p fun u => u.heard (.receiving r) :=
  State.updPort_updPort (s.setChars b cs) p (fun u => { u with line := .idle 0, startHold := .ready }) fun u =>
    { u with state := .receiving r }

/-! ### The completion checks (R17) -/

theorem State.completeReception_check {s : State} {p : Port} {b : BufferIx} {n : Nat} {check : Check}
    (wrong : check ≠ checkValue ((s.chars b).getD (n - 2) 0) ((s.chars b).getD (n - 1) 0)) :
    s.completeReception p b n check = s.abandon p b .checkErrors := if_neg wrong

theorem State.completeReception_badFrame {s : State} {p : Port} {b : BufferIx} {n : Nat} {check : Check}
    (right : check = checkValue ((s.chars b).getD (n - 2) 0) ((s.chars b).getD (n - 1) 0))
    (bad : isStation ((s.chars b).getD 1 0) = false ∨ kindOf ((s.chars b).getD 2 0) = none) :
    s.completeReception p b n check = s.abandon p b .formatErrors := by
  rw [State.completeReception, if_pos right]
  split
  · rename_i source
    have noKind : kindOf ((s.chars b).getD 2 0) = none := bad.resolve_left (by rw [source]; decide)
    simp only [noKind]
  · rfl

theorem State.completeReception_received {s : State} {p : Port} {b : BufferIx} {n : Nat} {check : Check} {k : Kind}
    (right : check = checkValue ((s.chars b).getD (n - 2) 0) ((s.chars b).getD (n - 1) 0))
    (source : isStation ((s.chars b).getD 1 0) = true) (kind : kindOf ((s.chars b).getD 2 0) = some k) :
    s.completeReception p b n check = s.received p b k := by
  simp only [State.completeReception, if_pos right, if_pos source, kind]

/-- A frame that passed its checks on a port that has just heard its last character is classified with the port in
LISTEN and FRAMES_IN one more (R18, log 7). -/
theorem State.received_setLine (s : State) (p : Port) (b : BufferIx) (k : Kind) :
    (s.setLine p (.idle 0) .ready).received p b k =
      ((s.countPort p .framesIn).updPort p fun u => u.heard .listen).classify p (viewFrame (s.chars b) k) b := by
  simp only [State.received, State.countPort_eq, State.setPortState_eq, State.setLine_eq, State.updPort_updPort,
    State.chars_updPort]
  rfl

/-! ### Alerts that find no buffer -/

/-- With no buffer free a notice is lost, and that is all it leaves (R47, R192). -/
theorem State.sendNotice_of_noBuffer {s : State} (free : s.freeList = []) (p : Port) (cs : List Byte) :
    s.sendNotice p cs = s.count .noticesLost := by
  simp [State.sendNotice, State.generate, State.placeGenerated, free, State.countNotice]

theorem State.alertNotice_of_noBuffer {s : State} (free : s.freeList = []) (c : AlertCause) :
    (s.alertNotice c).ports = s.ports ∧ (s.alertNotice c).restart = s.restart := by
  unfold State.alertNotice
  simp only [State.sendNotice_of_noBuffer free]
  split
  · exact ⟨rfl, rfl⟩
  · split <;> exact ⟨rfl, rfl⟩

/-- With no buffer free an alert leaves the ports and a pending restart as they are. -/
theorem State.raise_of_noBuffer {s : State} (free : s.freeList = []) (c : AlertCause) :
    (s.raise c).ports = s.ports ∧ (s.raise c).restart = s.restart := by
  unfold State.raise
  split
  · exact ⟨rfl, rfl⟩
  · dsimp only
    split
    · exact ⟨rfl, rfl⟩
    · split
      · exact State.alertNotice_of_noBuffer
          (s := { s with pendingAlerts := s.pendingAlerts ||| c.mask, pulse := some 10 }) free c
      · exact State.alertNotice_of_noBuffer (s := { s with pendingAlerts := s.pendingAlerts ||| c.mask }) free c

end Sys2Proof.Machine
end

