-- ==== Sys2Proof/Proofs/Reception.lean ====
section
/-! PROOFS. The obligations about characters on a line: what starts, continues and ends a frame, what starts nothing, and
what the echo check lets go on. -/

namespace Sys2Proof.Machine

/-! ### Quiescence after a character -/

/-- A port that is not in LISTEN after an update does not end the part's quiescence. -/
theorem State.quiescent_updPort_of_state {s : State} (h : s.quiescent = true) {p : Port} {f : PortUnit → PortUnit}
    (st : (f (s.port p)).state ≠ .listen) : (s.updPort p f).quiescent = true :=
  State.quiescent_updPort h (PortUnit.canStart_of_state st)

/-- Nor does a port whose idle stretch begins now, its parameters being in range. -/
theorem State.quiescent_updPort_of_idle_zero {s : State} (h : s.quiescent = true) {p : Port}
    {f : PortUnit → PortUnit} (range : s.paramsInRange = true) (line : (f (s.port p)).line = .idle 0)
    (params : (f (s.port p)).params = (s.port p).params) : (s.updPort p f).quiescent = true :=
  State.quiescent_updPort h (PortUnit.canStart_of_idle_zero line (by rw [params]; exact State.one_le_quiet range p))

/-- A frame abandoned leaves the part quiescent if the port's line, as it then stands, keeps it so. -/
theorem State.settle_abandoned {s : State} (t : State) (h : s.quiescent = true) (ports : t.ports = s.ports)
    (restart : t.restart = s.restart) {p : Port} {c : PortCounter} {f : PortUnit → PortUnit}
    (stays : (f (PortUnit.counted c (s.port p))).canStart = false) :
    ((t.countPort p c).updPort p f).settle = (t.countPort p c).updPort p f := by
  refine State.settle_of_quiescent ?_
  rw [State.countPort_eq, State.updPort_updPort]
  refine State.quiescent_updPort (State.quiescent_of_ports t h ports restart) ?_
  rw [State.port, ports]
  exact stays

/-- A framing error inside a frame abandons it with the line at the start level (R12, R15). -/
theorem exec_framingErrorCharacter_receiving {s : State} {p : Port} {r : Reception} (hears : s.hears p = true)
    (st : (s.port p).state = .receiving r) :
    exec (.framingErrorCharacter p) s =
      .next (((s.freeUp r.buffer).countPort p .formatErrors).updPort p fun u =>
        { u with state := .listen, line := .startLevel, startHold := .oneBit }) := by
  obtain ⟨-, quiescent, -⟩ := (s.hears_iff p).mp hears
  rw [exec_framingErrorCharacter, characterEvent_receiving hears st, lineAfter, holdAfter,
    State.assemble_framingError, State.abandon_setLine,
    State.settle_abandoned (s.freeUp r.buffer) quiescent rfl rfl (PortUnit.canStart_of_line rfl)]

/-! ### O14 -/

/-- Settles O14: the head of the free list decides between the start of a frame and NO_BUFFER. -/
theorem addressCharacterStartsAFrame : Obligations.AddressCharacterStartsAFrame := by
  intro s p v hears awaits
  obtain ⟨-, quiescent, -⟩ := (s.hears_iff p).mp hears
  have row : exec (.addressCharacter p v) s = .next ((s.setLine p (.idle 0) .ready).startFrame p v).settle := by
    rw [exec_addressCharacter, characterEvent_of_hears hears,
      State.routeCharacter_awaiting (by rw [State.state_setLine, awaits]), State.offer_address, lineAfter, holdAfter]
  refine ⟨fun b rest free => ?_, fun range free => ?_⟩
  · rw [row, State.startFrame_setLine free, State.settle_of_quiescent]
    · rfl
    · have kept := State.quiescent_of_ports (({ s with freeList := rest }).setBuffer b ⟨.reception p, [v]⟩)
        quiescent rfl rfl
      exact State.quiescent_updPort_of_state kept fun e => PortState.noConfusion e
  · rw [row, State.startFrame_setLine_noBuffer free, State.settle_of_quiescent]
    obtain ⟨ports, restart⟩ := State.raise_of_noBuffer
      (s := (s.countPort p .noBuffer).updPort p fun u => u.heard .listen) free .poolExhausted
    refine State.quiescent_of_ports _ ?_ ports restart
    rw [State.countPort_eq, State.updPort_updPort]
    exact State.quiescent_updPort_of_idle_zero quiescent range rfl rfl

/-! ### O15 -/

/-- Settles O15: a resync rewrites the buffer and the context and touches no other buffer, list or counter. -/
theorem addressCharacterResyncs : Obligations.AddressCharacterResyncs := by
  intro s p v r hears st
  obtain ⟨-, quiescent, -⟩ := (s.hears_iff p).mp hears
  have row : exec (.addressCharacter p v) s =
      .next (((s.setChars r.buffer [v]).countPort p .formatErrors).updPort p fun u =>
        u.heard (.receiving (firstCharacter r.buffer v))) := by
    rw [exec_addressCharacter, characterEvent_receiving hears st, lineAfter, holdAfter, State.assemble_address,
      State.resync_setLine,
      State.settle_abandoned (s.setChars r.buffer [v]) quiescent rfl rfl
        (PortUnit.canStart_of_state fun e => PortState.noConfusion e)]
  refine ⟨row, fun t next => ?_, exec_framingErrorCharacter_receiving hears st⟩
  rw [row] at next
  injection next with next
  subst next
  refine ⟨rfl, ?_, ?_⟩
  · change ((s.setChars r.buffer [v]).pool.get r.buffer).condition = _
    rw [State.setChars, State.pool_get_setBuffer, if_pos rfl]
  · have other := State.portCounter_countPort (s.setChars r.buffer [v]) p p .formatErrors .noBuffer
    rw [if_neg fun same => absurd same.2 (by decide)] at other
    rw [← show (s.setChars r.buffer [v]).portCounter p .noBuffer = s.portCounter p .noBuffer from rfl, ← other]
    simp only [State.portCounter, State.port_updPort_self, PortUnit.heard]

/-! ### O16 -/

/-- A data character heard inside a frame is stored. -/
theorem exec_dataCharacter_receiving {s : State} {p : Port} {r : Reception} (hears : s.hears p = true)
    (st : (s.port p).state = .receiving r) (v : Byte) :
    exec (.dataCharacter p v) s = .next ((s.setLine p (.idle 0) .ready).storeCharacter p r v).settle := by
  rw [exec_dataCharacter, characterEvent_receiving hears st, State.assemble_data, lineAfter, holdAfter]

/-- A data character that leaves the port in RECEIVING ends its event there. -/
theorem exec_dataCharacter_goesOn {s : State} {p : Port} {r r' : Reception} {v : Byte} {cs : List Byte}
    (hears : s.hears p = true) (st : (s.port p).state = .receiving r)
    (stored : (s.setLine p (.idle 0) .ready).storeCharacter p r v =
      ((s.setLine p (.idle 0) .ready).setChars r.buffer cs).setPortState p (.receiving r')) :
    exec (.dataCharacter p v) s =
      .next ((s.setChars r.buffer cs).updPort p fun u => u.heard (.receiving r')) := by
  obtain ⟨-, quiescent, -⟩ := (s.hears_iff p).mp hears
  rw [exec_dataCharacter_receiving hears st, stored, State.receiving_setLine, State.settle_of_quiescent]
  exact State.quiescent_updPort_of_state (State.quiescent_of_ports (s.setChars r.buffer cs) quiescent rfl rfl)
    fun e => PortState.noConfusion e

/-- Settles O16: the fifth character names the length; any other one that is not the last only adds to the context. -/
theorem dataCharacterIsStored : Obligations.DataCharacterIsStored := by
  intro s p v r hears st
  refine ⟨fun fifth fits => ?_, fun notFifth notLast => ?_⟩
  · exact exec_dataCharacter_goesOn hears st (State.storeCharacter_fifth fifth fits)
  · rw [exec_dataCharacter_goesOn hears st (State.storeCharacter_inside notFifth notLast)]
    cases expected : r.expected <;> simp [entersCheck] <;> rfl

/-! ### O17 -/

/-- A data character that abandons the frame it is stored in (R12). -/
theorem exec_dataCharacter_abandons {s : State} {p : Port} {r : Reception} {v : Byte} {c : PortCounter}
    {cs : List Byte} (hears : s.hears p = true) (range : s.paramsInRange = true)
    (st : (s.port p).state = .receiving r)
    (ends : (s.setLine p (.idle 0) .ready).storeCharacter p r v =
      ((s.setChars r.buffer cs).setLine p (.idle 0) .ready).abandon p r.buffer c) :
    exec (.dataCharacter p v) s =
      .next ((((s.setChars r.buffer cs).freeUp r.buffer).countPort p c).updPort p fun u => u.heard .listen) := by
  obtain ⟨-, quiescent, -⟩ := (s.hears_iff p).mp hears
  rw [exec_dataCharacter_receiving hears st, ends, State.abandon_setLine,
    State.settle_abandoned ((s.setChars r.buffer cs).freeUp r.buffer) quiescent rfl rfl
      (PortUnit.canStart_of_idle_zero rfl (State.one_le_quiet range p))]
  rfl

/-- The last character of a frame that passes its checks completes it: the frame is classified in the same event, with
the port in LISTEN and FRAMES_IN one more (R18, log 7). -/
theorem exec_dataCharacter_completes {s : State} {p : Port} {r : Reception} {v : Byte} {k : Kind} {cs : List Byte}
    (hears : s.hears p = true) (st : (s.port p).state = .receiving r) (notFifth : r.held + 1 ≠ 5)
    (last : r.expected = some (r.held + 1)) (all : cs = s.chars r.buffer ++ [v])
    (right : r.check = checkValue (cs.getD (r.held + 1 - 2) 0) (cs.getD (r.held + 1 - 1) 0))
    (source : isStation (cs.getD 1 0) = true) (kind : kindOf (cs.getD 2 0) = some k) :
    exec (.dataCharacter p v) s =
      .next ((((s.setChars r.buffer cs).countPort p .framesIn).updPort p fun u => u.heard .listen).classify p
        (viewFrame cs k) r.buffer).settle := by
  subst all
  have completes : (s.setLine p (.idle 0) .ready).storeCharacter p r v =
      ((s.setLine p (.idle 0) .ready).setChars r.buffer (s.chars r.buffer ++ [v])).completeReception p r.buffer
        (r.held + 1) r.check := State.storeCharacter_last notFifth last
  have chars : ((s.setLine p (.idle 0) .ready).setChars r.buffer (s.chars r.buffer ++ [v])).chars r.buffer =
      s.chars r.buffer ++ [v] := State.chars_setChars _ _ _
  have received : ((s.setLine p (.idle 0) .ready).setChars r.buffer (s.chars r.buffer ++ [v])).completeReception p
      r.buffer (r.held + 1) r.check =
        ((s.setLine p (.idle 0) .ready).setChars r.buffer (s.chars r.buffer ++ [v])).received p r.buffer k :=
    State.completeReception_received (by rw [chars]; exact right) (by rw [chars]; exact source)
      (by rw [chars]; exact kind)
  have classified : ((s.setLine p (.idle 0) .ready).setChars r.buffer (s.chars r.buffer ++ [v])).received p r.buffer k =
      (((s.setChars r.buffer (s.chars r.buffer ++ [v])).countPort p .framesIn).updPort p
        fun u => u.heard .listen).classify p (viewFrame (s.chars r.buffer ++ [v]) k) r.buffer := by
    have heard := (s.setChars r.buffer (s.chars r.buffer ++ [v])).received_setLine p r.buffer k
    rwa [State.chars_setChars] at heard
  rw [exec_dataCharacter_receiving hears st, completes, received, classified]

/-- Settles O17: the ways a character ends a frame, the checks of its last one in their order. -/
theorem charactersEndAFrame : Obligations.CharactersEndAFrame := by
  intro s p v r hears range st
  refine ⟨exec_framingErrorCharacter_receiving hears st,
    fun fifth long => exec_dataCharacter_abandons hears range st (State.storeCharacter_long fifth long),
    fun notFifth last full => ?_⟩
  have completes : (s.setLine p (.idle 0) .ready).storeCharacter p r v =
      ((s.setLine p (.idle 0) .ready).setChars r.buffer (s.chars r.buffer ++ [v])).completeReception p r.buffer
        (r.held + 1) r.check := State.storeCharacter_last notFifth last
  have chars : (((s.setLine p (.idle 0) .ready).setChars r.buffer (s.chars r.buffer ++ [v])).chars r.buffer) =
      s.chars r.buffer ++ [v] := State.chars_setChars _ _ _
  have low : (s.chars r.buffer ++ [v]).getD (r.held + 1 - 1) 0 = v := by simp [← full]
  refine ⟨fun wrong => ?_, fun right => ⟨fun bad => ?_, fun k source kind => ?_⟩⟩
  · refine exec_dataCharacter_abandons hears range st (completes.trans ?_)
    exact State.completeReception_check (by rw [chars, low]; exact wrong)
  · refine exec_dataCharacter_abandons hears range st (completes.trans ?_)
    exact State.completeReception_badFrame (by rw [chars, low]; exact right) (by rw [chars]; exact bad)
  · exact exec_dataCharacter_completes hears st notFifth last rfl (by rw [low]; exact right) source kind

/-! ### O18 -/

/-- A character whose start bit the receiver did not take changes the line alone. -/
theorem characterEvent_undecoded {s : State} {p : Port} (powered : s.powered = true) (quiescent : s.quiescent = true)
    (line : (s.port p).line.decodable = false) {c : LineCharacter}
    (stays : ({ s.port p with line := lineAfter c } : PortUnit).canStart = false) :
    characterEvent p c s = .next (s.updPort p fun u => { u with line := lineAfter c }) := by
  rw [characterEvent, State.takeCharacter_of_quiescent powered quiescent, State.receiveCharacter_undecoded line,
    State.settle_of_quiescent (State.quiescent_updPort quiescent stays)]

/-- A decoded character that the port's state makes nothing of changes the line and what the receiver waits for. -/
theorem characterEvent_ignored {s : State} {p : Port} {c : LineCharacter} (hears : s.hears p = true)
    (stays : ({ s.port p with line := lineAfter c, startHold := holdAfter c } : PortUnit).canStart = false)
    (ignored : (s.setLine p (lineAfter c) (holdAfter c)).routeCharacter p c =
      s.setLine p (lineAfter c) (holdAfter c)) :
    characterEvent p c s = .next (s.updPort p fun u => { u with line := lineAfter c, startHold := holdAfter c }) := by
  obtain ⟨-, quiescent, -⟩ := (s.hears_iff p).mp hears
  rw [characterEvent_of_hears hears, ignored, State.setLine_eq,
    State.settle_of_quiescent (State.quiescent_updPort quiescent stays)]

/-- Settles O18: by whether the receiver decodes the character, and what the port's state makes of one it decodes. -/
theorem strayCharactersStartNothing : Obligations.StrayCharactersStartNothing := by
  intro s p v powered quiescent range
  have quiet := State.one_le_quiet range p
  refine ⟨fun line => ?_, fun line => ?_⟩
  · have decodable : (s.port p).line.decodable = true := by
      obtain e | ⟨n, e⟩ := line <;> rw [e] <;> rfl
    have hears : s.hears p = true := (s.hears_iff p).mpr ⟨powered, quiescent, decodable⟩
    have afterGood := PortUnit.canStart_of_idle_zero
      (u := { s.port p with line := .idle 0, startHold := .ready }) rfl quiet
    have ignoredOut (c : LineCharacter) (out : (s.port p).state.outOfService = true) :
        (s.setLine p (lineAfter c) (holdAfter c)).routeCharacter p c = s.setLine p (lineAfter c) (holdAfter c) :=
      State.routeCharacter_outOfService (by rw [State.state_setLine, out]) c
    have ignoredAwaiting (c : LineCharacter) (awaits : (s.port p).state.awaitsFrame = true) :
        (s.setLine p (lineAfter c) (holdAfter c)).routeCharacter p c =
          (s.setLine p (lineAfter c) (holdAfter c)).offer p c :=
      State.routeCharacter_awaiting (by rw [State.state_setLine, awaits]) c
    refine ⟨fun state => ⟨?_, ?_⟩, fun out => ?_⟩
    · exact characterEvent_ignored hears afterGood (state.elim (ignoredAwaiting _) (ignoredOut _))
    · exact characterEvent_ignored hears (PortUnit.canStart_of_line rfl)
        (state.elim (ignoredAwaiting _) (ignoredOut _))
    · exact characterEvent_ignored hears afterGood (ignoredOut _ out)
  · have undecoded : (s.port p).line.decodable = false := by
      obtain e | e := line <;> rw [e] <;> rfl
    have afterGood := PortUnit.canStart_of_idle_zero (u := { s.port p with line := .idle 0 }) rfl quiet
    exact ⟨characterEvent_undecoded powered quiescent undecoded afterGood,
      characterEvent_undecoded powered quiescent undecoded afterGood,
      characterEvent_undecoded powered quiescent undecoded (PortUnit.canStart_of_line rfl)⟩

/-! ### O19 -/

/-- A start bit or a return to the idle level on a quiescent part, the port not starting afterwards. -/
theorem State.lineEvent_updPort {s : State} {p : Port} (powered : s.powered = true) (quiescent : s.quiescent = true)
    {f g : PortUnit → PortUnit} (e : f (s.port p) = g (s.port p)) (stays : (g (s.port p)).canStart = false)
    (level : LineState → LineState) :
    s.lineEvent p (fun s => s.updPort p f) level = s.updPort p g := by
  rw [State.lineEvent_of_quiescent powered quiescent, State.updPort_congr s p e,
    State.settle_of_quiescent (State.quiescent_updPort quiescent stays)]

/-- A start bit whose effect on its port is known. -/
theorem exec_startBit {s : State} {p : Port} (powered : s.powered = true) (quiescent : s.quiescent = true)
    {f : PortUnit → PortUnit} (e : (s.port p).startBit = f (s.port p)) (stays : (f (s.port p)).canStart = false) :
    exec (.startBit p) s = .next (s.updPort p f) :=
  congrArg Host.Outcome.next (State.lineEvent_updPort powered quiescent e stays LineState.disturbed)

/-- A return to the idle level whose effect on its port is known. -/
theorem exec_lineReturnsToIdle {s : State} {p : Port} (powered : s.powered = true) (quiescent : s.quiescent = true)
    {f : PortUnit → PortUnit} (e : (s.port p).lineReturns = f (s.port p))
    (stays : (f (s.port p)).canStart = false) : exec (.lineReturnsToIdle p) s = .next (s.updPort p f) :=
  congrArg Host.Outcome.next (State.lineEvent_updPort powered quiescent e stays LineState.released)

/-- A start bit that leaves its port as it is leaves the part so. -/
theorem exec_startBit_unchanged {s : State} {p : Port} (powered : s.powered = true) (quiescent : s.quiescent = true)
    (e : (s.port p).startBit = s.port p) : exec (.startBit p) s = .next s := by
  rw [exec_startBit (f := id) powered quiescent e (((State.quiescent_iff s).mp quiescent).2 p),
    State.updPort_of_eq s p rfl]

/-- So does a return to the idle level. -/
theorem exec_lineReturnsToIdle_unchanged {s : State} {p : Port} (powered : s.powered = true)
    (quiescent : s.quiescent = true) (e : (s.port p).lineReturns = s.port p) :
    exec (.lineReturnsToIdle p) s = .next s := by
  rw [exec_lineReturnsToIdle (f := id) powered quiescent e (((State.quiescent_iff s).mp quiescent).2 p),
    State.updPort_of_eq s p rfl]

theorem PortUnit.startBit_of_not_idle {u : PortUnit} (h : u.line.idleStretch = none) : u.startBit = u := by
  unfold PortUnit.startBit
  cases e : u.line <;> simp [e, LineState.idleStretch] at h ⊢

theorem PortUnit.lineReturns_of_released {u : PortUnit} (h : u.line.released = u.line) : u.lineReturns = u := by
  rw [PortUnit.lineReturns, h]

/-- A start bit that ends an idle stretch, by whether the receiver has seen the idle level long enough (R1). -/
theorem PortUnit.startBit_of_idle {u : PortUnit} {len : Nat} (h : u.line = .idle len) :
    u.startBit =
      if u.state.outOfService = false ∧ u.startHold.needed u.params.baud ≤ len then
        { u with line := .character, startHold := .ready }
      else { u with line := .undecoded } := by
  simp [PortUnit.startBit, h, LineState.disturbed]

/-- Settles O19: by the level the line stands at. -/
theorem lineLevelsAreFollowed : Obligations.LineLevelsAreFollowed := by
  intro s p powered quiescent range wait
  have needed : (s.port p).startHold.needed (s.port p).params.baud = wait := by
    cases hold : (s.port p).startHold <;> simp [wait, hold, StartHold.needed, Baud.ct_eq]
  refine ⟨fun len line => ⟨fun inService long => ?_, fun notTaken => ?_, ?_⟩, fun line => ⟨?_, ?_⟩,
    fun line => ⟨?_, ?_⟩⟩
  · refine exec_startBit powered quiescent ?_ (PortUnit.canStart_of_line rfl)
    rw [PortUnit.startBit_of_idle line, needed, if_pos ⟨inService, long⟩]
  · refine exec_startBit powered quiescent ?_ (PortUnit.canStart_of_line rfl)
    rw [PortUnit.startBit_of_idle line, needed, if_neg]
    rintro ⟨inService, long⟩
    obtain out | short := notTaken
    · simp [inService] at out
    · omega
  · exact exec_lineReturnsToIdle_unchanged powered quiescent (PortUnit.lineReturns_of_released (by rw [line]; rfl))
  · exact exec_startBit_unchanged powered quiescent (PortUnit.startBit_of_not_idle (by rw [line]; rfl))
  · exact exec_lineReturnsToIdle_unchanged powered quiescent (PortUnit.lineReturns_of_released (by rw [line]; rfl))
  · refine exec_startBit_unchanged powered quiescent (PortUnit.startBit_of_not_idle ?_)
    obtain e | e := line <;> rw [e] <;> rfl
  · refine exec_lineReturnsToIdle powered quiescent ?_
      (PortUnit.canStart_of_idle_zero rfl (State.one_le_quiet range p))
    obtain e | e := line <;> simp [PortUnit.lineReturns, e, LineState.released]

/-! ### O20 -/

theorem exec_truncated (p : Port) (s : State) : exec (.truncated p) s = event (fun s => s.truncate p) s := rfl

theorem exec_idleStretchReaches2Ct (p : Port) (s : State) :
    exec (.idleStretchReaches2Ct p) s = event (fun s => s.idleReaches2Ct p) s := rfl

/-- An idle stretch raised to a length of 2 ct or more has the busy span at zero (R30). -/
theorem PortUnit.reachQuiet_of_two_ct {u : PortUnit} {n len : Nat} (line : u.line = .idle len)
    (long : 2 * 11 * u.params.baud.clkPerBit ≤ n) :
    PortUnit.reachQuiet n u = { u with line := .idle (max len n), busySpan := 0 } := by
  have reached : u.params.baud.ct 2 ≤ max len n := by rw [Baud.ct_eq]; omega
  rw [reachQuiet_of_idle u n len line, if_pos reached]

theorem State.truncate_of_receiving {s : State} {p : Port} {r : Reception} {len : Nat}
    (st : (s.port p).state = .receiving r) (line : (s.port p).line = .idle len) :
    s.truncate p =
      ((s.freeUp r.buffer).countPort p .formatErrors).updPort p fun u =>
        { u with
          state := .listen, line := .idle (max len (3 * 11 * (s.port p).params.baud.clkPerBit + 1)), busySpan := 0 } := by
  have idle : s.lineIdle p = true := by rw [State.lineIdle, line]; rfl
  simp only [State.truncate, st, idle, if_true, State.ct, Baud.ct_eq, State.reachQuiet, State.abandon,
    State.countPort_eq, State.setPortState_eq, State.freeUp_updPort, State.updPort_updPort]
  refine State.updPort_congr _ p ?_
  rw [State.port_freeUp, PortUnit.reachQuiet_of_two_ct line (by omega)]
  rfl

/-- The moment of truncation cannot come out of RECEIVING, nor on a line without an idle stretch (log 3). -/
theorem State.truncate_of_cannotCome {s : State} {p : Port}
    (h : (∀ r, (s.port p).state ≠ .receiving r) ∨ (s.port p).line.idleStretch = none) : s.truncate p = s := by
  unfold State.truncate
  split
  · rename_i r st
    have notIdle : s.lineIdle p = false := by
      obtain out | line := h
      · exact absurd st (out r)
      · rw [State.lineIdle, line]; rfl
    simp [notIdle]
  all_goals rfl

/-- Settles O20: by the line and the state of the port. -/
theorem idleStretchesReachTheirLengths : Obligations.IdleStretchesReachTheirLengths := by
  intro s p powered quiescent bit
  have unchanged {f : State → State} (e : f s = s) : event f s = .next s := event_unchanged powered quiescent e
  refine ⟨fun r len st line => ?_, fun len line => ?_, fun line => ⟨?_, ?_⟩, fun out => ?_⟩
  · rw [exec_truncated, event_of_quiescent powered quiescent, State.truncate_of_receiving st line]
  · rw [exec_idleStretchReaches2Ct, event_of_quiescent powered quiescent, State.idleReaches2Ct, State.reachQuiet,
      State.ct, Baud.ct_eq]
    congr 2
    exact State.updPort_congr s p (PortUnit.reachQuiet_of_two_ct line (Nat.le_refl _))
  · exact unchanged (State.truncate_of_cannotCome (.inr line))
  · exact unchanged (State.updPort_of_eq s p (reachQuiet_of_not_idle _ _ line))
  · exact unchanged (State.truncate_of_cannotCome (.inl out))

/-! ### O35 -/

/-- Settles O35: the character rows are one event with ECHO_CHARACTER by definition, and the echo check compares what is
read back with the character in the position being sent. -/
theorem correctEchoGoesOn : Obligations.CorrectEchoGoesOn := by
  refine ⟨fun s p v => ⟨rfl, rfl, rfl⟩, fun s p pos elapsed e v hears st marked sent more => ?_⟩
  obtain ⟨-, quiescent, -⟩ := (s.hears_iff p).mp hears
  have read : LineCharacter.good v (pos == 0) = sentCharacter (s.chars e.buffer) pos := by
    simp [sentCharacter, List.getD, sent]
  have marked' : inTransmission ((s.setLine p (.idle 0) .ready).queue p) = some e := by
    rw [← marked, State.queue, State.setLine_eq, State.port_updPort_self, State.queue]
  have goesOn : (s.setLine p (.idle 0) .ready).echo p pos elapsed (.good v (pos == 0)) =
      s.updPort p fun u => u.heard (.sending (pos + 1) elapsed) := by
    have same : (s.setLine p (.idle 0) .ready).chars e.buffer = s.chars e.buffer := rfl
    simp only [State.echo, marked', same, ← read, if_true, Nat.not_le.mpr more, if_false]
    exact State.updPort_updPort s p (fun u => { u with line := .idle 0, startHold := .ready }) fun u =>
      { u with state := .sending (pos + 1) elapsed }
  rw [exec_echoCharacter, characterEvent_of_hears hears,
    State.routeCharacter_sending (by rw [State.state_setLine, st]), lineAfter, holdAfter, goesOn,
    State.settle_of_quiescent (State.quiescent_updPort_of_state quiescent (by simp [PortUnit.heard]))]

end Sys2Proof.Machine
end

