-- ==== Sys2Proof/Proofs/Timers.lean ====
section
/-! PROOFS. What ends by time: the rows of the timers on a quiescent part, and when time alone makes each event due. -/

namespace Sys2Proof.Machine

/-! ### Rows whose time cannot come -/

theorem State.endBackoff_of_cannotCome {s : State} {p : Port}
    (h : (∀ n, (s.port p).state ≠ .backoff n) ∨ ∀ len, (s.port p).line ≠ .idle len) : s.endBackoff p = s := by
  unfold State.endBackoff
  split
  · rename_i n st
    have notIdle : s.lineIdle p = false := by
      cases line : (s.port p).line with
      | idle len => exact (h.elim (fun out => out n st) fun noStretch => noStretch len line).elim
      | character | undecoded | startLevel => simp [State.lineIdle, line, LineState.idleStretch]
    simp [notIdle]
  all_goals rfl

theorem State.endGuard_of_cannotCome {s : State} {p : Port} (h : ∀ n, (s.port p).state ≠ .guard n) :
    s.endGuard p = s := by
  cases st : (s.port p).state with
  | guard n => exact absurd st (h n)
  | _ => simp [State.endGuard, st]

theorem State.endContainment_of_cannotCome {s : State} {p : Port} (h : ∀ n, (s.port p).state ≠ .contained n) :
    s.endContainment p = s := by
  cases st : (s.port p).state with
  | contained n => exact absurd st (h n)
  | _ => simp [State.endContainment, st]

theorem State.missEcho_of_cannotCome {s : State} {p : Port} (h : ∀ pos n, (s.port p).state ≠ .sending pos n) :
    s.missEcho p = s := by
  cases st : (s.port p).state with
  | sending pos n => exact absurd st (h pos n)
  | _ => simp [State.missEcho, st]

theorem State.endGrace_of_cannotCome {s : State} {i : TxIx} (h : ∀ c m g, s.tx i ≠ .lapsed c m g) :
    s.endGrace i = s := by
  cases entry : s.tx i with
  | lapsed c m g => exact absurd entry (h c m g)
  | _ => simp [State.endGrace, entry]

theorem State.lapse_of_cannotCome {s : State} {i : TxIx} (h : ∀ c n d, s.tx i ≠ .opened c n (some d)) :
    s.lapse i = s := by
  unfold State.lapse
  split
  · rename_i c n d entry
    exact absurd entry (h c n d)
  all_goals rfl

/-! ### What ends -/

theorem State.endBackoff_of_backoff {s : State} {p : Port} {n len : Nat} (st : (s.port p).state = .backoff n)
    (line : (s.port p).line = .idle len) :
    let stretch := max len (n * 11 * (s.port p).params.baud.clkPerBit)
    s.endBackoff p = s.updPort p fun u =>
      { u with
        state := .listen
        line := .idle stretch
        busySpan := if 2 * 11 * (s.port p).params.baud.clkPerBit ≤ stretch then 0 else u.busySpan } := by
  have idle : s.lineIdle p = true := by rw [State.lineIdle, line]; rfl
  simp only [State.endBackoff, st, idle, if_true, State.reachQuiet, State.setPortState_eq, State.updPort_updPort,
    State.ct, Baud.ct_eq]
  refine State.updPort_congr s p ?_
  rw [reachQuiet_of_idle _ _ _ line]
  rfl

theorem State.endGuard_of_guard {s : State} {p : Port} {n : Nat} (st : (s.port p).state = .guard n) :
    s.endGuard p = s.updPort p fun u => { u with state := .listen } := by
  simp only [State.endGuard, st, State.setPortState_eq]

theorem State.endContainment_of_contained {s : State} {p : Port} {n : Nat} (st : (s.port p).state = .contained n) :
    s.endContainment p = s.updPort p fun u =>
      { u with state := .listen, busySpan := 0, line := u.line.afresh, startHold := .oneCt } := by
  simp only [State.endContainment, st, State.resume]

theorem State.endGrace_of_lapsed {s : State} {i : TxIx} {c : TxCore} {m g : Nat} (entry : s.tx i = .lapsed c m g) :
    s.endGrace i = s.setTx i .free := by
  simp only [State.endGrace, entry]

/-! ### When an event is due -/

theorem LineState.quietFor_iff (l : LineState) (n : Nat) :
    l.quietFor n = true ↔ ∃ len, l = .idle len ∧ n ≤ len := by
  cases l <;> simp [LineState.quietFor, LineState.idleStretch]

theorem State.isDue_missingEcho (s : State) (p : Port) :
    s.isDue (.missingEcho p) = true ↔
      ∃ pos n, (s.port p).state = .sending pos n ∧ ((pos + 1) * 11 + 1) * (s.port p).params.baud.clkPerBit ≤ n := by
  cases st : (s.port p).state <;> simp [State.isDue, st, State.ct, Baud.ct_eq, Nat.add_mul]

theorem State.isDue_truncated (s : State) (p : Port) :
    s.isDue (.truncated p) = true ↔
      (∃ r, (s.port p).state = .receiving r) ∧
        ∃ len, (s.port p).line = .idle len ∧ 3 * 11 * (s.port p).params.baud.clkPerBit + 1 ≤ len := by
  cases st : (s.port p).state <;> simp [State.isDue, st, LineState.quietFor_iff, State.ct, Baud.ct_eq]

theorem State.isDue_idleStretchReaches2Ct (s : State) (p : Port) :
    s.isDue (.idleStretchReaches2Ct p) = true ↔
      (s.port p).busySpan ≠ 0 ∧
        ∃ len, (s.port p).line = .idle len ∧ 2 * 11 * (s.port p).params.baud.clkPerBit ≤ len := by
  simp [State.isDue, LineState.quietFor_iff, State.ct, Baud.ct_eq, and_comm]

theorem State.isDue_containment (s : State) (p : Port) :
    s.isDue (.containment p) = true ↔
      (s.port p).state.monitored = true ∧ (s.port p).params.jabberLimit < (s.port p).busySpan := by
  simp [State.isDue]

theorem State.isDue_backoffEnd (s : State) (p : Port) :
    s.isDue (.backoffEnd p) = true ↔
      ∃ n, (s.port p).state = .backoff n ∧
        ∃ len, (s.port p).line = .idle len ∧ n * 11 * (s.port p).params.baud.clkPerBit ≤ len := by
  cases st : (s.port p).state <;> simp [State.isDue, st, LineState.quietFor_iff, State.ct, Baud.ct_eq]

theorem State.isDue_guardExpiry (s : State) (p : Port) :
    s.isDue (.guardExpiry p) = true ↔ (s.port p).state = .guard 0 := by
  cases st : (s.port p).state <;> simp [State.isDue, st]

theorem State.isDue_containmentExpiry (s : State) (p : Port) :
    s.isDue (.containmentExpiry p) = true ↔ (s.port p).state = .contained 0 := by
  cases st : (s.port p).state <;> simp [State.isDue, st]

theorem State.isDue_startTransmission (s : State) (p : Port) :
    s.isDue (.startTransmission p) = true ↔
      (s.port p).state = .listen ∧ s.queue p ≠ [] ∧
        ∃ len, (s.port p).line = .idle len ∧
          (s.port p).params.quiet * 11 * (s.port p).params.baud.clkPerBit ≤ len := by
  simp [State.isDue, State.canStart, LineState.quietFor_iff, State.ct, Baud.ct_eq, and_assoc]

theorem State.isDue_deadlineExpiry (s : State) (i : TxIx) :
    s.isDue (.deadlineExpiry i) = true ↔ ∃ c n q, s.tx i = .opened c n (some ⟨0, q⟩) := by
  cases entry : s.tx i with
  | free | lapsed c m g => simp [State.isDue, entry]
  | opened c n d =>
    cases d with
    | none => simp [State.isDue, entry]
    | some d => obtain ⟨remaining, q⟩ := d; simp [State.isDue, entry]

theorem State.isDue_graceExpiry (s : State) (i : TxIx) :
    s.isDue (.graceExpiry i) = true ↔ ∃ c m, s.tx i = .lapsed c m 0 := by
  cases entry : s.tx i <;> simp [State.isDue, entry]

theorem State.isDue_pulseEnd (s : State) : s.isDue .pulseEnd = true ↔ s.pulse = some 0 := by
  simp [State.isDue]

/-! ### O38 -/

/-- Settles O38: each row by whether its time can come, each due condition by the state it reads. -/
theorem timersEnd : Obligations.TimersEnd := by
  refine ⟨fun s p powered quiescent => ?_, fun l => ?_, fun st => ?_, fun s p i => ?_⟩
  · have ends {f : State → State} {t : State} (e : f s = t) : event f s = .next t.settle := by
      rw [event_of_quiescent powered quiescent, e]
    have unchanged {f : State → State} (e : f s = s) : event f s = .next s := event_unchanged powered quiescent e
    refine ⟨?backoff, ?noBackoff, ?guard, ?noGuard, ?contained, ?notContained, ?notSending, ?lapsed, ?notLapsed,
      ?noDeadline, ?pulse⟩
    case backoff => exact fun n len st line => ends (State.endBackoff_of_backoff st line)
    case noBackoff => exact fun h => unchanged (State.endBackoff_of_cannotCome h)
    case guard => exact fun n st => ends (State.endGuard_of_guard st)
    case noGuard => exact fun h => unchanged (State.endGuard_of_cannotCome h)
    case contained => exact fun n st => ends (State.endContainment_of_contained st)
    case notContained => exact fun h => unchanged (State.endContainment_of_cannotCome h)
    case notSending => exact fun h => unchanged (State.missEcho_of_cannotCome h)
    case lapsed =>
      exact fun i c m g entry => event_of_quiescent_after powered quiescent (State.endGrace_of_lapsed entry)
        (State.quiescent_of_ports (s.setTx i .free) quiescent rfl rfl)
    case notLapsed => exact fun i h => unchanged (State.endGrace_of_cannotCome h)
    case noDeadline => exact fun i h => unchanged (State.lapse_of_cannotCome h)
    case pulse =>
      exact event_of_quiescent_after powered quiescent rfl
        (State.quiescent_of_ports { s with pulse := none } quiescent rfl rfl)
  · cases l <;> rfl
  · cases st <;> rfl
  · exact ⟨s.isDue_missingEcho p, s.isDue_truncated p, s.isDue_idleStretchReaches2Ct p, s.isDue_containment p,
      s.isDue_backoffEnd p, s.isDue_guardExpiry p, s.isDue_containmentExpiry p, s.isDue_startTransmission p,
      s.isDue_deadlineExpiry i, s.isDue_graceExpiry i, s.isDue_pulseEnd⟩

end Sys2Proof.Machine
end

