-- ==== Sys2Proof/Proofs/Encodings.lean ====
section
/-! PROOFS. Encodings: characters, the check, frames, codes and numbers, each read back as it was formed. -/

namespace Sys2Proof.Machine

/-! ### Characters (R1, R196) -/

theorem characterBits_eq (v : Byte) (flag : Bool) :
    characterBits v flag =
      [false, v.getLsbD 0, v.getLsbD 1, v.getLsbD 2, v.getLsbD 3, v.getLsbD 4, v.getLsbD 5, v.getLsbD 6, v.getLsbD 7,
        flag, true] := rfl

/-- The bits of a character's value, taken in the order they are sent, give the value. -/
theorem byteOfBits_getLsbD (v : Byte) : byteOfBits ((List.range 8).map fun k => v.getLsbD k) = v := by
  have bitAt (bit : Bool) (i : Nat) (hi : i < 8) : (if bit then 1#8 else 0#8)[i] = (bit && decide (i = 0)) := by
    cases bit <;> simp
  refine BitVec.eq_of_getLsbD_eq fun i hi => ?_
  interval_cases i <;> simp [byteOfBits, List.range_succ, bitAt]

theorem sampleCharacter_characterBits (v : Byte) (flag : Bool) :
    sampleCharacter (characterBits v flag).tail = .good v flag := by
  have value := byteOfBits_getLsbD v
  have stop : (characterBits v flag).tail.getD 9 false = true := rfl
  rw [sampleCharacter, if_pos stop]
  exact congrArg (LineCharacter.good · flag) value

/-! ### The check (R6) -/

theorem checkOf_append (cs : List Byte) (v : Byte) : checkOf (cs ++ [v]) = checkByte (checkOf cs) v := by
  simp [checkOf]

theorem checkBit_eq (c : Check) (bit : Bool) :
    checkBit c bit = if c.getLsbD 15 = bit then c <<< 1 else (c <<< 1) ^^^ 0x1021#16 := by
  by_cases same : c.getLsbD 15 = bit <;> simp [checkBit]

theorem checkValue_toNat (high low : Byte) : (checkValue high low).toNat = high.toNat * 256 + low.toNat := by
  rw [checkValue, BitVec.toNat_append, ← Nat.shiftLeft_add_eq_or_of_lt low.isLt, Nat.shiftLeft_eq]

/-- The two check characters carry the check they were formed of. -/
theorem checkValue_checkHigh_checkLow (c : Check) : checkValue (checkHigh c) (checkLow c) = c := by
  apply BitVec.eq_of_toNat_eq
  have bound := c.isLt
  rw [checkValue_toNat, checkHigh, checkLow, BitVec.toNat_setWidth, BitVec.toNat_setWidth, BitVec.toNat_ushiftRight,
    Nat.shiftRight_eq_div_pow]
  omega

/-! ### Frames (R4, R5) -/

theorem kindAndClass_toNat (unused : BitVec 3) (cls : BitVec 2) (kind : Kind) :
    (kindAndClass unused cls kind).toNat = unused.toNat * 32 + cls.toNat * 8 + kind.code.toNat := by
  rw [kindAndClass, BitVec.toNat_append, BitVec.toNat_append, ← Nat.shiftLeft_add_eq_or_of_lt kind.code.isLt,
    ← Nat.shiftLeft_add_eq_or_of_lt cls.isLt, Nat.shiftLeft_eq, Nat.shiftLeft_eq]
  omega

theorem kindOf_eq_some_iff (v : Byte) (k : Kind) : kindOf v = some k ↔ v.toNat % 8 = k.code.toNat := by
  have codes : v.toNat % 8 < 8 := Nat.mod_lt _ (by decide)
  unfold kindOf
  generalize v.toNat % 8 = n at codes
  interval_cases n <;> cases k <;> decide

theorem kindOf_kindAndClass (unused : BitVec 3) (cls : BitVec 2) (kind : Kind) :
    kindOf (kindAndClass unused cls kind) = some kind := by
  have width := kind.code.isLt
  rw [kindOf_eq_some_iff, kindAndClass_toNat]
  omega

theorem classOf_kindAndClass (unused : BitVec 3) (cls : BitVec 2) (kind : Kind) :
    classOf (kindAndClass unused cls kind) = cls := by
  apply BitVec.eq_of_toNat_eq
  have width := kind.code.isLt
  have widthCls := cls.isLt
  rw [classOf, BitVec.toNat_setWidth, BitVec.toNat_ushiftRight, kindAndClass_toNat, Nat.shiftRight_eq_div_pow]
  omega

theorem framedChars_eq (f : Frame) (k : Kind) :
    framedChars f k =
      withCheck ([f.dest, f.source, kindAndClass f.unused f.cls k, f.tag, BitVec.ofNat 8 f.payload.length] ++ f.payload) :=
  rfl

theorem framedChars_length (f : Frame) (k : Kind) : (framedChars f k).length = 7 + f.payload.length := by
  simp [framedChars_eq, withCheck]
  omega

/-- A frame's stored characters give its fields back. -/
theorem viewFrame_framedChars (f : Frame) (k : Kind) : viewFrame (framedChars f k) k = viewOf f k := by
  have cls : classOf ((framedChars f k).getD 2 0) = f.cls := classOf_kindAndClass f.unused f.cls k
  have payload : ((framedChars f k).drop 5).take ((framedChars f k).length - 7) = f.payload := by
    rw [framedChars_length, Nat.add_sub_cancel_left]
    exact List.take_left' rfl
  rw [viewFrame, cls, payload]
  rfl

/-- The characters the check covers, and the two that carry it. -/
theorem check_framedChars (f : Frame) (k : Kind) :
    checkOf ((framedChars f k).take (5 + f.payload.length)) =
      checkValue ((framedChars f k).getD (5 + f.payload.length) 0) ((framedChars f k).getD (6 + f.payload.length) 0) := by
  obtain ⟨body, covered, length⟩ : ∃ body, framedChars f k = withCheck body ∧ body.length = 5 + f.payload.length :=
    ⟨_, framedChars_eq f k, by simp; omega⟩
  have next : 6 + f.payload.length = body.length + 1 := by omega
  rw [covered, next, ← length, withCheck, List.take_left' rfl]
  simp [checkValue_checkHigh_checkLow]

theorem payloadLength_framedChars (f : Frame) (k : Kind) (fits : f.payload.length ≤ 64) :
    ((framedChars f k).getD 4 0).toNat = f.payload.length := by
  change (BitVec.ofNat 8 f.payload.length).toNat = f.payload.length
  rw [BitVec.toNat_ofNat]
  omega

theorem isStation_iff (v : Byte) : isStation v = true ↔ 1 ≤ v.toNat ∧ v.toNat ≤ 239 := by
  simp [isStation]

/-! ### Numbers (R197, R199) -/

theorem numberOf_fourBytes (v : BitVec 32) :
    numberOf ((v >>> 24).setWidth 8) ((v >>> 16).setWidth 8) ((v >>> 8).setWidth 8) (v.setWidth 8) = v.toNat := by
  have bound := v.isLt
  simp only [numberOf, BitVec.toNat_setWidth, BitVec.toNat_ushiftRight, Nat.shiftRight_eq_div_pow]
  omega

theorem bcd_toNat {n : Nat} (h : n < 100) : (bcd n).toNat = n / 10 * 16 + n % 10 := by
  have tens : n / 10 < 10 := by omega
  rw [bcd, byteOf, BitVec.toNat_ofNat, Nat.mod_eq_of_lt tens, Nat.mod_eq_of_lt (by omega)]

theorem ofBcd_bcd {n : Nat} (h : n < 100) : ofBcd (bcd n) = some n := by
  have digits : (bcd n).toNat / 16 = n / 10 ∧ (bcd n).toNat % 16 = n % 10 := by
    rw [bcd_toNat h]
    omega
  obtain ⟨tens, ones⟩ := digits
  rw [ofBcd, tens, ones, if_pos (by omega)]
  congr 1
  omega

/-! ### O21 -/

/-- Settles O21: one reading lemma for each form, the numeric ones through the values of the bit vectors. -/
theorem encodingsReadBack : Obligations.EncodingsReadBack := by
  refine ⟨?characters, ?framing, ?check, ?frames, ?codes, ?kinds, ?generated, ?numbers, ?bcd, ?rates⟩
  case characters => exact fun v flag => ⟨characterBits_eq v flag, sampleCharacter_characterBits v flag⟩
  case framing => exact fun bits noStop => by rw [sampleCharacter, noStop]; rfl
  case check =>
    refine ⟨rfl, checkOf_append, fun c v => ?_, checkValue_toNat⟩
    simp only [checkByte, List.foldl_cons, List.foldl_nil, checkBit_eq]
  case frames =>
    exact fun f k fits => ⟨rfl, payloadLength_framedChars f k fits, viewFrame_framedChars f k,
      kindOf_kindAndClass f.unused f.cls k, check_framedChars f k⟩
  case codes => rfl
  case kinds =>
    refine fun v => ⟨fun k => ?_, isStation_iff v, rfl⟩
    rw [kindOf_eq_some_iff, ← BitVec.toNat_inj, BitVec.toNat_setWidth]
  case generated => exact fun dest source tag k payload => rfl
  case numbers => exact fun v => ⟨_, _, _, _, rfl, numberOf_fourBytes v⟩
  case bcd => exact fun n h => ⟨ofBcd_bcd h, bcd_toNat h⟩
  case rates => exact fun r => ⟨by cases r <;> rfl, Baud.ct_eq r⟩

end Sys2Proof.Machine
end

