-- ==== Sys2Proof/Proofs/Frames.lean ====
section
/-! PROOFS. A whole frame on a line: the state part way through its reception, character by character, up to the
classification in the event of its last one. -/

namespace Sys2Proof.Machine

/-! ### Part of a frame -/

theorem take_succ_getD (cs : List Byte) {n : Nat} (h : n < cs.length) : cs.take (n + 1) = cs.take n ++ [cs.getD n 0] := by
  rw [List.take_add_one, List.getElem?_eq_getElem h, List.getD_eq_getElem _ _ h]
  rfl

/-- The characters of a frame on the line: the address flag on the first alone (R4). -/
theorem lineCharacters_append (cs : List Byte) (v : Byte) (h : cs ≠ []) :
    lineCharacters (cs ++ [v]) = lineCharacters cs ++ [.good v false] := by
  cases cs with
  | nil => exact absurd rfl h
  | cons d rest => simp [lineCharacters]

/-- The check over the first characters of a list, those beyond the first `m` left out, as one more comes in (R11). -/
theorem checkOf_take_succ (cs : List Byte) {n : Nat} (m : Nat) (h : n < cs.length) :
    checkOf (cs.take (min (n + 1) m)) =
      if n + 1 ≤ m then checkByte (checkOf (cs.take (min n m))) (cs.getD n 0) else checkOf (cs.take (min n m)) := by
  split
  · rename_i inside
    rw [Nat.min_eq_left inside, Nat.min_eq_left (by omega), take_succ_getD cs h, checkOf_append]
  · rename_i outside
    rw [Nat.min_eq_right (by omega), Nat.min_eq_right (by omega)]

/-- The reception context of a frame of which `n` characters are held (R11). -/
def contextAt (f : Frame) (k : Kind) (b : BufferIx) (n : Nat) : Reception where
  buffer := b
  held := n
  expected := if 5 ≤ n then some (7 + f.payload.length) else none
  check := checkOf ((framedChars f k).take (min n (5 + f.payload.length)))

/-- The state in which `n` characters of a frame that arrives at port `p` are held in buffer `b`, taken from the head
of the free list of `s` (R8, R11). -/
def State.partWay (s : State) (p : Port) (b : BufferIx) (rest : List BufferIx) (f : Frame) (k : Kind) (n : Nat) : State :=
  (({ s with freeList := rest }).setBuffer b ⟨.reception p, (framedChars f k).take n⟩).updPort p fun u =>
    u.heard (.receiving (contextAt f k b n))

section PartWay

variable (s : State) (p : Port) (b : BufferIx) (rest : List BufferIx) (f : Frame) (k : Kind) (n : Nat)

theorem State.state_partWay : ((s.partWay p b rest f k n).port p).state = .receiving (contextAt f k b n) := by
  simp [State.partWay, PortUnit.heard]

theorem State.chars_partWay : (s.partWay p b rest f k n).chars b = (framedChars f k).take n := by
  simp [State.partWay]

theorem State.hears_partWay (powered : s.powered = true) (quiescent : s.quiescent = true) :
    (s.partWay p b rest f k n).hears p = true := by
  refine (State.hears_iff _ p).mpr ⟨powered, ?_, ?_⟩
  · have kept := State.quiescent_of_ports
      (({ s with freeList := rest }).setBuffer b ⟨.reception p, (framedChars f k).take n⟩) quiescent rfl rfl
    exact State.quiescent_updPort_of_state kept fun e => PortState.noConfusion e
  · rw [State.partWay, State.port_updPort_self]
    rfl

/-- Another list of characters in the buffer of a frame part way through, and another state of its port. -/
theorem State.setChars_partWay (cs : List Byte) (g : PortUnit → PortUnit)
    (g_heard : ∀ u : PortUnit, g (u.heard (.receiving (contextAt f k b n))) = g u) :
    ((s.partWay p b rest f k n).setChars b cs).updPort p g =
      (({ s with freeList := rest }).setBuffer b ⟨.reception p, cs⟩).updPort p g := by
  rw [State.partWay, State.setChars_updPort, State.updPort_updPort, State.setChars_setBuffer]
  exact State.updPort_congr _ p (g_heard _)

end PartWay

/-! ### Character by character -/

section Arrival

variable {s : State} {p : Port} {b : BufferIx} {rest : List BufferIx} {f : Frame} {k : Kind}

/-- The outcome of a character row is what the line event of the character leaves. -/
theorem takeCharacter_of_characterEvent {s t : State} {p : Port} {c : LineCharacter}
    (h : characterEvent p c s = .next t) : s.takeCharacter p c = t := by
  injection h

/-- The first character starts the frame (R8). -/
theorem takeCharacter_first (can : s.canReceive p = true) (free : s.freeList = b :: rest) :
    s.takeCharacter p (.good f.dest true) = s.partWay p b rest f k 1 := by
  obtain ⟨hears, awaits⟩ := Bool.and_eq_true _ _ ▸ can
  have check : checkOf ((framedChars f k).take (min 1 (5 + f.payload.length))) = checkByte 0xFFFF#16 f.dest := by
    rw [Nat.min_eq_left (by omega)]
    rfl
  rw [takeCharacter_of_characterEvent ((addressCharacterStartsAFrame s p f.dest hears awaits).1 b rest free),
    State.partWay, contextAt, check]
  rfl

/-- A character after the first and before the last is stored (R11). -/
theorem takeCharacter_partWay (powered : s.powered = true) (quiescent : s.quiescent = true)
    (fits : f.payload.length ≤ 64) {n : Nat} (more : n + 1 < 7 + f.payload.length) :
    (s.partWay p b rest f k n).takeCharacter p (.good ((framedChars f k).getD n 0) false) =
      s.partWay p b rest f k (n + 1) := by
  have inFrame : n < (framedChars f k).length := by rw [framedChars_length]; omega
  have check := checkOf_take_succ (framedChars f k) (5 + f.payload.length) inFrame
  have stored (r : Reception) (e : r = contextAt f k b (n + 1)) :
      ((s.partWay p b rest f k n).setChars b
        ((s.partWay p b rest f k n).chars b ++ [(framedChars f k).getD n 0])).updPort p
          (fun u => u.heard (.receiving r)) = s.partWay p b rest f k (n + 1) := by
    rw [State.chars_partWay, ← take_succ_getD _ inFrame, State.setChars_partWay _ _ _ _ _ _ _ _ _ fun _ => rfl, e]
    rfl
  have hears := s.hears_partWay p b rest f k n powered quiescent
  have st := s.state_partWay p b rest f k n
  obtain ⟨fifth, other⟩ := dataCharacterIsStored _ p ((framedChars f k).getD n 0) _ hears st
  by_cases at5 : n + 1 = 5
  · have length : ((framedChars f k).getD n 0).toNat = f.payload.length := by
      obtain rfl : n = 4 := by omega
      exact payloadLength_framedChars f k fits
    refine (takeCharacter_of_characterEvent (fifth at5 (by omega))).trans (stored _ ?_)
    have long : 5 ≤ n + 1 := by omega
    have covered : n + 1 ≤ 5 + f.payload.length := by omega
    have next : contextAt f k b (n + 1) = ⟨b, n + 1, some (7 + f.payload.length),
        checkByte (contextAt f k b n).check ((framedChars f k).getD n 0)⟩ := by
      simp only [contextAt, check, long, covered, if_true]
    rw [next, length, at5]
    rfl
  · have notLast : (contextAt f k b n).expected ≠ some (n + 1) := by
      simp only [contextAt]
      split
      · intro e
        injection e
        omega
      · exact Option.some_ne_none _ |>.symm
    refine (takeCharacter_of_characterEvent (other at5 notLast)).trans (stored _ ?_)
    by_cases long : 5 ≤ n
    · have long' : 5 ≤ n + 1 := by omega
      by_cases covered : n + 1 ≤ 5 + f.payload.length
      · have covered' : n + 3 ≤ 7 + f.payload.length := by omega
        simp only [contextAt, check, long, long', covered, covered', if_true]
      · have covered' : ¬ n + 3 ≤ 7 + f.payload.length := by omega
        simp only [contextAt, check, long, long', covered, covered', if_true, if_false]
    · have short : ¬ 5 ≤ n + 1 := by omega
      have covered : n + 1 ≤ 5 + f.payload.length := by omega
      simp only [contextAt, check, long, short, covered, if_true, if_false]

/-- The characters of a frame but the last leave it part way through. -/
theorem receiveFrame_partWay (can : s.canReceive p = true) (fits : f.payload.length ≤ 64)
    (free : s.freeList = b :: rest) (n : Nat) (short : n < 6 + f.payload.length) :
    s.receiveFrame p ((framedChars f k).take (n + 1)) = s.partWay p b rest f k (n + 1) := by
  obtain ⟨hears, -⟩ := Bool.and_eq_true _ _ ▸ can
  obtain ⟨powered, quiescent, -⟩ := (s.hears_iff p).mp hears
  induction n with
  | zero => exact takeCharacter_first can free
  | succ n ih =>
    have inFrame : n + 1 < (framedChars f k).length := by rw [framedChars_length]; omega
    have before := ih (by omega)
    rw [State.receiveFrame] at before ⊢
    rw [take_succ_getD _ inFrame, lineCharacters_append _ _ (by simp [framedChars_eq, withCheck]), List.foldl_append,
      before]
    exact takeCharacter_partWay powered quiescent fits (by omega)

/-- The last character completes the frame, which is classified in its event (R18). -/
theorem takeCharacter_last (powered : s.powered = true) (quiescent : s.quiescent = true)
    (source : isStation f.source = true) :
    (s.partWay p b rest f k (6 + f.payload.length)).takeCharacter p
        (.good ((framedChars f k).getD (6 + f.payload.length) 0) false) =
      ((s.arrived p b rest (framedChars f k)).classify p (viewOf f k) b).settle := by
  have inFrame : 6 + f.payload.length < (framedChars f k).length := by rw [framedChars_length]; omega
  have whole : framedChars f k =
      (s.partWay p b rest f k (6 + f.payload.length)).chars b ++ [(framedChars f k).getD (6 + f.payload.length) 0] := by
    rw [State.chars_partWay, ← take_succ_getD _ inFrame, List.take_of_length_le]
    rw [framedChars_length]
    omega
  have expected : (contextAt f k b (6 + f.payload.length)).expected = some (6 + f.payload.length + 1) := by
    have long : 5 ≤ 6 + f.payload.length := by omega
    have all : 7 + f.payload.length = 6 + f.payload.length + 1 := by omega
    simp only [contextAt, long, if_true, all]
  have check : (contextAt f k b (6 + f.payload.length)).check =
      checkValue ((framedChars f k).getD (6 + f.payload.length + 1 - 2) 0)
        ((framedChars f k).getD (6 + f.payload.length + 1 - 1) 0) := by
    have before : 6 + f.payload.length + 1 - 2 = 5 + f.payload.length := by omega
    rw [contextAt, Nat.min_eq_right (by omega), before, Nat.add_sub_cancel, check_framedChars]
  have completes := exec_dataCharacter_completes (s.hears_partWay p b rest f k _ powered quiescent)
    (s.state_partWay p b rest f k _) (by simp only [contextAt]; omega) expected whole check source
    (kindOf_kindAndClass f.unused f.cls k)
  rw [takeCharacter_of_characterEvent completes, State.countPort_eq, State.updPort_updPort,
    viewFrame_framedChars]
  congr 2
  exact s.setChars_partWay p b rest f k _ (framedChars f k) (fun u => (u.counted .framesIn).heard .listen) fun _ => rfl

end Arrival

/-! ### O22 -/

theorem exec_frameRow (k : Kind) (p : Port) (f : Frame) (s : State) :
    exec (frameRow k p f) s = .next (s.receiveFrame p (framedChars f k)) := by
  cases k <;> rfl

/-- Settles O22: by induction on the characters received, the last one completing the frame. -/
theorem frameIsReceivedAndClassified : Obligations.FrameIsReceivedAndClassified := by
  rintro s k p f b t ⟨can, wellFormed, rest, free, rfl⟩
  obtain ⟨source, length⟩ := Bool.and_eq_true _ _ ▸ wellFormed
  have fits : f.payload.length ≤ 64 := of_decide_eq_true length
  obtain ⟨hears, -⟩ := Bool.and_eq_true _ _ ▸ can
  obtain ⟨powered, quiescent, -⟩ := (s.hears_iff p).mp hears
  have inFrame : 6 + f.payload.length < (framedChars f k).length := by rw [framedChars_length]; omega
  have whole : framedChars f k =
      (framedChars f k).take (6 + f.payload.length) ++ [(framedChars f k).getD (6 + f.payload.length) 0] := by
    rw [← take_succ_getD _ inFrame, List.take_of_length_le]
    rw [framedChars_length]
    omega
  have before := receiveFrame_partWay (k := k) can fits free (5 + f.payload.length) (by omega)
  have six : 5 + f.payload.length + 1 = 6 + f.payload.length := by omega
  rw [six, State.receiveFrame] at before
  rw [exec_frameRow, State.receiveFrame, whole, lineCharacters_append _ _ (by simp [framedChars_eq, withCheck]),
    List.foldl_append, before, ← whole]
  exact congrArg Host.Outcome.next (takeCharacter_last powered quiescent source)

end Sys2Proof.Machine
end

