-- ==== Sys2Proof/Proofs/Time.lean ====
section
/-! PROOFS. The passing of time: what one CLK period moves, what it leaves alone, and how long a second lasts. -/

namespace Sys2Proof.Machine

/-! ### Every port changed -/

/-- Ports changed one after another: nothing but the ports differs. -/
theorem foldl_updPort_eq (f : Port → PortUnit → PortUnit) (l : List Port) (s : State) :
    l.foldl (fun s p => s.updPort p (f p)) s =
      { s with ports := (l.foldl (fun s p => s.updPort p (f p)) s).ports } := by
  induction l generalizing s with
  | nil => rfl
  | cons q l ih => exact ih (s.updPort q (f q))

/-- Each port of a list without repetition is changed once. -/
theorem port_foldl_updPort (f : Port → PortUnit → PortUnit) {l : List Port} (once : l.Nodup) (s : State) (p : Port) :
    (l.foldl (fun s p => s.updPort p (f p)) s).port p = if p ∈ l then f p (s.port p) else s.port p := by
  induction l generalizing s with
  | nil => rfl
  | cons q l ih =>
    obtain ⟨notIn, once⟩ := List.nodup_cons.mp once
    rw [List.foldl_cons, ih once, State.port_updPort]
    by_cases e : p = q
    · subst e
      simp [notIn]
    · simp [e]

theorem State.updPorts_eq (s : State) (f : PortUnit → PortUnit) :
    s.updPorts f = { s with ports := (s.updPorts f).ports } := foldl_updPort_eq (fun _ => f) allPorts s

theorem State.port_updPorts (s : State) (f : PortUnit → PortUnit) (p : Port) :
    (s.updPorts f).port p = f (s.port p) := by
  have all := port_foldl_updPort (fun _ => f) (List.nodup_finRange 4) s p
  rwa [if_pos (List.mem_finRange p)] at all

/-! ### One CLK period of the main domain -/

/-- A port one CLK period later, in which a millisecond ends or not (R2, R24, R29, R30, R31). -/
def PortUnit.afterClk (msEnds : Bool) (u : PortUnit) : PortUnit := if msEnds then u.clkLater.msLater else u.clkLater

/-- The other fields play no part in a change of the ports. -/
theorem State.updPorts_congr {s t : State} (h : t.ports = s.ports) (f : PortUnit → PortUnit) :
    (t.updPorts f).ports = (s.updPorts f).ports := by
  refine Vector.ext fun i hi => ?_
  have same : (t.updPorts f).port ⟨i, hi⟩ = (s.updPorts f).port ⟨i, hi⟩ := by
    rw [State.port_updPorts, State.port_updPorts, State.port, State.port, h]
  exact same

theorem State.msPass_eq (s : State) :
    s.msPass =
      { s with
        ports := (s.updPorts PortUnit.msLater).ports
        transactions := s.transactions.map TxEntry.msLater
        pulse := s.pulse.map (· - 1) } := by
  rw [State.msPass, State.updPorts_eq]

/-- A CLK period within a millisecond moves the ports and the millisecond count (log 5). -/
theorem State.clkPass_within {s : State} (powered : s.powered = true) (within : s.msCount + 10 < 294912) :
    s.clkPass = { s with ports := (s.updPorts PortUnit.clkLater).ports, msCount := s.msCount + 10 } := by
  rw [State.clkPass, if_pos powered, State.updPorts_eq, State.msClock]
  exact if_pos within

/-- One in which the millisecond ends also moves what counts in milliseconds (log 5). -/
theorem State.clkPass_msEnds {s : State} (powered : s.powered = true) (ends : 294912 ≤ s.msCount + 10) :
    s.clkPass =
      { s with
        ports := ((s.updPorts PortUnit.clkLater).updPorts PortUnit.msLater).ports
        transactions := s.transactions.map TxEntry.msLater
        pulse := s.pulse.map (· - 1)
        msCount := s.msCount + 10 - 294912 } := by
  have ports := State.updPorts_congr (s := s.updPorts PortUnit.clkLater)
    (t := { s with ports := (s.updPorts PortUnit.clkLater).ports, msCount := s.msCount + 10 - 294912 }) rfl
    PortUnit.msLater
  rw [← ports, State.clkPass, if_pos powered, State.updPorts_eq, State.msClock]
  exact (if_neg (Nat.not_lt.mpr ends)).trans (State.msPass_eq _)

theorem State.port_clkPass {s : State} (powered : s.powered = true) (p : Port) :
    s.clkPass.port p = (s.port p).afterClk (decide (294912 ≤ s.msCount + 10)) := by
  by_cases ends : 294912 ≤ s.msCount + 10
  · have later : s.clkPass.port p = ((s.updPorts PortUnit.clkLater).updPorts PortUnit.msLater).port p := by
      rw [State.clkPass_msEnds powered ends, State.port, State.port]
    rw [later, State.port_updPorts, State.port_updPorts, decide_eq_true ends]
    rfl
  · have later : s.clkPass.port p = (s.updPorts PortUnit.clkLater).port p := by
      rw [State.clkPass_within powered (Nat.lt_of_not_le ends), State.port, State.port]
    rw [later, State.port_updPorts, decide_eq_false ends]
    rfl

/-- One CLK period moves the ports, the transactions, the pulse and the millisecond count, and nothing else. -/
theorem State.clkPass_eq (s : State) :
    s.clkPass =
      { s with
        ports := s.clkPass.ports, transactions := s.clkPass.transactions, pulse := s.clkPass.pulse
        msCount := s.clkPass.msCount } := by
  by_cases powered : s.powered = true
  · by_cases ends : 294912 ≤ s.msCount + 10
    · rw [State.clkPass_msEnds powered ends]
    · rw [State.clkPass_within powered (Nat.lt_of_not_le ends)]
  · rw [State.clkPass, if_neg powered]

/-- A deadline or a grace counts down, and nothing else of a transaction moves (R114, R124). -/
theorem TxEntry.msLater_eq (e : TxEntry) :
    e.msLater =
      match e with
      | .opened c n (some d) => .opened c n (some ⟨d.remaining - 1, d.segment⟩)
      | .lapsed c n g => .lapsed c n (g - 1)
      | .opened c n none => .opened c n none
      | .free => .free := by
  cases e with
  | opened c n d => cases d <;> rfl
  | _ => rfl

/-! ### One port, one CLK period later -/

/-- No CLK period moves a port from a state in which the jabber monitor runs, or into one. -/
theorem PortState.monitored_clkLater (st : PortState) : st.clkLater.monitored = st.monitored := by
  cases st <;> rfl

namespace PortUnit

variable (ends : Bool) (u : PortUnit)

theorem line_afterClk : (u.afterClk ends).line = u.line.longer := by cases ends <;> rfl

theorem state_afterClk :
    (u.afterClk ends).state = if ends then u.state.clkLater.msLater else u.state.clkLater := by cases ends <;> rfl

/-- The busy span grows where the millisecond ends, the jabber monitor runs and the idle stretch is short of 2 ct (R30). -/
theorem busySpan_afterClk :
    (u.afterClk ends).busySpan =
      if ends = true ∧ u.state.monitored = true ∧ u.line.longer.quietFor (u.params.baud.ct 2) = false then
        u.busySpan + 1
      else u.busySpan := by
  cases ends with
  | false => rfl
  | true =>
    change (if u.state.clkLater.monitored && !u.line.longer.quietFor (u.params.baud.ct 2) then u.busySpan + 1
      else u.busySpan) = _
    simp [PortState.monitored_clkLater]

theorem afterClk_eq :
    u.afterClk ends =
      { u with
        state := (u.afterClk ends).state, line := (u.afterClk ends).line, busySpan := (u.afterClk ends).busySpan } := by
  cases ends <;> rfl

end PortUnit

end Sys2Proof.Machine
end

