-- ==== Sys2Proof/Proofs/Clock.lean ====
section
/-! PROOFS. The crystal and the calendar: no event that time brings moves them but the second tick, so that an idle step
moves them by one CLK period exactly. -/

namespace Sys2Proof.Machine

/-! ### What leaves the clock alone -/

/-- `t` shows the clock that `s` shows: the calendar, the place in the crystal period, whether the backup domain holds
its contents; and no time is staged in `t` that was not in `s`. -/
structure SameClock (s t : State) : Prop where
  calendar : t.calendar = s.calendar
  crystalCount : t.crystalCount = s.crystalCount
  backupLost : t.backupLost = s.backupLost
  staged : s.staged = none → t.staged = none

theorem SameClock.refl (s : State) : SameClock s s := ⟨rfl, rfl, rfl, id⟩

theorem SameClock.trans {s t u : State} (h : SameClock s t) (k : SameClock t u) : SameClock s u :=
  ⟨k.calendar.trans h.calendar, k.crystalCount.trans h.crystalCount, k.backupLost.trans h.backupLost,
    fun none => k.staged (h.staged none)⟩

theorem TrafficOwing.sameClock {ps : List Port} {s t : State} (h : TrafficOwing ps s t) : SameClock s t :=
  ⟨h.calendar, h.crystalCount, h.backupLost, fun none => h.staged.trans none⟩

theorem State.updPort_sameClock (s : State) (p : Port) (f : PortUnit → PortUnit) : SameClock s (s.updPort p f) :=
  ⟨rfl, rfl, rfl, id⟩

theorem foldl_updPort_sameClock (f : Port → PortUnit → PortUnit) (l : List Port) (s : State) :
    SameClock s (l.foldl (fun s p => s.updPort p (f p)) s) := by
  rw [foldl_updPort_eq]
  exact ⟨rfl, rfl, rfl, id⟩

theorem foldl_sameClock {α : Type} {f : State → α → State} {l : List α} (h : ∀ a ∈ l, ∀ s, SameClock s (f s a))
    (s : State) : SameClock s (l.foldl f s) := by
  induction l generalizing s with
  | nil => exact SameClock.refl s
  | cons a l ih =>
    exact (h a (List.mem_cons_self ..) s).trans (ih (fun b mem => h b (List.mem_cons_of_mem _ mem)) (f s a))

theorem State.evaluate_sameClock (s : State) : SameClock s s.evaluate := by
  have h := s.evaluate_traffic.sameClock
  exact ⟨h.calendar, h.crystalCount, h.backupLost, h.staged⟩

/-! ### Restarts and the ends of events -/

theorem State.clearVolatile_sameClock (s : State) (cause : ResetCause) : SameClock s (s.clearVolatile cause) :=
  ⟨rfl, rfl, rfl, fun _ => rfl⟩

theorem State.takeRestart_sameClock (s : State) (k : RestartKind) : SameClock s (s.takeRestart k) := by
  cases k with
  | warm =>
    have ports := foldl_updPort_sameClock (fun _ u => u.reset u.params u.counters) allPorts (s.clearVolatile .warm)
    have managers : SameClock (s.clearVolatile .warm).resetPortsKept
        { (s.clearVolatile .warm).resetPortsKept with
          managers := (s.clearVolatile .warm).resetPortsKept.managers.map keepAddress } := ⟨rfl, rfl, rfl, id⟩
    exact (((s.clearVolatile_sameClock .warm).trans ports).trans managers).trans (State.evaluate_sameClock _)
  | full =>
    have ports := foldl_updPort_sameClock
      (fun p u => u.reset (defaultPortParams s.straps p) (Vector.replicate 11 0)) allPorts (s.clearVolatile .full)
    have defaults : SameClock ((s.clearVolatile .full).resetPortsToDefaults s.straps)
        ((s.clearVolatile .full).setDefaults s.straps) := ⟨rfl, rfl, rfl, id⟩
    exact (((s.clearVolatile_sameClock .full).trans ports).trans defaults).trans (State.evaluate_sameClock _)

theorem State.restartFirst_sameClock (s : State) : SameClock s s.restartFirst := by
  unfold State.restartFirst
  split
  · split
    · exact s.takeRestart_sameClock _
    · exact SameClock.refl s
  · exact SameClock.refl s

theorem State.testStart_sameClock (s : State) (p : Port) : SameClock s (s.testStart p) := by
  unfold State.testStart
  split
  · exact s.updPort_sameClock p _
  · exact SameClock.refl s

theorem State.settle_sameClock (s : State) : SameClock s s.settle := by
  unfold State.settle
  split
  · exact SameClock.refl s
  · exact foldl_sameClock (fun p _ s => s.testStart_sameClock p) s

theorem State.inEvent_sameClock {f : State → State} (h : ∀ s, SameClock s (f s)) (s : State) :
    SameClock s (s.inEvent f) :=
  (s.restartFirst_sameClock.trans (h _)).trans (State.settle_sameClock _)

/-! ### The events that time brings -/

theorem State.settleAttempts_sameClock (s : State) (p : Port) (e : QueueEntry) : SameClock s (s.settleAttempts p e) := by
  unfold State.settleAttempts
  split
  · exact (s.remove_traffic p e .undeliverable).sameClock
  · exact s.updPort_sameClock p fun u => { u with queue := (s.queue p).map _ }

theorem State.settleCollided_sameClock (s : State) (p : Port) (e : QueueEntry) : SameClock s (s.settleCollided p e) := by
  unfold State.settleCollided
  split
  · exact (s.remove_traffic p e .withdrawn).sameClock
  · split
    · exact (s.remove_traffic p e .window).sameClock
    · exact s.settleAttempts_sameClock p e
  · exact s.settleAttempts_sameClock p e

theorem State.collide_sameClock (s : State) (p : Port) (e : QueueEntry) : SameClock s (s.collide p e) :=
  (((s.updPort_sameClock p _).trans (State.updPort_sameClock _ p _)).trans (State.updPort_sameClock _ p _)).trans
    (State.settleCollided_sameClock _ p _)

theorem State.missEcho_sameClock (s : State) (p : Port) : SameClock s (s.missEcho p) := by
  unfold State.missEcho
  split
  · exact s.collide_sameClock p _
  all_goals exact SameClock.refl s

theorem State.abandon_sameClock (s : State) (p : Port) (b : BufferIx) (c : PortCounter) :
    SameClock s (s.abandon p b c) := ⟨rfl, rfl, rfl, id⟩

theorem State.truncate_sameClock (s : State) (p : Port) : SameClock s (s.truncate p) := by
  unfold State.truncate
  split
  · split
    · exact (s.updPort_sameClock p _).trans (State.abandon_sameClock _ p _ _)
    · exact SameClock.refl s
  all_goals exact SameClock.refl s

theorem State.discardReception_sameClock (s : State) (p : Port) : SameClock s (s.discardReception p) := by
  unfold State.discardReception
  split
  · exact ⟨rfl, rfl, rfl, id⟩
  all_goals exact SameClock.refl s

theorem State.contain_sameClock (s : State) (p : Port) : SameClock s (s.contain p) := by
  have discarded := s.discardReception_sameClock p
  have left := discarded.trans (State.updPort_sameClock _ p fun u =>
    { u with state := .contained (s.port p).params.containPeriod, line := u.line.ignored })
  have purged := left.trans (State.purgeUnreachable_traffic _ p).sameClock
  have closed := purged.trans (State.portLeft_traffic _ p).sameClock
  have counted := closed.trans (State.updPort_sameClock _ p (PortUnit.counted .containments))
  exact counted.trans (State.raise_traffic _ .containment).sameClock

theorem State.endBackoff_sameClock (s : State) (p : Port) : SameClock s (s.endBackoff p) := by
  unfold State.endBackoff
  split
  · split
    · exact (s.updPort_sameClock p _).trans (State.updPort_sameClock _ p _)
    · exact SameClock.refl s
  all_goals exact SameClock.refl s

theorem State.endGuard_sameClock (s : State) (p : Port) : SameClock s (s.endGuard p) := by
  unfold State.endGuard
  split
  · exact s.updPort_sameClock p _
  all_goals exact SameClock.refl s

theorem State.endContainment_sameClock (s : State) (p : Port) : SameClock s (s.endContainment p) := by
  unfold State.endContainment
  split
  · exact s.updPort_sameClock p _
  all_goals exact SameClock.refl s

theorem State.reachStart_sameClock (s : State) (p : Port) : SameClock s (s.reachStart p) := by
  unfold State.reachStart
  split
  · exact s.updPort_sameClock p _
  all_goals exact SameClock.refl s

/-- A row that is one event of the main domain leaves the clock alone where its effect does. -/
theorem State.after_event_sameClock {c : Instr} {f : State → State} (row : ∀ s, exec c s = event f s)
    (h : ∀ s, SameClock s (f s)) (s : State) : SameClock s (s.after c) := by
  rw [State.after, row, event]
  dsimp only
  split
  · exact State.inEvent_sameClock h s
  · exact SameClock.refl s

theorem mem_timedEvents (c : Instr) :
    c ∈ timedEvents ↔
      (∃ p, c = .missingEcho p ∨ c = .idleStretchReaches2Ct p ∨ c = .truncated p ∨ c = .containment p ∨
        c = .backoffEnd p ∨ c = .guardExpiry p ∨ c = .containmentExpiry p ∨ c = .startTransmission p) ∨
      (∃ i, c = .deadlineExpiry i) ∨ (∃ i, c = .graceExpiry i) ∨ c = .pulseEnd := by
  simp [timedEvents, allPorts, allTx, eq_comm]

/-- No event that time brings, but the second tick, moves the clock. -/
theorem State.after_timedEvent_sameClock {c : Instr} (timed : c ∈ timedEvents) (s : State) : SameClock s (s.after c) := by
  obtain ⟨p, rfl | rfl | rfl | rfl | rfl | rfl | rfl | rfl⟩ | ⟨i, rfl⟩ | ⟨i, rfl⟩ | rfl := (mem_timedEvents c).mp timed
  case inr.inr.inr => 
    exact State.after_event_sameClock (f := fun s => { s with pulse := none }) (fun _ => rfl)
      (fun _ => ⟨rfl, rfl, rfl, id⟩) s
  · exact State.after_event_sameClock (fun _ => rfl) (fun s => s.missEcho_sameClock p) s
  · exact State.after_event_sameClock (fun _ => rfl) (fun s => s.updPort_sameClock p _) s
  · exact State.after_event_sameClock (fun _ => rfl) (fun s => s.truncate_sameClock p) s
  · refine State.after_event_sameClock (fun _ => rfl) (fun s => ?_) s
    split
    · exact s.contain_sameClock p
    · exact SameClock.refl s
  · exact State.after_event_sameClock (fun _ => rfl) (fun s => s.endBackoff_sameClock p) s
  · exact State.after_event_sameClock (fun _ => rfl) (fun s => s.endGuard_sameClock p) s
  · exact State.after_event_sameClock (fun _ => rfl) (fun s => s.endContainment_sameClock p) s
  · exact State.after_event_sameClock (fun _ => rfl) (fun s => s.reachStart_sameClock p) s
  · exact State.after_event_sameClock (fun _ => rfl) (fun s => (s.lapse_traffic i).sameClock) s
  · exact State.after_event_sameClock (fun _ => rfl) (fun s => (s.endGrace_traffic i).sameClock) s

theorem State.takeAllDue_sameClock (s : State) : SameClock s s.takeAllDue := by
  refine foldl_sameClock (fun c timed s => ?_) s
  unfold State.takeDue
  split
  · exact s.restartFirst_sameClock.trans (State.after_timedEvent_sameClock timed _)
  · exact s.restartFirst_sameClock

theorem State.clkPass_sameClock (s : State) : SameClock s s.clkPass := by
  rw [State.clkPass_eq]
  exact ⟨rfl, rfl, rfl, id⟩

/-- Up to the crystal, an idle step leaves the clock alone. -/
theorem State.beforeCrystal_sameClock (s : State) : SameClock s s.restartFirst.clkPass.takeAllDue :=
  (s.restartFirst_sameClock.trans (State.clkPass_sameClock _)).trans (State.takeAllDue_sameClock _)

/-! ### The second tick (R134, R137) -/

/-- What a second tick leaves of the clock: the beginning of a second, one second later if no time was staged. -/
structure Ticked (s t : State) : Prop where
  phase : t.calendar.phase = 0
  crystalCount : t.crystalCount = 0
  later : s.staged = none → t.calendar = { s.calendar with now := s.calendar.now.nextSecond, phase := 0 }

theorem Ticked.after {r s t u : State} (before : SameClock r s) (h : Ticked s t) (after : SameClock t u) :
    Ticked r u where
  phase := by rw [after.calendar, h.phase]
  crystalCount := by rw [after.crystalCount, h.crystalCount]
  later none := by rw [after.calendar, h.later (before.staged none), before.calendar]

theorem State.applyTime_ticked {s : State} {d : DateTime} (staged : s.staged = some d) : Ticked s (s.applyTime d) := by
  have h := State.evaluate_sameClock
    { s.zeroPhase with calendar := { s.calendar with now := d, valid := true, phase := 0 }, staged := none }
  refine ⟨?_, h.crystalCount, fun none => ?_⟩
  · rw [State.applyTime, h.calendar]
  · rw [staged] at none
    exact (Option.some_ne_none _ none).elim

/-- The clock one second later, at the beginning of a second. -/
theorem State.setNow_zeroPhase_ticked (s : State) {d : DateTime} (next : d = s.calendar.now.nextSecond) :
    Ticked s (s.zeroPhase.setNow d) := ⟨rfl, rfl, fun _ => by rw [next]; rfl⟩

theorem State.minuteTick_sameClock (s : State) : SameClock s s.minuteTick :=
  SameClock.trans (t := s.ageStations) ⟨rfl, rfl, rfl, id⟩ (State.evaluate_sameClock _)

theorem State.secondTickPowered_ticked (s : State) : Ticked s s.secondTickPowered := by
  unfold State.secondTickPowered
  split
  · exact State.applyTime_ticked ‹_›
  · dsimp only
    split
    · rename_i early
      exact s.setNow_zeroPhase_ticked (if_pos early).symm
    · rename_i late
      exact Ticked.after (SameClock.refl s) (s.setNow_zeroPhase_ticked (if_neg late).symm)
        (State.minuteTick_sameClock _)

theorem State.secondTick_ticked {s : State} (runs : (s.calendar.hold || s.backupLost) = false) :
    Ticked s s.secondTick := by
  have stands : ¬ (s.calendar.hold || s.backupLost) = true := by rw [runs]; decide
  rw [State.secondTick, if_neg stands]
  split
  · exact s.secondTickPowered_ticked
  · exact s.setNow_zeroPhase_ticked rfl

/-- The row SECOND_TICK, in either supply state. -/
theorem State.after_secondTick_ticked {s : State} (runs : (s.calendar.hold || s.backupLost) = false) :
    Ticked s (s.after .secondTick) := by
  by_cases powered : s.powered = true
  · have row : s.after .secondTick = s.restartFirst.secondTick.settle := by
      change (match execSecondTick s with | .next t => t | .fault _ | .refused _ => s) = _
      rw [execSecondTick, if_pos powered]
      rfl
    have restarted := s.restartFirst_sameClock
    rw [row]
    exact Ticked.after restarted
      (State.secondTick_ticked (by rw [restarted.calendar, restarted.backupLost]; exact runs))
      (State.settle_sameClock _)
  · have row : s.after .secondTick = s.secondTick := by
      change (match execSecondTick s with | .next t => t | .fault _ | .refused _ => s) = _
      rw [execSecondTick, if_neg powered]
    rw [row]
    exact State.secondTick_ticked runs

/-! ### The crystal (log 5) -/

section Crystal

variable {s : State}

theorem State.crystalClock_within (within : s.crystalCount + 1 < 900) :
    s.crystalClock = { s with crystalCount := s.crystalCount + 1 } := if_pos within

theorem State.crystalClock_stands (ends : ¬ s.crystalCount + 1 < 900)
    (stands : (s.calendar.hold || s.backupLost) = true) : s.crystalClock = { s with crystalCount := 0 } :=
  (if_neg ends).trans (if_pos stands)

theorem State.crystalClock_advances (ends : ¬ s.crystalCount + 1 < 900)
    (runs : (s.calendar.hold || s.backupLost) = false) (within : s.calendar.phase + 1 < 32768) :
    s.crystalClock = { s with crystalCount := 0, calendar := { s.calendar with phase := s.calendar.phase + 1 } } :=
  (if_neg ends).trans ((if_neg (ne_true_of_eq_false runs)).trans (if_pos within))

/-- A phase that wraps is a second tick at the beginning of a crystal period (R134). -/
theorem State.crystalClock_wraps (ends : ¬ s.crystalCount + 1 < 900)
    (runs : (s.calendar.hold || s.backupLost) = false) (wraps : ¬ s.calendar.phase + 1 < 32768) :
    s.crystalClock = State.after { s with crystalCount := 0 } .secondTick :=
  (if_neg ends).trans ((if_neg (ne_true_of_eq_false runs)).trans (if_neg wraps))

theorem State.crystalClock_ticked (ends : ¬ s.crystalCount + 1 < 900)
    (runs : (s.calendar.hold || s.backupLost) = false) (wraps : ¬ s.calendar.phase + 1 < 32768) :
    Ticked s s.crystalClock := by
  rw [State.crystalClock_wraps ends runs wraps]
  obtain ⟨phase, crystalCount, later⟩ := State.after_secondTick_ticked (s := { s with crystalCount := 0 }) runs
  exact ⟨phase, crystalCount, later⟩

/-- The end of a crystal period begins the next, whatever the calendar does (log 5). -/
theorem State.crystalCount_crystalClock (ends : ¬ s.crystalCount + 1 < 900) : s.crystalClock.crystalCount = 0 := by
  cases runs : s.calendar.hold || s.backupLost with
  | true => rw [State.crystalClock_stands ends runs]
  | false =>
    by_cases within : s.calendar.phase + 1 < 32768
    · rw [State.crystalClock_advances ends runs within]
    · exact (State.crystalClock_ticked ends runs within).crystalCount

/-- The calendar stands still before a crystal period ends, on HOLD and with the backup domain's contents lost. -/
theorem State.calendar_crystalClock_stands
    (h : s.crystalCount + 1 < 900 ∨ (s.calendar.hold || s.backupLost) = true) :
    s.crystalClock.calendar = s.calendar := by
  by_cases within : s.crystalCount + 1 < 900
  · rw [State.crystalClock_within within]
  · rw [State.crystalClock_stands within (h.resolve_left within)]

end Crystal

/-! ### O2 -/

theorem step_of_idle {s : State} (idle : s.pending = []) :
    step s = .next s.restartFirst.clkPass.takeAllDue.crystalClock := by
  rw [step, idle]
  rfl

/-- An idle step is the crystal's period on a state that shows the clock of the state before. -/
theorem step_idle {s t : State} (idle : s.pending = []) (next : step s = .next t) :
    ∃ u, SameClock s u ∧ t = u.crystalClock := by
  rw [step_of_idle idle] at next
  exact ⟨_, s.beforeCrystal_sameClock, (Host.Outcome.next.inj next).symm⟩

/-- The CLK periods since the present second began, while the phase counts it. -/
def State.intoSecond (s : State) : Nat := s.calendar.phase * 900 + s.crystalCount

theorem State.idle_clock {s t : State} (idle : s.pending = []) (next : step s = .next t) :
    (s.crystalCount + 1 < 900 → t.crystalCount = s.crystalCount + 1) ∧
    (s.crystalCount = 899 → t.crystalCount = 0) ∧
    (s.crystalCount + 1 < 900 ∨ s.calendar.hold = true ∨ s.backupLost = true → t.calendar = s.calendar) ∧
    (s.crystalCount = 899 → s.calendar.hold = false → s.backupLost = false →
      (s.calendar.phase + 1 < 32768 → t.calendar = { s.calendar with phase := s.calendar.phase + 1 }) ∧
      (s.calendar.phase = 32767 → Ticked s t)) := by
  obtain ⟨u, ⟨calendar, crystalCount, backupLost, staged⟩, rfl⟩ := step_idle idle next
  rw [← calendar, ← crystalCount, ← backupLost]
  refine ⟨fun within => ?_, fun last => ?_, fun stands => ?_, fun last hold lost => ⟨fun within => ?_, fun last' => ?_⟩⟩
  · rw [State.crystalClock_within within]
  · exact State.crystalCount_crystalClock (by omega)
  · exact State.calendar_crystalClock_stands (by simpa using stands)
  · rw [State.crystalClock_advances (by omega) (by simp [hold, lost]) within]
  · exact Ticked.after ⟨calendar, crystalCount, backupLost, staged⟩
      (State.crystalClock_ticked (by omega) (by simp [hold, lost]) (by omega)) (SameClock.refl _)

/-- A CLK period of a running second is one of its 29,491,200 (R134). -/
theorem State.idle_intoSecond {s t : State} (idle : s.pending = []) (next : step s = .next t)
    (hold : s.calendar.hold = false) (lost : s.backupLost = false) (count : s.crystalCount < 900)
    (phase : s.calendar.phase < 32768) :
    (s.intoSecond + 1 < 29491200 → t.intoSecond = s.intoSecond + 1 ∧ t.calendar.now = s.calendar.now) ∧
    (s.intoSecond + 1 = 29491200 →
      t.intoSecond = 0 ∧ (s.staged = none → t.calendar.now = s.calendar.now.nextSecond)) := by
  obtain ⟨within, ends, stands, runs⟩ := State.idle_clock idle next
  unfold State.intoSecond
  refine ⟨fun early => ?_, fun last => ?_⟩
  · by_cases inPeriod : s.crystalCount + 1 < 900
    · rw [stands (.inl inPeriod), within inPeriod]
      exact ⟨(Nat.add_assoc _ _ _).symm, rfl⟩
    · have last : s.crystalCount = 899 := by omega
      obtain ⟨advances, -⟩ := runs last hold lost
      rw [advances (by omega), ends last]
      exact ⟨by simp only; omega, rfl⟩
  · obtain ⟨-, wraps⟩ := runs (by omega) hold lost
    obtain ⟨phase, crystalCount, later⟩ := wraps (by omega)
    rw [phase, crystalCount]
    exact ⟨rfl, fun none => by rw [later none]⟩

/-- What one CLK period leaves of a port, field by field. -/
theorem State.clkPass_port {s : State} (powered : s.powered = true) (p : Port) :
    let u := s.port p
    let v := s.clkPass.port p
    let msEnds : Prop := 294912 ≤ s.msCount + 10
    v.line = u.line.longer ∧
      (∀ pos n, u.state = .sending pos n → v.state = .sending pos (n + 1)) ∧
      (∀ n, u.state = .guard n → v.state = .guard (n - 1)) ∧
      (∀ n, u.state = .contained n → (msEnds → v.state = .contained (n - 1)) ∧ (¬ msEnds → v.state = .contained n)) ∧
      ((∀ pos n, u.state ≠ .sending pos n) → (∀ n, u.state ≠ .guard n ∧ u.state ≠ .contained n) →
        v.state = u.state) ∧
      (msEnds → u.state.monitored = true → (∀ n, u.line = .idle n → n + 1 < 2 * 11 * u.params.baud.clkPerBit) →
        v.busySpan = u.busySpan + 1) ∧
      (¬ msEnds ∨ u.state.monitored = false ∨ (∃ n, u.line = .idle n ∧ 2 * 11 * u.params.baud.clkPerBit ≤ n + 1) →
        v.busySpan = u.busySpan) ∧
      v = { u with state := v.state, line := v.line, busySpan := v.busySpan } := by
  intro u v msEnds
  have later : v = u.afterClk (decide msEnds) := State.port_clkPass powered p
  have state : v.state = if msEnds then u.state.clkLater.msLater else u.state.clkLater := by
    rw [later, PortUnit.state_afterClk]
    simp
  have busySpan := u.busySpan_afterClk (decide msEnds)
  rw [← later] at busySpan
  refine ⟨by rw [later, PortUnit.line_afterClk], ?sending, ?guard, ?contained, ?other, ?grows, ?stays,
    by rw [later]; exact u.afterClk_eq _⟩
  case sending => intro pos n e; rw [state, e]; exact ite_self _
  case guard => intro n e; rw [state, e]; exact ite_self _
  case contained =>
    intro n e
    rw [state, e]
    exact ⟨fun ends => if_pos ends, fun within => if_neg within⟩
  case other =>
    intro notSending notTimed
    rw [state]
    cases e : u.state with
    | sending pos n => exact absurd e (notSending pos n)
    | guard n => exact absurd e (notTimed n).1
    | contained n => exact absurd e (notTimed n).2
    | disabled | listen | receiving r | backoff n => exact ite_self _
  case grows =>
    intro ends monitored short
    have notQuiet : u.line.longer.quietFor (u.params.baud.ct 2) = false := by
      cases e : u.line with
      | idle n => exact decide_eq_false (Nat.not_le.mpr (short n e))
      | character | undecoded | startLevel => rfl
    rw [busySpan, if_pos ⟨decide_eq_true ends, monitored, notQuiet⟩]
  case stays =>
    rintro h
    rw [busySpan, if_neg]
    rintro ⟨ends, monitored, short⟩
    obtain within | notMonitored | ⟨n, line, long⟩ := h
    · exact within (of_decide_eq_true ends)
    · rw [notMonitored] at monitored
      exact Bool.noConfusion monitored
    · have quiet : u.line.longer.quietFor (u.params.baud.ct 2) = true :=
        (LineState.quietFor_iff _ _).mpr ⟨n + 1, by rw [line]; rfl, by rw [Baud.ct_eq]; exact long⟩
      rw [quiet] at short
      exact Bool.noConfusion short

/-- Settles O2: the measures of time by the equation of a port one CLK period later, the calendar by the clock that every
event but the second tick leaves as it is. -/
theorem idleStepPassesTime : Obligations.IdleStepPassesTime := by
  refine ⟨?idle, ?unpowered, ?powered, ?taken, fun _ => rfl, ?timed, ?clock, ?second⟩
  case idle => exact fun s idle => step_of_idle idle
  case unpowered =>
    intro s dark
    rw [State.clkPass, dark]
    rfl
  case powered =>
    intro s powered t msEnds
    have within (h : ¬ msEnds) := State.clkPass_within powered (Nat.lt_of_not_le h)
    have ends (h : msEnds) := State.clkPass_msEnds powered h
    refine ⟨fun h => ?_, fun h => ?_, fun p => ?_, fun h => ⟨?_, fun i => ?_⟩, fun h => ⟨?_, ?_⟩, s.clkPass_eq⟩
    · rw [show t = _ from within (Nat.not_le.mpr h)]
    · rw [show t = _ from ends h]
    · obtain ⟨line, rest⟩ := State.clkPass_port powered p
      refine ⟨line.trans ?_, rest⟩
      cases (s.port p).line <;> rfl
    · rw [show t = _ from ends h]
    · rw [State.tx, show t = _ from ends h, Vector.get_eq_getElem, Vector.getElem_map]
      exact TxEntry.msLater_eq _
    · rw [show t = _ from within h]
    · rw [show t = _ from within h]
  case taken =>
    intro s t c restarted
    refine ⟨fun due row => ?_, takeDue_of_notDue s c restarted⟩
    rw [State.takeDue, restarted, if_pos due, State.after, row]
  case timed =>
    intro p i c mem
    rw [mem_timedEvents]
    simp only [List.mem_cons, List.not_mem_nil, or_false] at mem
    obtain rfl | rfl | rfl | rfl | rfl | rfl | rfl | rfl | rfl | rfl | rfl := mem <;> simp
  case clock =>
    intro s t idle next
    obtain ⟨within, ends, stands, runs⟩ := State.idle_clock idle next
    exact ⟨within, ends, stands, fun last hold lost =>
      ⟨(runs last hold lost).1, fun wraps none => ((runs last hold lost).2 wraps).later none⟩⟩
  case second => exact fun s t idle next hold lost count phase => State.idle_intoSecond idle next hold lost count phase

end Sys2Proof.Machine
end

