-- ==== Sys2Proof/Proofs/Resets.lean ====
section
/-! PROOFS. Resets: the ports each kind leaves, the evaluation on empty queues, and the whole state after a reset. -/

namespace Sys2Proof.Machine

/-! ### An evaluation and the end of an event on empty queues -/

/-- A withdrawal, a purge or a start finds nothing in empty queues. -/
def State.QueuesEmpty (s : State) : Prop := ∀ p, (s.port p).queue = []

theorem State.purgeWindow_of_empty {s : State} {p : Port} (empty : (s.port p).queue = []) : s.purgeWindow p = s := by
  have kept : s.setQueue p [] = s := State.updPort_of_eq s p (by rw [← empty])
  simp [State.purgeWindow, State.queue, empty, kept, removeAll]

theorem foldl_fixed {α β : Type} {f : β → α → β} {b : β} {l : List α} (h : ∀ a ∈ l, f b a = b) : l.foldl f b = b := by
  induction l with
  | nil => rfl
  | cons a l ih =>
    rw [List.foldl_cons, h a (List.mem_cons_self ..)]
    exact ih fun x mem => h x (List.mem_cons_of_mem _ mem)

/-- An evaluation with nothing queued records the dispositions it forms, and that is all (R152). -/
theorem State.evaluate_of_empty {s : State} (empty : s.QueuesEmpty) :
    s.evaluate = { s with dispositions := s.formDispositions } := by
  refine foldl_fixed fun p _ => ?_
  split
  · exact State.purgeWindow_of_empty (empty p)
  · rfl

theorem PortUnit.canStart_of_empty {u : PortUnit} (empty : u.queue = []) : u.canStart = false := by
  simp [PortUnit.canStart, empty]

/-- With no restart pending and nothing queued the part is quiescent. -/
theorem State.quiescent_of_empty {s : State} (restart : s.restart = none) (empty : s.QueuesEmpty) :
    s.quiescent = true :=
  s.quiescent_iff.mpr ⟨by rw [restart]; rfl, fun p => PortUnit.canStart_of_empty (empty p)⟩

/-! ### The ports a reset leaves -/

theorem ports_eq (v : Vector PortUnit 4) : v = #v[v.get 0, v.get 1, v.get 2, v.get 3] := by
  refine Vector.ext fun i hi => ?_
  match i, hi with
  | 0, _ | 1, _ | 2, _ | 3, _ => rfl

/-- Every port changed in its own way: nothing but the ports differs, and they stand as listed. -/
theorem foldl_updPort_allPorts (f : Port → PortUnit → PortUnit) (s : State) :
    allPorts.foldl (fun s p => s.updPort p (f p)) s =
      { s with ports := #v[f 0 (s.port 0), f 1 (s.port 1), f 2 (s.port 2), f 3 (s.port 3)] } := by
  have changed (p : Port) : (allPorts.foldl (fun s p => s.updPort p (f p)) s).port p = f p (s.port p) :=
    (port_foldl_updPort f (List.nodup_finRange 4) s p).trans (if_pos (List.mem_finRange p))
  rw [foldl_updPort_eq, ports_eq (allPorts.foldl (fun s p => s.updPort p (f p)) s).ports,
    ← changed 0, ← changed 1, ← changed 2, ← changed 3]
  rfl

theorem PortUnit.reset_default (u : PortUnit) (straps : Straps) (p : Port) :
    u.reset (defaultPortParams straps p) (Vector.replicate 11 0) =
      { resetPort straps p with line := u.line.afresh } := rfl

/-- The calendar not being valid, or no window being enabled, every disposition is OPEN (R149). -/
theorem State.formDisposition_of_idleWindows {s : State} (idle : s.windows = Vector.replicate 24 idleWindow) (p : Port) :
    s.formDisposition p = .opened := by
  have inactive (day minute : Nat) : idleWindow.active day minute = false := rfl
  rw [State.formDisposition, idle]
  split
  · refine foldl_fixed fun w mem => ?_
    obtain rfl : w = idleWindow := by simpa using mem
    rw [inactive]
    rfl
  · rfl

theorem State.formDispositions_of_idleWindows {s : State} (idle : s.windows = Vector.replicate 24 idleWindow) :
    s.formDispositions = Vector.replicate 4 .opened := by
  simp only [State.formDispositions, State.formDisposition_of_idleWindows idle]
  rfl

/-! ### The whole state after a reset -/

theorem State.queuesEmpty_of_ports {s : State} {a b c d : PortUnit} (ports : s.ports = #v[a, b, c, d])
    (ha : a.queue = []) (hb : b.queue = []) (hc : c.queue = []) (hd : d.queue = []) : s.QueuesEmpty := by
  intro p
  rw [State.port, ports]
  match p with
  | 0 => exact ha
  | 1 => exact hb
  | 2 => exact hc
  | 3 => exact hd

/-- A reset that samples the straps (R40, R49, R59, R63, R78, R106, R156, R174, R181 to R183, R188). -/
theorem State.resetToDefaults_eq (s : State) (cause : ResetCause) (straps : Straps) :
    s.resetToDefaults cause straps = { s.afterReset cause straps with powered := s.powered } := by
  have defaults : (s.clearVolatile cause).setDefaults straps =
      { s.afterReset cause straps with powered := s.powered } := by
    rw [State.setDefaults, State.resetPortsToDefaults, foldl_updPort_allPorts]
    simp only [PortUnit.reset_default]
    rfl
  rw [State.resetToDefaults, defaults, State.evaluate_of_empty (State.queuesEmpty_of_ports rfl rfl rfl rfl rfl),
    State.formDispositions_of_idleWindows rfl]
  rfl

/-- CALENDAR_LOST raised on a part that has just been reset: no cause is pending, the mode is LATCHED and no recipient is
set, so that it enters the pending set and nothing else happens (R189 to R194). -/
theorem State.raise_calendarLost_of_reset {s : State} (none : s.pendingAlerts = 0)
    {straps : Straps} (params : s.params = defaultCouplerParams straps) :
    s.raise .calendarLost = { s with pendingAlerts := 0b1000000#7 } := by
  have mode : s.params.alertMode = .latched := by rw [params]; rfl
  have mask : s.params.alertMask = 0 := by rw [params]; rfl
  have recipient : s.params.alertRecipient = 0 := by rw [params]; rfl
  simp [State.raise, State.alertNotice, none, mode, mask, recipient, AlertCause.mask, AlertCause.code]

/-- A cold start (R144, R194): the reset of the main domain, the backup domain's own values, CALENDAR_LOST pending. -/
theorem State.resetCold_eq (s : State) (straps : Straps) :
    s.resetCold straps =
      { s.afterReset .cold straps with
        calendar := coldCalendar, crystalCount := 0, backupSupply := true, backupLost := false
        pendingAlerts := 0b1000000#7 } := by
  rw [State.resetCold, State.resetToDefaults_eq, State.raise_calendarLost_of_reset (straps := straps) rfl rfl]
  rfl

/-- A port at a warm restart (R39, R40, R188): its parameters and counters are kept. -/
def PortUnit.afterWarm (u : PortUnit) : PortUnit :=
  ⟨if u.params.enable then .listen else .disabled, u.line.afresh, .oneCt, 0, u.params, [], u.counters⟩

/-- A warm restart (R179, R183): parameters, tables and counters are kept, everything under way is gone. -/
theorem State.resetWarm_eq (s : State) :
    s.resetWarm =
      { s with
        ports := #v[(s.port 0).afterWarm, (s.port 1).afterWarm, (s.port 2).afterWarm, (s.port 3).afterWarm]
        pool := Vector.replicate 48 freeBuffer
        freeList := fullFreeList
        nextStamp := 0
        transactions := Vector.replicate 32 .free
        nextLapse := 0
        dispositions := s.formDispositions
        staged := none
        managers := s.managers.map keepAddress
        pendingAlerts := 0
        pulse := none
        restart := none
        resetCause := .warm } := by
  have kept : (s.clearVolatile .warm).resetPortsKept =
      { s.clearVolatile .warm with
        ports := #v[(s.port 0).afterWarm, (s.port 1).afterWarm, (s.port 2).afterWarm, (s.port 3).afterWarm] } := by
    rw [State.resetPortsKept, foldl_updPort_allPorts fun _ u => u.reset u.params u.counters]
    rfl
  rw [State.resetWarm, kept]
  exact State.evaluate_of_empty (State.queuesEmpty_of_ports rfl rfl rfl rfl rfl)

theorem State.quiescent_afterReset (s : State) (cause : ResetCause) (straps : Straps) :
    (s.afterReset cause straps).quiescent = true :=
  State.quiescent_of_empty rfl (State.queuesEmpty_of_ports rfl rfl rfl rfl rfl)

theorem State.quiescent_resetWarm (s : State) : s.resetWarm.quiescent = true := by
  rw [State.resetWarm_eq]
  exact State.quiescent_of_empty rfl (State.queuesEmpty_of_ports rfl rfl rfl rfl rfl)

/-! ### O57 -/

/-- The row COLD_START: the reset, and an event's end that starts nothing. -/
theorem exec_coldStart (straps : Straps) (s : State) :
    exec (.coldStart straps) s =
      .next { s.afterReset .cold straps with
        calendar := ⟨⟨2000, 1, 1, 0, 0, 0⟩, 0, false, false⟩, crystalCount := 0, backupSupply := true,
        backupLost := false, pendingAlerts := 0b1000000#7 } := by
  have quiescent : (s.resetCold straps).quiescent = true := by
    rw [State.resetCold_eq]
    exact State.quiescent_of_ports _ (s.quiescent_afterReset .cold straps) rfl rfl
  change Host.Outcome.next (s.resetCold straps).settle = _
  rw [State.settle_of_quiescent quiescent, State.resetCold_eq]
  rfl

theorem ownAddressFromStraps_eq (straps : Straps) :
    ownAddressFromStraps straps = BitVec.ofNat 8 (224 + straps.addr.toNat) := by
  apply BitVec.eq_of_toNat_eq
  have bound := straps.addr.isLt
  simp [ownAddressFromStraps]

/-- Settles O57: the whole state a cold start leaves, its defaults written out. -/
theorem coldStartResetsEverything : Obligations.ColdStartResetsEverything := by
  refine ⟨fun s straps => exec_coldStart straps s, ?_, fun straps p => ⟨rfl, rfl, ?_⟩,
    rfl, rfl, rfl, rfl, rfl, rfl, rfl, rfl, rfl, rfl, rfl, rfl, rfl, rfl, rfl⟩
  · rw [exec_coldStart]
    rfl
  · rw [← ownAddressFromStraps_eq]
    rfl

/-! ### O59 -/

/-- Settles O59: the restart that fell due is taken, and the event ends with nothing to start. -/
theorem warmRestartKeepsTheTables : Obligations.WarmRestartKeepsTheTables := by
  intro s b powered due port
  have row : exec .warmRestart s = .next s.restartFirst.settle :=
    congrArg Host.Outcome.next (if_pos powered)
  rw [row, restartFirst_of_due s _ due rfl powered, State.takeRestart,
    State.settle_of_quiescent s.quiescent_resetWarm, State.resetWarm_eq]
  rfl

end Sys2Proof.Machine
end

