-- ==== Sys2Proof/Proofs/Rows.lean ====
section
/-! PROOFS. The 62 rows in nine forms: what each row runs, said once, and that no row depends on whether a restart that fell
due was taken before it or by it. -/

namespace Sys2Proof.Machine

/-! ### The forms of a row -/

/-- What the rows that are one event of the main domain do in it. -/
inductive Effect
  | truncate (p : Port)
  | idleReaches2Ct (p : Port)
  | reachStart (p : Port)
  | missEcho (p : Port)
  | endBackoff (p : Port)
  | endGuard (p : Port)
  | contain (p : Port)
  | endContainment (p : Port)
  | lapse (t : TxIx)
  | endGrace (t : TxIx)
  | endPulse
  | pinReset (straps : Straps)
  | nothing

def Effect.apply : Effect → State → State
  | .truncate p, s => s.truncate p
  | .idleReaches2Ct p, s => s.idleReaches2Ct p
  | .reachStart p, s => s.reachStart p
  | .missEcho p, s => s.missEcho p
  | .endBackoff p, s => s.endBackoff p
  | .endGuard p, s => s.endGuard p
  | .contain p, s => if (s.port p).state.monitored then s.contain p else s
  | .endContainment p, s => s.endContainment p
  | .lapse t, s => s.lapse t
  | .endGrace t, s => s.endGrace t
  | .endPulse, s => { s with pulse := none }
  | .pinReset straps, s => s.resetToDefaults .pin straps
  | .nothing, s => s

/-- What the rows that name a port's line do on it. -/
inductive LineEffect
  | character (c : LineCharacter)
  | startBit
  | lineReturns

def LineEffect.apply (p : Port) : LineEffect → State → State
  | .character c, s => s.receiveCharacter p c
  | .startBit, s => s.updPort p PortUnit.startBit
  | .lineReturns, s => s.updPort p PortUnit.lineReturns

/-- The level such a row leaves on the line of an unpowered part (log 12). -/
def LineEffect.level : LineEffect → LineState → LineState
  | .character c, _ => lineAfter c
  | .startBit, l => l.disturbed
  | .lineReturns, l => l.released

/-- A row: one event, one event on a line, a frame (for the own address as it stands where it is a management row), or one
of the rows about the supplies and the resets. -/
inductive Row
  | main (e : Effect)
  | line (p : Port) (e : LineEffect)
  | frame (p : Port) (f : Byte → Frame) (k : Kind)
  | secondTick
  | coldStart (straps : Straps)
  | powerStart (straps : Straps)
  | fullRestart (straps : Straps)
  | mainPowerLoss
  | backupSupplyLoss

/-- The straps a FULL_RESTART reads: its own where a full restart has fallen due, else it is no event (R181, log 8). -/
def State.readsStraps (s : State) (straps : Straps) : State :=
  if s.powered && s.restartDue .full then { s with straps := straps } else s

/-- The state a row leaves. -/
def Row.run : Row → State → State
  | .main e, s => if s.powered then s.inEvent e.apply else s
  | .line p e, s => s.lineEvent p (e.apply p) e.level
  | .frame p f k, s => s.receiveFrame p (framedChars (f s.restartFirst.params.ownAddress) k)
  | .secondTick, s => if s.powered then s.inEvent State.secondTick else s.secondTick
  | .coldStart straps, s => (s.resetCold straps).settle
  | .powerStart straps, s => (s.powerOn straps).settle
  | .fullRestart straps, s =>
    if (s.readsStraps straps).powered then (s.readsStraps straps).inEvent id else s.readsStraps straps
  | .mainPowerLoss, s => if s.powered then s.restartFirst.losePower else s
  | .backupSupplyLoss, s =>
    if s.restartFirst.powered then { s.restartFirst with backupSupply := false }
    else State.loseBackup { s.restartFirst with backupSupply := false }

/-- The form of each row. -/
def rowOf (c : Instr) : Row :=
  match carriedCommand c with
  | some (p, h, code, args) => .frame p (fun own => commandFrame own code h args) .manage
  | none =>
    match c with
    | .addressCharacter p v => .line p (.character (.good v true))
    | .dataCharacter p v => .line p (.character (.good v false))
    | .framingErrorCharacter p => .line p (.character .framingError)
    | .echoCharacter p c => .line p (.character c)
    | .startBit p => .line p .startBit
    | .lineReturnsToIdle p => .line p .lineReturns
    | .datagram p f => .frame p (fun _ => f) .datagram
    | .request p f => .frame p (fun _ => f) .request
    | .reply p f => .frame p (fun _ => f) .reply
    | .notice p f => .frame p (fun _ => f) .notice
    | .manage p f => .frame p (fun _ => f) .manage
    | .result p f => .frame p (fun _ => f) .result
    | .truncated p => .main (.truncate p)
    | .idleStretchReaches2Ct p => .main (.idleReaches2Ct p)
    | .startTransmission p => .main (.reachStart p)
    | .missingEcho p => .main (.missEcho p)
    | .backoffEnd p => .main (.endBackoff p)
    | .guardExpiry p => .main (.endGuard p)
    | .containment p => .main (.contain p)
    | .containmentExpiry p => .main (.endContainment p)
    | .deadlineExpiry t => .main (.lapse t)
    | .graceExpiry t => .main (.endGrace t)
    | .pulseEnd => .main .endPulse
    | .pinReset straps => .main (.pinReset straps)
    | .secondTick => .secondTick
    | .coldStart straps => .coldStart straps
    | .powerStart straps => .powerStart straps
    | .fullRestart straps => .fullRestart straps
    | .mainPowerLoss => .mainPowerLoss
    | .backupSupplyLoss => .backupSupplyLoss
    | _ => .main .nothing

theorem execSecondTick_eq (s : State) : execSecondTick s = .next (Row.run .secondTick s) := by
  cases powered : s.powered <;> simp [execSecondTick, Row.run, powered]

/-- Every row goes on, and leaves what its form runs. -/
theorem exec_eq_run (c : Instr) (s : State) : exec c s = .next ((rowOf c).run s) := by
  cases c
  case secondTick => exact execSecondTick_eq s
  all_goals rfl

/-! ### A restart that fell due, taken before a row or by it -/

theorem get_fourPorts (f : Port → PortUnit) (p : Port) : (#v[f 0, f 1, f 2, f 3] : Vector PortUnit 4).get p = f p := by
  match p with
  | 0 | 1 | 2 | 3 => rfl

theorem State.port_resetWarm (s : State) (p : Port) : s.resetWarm.port p = (s.port p).afterWarm := by
  rw [State.resetWarm_eq]
  exact get_fourPorts (fun p => (s.port p).afterWarm) p

theorem State.port_resetToDefaults (s : State) (cause : ResetCause) (straps : Straps) (p : Port) :
    (s.resetToDefaults cause straps).port p = s.portAfterReset straps p := by
  rw [State.resetToDefaults_eq]
  exact get_fourPorts (s.portAfterReset straps) p

/-- The backup domain, the clocks and the commands that wait are no part of a restart (R144, log 5). -/
theorem State.kept_takeRestart (s : State) (k : RestartKind) :
    (s.takeRestart k).calendar = s.calendar ∧ (s.takeRestart k).backupSupply = s.backupSupply ∧
      (s.takeRestart k).backupLost = s.backupLost ∧ (s.takeRestart k).crystalCount = s.crystalCount ∧
      (s.takeRestart k).msCount = s.msCount ∧ (s.takeRestart k).pending = s.pending := by
  cases k
  · rw [State.takeRestart, State.resetWarm_eq]
    exact ⟨rfl, rfl, rfl, rfl, rfl, rfl⟩
  · rw [State.takeRestart, State.resetToDefaults_eq]
    exact ⟨rfl, rfl, rfl, rfl, rfl, rfl⟩

/-- What a restart leaves of the items that a reset after it takes up again. -/
theorem State.afterReset_takeRestart (s : State) (k : RestartKind) (cause : ResetCause) (straps : Straps) :
    (s.takeRestart k).afterReset cause straps = s.afterReset cause straps := by
  have lines (p : Port) : ((s.takeRestart k).port p).line = (s.port p).line.afresh := by
    cases k
    · rw [State.takeRestart, State.port_resetWarm]
      rfl
    · rw [State.takeRestart, State.port_resetToDefaults]
      rfl
  have ports (p : Port) : (s.takeRestart k).portAfterReset straps p = s.portAfterReset straps p := by
    rw [State.portAfterReset, lines, afresh_afresh]
    rfl
  obtain ⟨calendar, supply, lost, crystal, ms, pending⟩ := s.kept_takeRestart k
  simp only [State.afterReset, ports, calendar, supply, lost, crystal, ms, pending]

/-- Taking what fell due either does nothing or is a restart, main power being present and the restart pending as due. -/
theorem State.restartFirst_cases (s : State) :
    s.restartFirst = s ∨
      ∃ r, s.restart = some r ∧ r.due = true ∧ s.powered = true ∧ s.restartFirst = s.takeRestart r.kind := by
  cases restart : s.restart with
  | none => exact .inl (restartFirst_of_none s restart)
  | some r =>
    by_cases due : r.due = true ∧ s.powered = true
    · exact .inr ⟨r, rfl, due.1, due.2, restartFirst_of_due s r restart due.1 due.2⟩
    · exact .inl (by simp [State.restartFirst, restart, due])

theorem State.powered_takeRestart (s : State) (k : RestartKind) : (s.takeRestart k).powered = s.powered := by
  cases k
  · rw [State.takeRestart, State.resetWarm_eq]
  · rw [State.takeRestart, State.resetToDefaults_eq]

@[simp] theorem State.powered_restartFirst (s : State) : s.restartFirst.powered = s.powered := by
  obtain same | ⟨r, -, -, -, taken⟩ := s.restartFirst_cases
  · rw [same]
  · rw [taken, State.powered_takeRestart]

theorem State.restartFirst_of_unpowered {s : State} (dark : s.powered = false) : s.restartFirst = s := by
  obtain same | ⟨r, -, -, powered, -⟩ := s.restartFirst_cases
  · exact same
  · rw [dark] at powered
    exact Bool.noConfusion powered

/-- A reset takes up the same items whether or not a restart came before it. -/
theorem State.afterReset_restartFirst (s : State) (cause : ResetCause) (straps : Straps) :
    s.restartFirst.afterReset cause straps = s.afterReset cause straps := by
  obtain same | ⟨r, -, -, -, taken⟩ := s.restartFirst_cases
  · rw [same]
  · rw [taken, State.afterReset_takeRestart]

theorem State.resetCold_restartFirst (s : State) (straps : Straps) :
    s.restartFirst.resetCold straps = s.resetCold straps := by
  rw [State.resetCold_eq, State.resetCold_eq, State.afterReset_restartFirst]

theorem State.powerOn_restartFirst (s : State) (straps : Straps) :
    s.restartFirst.powerOn straps = s.powerOn straps := by
  obtain ⟨lost, supply⟩ : s.restartFirst.backupLost = s.backupLost ∧ s.restartFirst.backupSupply = s.backupSupply := by
    obtain same | ⟨r, -, -, -, taken⟩ := s.restartFirst_cases
    · rw [same]
      exact ⟨rfl, rfl⟩
    · rw [taken]
      obtain ⟨-, supply, lost, -⟩ := s.kept_takeRestart r.kind
      exact ⟨lost, supply⟩
  have start : State.resetToDefaults { s.restartFirst with powered := true } .power straps =
      State.resetToDefaults { s with powered := true } .power straps := by
    rw [State.resetToDefaults_eq, State.resetToDefaults_eq]
    exact congrArg (fun t : State => { t with powered := true }) (s.afterReset_restartFirst .power straps)
  exact ite_congr (by rw [lost, supply]) (fun _ => s.resetCold_restartFirst straps) fun _ => start

theorem State.inEvent_restartFirst (s : State) (f : State → State) : s.restartFirst.inEvent f = s.inEvent f := by
  rw [State.inEvent, State.inEvent, restartFirst_restartFirst]

theorem State.lineEvent_restartFirst (s : State) (p : Port) (f : State → State) (level : LineState → LineState) :
    s.restartFirst.lineEvent p f level = s.lineEvent p f level := by
  by_cases powered : s.powered = true
  · simp only [State.lineEvent, State.powered_restartFirst, powered, if_true, State.inEvent_restartFirst]
  · rw [State.restartFirst_of_unpowered (Bool.eq_false_of_not_eq_true powered)]

/-- The first character of a frame takes a restart that fell due. -/
theorem State.receiveFrame_restartFirst (s : State) (p : Port) {d : Byte} {rest : List Byte} :
    s.restartFirst.receiveFrame p (d :: rest) = s.receiveFrame p (d :: rest) := by
  simp only [State.receiveFrame, lineCharacters, List.foldl_cons, State.takeCharacter, State.lineEvent_restartFirst]

/-- A restart that fell due is taken by a row just as if it had been taken before it, but for a FULL_RESTART, which reads
straps of its own (R179, R181, log 8). -/
theorem Row.run_restartFirst {r : Row} (notFull : ∀ straps, r ≠ .fullRestart straps) (s : State) :
    r.run s.restartFirst = r.run s := by
  have dark (h : ¬ s.powered = true) : s.restartFirst = s :=
    State.restartFirst_of_unpowered (Bool.eq_false_of_not_eq_true h)
  cases r with
  | main e =>
    by_cases powered : s.powered = true
    · simp only [Row.run, State.powered_restartFirst, powered, if_true, State.inEvent_restartFirst]
    · rw [dark powered]
  | line p e => exact s.lineEvent_restartFirst p _ _
  | frame p f k =>
    rw [Row.run, Row.run, restartFirst_restartFirst]
    exact s.receiveFrame_restartFirst p
  | secondTick =>
    by_cases powered : s.powered = true
    · simp only [Row.run, State.powered_restartFirst, powered, if_true, State.inEvent_restartFirst]
    · rw [dark powered]
  | coldStart straps => rw [Row.run, Row.run, State.resetCold_restartFirst]
  | powerStart straps => rw [Row.run, Row.run, State.powerOn_restartFirst]
  | fullRestart straps => exact absurd rfl (notFull straps)
  | mainPowerLoss =>
    by_cases powered : s.powered = true
    · simp only [Row.run, State.powered_restartFirst, powered, if_true, restartFirst_restartFirst]
    · rw [dark powered]
  | backupSupplyLoss => simp only [Row.run, restartFirst_restartFirst]

theorem rowOf_ne_fullRestart {c : Instr} (notFull : ∀ straps, c ≠ .fullRestart straps) (straps : Straps) :
    rowOf c ≠ .fullRestart straps := by
  cases c
  case fullRestart other => exact absurd rfl (notFull other)
  all_goals exact fun e => Row.noConfusion e

/-! ### The end of an event -/

/-- A port that meets the start condition marks the first entry of its queue and enters SENDING (R21, R22, R20). -/
def PortUnit.started (u : PortUnit) : PortUnit :=
  match u.queue with
  | [] => u
  | e :: rest =>
    if u.canStart then { u with queue := { e with inTx := true } :: rest, state := .sending 0 0 } else u

theorem PortUnit.started_of_cannotStart {u : PortUnit} (h : u.canStart = false) : u.started = u := by
  unfold PortUnit.started
  split
  · rfl
  · rw [h]
    rfl

theorem PortUnit.started_of_canStart {u : PortUnit} (h : u.canStart = true) {e : QueueEntry} {rest : List QueueEntry}
    (queue : u.queue = e :: rest) :
    u.started = { u with queue := { e with inTx := true } :: rest, state := .sending 0 0 } := by
  simp only [PortUnit.started, queue, h, if_true]

theorem PortUnit.canStart_iff (u : PortUnit) :
    u.canStart = true ↔
      u.state = .listen ∧ u.queue ≠ [] ∧ ∃ len, u.line = .idle len ∧ u.params.quiet * 11 * u.params.baud.clkPerBit ≤ len := by
  simp [PortUnit.canStart, LineState.quietFor_iff, Baud.ct_eq, and_assoc]

/-- After its test no port meets the start condition (R21). -/
theorem PortUnit.canStart_started (u : PortUnit) : u.started.canStart = false := by
  cases start : u.canStart with
  | false => rw [PortUnit.started_of_cannotStart start, start]
  | true =>
    obtain ⟨-, nonempty, -⟩ := u.canStart_iff.mp start
    cases queue : u.queue with
    | nil => exact absurd queue nonempty
    | cons e rest =>
      rw [PortUnit.started_of_canStart start queue]
      exact PortUnit.canStart_of_state fun e => PortState.noConfusion e

theorem State.testStart_eq (s : State) (p : Port) : s.testStart p = s.updPort p PortUnit.started := by
  rw [State.testStart, State.canStart_eq]
  split
  · rename_i start
    obtain ⟨-, nonempty, -⟩ := (s.port p).canStart_iff.mp start
    refine s.updPort_congr p ?_
    cases queue : (s.port p).queue with
    | nil => exact absurd queue nonempty
    | cons e rest => rw [PortUnit.started_of_canStart start queue]
  · rename_i cannot
    exact (s.updPort_of_eq p (PortUnit.started_of_cannotStart (Bool.eq_false_of_not_eq_true cannot))).symm

theorem State.testStarts_eq (s : State) : s.testStarts = s.updPorts PortUnit.started := by
  have tests : State.testStart = fun s p => s.updPort p PortUnit.started :=
    funext fun s => funext fun p => s.testStart_eq p
  rw [State.testStarts, tests]
  rfl

/-- No restart has fallen due. -/
def State.NotDue (s : State) : Prop := (s.restart.any fun r => r.due) = false

theorem State.settle_of_notDue {s : State} (h : s.NotDue) : s.settle = s.updPorts PortUnit.started := by
  rw [State.settle, show (s.restart.any fun r => r.due) = false from h, State.testStarts_eq]
  rfl

theorem State.settle_of_due {s : State} (h : (s.restart.any fun r => r.due) = true) : s.settle = s := if_pos h

/-- The end of an event moves nothing but the ports. -/
theorem State.settle_eq (s : State) : s.settle = { s with ports := s.settle.ports } := by
  cases due : s.restart.any fun r => r.due with
  | true => rw [State.settle_of_due due]
  | false => rw [State.settle_of_notDue due, ← State.updPorts_eq]

theorem State.port_settle {s : State} (h : s.NotDue) (p : Port) : s.settle.port p = (s.port p).started := by
  rw [State.settle_of_notDue h, State.port_updPorts]

@[simp] theorem State.restart_settle (s : State) : s.settle.restart = s.restart := by rw [State.settle_eq]

@[simp] theorem State.powered_settle (s : State) : s.settle.powered = s.powered := by rw [State.settle_eq]

/-- Two states with the same ports that differ in nothing else. -/
theorem State.eq_of_ports {s t : State} (same : t = { s with ports := t.ports }) (ports : ∀ p, t.port p = s.port p) :
    t = s := by
  have eq : t.ports = s.ports := Vector.ext fun i hi => ports ⟨i, hi⟩
  rw [same, eq]

/-- The end of an event that changed one port of a quiescent part tests that port alone. -/
theorem State.settle_updPort {s : State} (quiescent : s.quiescent = true) (p : Port) (f : PortUnit → PortUnit) :
    (s.updPort p f).settle = s.updPort p fun u => (f u).started := by
  obtain ⟨notDue, cannotStart⟩ := s.quiescent_iff.mp quiescent
  have notDue' : (s.updPort p f).NotDue := notDue
  refine State.eq_of_ports ?_ fun q => ?_
  · exact (State.settle_eq _).trans rfl
  · rw [State.port_settle notDue', State.port_updPort, State.port_updPort]
    split
    · rfl
    · exact PortUnit.started_of_cannotStart (cannotStart q)

/-! ### O5 -/

/-- A port at the end of an event, by its state, its line and its queue. -/
theorem PortUnit.started_eq (u : PortUnit) :
    u.started =
      match u.state, u.line, u.queue with
      | .listen, .idle len, e :: rest =>
        if u.params.quiet * 11 * u.params.baud.clkPerBit ≤ len then
          { u with state := .sending 0 0, queue := { e with inTx := true } :: rest }
        else u
      | _, _, _ => u := by
  split
  · rename_i len e rest state line queue
    have start := u.canStart_iff
    rw [state, line, queue] at start
    split
    · rename_i long
      exact PortUnit.started_of_canStart (start.mpr ⟨rfl, List.cons_ne_nil _ _, len, rfl, long⟩) queue
    · rename_i short
      refine PortUnit.started_of_cannotStart (Bool.eq_false_of_not_eq_true fun h => short ?_)
      obtain ⟨-, -, n, e, long⟩ := start.mp h
      cases e
      exact long
  · rename_i other
    refine PortUnit.started_of_cannotStart (Bool.eq_false_of_not_eq_true fun h => ?_)
    obtain ⟨state, nonempty, len, line, -⟩ := u.canStart_iff.mp h
    obtain ⟨e, rest, queue⟩ := List.exists_cons_of_ne_nil nonempty
    exact other len e rest state line queue

/-- Settles O5: a due restart stops the tests of the start condition, and is taken by whatever row comes next. -/
theorem eventsEndInStartsAndBeginInRestarts : Obligations.EventsEndInStartsAndBeginInRestarts := by
  refine ⟨fun s k b due => ⟨?_, fun powered => ?_, State.restartFirst_of_unpowered⟩, fun c s notFull => ?_,
    fun s notDue => ?_⟩
  · exact State.settle_of_due (by rw [due]; rfl)
  · rw [restartFirst_of_due s _ due rfl powered]
    cases k <;> rfl
  · rw [exec_eq_run, exec_eq_run, Row.run_restartFirst (rowOf_ne_fullRestart notFull)]
  · have none : s.NotDue := by
      rw [State.NotDue]
      cases restart : s.restart with
      | none => rfl
      | some r => exact notDue r restart
    refine ⟨?_, fun p => ?_, s.settle_eq⟩
    · obtain same | ⟨r, restart, due, -, -⟩ := s.restartFirst_cases
      · exact same
      · rw [notDue r restart] at due
        exact Bool.noConfusion due
    · exact (State.port_settle none p).trans (PortUnit.started_eq _)

end Sys2Proof.Machine
end

