-- ==== Sys2Proof/Proofs/Transmission.lean ====
section
/-! PROOFS. A transmission: its start on a quiet line, its last character read back, and its collision. -/

namespace Sys2Proof.Machine

/-! ### The start (O34) -/

theorem exec_startTransmission (p : Port) (s : State) :
    exec (.startTransmission p) s = event (fun s => s.reachStart p) s := rfl

theorem State.reachStart_of_listen {s : State} {p : Port} {len : Nat} (st : (s.port p).state = .listen)
    (line : (s.port p).line = .idle len) :
    let stretch := max len ((s.port p).params.quiet * 11 * (s.port p).params.baud.clkPerBit)
    s.reachStart p = s.updPort p fun u =>
      { u with
        line := .idle stretch
        busySpan := if 2 * 11 * (s.port p).params.baud.clkPerBit ≤ stretch then 0 else (s.port p).busySpan } := by
  simp only [State.reachStart, st, State.reachQuiet, State.ct, Baud.ct_eq]
  refine s.updPort_congr p ?_
  rw [reachQuiet_of_idle _ _ _ line]
  rfl

/-- The moment of a start cannot come out of LISTEN, nor on a line without an idle stretch (R21, log 3). -/
theorem State.reachStart_of_cannotCome {s : State} {p : Port}
    (h : (s.port p).state ≠ .listen ∨ (s.port p).line.idleStretch = none) : s.reachStart p = s := by
  cases st : (s.port p).state with
  | listen =>
    obtain out | line := h
    · exact absurd st out
    · simp only [State.reachStart, st]
      exact s.updPort_of_eq p (reachQuiet_of_not_idle _ _ line)
  | _ => simp only [State.reachStart, st]

/-- The character the transmitter sends in the first position (R23). -/
theorem State.txd_of_started {s : State} {p : Port} {e : QueueEntry} {rest : List QueueEntry} {d : Byte} {cs : List Byte}
    (st : (s.port p).state = .sending 0 0) (queue : (s.port p).queue = { e with inTx := true } :: rest)
    (chars : s.chars e.buffer = d :: cs) : s.txd p = some (d, true) := by
  have first : (s.pool.get e.buffer).chars = d :: cs := chars
  simp [State.txd, st, State.queue, queue, inTransmission, first]

/-- Settles O34: the row raises the stretch to QUIET, and the end of its event starts the port if its queue holds an
entry. -/
theorem quietLineStartsATransmission : Obligations.QuietLineStartsATransmission := by
  intro s p powered quiescent
  refine ⟨fun len st line => ?_, fun out => event_unchanged powered quiescent (State.reachStart_of_cannotCome out)⟩
  intro bit stretch span
  have row : exec (.startTransmission p) s =
      .next (s.updPort p fun u => ({ u with line := .idle stretch, busySpan := span } : PortUnit).started) := by
    rw [exec_startTransmission, event_of_quiescent powered quiescent, State.reachStart_of_listen st line,
      State.settle_updPort quiescent]
  refine ⟨fun empty => ?_, fun e rest queue => ?_⟩
  · rw [row]
    congr 1
    exact s.updPort_congr p (PortUnit.started_of_cannotStart (PortUnit.canStart_of_empty empty))
  · intro t
    have starts : ({ s.port p with line := .idle stretch, busySpan := span } : PortUnit).canStart = true :=
      (PortUnit.canStart_iff _).mpr
        ⟨st, fun nil => List.cons_ne_nil e rest (queue.symm.trans nil), stretch, rfl, Nat.le_max_right _ _⟩
    have port : t.port p =
        { s.port p with
          line := .idle stretch, busySpan := span, state := .sending 0 0, queue := { e with inTx := true } :: rest } :=
      s.port_updPort_self p _
    refine ⟨?_, by rw [port]; rfl, fun d cs chars => ?_⟩
    · rw [row]
      congr 1
      exact s.updPort_congr p (PortUnit.started_of_canStart starts queue)
    · exact State.txd_of_started (by rw [port]) (by rw [port]) chars

/-! ### The last character read back (O36) -/

section SetLine

variable (s : State) (p : Port) (l : LineState) (h : StartHold)

theorem State.dequeue_setLine (e : QueueEntry) : (s.setLine p l h).dequeue p e = (s.dequeue p e).setLine p l h := by
  simp only [State.dequeue, State.setQueue, State.setLine_eq, State.updPort_updPort, State.queue,
    State.port_updPort_self]

theorem State.release_setLine (b : BufferIx) : (s.setLine p l h).release b = (s.release b).setLine p l h := by
  unfold State.release
  rw [State.setLine_pool]
  split
  · split <;> rfl
  all_goals rfl

theorem State.countPort_setLine (c : PortCounter) : (s.setLine p l h).countPort p c = (s.countPort p c).setLine p l h := by
  simp only [State.countPort_eq, State.setLine_eq, State.updPort_updPort, PortUnit.counted]

theorem State.reportCompleted_setLine (t : TxIx) :
    (s.setLine p l h).reportCompleted t p = (s.reportCompleted t p).setLine p l h := by
  have entry : (s.setLine p l h).tx t = s.tx t := rfl
  have timeout : ((s.setLine p l h).port p).params = (s.port p).params := by
    rw [State.setLine_eq, State.port_updPort_self]
  unfold State.reportCompleted
  rw [entry, timeout]
  split <;> rfl

theorem State.toldDeparture_setLine (e : QueueEntry) :
    (s.setLine p l h).toldDeparture e = (s.toldDeparture e).setLine p l h := by
  have restart : (s.setLine p l h).restart = s.restart := rfl
  unfold State.toldDeparture
  rw [restart]
  split
  · split <;> rfl
  all_goals rfl

end SetLine

/-- A completion on a port whose line a character has just moved. -/
theorem State.remove_completion_setLine (s : State) (p : Port) (l : LineState) (h : StartHold) (e : QueueEntry) :
    (s.setLine p l h).remove p e .completion = (s.remove p e .completion).setLine p l h := by
  simp only [State.remove, State.countPortOpt, RemovalCause.counter, State.dequeue_setLine, State.release_setLine,
    State.countPort_setLine, State.reportRemoval]
  cases e.link with
  | none => exact State.toldDeparture_setLine _ p l h e
  | some t => simp only [State.reportCompleted_setLine, State.toldDeparture_setLine]

/-- In SENDING a character goes to the echo check (R3). -/
theorem exec_echoCharacter_sending {s : State} {p : Port} {pos elapsed : Nat} (hears : s.hears p = true)
    (st : (s.port p).state = .sending pos elapsed) (c : LineCharacter) :
    exec (.echoCharacter p c) s =
      .next ((s.setLine p (lineAfter c) (holdAfter c)).echo p pos elapsed c).settle := by
  rw [exec_echoCharacter, characterEvent_of_hears hears, State.routeCharacter_sending (by rw [State.state_setLine, st])]

theorem State.queue_setLine (s : State) (p : Port) (l : LineState) (h : StartHold) :
    (s.setLine p l h).queue p = s.queue p := by
  rw [State.queue, State.setLine_eq, State.port_updPort_self, State.queue]

/-- The last character read back as it was sent completes the attempt (R28). -/
theorem State.echo_last {s : State} {p : Port} {pos elapsed : Nat} {e : QueueEntry} {v : Byte}
    (marked : inTransmission (s.queue p) = some e) (sent : (s.chars e.buffer)[pos]? = some v)
    (last : (s.chars e.buffer).length = pos + 1) :
    s.echo p pos elapsed (.good v (pos == 0)) = s.complete p e := by
  have read : LineCharacter.good v (pos == 0) = sentCharacter (s.chars e.buffer) pos := by
    simp [sentCharacter, List.getD, sent]
  simp only [State.echo, marked, ← read, if_true, last, Nat.le_refl]

theorem PortUnit.afterCompletion_eq (u : PortUnit) (e : QueueEntry) :
    u.afterCompletion e =
      if (e.link.isSome = true ∨ e.pendingRemoval = some .withdrawn) ∧ 0 < u.params.guard then
        .guard (u.params.guard * 11 * u.params.baud.clkPerBit)
      else .listen := by
  simp [PortUnit.afterCompletion, QueueEntry.trackedCopy, Baud.ct_eq]

/-- Settles O36: the echo check completes the attempt, on the line as the character left it. -/
theorem lastEchoCompletes : Obligations.LastEchoCompletes := by
  intro s p pos elapsed e v hears st marked sent last t u
  have completed : (s.setLine p (.idle 0) .ready).echo p pos elapsed (.good v (pos == 0)) =
      (s.setLine p (.idle 0) .ready).complete p e :=
    State.echo_last (by rw [State.queue_setLine, marked]) sent last
  have removed : s.remove p e .completion = u.toldDeparture e := by
    simp only [u, t, State.remove, State.countPortOpt, RemovalCause.counter]
    cases e.link <;> rfl
  have params : ((u.toldDeparture e).port p).params = (s.port p).params := by
    rw [← removed]
    exact ((s.remove_traffic p e .completion).ports p).params
  have before : ((s.setLine p (.idle 0) .ready).port p).params = (s.port p).params := by
    rw [State.setLine_eq, State.port_updPort_self]
  rw [exec_echoCharacter_sending hears st, lineAfter, holdAfter, completed, State.complete,
    State.remove_completion_setLine, removed, PortUnit.afterCompletion_eq, before, State.enterMonitored,
    State.setLine_eq, State.updPort_updPort]
  congr 2
  refine State.updPort_congr _ p ?_
  rw [← params]
  rfl

/-! ### A collision (O37) -/

/-- What a collision leaves of its port before the fate of the entry is settled (R25, R26): COLLISIONS one more, the entry
with one attempt more and unmarked, and a backoff of `length` ct. -/
def State.collided (s : State) (p : Port) (e : QueueEntry) (length : Nat) : State :=
  (s.countPort p .collisions).updPort p fun u =>
    { u with
      state := .backoff length
      busySpan := 0
      queue := u.queue.map fun y =>
        if y.stamp = e.stamp then { y with attempts := y.attempts + 1, inTx := false } else y }

theorem State.updEntry_eq (s : State) (p : Port) (stamp : Nat) (f : QueueEntry → QueueEntry) :
    s.updEntry p stamp f = s.updPort p fun u => { u with queue := u.queue.map fun y => if y.stamp = stamp then f y else y } := by
  simp only [State.updEntry, State.setQueue, State.queue, beq_iff_eq]
  exact s.updPort_congr p rfl

theorem State.collide_eq (s : State) (p : Port) (e : QueueEntry) :
    s.collide p e =
      (s.collided p e (backoffLength (s.port p).params.quiet (e.attempts + 1) s.params.ownAddress)).settleCollided p
        e.collided := by
  rw [State.collide, State.enterMonitored, State.updEntry_eq, State.updPort_updPort]
  rfl

theorem State.params_collided (s : State) (p : Port) (e : QueueEntry) (length : Nat) :
    ((s.collided p e length).port p).params = (s.port p).params := by
  rw [State.collided, State.port_updPort_self, State.countPort_eq, State.port_updPort_self]
  rfl

theorem State.settleAttempts_collided (s : State) (p : Port) (e : QueueEntry) (length : Nat) :
    (s.collided p e length).settleAttempts p e.collided =
      if (s.port p).params.attempts ≤ e.attempts + 1 then
        (s.collided p e length).remove p e.collided .undeliverable
      else (s.collided p e length).updPort p fun u =>
        { u with queue := u.queue.map fun y => if y.stamp = e.stamp then { y with pendingRemoval := none } else y } := by
  rw [State.settleAttempts, State.params_collided, State.updEntry_eq]
  rfl

/-- The fate of the entry (R25, R58). -/
theorem State.settleCollided_collided (s : State) (p : Port) (e : QueueEntry) (length : Nat) :
    (s.collided p e length).settleCollided p e.collided =
      match e.pendingRemoval with
      | some .withdrawn => (s.collided p e length).remove p e.collided .withdrawn
      | some .window =>
        if (s.disposition p).admits e.rank e.origin = true then
          (s.collided p e length).settleAttempts p e.collided
        else (s.collided p e length).remove p e.collided .window
      | none => (s.collided p e length).settleAttempts p e.collided := by
  have pending : e.collided.pendingRemoval = e.pendingRemoval := rfl
  have refused : e.collided.refusedBy ((s.collided p e length).disposition p) =
      !(s.disposition p).admits e.rank e.origin := rfl
  unfold State.settleCollided
  rw [pending, refused]
  cases e.pendingRemoval with
  | none => rfl
  | some removal =>
    cases removal with
    | withdrawn => rfl
    | window => cases (s.disposition p).admits e.rank e.origin <;> rfl

theorem exec_missingEcho (p : Port) (s : State) : exec (.missingEcho p) s = event (fun s => s.missEcho p) s := rfl

theorem State.missEcho_of_sending {s : State} {p : Port} {pos elapsed : Nat} {e : QueueEntry}
    (st : (s.port p).state = .sending pos elapsed) (marked : inTransmission (s.queue p) = some e) :
    s.missEcho p = s.collide p e := by
  simp only [State.missEcho, st, marked]

/-- A character other than the one that was sent is a collision (R24). -/
theorem State.echo_wrong {s : State} {p : Port} {pos elapsed : Nat} {e : QueueEntry} {c : LineCharacter}
    (marked : inTransmission (s.queue p) = some e) (wrong : c ≠ .good ((s.chars e.buffer).getD pos 0) (pos == 0)) :
    s.echo p pos elapsed c = s.collide p e := by
  have other : ¬ c = sentCharacter (s.chars e.buffer) pos := wrong
  simp only [State.echo, marked, other, if_false]

/-- Settles O37: the collision of a wrong character, on the line as it left it, and that of a missing one. -/
theorem collisionsBackOff : Obligations.CollisionsBackOff := by
  intro s p pos elapsed e powered quiescent st marked n x collided limited fate
  have fateOf (t : State) (params : (t.port p).params = (s.port p).params) (own : t.params = s.params)
      (dispositions : t.dispositions = s.dispositions) : t.collide p e = fate t := by
    rw [State.collide_eq, State.settleCollided_collided, State.settleAttempts_collided, State.disposition, params, own,
      dispositions]
    rfl
  refine ⟨fun c decodable wrong => ?_, ?_⟩
  · have hears : s.hears p = true := (s.hears_iff p).mpr ⟨powered, quiescent, decodable⟩
    have collides : (s.setLine p (lineAfter c) (holdAfter c)).echo p pos elapsed c =
        (s.setLine p (lineAfter c) (holdAfter c)).collide p e :=
      State.echo_wrong (by rw [State.queue_setLine, marked]) wrong
    have params : ((s.setLine p (lineAfter c) (holdAfter c)).port p).params = (s.port p).params := by
      rw [State.setLine_eq, State.port_updPort_self]
    rw [exec_echoCharacter_sending hears st, collides, fateOf (s.setLine p (lineAfter c) (holdAfter c)) params rfl rfl]
  · rw [exec_missingEcho, event_of_quiescent powered quiescent, State.missEcho_of_sending st marked,
      fateOf s rfl rfl rfl]

end Sys2Proof.Machine
end

