-- ==== Sys2Proof/Proofs/Moves.lean ====
section
/-! SUPPORT. The small moves that reports and traffic are made of: one inductive relation each, and every operation on
queues, buffers, transactions, notices and alerts as a chain of them, so that what each move keeps is kept by all. -/

namespace Sys2Proof.Machine

/-! ### The moves -/

/-- An entry of the Transaction Table as a report leaves it (R113): it stays, it becomes FREE, or it loses a copy. -/
def TxEntry.Fades (e e' : TxEntry) : Prop :=
  e' = e ∨ e' = .free ∨ ∃ core n m deadline, e = .opened core n deadline ∧ e' = .opened core m deadline

/-- What a report, and the notice it may owe, are made of (R47, R53, R113, R126): only queues of ports in service gain and
lose entries, and what they lose is not in transmission. -/
inductive ReportMove (s : State) : State → Prop
  | count (c : CouplerCounter) : ReportMove s (s.count c)
  | countPort (p : Port) (c : PortCounter) (other : c ≠ .containments) : ReportMove s (s.countPort p c)
  | fade (t : TxIx) (e : TxEntry) (fades : (s.tx t).Fades e) : ReportMove s (s.setTx t e)
  | buffers (pool : Vector Buffer 48) (free : List BufferIx) : ReportMove s { s with pool := pool, freeList := free }
  | enqueue (p : Port) (n : NewEntry) (service : (s.port p).state.outOfService = false) : ReportMove s (s.enqueue p n)
  | dequeue (p : Port) (e : QueueEntry) (service : (s.port p).state.outOfService = false) (mem : e ∈ s.queue p)
      (unmarked : e.inTx = false) : ReportMove s (s.dequeue p e)

/-- A chain of report moves. -/
abbrev Reporting : State → State → Prop := Relation.ReflTransGen ReportMove

/-- `t` differs from `s` in nothing that a port, a stamp, a parameter, a table of managers or stations, the pulse, main
power or the kind of a pending restart is. -/
structure SameCore (s t : State) : Prop where
  ports : t.ports = s.ports
  nextStamp : t.nextStamp = s.nextStamp
  params : t.params = s.params
  managers : t.managers = s.managers
  stations : t.stations = s.stations
  pulse : t.pulse = s.pulse
  powered : t.powered = s.powered
  restart : restartKey t.restart = restartKey s.restart

/-- The marks of an entry are sound (R57, R58): a removal is pending only while it is in transmission, and a withdrawn entry
carries no link. -/
def QueueEntry.MarkSound (e : QueueEntry) : Prop :=
  (e.inTx = true ∨ e.pendingRemoval = none) ∧ (e.pendingRemoval = some .withdrawn → e.link = none)

/-- An entry that a purge or a withdrawal has marked (R56, R57): its place in the queue and its transmission are as they
were, its link too unless it has lost it. -/
structure Relabels (e e' : QueueEntry) : Prop where
  stamp : e'.stamp = e.stamp
  inTx : e'.inTx = e.inTx
  link : e'.link = e.link ∨ e'.link = none
  sound : e.MarkSound → e'.MarkSound

/-- What traffic is made of. -/
inductive TrafficMove (s : State) : State → Prop
  | other {t : State} (same : SameCore s t) : TrafficMove s t
  | countPort (p : Port) (c : PortCounter) : TrafficMove s (s.countPort p c)
  | enqueue (p : Port) (n : NewEntry) : TrafficMove s (s.enqueue p n)
  | dequeue (p : Port) (e : QueueEntry) (mem : e ∈ s.queue p) (unmarked : e.inTx = false) :
      TrafficMove s (s.dequeue p e)
  | relabel (p : Port) (f : QueueEntry → QueueEntry) (relabels : ∀ e, Relabels e (f e)) :
      TrafficMove s (s.setQueue p ((s.queue p).map f))
  | pulse (mode : s.params.alertMode = .pulse) : TrafficMove s { s with pulse := some 10 }

/-- A chain of traffic moves. -/
abbrev Moves : State → State → Prop := Relation.ReflTransGen TrafficMove

theorem ReportMove.traffic {s t : State} (h : ReportMove s t) : TrafficMove s t := by
  cases h with
  | count c => exact .other ⟨rfl, rfl, rfl, rfl, rfl, rfl, rfl, rfl⟩
  | countPort p c => exact .countPort p c
  | fade t e => exact .other ⟨rfl, rfl, rfl, rfl, rfl, rfl, rfl, rfl⟩
  | buffers pool free => exact .other ⟨rfl, rfl, rfl, rfl, rfl, rfl, rfl, rfl⟩
  | enqueue p n => exact .enqueue p n
  | dequeue p e _ mem unmarked => exact .dequeue p e mem unmarked

theorem Reporting.moves {s t : State} (h : Reporting s t) : Moves s t := by
  induction h with
  | refl => exact .refl
  | tail _ move ih => exact ih.tail move.traffic

theorem Moves.other {s t : State} (same : SameCore s t) : Moves s t := .single (.other same)

/-- A chain of chains is a chain. -/
theorem foldl_moves {α : Type} {f : State → α → State} (h : ∀ s a, Moves s (f s a)) (l : List α) (s : State) :
    Moves s (l.foldl f s) := by
  induction l generalizing s with
  | nil => exact .refl
  | cons a l ih => exact (h s a).trans (ih (f s a))

/-! ### Buffers and counters -/

section Buffers

variable (s : State)

theorem State.count_reporting (c : CouplerCounter) : Reporting s (s.count c) := .single (.count c)

theorem State.countPort_reporting (p : Port) {c : PortCounter} (other : c ≠ .containments) :
    Reporting s (s.countPort p c) := .single (.countPort p c other)

theorem State.setBuffer_reporting (b : BufferIx) (v : Buffer) : Reporting s (s.setBuffer b v) :=
  .single (.buffers (s.pool.set b.val v b.isLt) s.freeList)

theorem State.freeUp_reporting (b : BufferIx) : Reporting s (s.freeUp b) :=
  .single (.buffers (s.freeUp b).pool (s.freeUp b).freeList)

theorem State.release_reporting (b : BufferIx) : Reporting s (s.release b) := by
  unfold State.release
  split
  · split
    · exact s.freeUp_reporting b
    · exact s.setBuffer_reporting b _
  all_goals exact .refl

theorem State.settleBuffer_reporting (b : BufferIx) (n : Nat) : Reporting s (s.settleBuffer b n) := by
  unfold State.settleBuffer
  split
  · exact s.freeUp_reporting b
  · exact s.setBuffer_reporting b _

end Buffers

/-! ### Admission and generated frames (R47, R52, R53) -/

/-- What a judgement that displaces found: an entry of a queue in service that is not in transmission (R53). -/
theorem State.judgeAdmission_unmarked {s : State} {owed : Owed} {p : Port} {r : Rank} {o : Origin} {e : QueueEntry}
    (h : s.judgeAdmission owed p r o = .displaces e) : e.inTx = false := by
  have last : displaceable (s.queue p) = some e := by
    unfold State.judgeAdmission at h
    split at h
    · exact Judgement.noConfusion h
    · split at h
      · exact Judgement.noConfusion h
      · split at h
        · exact Judgement.noConfusion h
        · split at h
          · rename_i found _
            injection h with h
            rw [← h, found]
          all_goals exact Judgement.noConfusion h
  unfold displaceable at last
  split at last
  · split at last
    · exact absurd last (by simp)
    · rename_i free
      injection last with last
      subst last
      exact Bool.eq_false_of_not_eq_true fun marked => free (.inr marked)
  · exact absurd last (by simp)

theorem State.displace_reporting {s : State} {p : Port} {e : QueueEntry} (service : (s.port p).state.outOfService = false)
    (mem : e ∈ s.queue p) (unmarked : e.inTx = false) : Reporting s (s.displace p e) :=
  ((Relation.ReflTransGen.single (.dequeue p e service mem unmarked)).trans (State.release_reporting _ e.buffer)).trans
    (State.countPort_reporting _ p (by decide))

/-- A report is made of report moves, whatever is owed. -/
def IsReporting (report : Owed → TxIx → State → State) : Prop := ∀ owed t s, Reporting s (report owed t s)

theorem State.makePlace_reporting (s : State) {report : Owed → TxIx → State → State} (h : IsReporting report)
    (owed : Owed) (n : Nat) (p : Port) (r : Rank) (o : Origin) : Reporting s (s.makePlace report owed n p r o).2 := by
  unfold State.makePlace
  split
  · exact .refl
  · rename_i e judged
    obtain ⟨mem, service⟩ := State.judgeAdmission_displaces judged
    have displaced := State.displace_reporting service mem (State.judgeAdmission_unmarked judged)
    split
    · exact displaced.trans (h _ _ _)
    · exact displaced
  all_goals exact s.countPort_reporting p (by decide)

/-- Where a request is made room for, its port is in service. -/
theorem State.makePlace_service {s t : State} {report : Owed → TxIx → State → State} (h : ReportsTraffic report)
    {owed : Owed} {n : Nat} {p : Port} {r : Rank} {o : Origin} (e : s.makePlace report owed n p r o = (.admitted, t)) :
    (t.port p).state.outOfService = false := by
  obtain ⟨traffic, admitted⟩ := s.makePlace_traffic report h owed n p r o
  rw [e] at traffic admitted
  rw [traffic.outOfService p]
  exact (admitted rfl).1

theorem State.joinGenerated_reporting {s : State} {p : Port} (service : (s.port p).state.outOfService = false)
    (cs : List Byte) : Reporting s (s.joinGenerated p cs).2 := by
  unfold State.joinGenerated
  split
  · exact .refl
  · rename_i b rest _
    have joined : Reporting s (s.enqueue p ⟨b, .express, .generated, none⟩) := .single (.enqueue p _ service)
    exact joined.tail (.buffers _ rest)

theorem State.placeGenerated_reporting (s : State) {report : Owed → TxIx → State → State} (h : IsReporting report)
    (traffic : ReportsTraffic report) (owed : Owed) (p : Port) (cs : List Byte) :
    Reporting s (s.placeGenerated report owed p cs).2 := by
  unfold State.placeGenerated
  split
  · exact .refl
  · have placed := s.makePlace_reporting h owed 1 p .express .generated
    split <;> rename_i e
    · rw [e] at placed
      exact placed.trans (State.joinGenerated_reporting (State.makePlace_service traffic e) cs)
    all_goals rwa [e] at placed

theorem State.dropCopy_reporting (s : State) (t : TxIx) : Reporting s (s.dropCopy t).2 := by
  have loses {core : TxCore} {n m : Nat} {d : Option Deadline} (entry : s.tx t = .opened core n d) :
      Reporting s (s.setTx t (.opened core m d)) :=
    .single (.fade t _ (.inr (.inr ⟨core, n, m, d, entry, rfl⟩)))
  unfold State.dropCopy
  split
  · rename_i entry
    split
    · exact .single (.fade t _ (.inr (.inl rfl)))
    · exact loses entry
  · rename_i entry
    exact loses entry
  all_goals exact .refl

theorem State.countNotice_reporting {s : State} {r : Option BufferIx × State} (h : Reporting s r.2) :
    Reporting s (State.countNotice r) := by
  obtain ⟨placed, t⟩ := r
  cases placed with
  | none => exact h.trans (State.count_reporting t .noticesLost)
  | some b => exact h.trans (State.count_reporting t .noticesSent)

theorem copyRemoved_reporting (fuel : Nat) (loss : CopyLoss) : IsReporting (copyRemoved fuel loss) := by
  induction fuel generalizing loss with
  | zero => exact fun _ _ _ => .refl
  | succ fuel ih =>
    intro owed t s
    unfold copyRemoved
    have dropped := s.dropCopy_reporting t
    split <;> rename_i e <;> rw [e] at dropped
    · exact dropped
    · exact dropped.trans (State.countNotice_reporting
        (State.placeGenerated_reporting _ (ih _) (copyRemoved_traffic fuel _) owed _ _))

section Notices

variable (s : State)

theorem State.reportRemoved_reporting (t : TxIx) (loss : CopyLoss) : Reporting s (s.reportRemoved t loss) :=
  copyRemoved_reporting 33 loss .nothing t s

theorem State.requestAdmission_reporting (p : Port) (n : NewEntry) : Reporting s (s.requestAdmission p n).2 := by
  unfold State.requestAdmission
  have placed := s.makePlace_reporting (copyRemoved_reporting 33 .queueFull) .nothing 0 p n.rank n.origin
  split <;> rename_i e
  · rw [e] at placed
    exact placed.tail (.enqueue p n (State.makePlace_service (copyRemoved_traffic 33 .queueFull) e))
  all_goals rwa [e] at placed

theorem State.generate_reporting (p : Port) (cs : List Byte) : Reporting s (s.generate p cs).2 :=
  s.placeGenerated_reporting (copyRemoved_reporting 33 .queueFull) (copyRemoved_traffic 33 .queueFull) .nothing p cs

theorem State.sendNotice_reporting (p : Port) (cs : List Byte) : Reporting s (s.sendNotice p cs) :=
  State.countNotice_reporting (s.generate_reporting p cs)

theorem State.notify_reporting (p : Port) (key : TxKey) (cause : NoticeCause) : Reporting s (s.notify p key cause) :=
  s.sendNotice_reporting p _

theorem State.alertNotice_reporting (c : AlertCause) : Reporting s (s.alertNotice c) := by
  unfold State.alertNotice
  dsimp only
  split
  · exact .refl
  · split
    · exact s.sendNotice_reporting _ _
    · exact s.count_reporting _

end Notices

/-! ### Transactions, removals and alerts -/

section Removals

variable (s : State)

theorem State.setTx_moves (t : TxIx) (e : TxEntry) : Moves s (s.setTx t e) :=
  .other ⟨rfl, rfl, rfl, rfl, rfl, rfl, rfl, rfl⟩

theorem State.countPort_moves (p : Port) (c : PortCounter) : Moves s (s.countPort p c) := .single (.countPort p c)

theorem State.toldDeparture_moves (e : QueueEntry) : Moves s (s.toldDeparture e) := by
  unfold State.toldDeparture
  split
  · rename_i r restart _
    split
    · exact .other ⟨rfl, rfl, rfl, rfl, rfl, rfl, rfl, by rw [restart]; rfl⟩
    · exact .refl
  all_goals exact .refl

theorem State.reportCompleted_moves (t : TxIx) (p : Port) : Moves s (s.reportCompleted t p) := by
  unfold State.reportCompleted
  split
  · exact s.setTx_moves t _
  all_goals exact .refl

theorem State.reportRemoval_moves (p : Port) (t : TxIx) (c : RemovalCause) : Moves s (s.reportRemoval p t c) := by
  cases c with
  | completion => exact s.reportCompleted_moves t p
  | undeliverable => exact (s.reportRemoved_reporting t _).moves
  | window => exact (s.reportRemoved_reporting t _).moves
  | unreachable => exact (s.reportRemoved_reporting t _).moves
  | withdrawn => exact .refl

theorem State.countPortOpt_moves (p : Port) (c : Option PortCounter) : Moves s (s.countPortOpt p c) := by
  cases c with
  | none => exact .refl
  | some c => exact s.countPort_moves p c

/-- A removal is the entry leaving its queue, and traffic. -/
theorem State.remove_moves_of_dequeue (p : Port) (e : QueueEntry) (c : RemovalCause) :
    Moves (s.dequeue p e) (s.remove p e c) := by
  have counted := (State.release_reporting (s.dequeue p e) e.buffer).moves.trans
    (State.countPortOpt_moves _ p c.counter)
  unfold State.remove
  refine Relation.ReflTransGen.trans ?_ (State.toldDeparture_moves _ e)
  cases e.link with
  | none => exact counted
  | some t => exact counted.trans (State.reportRemoval_moves _ p t c)

end Removals

theorem State.remove_moves {s : State} {p : Port} {e : QueueEntry} (mem : e ∈ s.queue p) (unmarked : e.inTx = false)
    (c : RemovalCause) : Moves s (s.remove p e c) :=
  Relation.ReflTransGen.head (.dequeue p e mem unmarked) (s.remove_moves_of_dequeue p e c)

/-! ### What a move leaves of a queue -/

/-- The queue of a port before and after a move, the stamps given out being `next` and `next'`. -/
inductive QueueMove (next next' : Nat) (q : List QueueEntry) : List QueueEntry → Prop
  | same (later : next ≤ next') : QueueMove next next' q q
  | joined (e : QueueEntry) (unmarked : e.inTx = false) (stays : e.pendingRemoval = none) (stamp : e.stamp = next)
      (later : next < next') : QueueMove next next' q (insertEntry e q)
  | left (e : QueueEntry) (mem : e ∈ q) (unmarked : e.inTx = false) (later : next ≤ next') :
      QueueMove next next' q (q.filter fun x => x.stamp != e.stamp)
  | relabelled (f : QueueEntry → QueueEntry) (relabels : ∀ e, Relabels e (f e)) (later : next ≤ next') :
      QueueMove next next' q (q.map f)

/-- What a move leaves of a port: all but its queue and its counters. -/
structure PortMove (next next' : Nat) (u v : PortUnit) : Prop where
  state : v.state = u.state
  params : v.params = u.params
  queue : QueueMove next next' u.queue v.queue

theorem PortMove.same {next next' : Nat} (later : next ≤ next') (u : PortUnit) : PortMove next next' u u :=
  ⟨rfl, rfl, .same later⟩

/-- A move at the queue of port `p` alone. -/
theorem PortMove.of_setQueue {s : State} {p : Port} {q : List QueueEntry} {next' : Nat} (later : s.nextStamp ≤ next')
    (moved : QueueMove s.nextStamp next' (s.port p).queue q) (x : Port) :
    PortMove s.nextStamp next' (s.port x) ((s.setQueue p q).port x) := by
  rw [State.setQueue, State.port_updPort]
  split
  · rename_i e
    subst e
    exact ⟨rfl, rfl, moved⟩
  · exact PortMove.same later _

theorem TrafficMove.port {s t : State} (h : TrafficMove s t) (x : Port) :
    PortMove s.nextStamp t.nextStamp (s.port x) (t.port x) := by
  cases h with
  | other same =>
    rw [State.port, State.port, same.ports]
    exact PortMove.same (Nat.le_of_eq same.nextStamp.symm) _
  | countPort p c =>
    rw [State.countPort, State.port_updPort]
    split
    · rename_i e
      subst e
      exact ⟨rfl, rfl, .same (Nat.le_refl _)⟩
    · exact PortMove.same (Nat.le_refl _) _
  | enqueue p n => exact PortMove.of_setQueue (Nat.le_succ _) (.joined _ rfl rfl rfl (Nat.lt_succ_self _)) x
  | dequeue p e mem unmarked => exact PortMove.of_setQueue (Nat.le_refl _) (.left e mem unmarked (Nat.le_refl _)) x
  | relabel p f relabels => exact PortMove.of_setQueue (Nat.le_refl _) (.relabelled f relabels (Nat.le_refl _)) x
  | pulse => exact PortMove.same (Nat.le_refl _) _

theorem mem_insertEntry {e x : QueueEntry} {q : List QueueEntry} : x ∈ insertEntry e q ↔ x = e ∨ x ∈ q := by
  induction q with
  | nil => simp [insertEntry]
  | cons y ys ih =>
    unfold insertEntry
    split
    · simp
    · simp [ih]
      tauto

/-- Every entry of port `p` that is in transmission carries a link that `G` holds of, or has lost it. -/
def State.MarkedLinks (s : State) (G : Option TxIx → Prop) (p : Port) : Prop :=
  ∀ e ∈ (s.port p).queue, e.inTx = true → G e.link

/-- No move puts an entry in transmission, nor gives one that is a link. -/
theorem TrafficMove.markedLinks {s t : State} {G : Option TxIx → Prop} {p : Port} (lost : ∀ l, G l → G none)
    (h : TrafficMove s t) (marked : s.MarkedLinks G p) : t.MarkedLinks G p := by
  intro e mem inTx
  obtain ⟨-, -, queue⟩ := h.port p
  unfold State.MarkedLinks at marked
  revert mem marked
  generalize (s.port p).queue = q at queue
  generalize (t.port p).queue = q' at queue
  intro marked mem
  cases queue with
  | same => exact marked e mem inTx
  | joined x unmarked =>
    obtain rfl | old := mem_insertEntry.mp mem
    · rw [unmarked] at inTx
      exact Bool.noConfusion inTx
    · exact marked e old inTx
  | left x => exact marked e (List.mem_filter.mp mem).1 inTx
  | relabelled f relabels =>
    obtain ⟨x, old, rfl⟩ := List.mem_map.mp mem
    have relabelled := relabels x
    have before := marked x old (relabelled.inTx ▸ inTx)
    obtain same | none := relabelled.link
    · rw [same]
      exact before
    · rw [none]
      exact lost _ before

theorem Moves.markedLinks {s t : State} {G : Option TxIx → Prop} {p : Port} (lost : ∀ l, G l → G none) (h : Moves s t)
    (marked : s.MarkedLinks G p) : t.MarkedLinks G p := by
  induction h with
  | refl => exact marked
  | tail _ move ih => exact move.markedLinks lost ih

/-! ### Purges and withdrawals -/

/-- Removals one after another, none of an entry in transmission. -/
theorem removeAll_moves {p : Port} {doomed : QueueEntry → Bool} {cause : RemovalCause} (n : Nat) {s : State}
    (unmarked : ∀ t, Moves s t → ∀ e ∈ t.queue p, doomed e = true → e.inTx = false) :
    Moves s (removeAll p doomed cause n s) := by
  induction n generalizing s with
  | zero => exact .refl
  | succ n ih =>
    unfold removeAll
    split
    · rename_i e found
      have mem := List.mem_of_find?_eq_some found
      have removed := State.remove_moves mem (unmarked s .refl e mem (List.find?_some found)) cause
      exact removed.trans (ih fun t moved => unmarked t (removed.trans moved))
    · exact .refl

/-- A purge of a port no entry of which is in transmission. -/
theorem State.purgeUnreachable_moves {s : State} {p : Port} (none : s.MarkedLinks (fun _ => False) p) :
    Moves s (s.purgeUnreachable p) :=
  removeAll_moves _ fun _ moved e mem _ =>
    Bool.eq_false_of_not_eq_true fun inTx => moved.markedLinks (fun _ h => h) none e mem inTx

section Withdrawals

variable (s : State)

theorem State.purgeWindow_moves (p : Port) : Moves s (s.purgeWindow p) := by
  unfold State.purgeWindow
  dsimp only
  refine Relation.ReflTransGen.head (.relabel p _ fun e => ?_) (removeAll_moves _ fun t _ e _ doomed => ?_)
  · split
    · rename_i refused
      simp only [Bool.and_eq_true] at refused
      exact ⟨rfl, rfl, .inl rfl, fun _ => ⟨.inl refused.1.1, fun withdrawn => PendingRemoval.noConfusion (Option.some.inj withdrawn)⟩⟩
    · exact ⟨rfl, rfl, .inl rfl, id⟩
  · simp only [Bool.and_eq_true, Bool.not_eq_true'] at doomed
    exact doomed.1

theorem State.withdrawFrom_moves (t : TxIx) (p : Port) : Moves s (s.withdrawFrom t p) := by
  unfold State.withdrawFrom
  dsimp only
  refine Relation.ReflTransGen.head (.relabel p _ fun e => ?_) (removeAll_moves _ fun u moved e mem doomed => ?_)
  · split
    · rename_i linked
      simp only [Bool.and_eq_true] at linked
      exact ⟨rfl, rfl, .inr rfl, fun _ => ⟨.inl linked.1, fun _ => rfl⟩⟩
    · exact ⟨rfl, rfl, .inl rfl, id⟩
  · refine Bool.eq_false_of_not_eq_true fun inTx => ?_
    have lost := moved.markedLinks (G := fun l => l ≠ some t) (p := p) (fun _ _ => (Option.some_ne_none t).symm) ?_ e mem inTx
    · exact lost (by simpa using doomed)
    · intro x mem inTx
      rw [State.setQueue, State.port_updPort_self] at mem
      obtain ⟨y, -, rfl⟩ := List.mem_map.mp mem
      split at inTx
      · rename_i linked
        rw [if_pos linked]
        exact (Option.some_ne_none t).symm
      · rename_i linked
        rw [if_neg linked]
        intro link
        exact linked (by simp [inTx, link])

theorem State.withdraw_moves (t : TxIx) : Moves s (s.withdraw t) := foldl_moves (fun s p => s.withdrawFrom_moves t p) _ s

/-- An evaluation is the recording of the dispositions it forms, and traffic (R152). -/
theorem State.evaluate_moves : Moves s s.evaluate := by
  have recorded : Moves s { s with dispositions := s.formDispositions } :=
    .other ⟨rfl, rfl, rfl, rfl, rfl, rfl, rfl, rfl⟩
  refine recorded.trans (foldl_moves (fun t p => ?_) _ _)
  split
  · exact t.purgeWindow_moves p
  · exact .refl

theorem State.raise_moves (c : AlertCause) : Moves s (s.raise c) := by
  unfold State.raise
  dsimp only
  split
  · exact .refl
  · have entered : Moves s { s with pendingAlerts := s.pendingAlerts ||| c.mask } :=
      .other ⟨rfl, rfl, rfl, rfl, rfl, rfl, rfl, rfl⟩
    split
    · exact entered
    · refine Relation.ReflTransGen.trans ?_ (State.alertNotice_reporting _ c).moves
      split
      · rename_i mode
        exact entered.tail (.pulse mode)
      · exact entered

end Withdrawals

/-! ### The Transaction Table (chapter 6) and the Forwarding Engine (chapter 5) -/

section Engine

variable (s : State)

theorem admitEach_reporting (e : NewEntry) (ps : List Port) : Reporting s (admitEach e ps s).2 := by
  induction ps generalizing s with
  | nil => exact .refl
  | cons p ps ih => exact (s.requestAdmission_reporting p e).trans (ih _)

theorem State.refuse_reporting (r : Tracked) (c : NoticeCause) : Reporting s (s.refuse r c) :=
  (s.notify_reporting _ _ _).trans (State.settleBuffer_reporting _ _ _)

theorem State.refuseAtLimit_reporting (r : Tracked) : Reporting s (s.refuseAtLimit r) :=
  (s.count_reporting _).trans (State.refuse_reporting _ _ _)

theorem State.openRequest_moves (r : Tracked) : Moves s (s.openRequest r) := by
  unfold State.openRequest
  split
  · exact (s.refuseAtLimit_reporting r).moves
  · split
    · exact ((s.count_reporting _).moves.trans (State.raise_moves _ _)).trans (State.refuse_reporting _ _ _).moves
    · rename_i t _
      have admitted := (s.setTx_moves t .free).trans
        (admitEach_reporting _ ⟨r.buffer, r.rank, .forwarded, some t⟩ r.targets).moves
      dsimp only
      split
      · exact admitted.trans (State.refuse_reporting _ _ _).moves
      · exact ((admitted.trans (State.setTx_moves _ _ _)).trans (State.count_reporting _ _).moves).trans
          (State.settleBuffer_reporting _ _ _).moves

theorem State.sendAfresh_moves (t : TxIx) (core : TxCore) (r : Tracked) : Moves s (s.sendAfresh t core r) := by
  unfold State.sendAfresh
  dsimp only
  have admitted := (admitEach_reporting s ⟨r.buffer, r.rank, .forwarded, some t⟩
    (retryTargets { core with requesterSegment := r.segment, retries := min 255 (core.retries + 1) } r)).moves
  split
  · exact (admitted.trans (State.setTx_moves _ t _)).trans (State.refuse_reporting _ _ _).moves
  · exact (admitted.trans (State.setTx_moves _ t _)).trans (State.settleBuffer_reporting _ _ _).moves

theorem State.track_moves (r : Tracked) : Moves s (s.track r) := by
  unfold State.track
  split
  · exact s.openRequest_moves r
  · split
    · exact (s.count_reporting _).moves.trans (State.settleBuffer_reporting _ _ _).moves
    · exact (s.withdraw_moves _).trans (State.sendAfresh_moves _ _ _ _)
    · split
      · exact (s.refuseAtLimit_reporting r).moves
      · exact s.sendAfresh_moves _ _ r
    · exact s.openRequest_moves r

theorem State.forwardAnswer_reporting (p q : Port) (b : BufferIx) : Reporting s (s.forwardAnswer p q b) := by
  unfold State.forwardAnswer
  split
  · exact s.settleBuffer_reporting b 0
  · have admitted := s.requestAdmission_reporting q ⟨b, .express, .forwarded, none⟩
    split <;> rename_i e <;> rw [e] at admitted <;> exact admitted.trans (State.settleBuffer_reporting _ _ _)

theorem State.answer_moves (p : Port) (key : TxKey) (b : BufferIx) : Moves s (s.answer p key b) := by
  have counted (c : CouplerCounter) : Moves s ((s.count c).settleBuffer b 0) :=
    (s.count_reporting c).moves.trans (State.settleBuffer_reporting _ b 0).moves
  unfold State.answer
  split
  · exact counted _
  · split
    · exact (((s.withdraw_moves _).trans (State.setTx_moves _ _ _)).trans (State.count_reporting _ _).moves).trans
        (State.forwardAnswer_reporting _ _ _ _).moves
    all_goals exact counted _

theorem State.lapse_moves (t : TxIx) : Moves s (s.lapse t) := by
  have lapsed (u : State) (core : TxCore) : Moves u (u.setLapsed t core) :=
    .other ⟨rfl, rfl, rfl, rfl, rfl, rfl, rfl, rfl⟩
  have freed (u : State) : Moves u (u.freeWithoutGrace t) := by
    unfold State.freeWithoutGrace
    split
    · exact u.setTx_moves t _
    · exact .refl
  unfold State.lapse
  split
  · exact ((((s.withdraw_moves t).trans (lapsed _ _)).trans (State.count_reporting _ _).moves).trans
      (State.notify_reporting _ _ _ _).moves).trans (freed _)
  all_goals exact .refl

theorem State.endGrace_moves (t : TxIx) : Moves s (s.endGrace t) := by
  unfold State.endGrace
  split
  · exact s.setTx_moves t _
  all_goals exact .refl

theorem State.closeFor_moves (p : Port) (t : TxIx) : Moves s (s.closeFor p t) := by
  have freed := (s.withdraw_moves t).trans (State.setTx_moves _ t .free)
  unfold State.closeFor
  split
  · split
    · exact freed
    · split
      · split
        · exact freed.trans (State.notify_reporting _ _ _ _).moves
        · exact .refl
      · exact .refl
  all_goals exact .refl

theorem State.portLeft_moves (p : Port) : Moves s (s.portLeft p) := foldl_moves (fun s t => s.closeFor_moves p t) _ s

theorem State.dropUnrouted_moves (p : Port) (f : FrameView) (c : DestClass) (b : BufferIx) (counter : CouplerCounter) :
    Moves s (s.dropUnrouted p f c b counter) := by
  unfold State.dropUnrouted
  dsimp only
  refine Relation.ReflTransGen.trans ?_ (State.settleBuffer_reporting _ b 0).moves
  split
  · exact (s.count_reporting counter).moves.trans (State.notify_reporting _ _ _ _).moves
  · exact (s.count_reporting counter).moves

theorem State.place_moves (p : Port) (f : FrameView) (c : DestClass) (b : BufferIx) (segments : List Port)
    (known : Bool) : Moves s (s.place p f c b segments known) := by
  unfold State.place
  split
  · exact s.track_moves _
  · exact (admitEach_reporting s _ segments).moves.trans (State.settleBuffer_reporting _ b _).moves

theorem State.forward_moves (p : Port) (f : FrameView) (c : DestClass) (b : BufferIx) : Moves s (s.forward p f c b) := by
  unfold State.forward
  split
  · exact (s.count_reporting _).moves.trans (State.settleBuffer_reporting _ b 0).moves
  · exact s.dropUnrouted_moves p f c b _
  · exact s.dropUnrouted_moves p f c b _
  · split
    · exact ((s.count_reporting _).moves.trans (State.raise_moves _ _)).trans (State.settleBuffer_reporting _ b 0).moves
    · exact s.place_moves p f c b _ _

end Engine

end Sys2Proof.Machine
end

