-- ==== Sys2Proof/Proofs/Changes.lean ====
section
/-! SUPPORT. What an event is made of, resets apart: an inductive relation whose constructors are the changes that matter to
an invariant, and every operation of a row as a chain of them. -/

namespace Sys2Proof.Machine

/-! ### What traffic leaves of the settings -/

/-- `t` has the parameters, managers and stations of `s`, its main power, the kind of its pending restart, and no pulse that
a part in LATCHED mode had not. -/
structure Steady (s t : State) : Prop where
  portParams : ∀ p, (t.port p).params = (s.port p).params
  params : t.params = s.params
  managers : t.managers = s.managers
  stations : t.stations = s.stations
  powered : t.powered = s.powered
  restart : restartKey t.restart = restartKey s.restart
  pulse : s.params.alertMode = .latched → s.pulse = none → t.pulse = none

theorem Steady.refl (s : State) : Steady s s := ⟨fun _ => rfl, rfl, rfl, rfl, rfl, rfl, fun _ none => none⟩

theorem Steady.trans {s t u : State} (h : Steady s t) (k : Steady t u) : Steady s u :=
  ⟨fun p => (k.portParams p).trans (h.portParams p), k.params.trans h.params, k.managers.trans h.managers,
    k.stations.trans h.stations, k.powered.trans h.powered, k.restart.trans h.restart,
    fun latched none => k.pulse (by rw [h.params, latched]) (h.pulse latched none)⟩

theorem State.updPort_steady (s : State) (p : Port) (f : PortUnit → PortUnit)
    (params : (f (s.port p)).params = (s.port p).params) : Steady s (s.updPort p f) := by
  refine ⟨fun q => ?_, rfl, rfl, rfl, rfl, rfl, fun _ none => none⟩
  rw [State.port_updPort]
  split
  · rename_i e
    rw [e, params]
  · rfl

theorem State.setQueue_steady (s : State) (p : Port) (q : List QueueEntry) : Steady s (s.setQueue p q) :=
  s.updPort_steady p (fun u => { u with queue := q }) rfl

theorem State.setPortState_steady (s : State) (p : Port) (st : PortState) : Steady s (s.setPortState p st) :=
  s.updPort_steady p (fun u => { u with state := st }) rfl

theorem State.enterMonitored_steady (s : State) (p : Port) (st : PortState) : Steady s (s.enterMonitored p st) :=
  s.updPort_steady p (fun u => { u with state := st, busySpan := 0 }) rfl

theorem State.leaveService_steady (s : State) (p : Port) (st : PortState) : Steady s (s.leaveService p st) :=
  s.updPort_steady p (fun u => { u with state := st, line := u.line.ignored }) rfl

theorem State.countPort_steady (s : State) (p : Port) (c : PortCounter) : Steady s (s.countPort p c) :=
  s.updPort_steady p (PortUnit.counted c) rfl

theorem TrafficMove.steady {s t : State} (h : TrafficMove s t) : Steady s t := by
  cases h with
  | other same =>
    exact ⟨fun p => by rw [State.port, State.port, same.ports], same.params, same.managers, same.stations, same.powered,
      same.restart, fun _ none => same.pulse.trans none⟩
  | countPort p c => exact s.countPort_steady p c
  | enqueue p n =>
    obtain ⟨params, -⟩ :=
      s.setQueue_steady p (insertEntry ⟨n.buffer, n.rank, s.nextStamp, 0, false, n.origin, n.link, none⟩ (s.queue p))
    exact ⟨params, rfl, rfl, rfl, rfl, rfl, fun _ none => none⟩
  | dequeue p e => exact s.setQueue_steady p _
  | relabel p f => exact s.setQueue_steady p _
  | pulse mode =>
    exact ⟨fun _ => rfl, rfl, rfl, rfl, rfl, rfl, fun latched => AlertMode.noConfusion (mode.symm.trans latched)⟩

theorem Moves.steady {s t : State} (h : Moves s t) : Steady s t := by
  induction h with
  | refl => exact Steady.refl s
  | tail _ move ih => exact ih.trans move.steady

theorem State.remove_steady (s : State) (p : Port) (e : QueueEntry) (c : RemovalCause) : Steady s (s.remove p e c) :=
  (s.setQueue_steady p _).trans (s.remove_moves_of_dequeue p e c).steady

theorem removeAll_steady (p : Port) (doomed : QueueEntry → Bool) (cause : RemovalCause) (n : Nat) (s : State) :
    Steady s (removeAll p doomed cause n s) := by
  induction n generalizing s with
  | zero => exact Steady.refl s
  | succ n ih =>
    unfold removeAll
    split
    · exact (s.remove_steady p _ cause).trans (ih _)
    · exact Steady.refl s

theorem State.purgeUnreachable_steady (s : State) (p : Port) : Steady s (s.purgeUnreachable p) :=
  removeAll_steady p _ _ _ s

theorem State.complete_steady (s : State) (p : Port) (e : QueueEntry) : Steady s (s.complete p e) :=
  (s.remove_steady p e .completion).trans (State.enterMonitored_steady _ p _)

theorem State.settleAttempts_steady (s : State) (p : Port) (e : QueueEntry) : Steady s (s.settleAttempts p e) := by
  unfold State.settleAttempts
  split
  · exact s.remove_steady p e _
  · exact s.setQueue_steady p _

theorem State.settleCollided_steady (s : State) (p : Port) (e : QueueEntry) : Steady s (s.settleCollided p e) := by
  unfold State.settleCollided
  split
  · exact s.remove_steady p e _
  · split
    · exact s.remove_steady p e _
    · exact s.settleAttempts_steady p e
  · exact s.settleAttempts_steady p e

theorem State.collide_steady (s : State) (p : Port) (e : QueueEntry) : Steady s (s.collide p e) :=
  (((s.countPort_steady p .collisions).trans (State.setQueue_steady _ p _)).trans (State.enterMonitored_steady _ p _)).trans
    (State.settleCollided_steady _ p _)

theorem State.discardReception_moves (s : State) (p : Port) : Moves s (s.discardReception p) := by
  unfold State.discardReception
  split
  · exact (s.freeUp_reporting _).moves
  all_goals exact .refl

theorem State.contain_steady (s : State) (p : Port) : Steady s (s.contain p) := by
  have left := (s.discardReception_moves p).steady.trans
    (State.leaveService_steady _ p (.contained (s.port p).params.containPeriod))
  have purged := left.trans (State.purgeUnreachable_steady _ p)
  exact ((purged.trans (State.portLeft_moves _ p).steady).trans (State.countPort_steady _ p .containments)).trans
    (State.raise_moves _ .containment).steady

theorem State.abortTransmission_steady (s : State) (p : Port) : Steady s (s.abortTransmission p) := by
  unfold State.abortTransmission
  split
  · exact s.remove_steady p _ _
  all_goals exact Steady.refl s

theorem State.disable_steady (s : State) (p : Port) : Steady s (s.disable p) := by
  have left := ((s.discardReception_moves p).steady.trans (State.abortTransmission_steady _ p)).trans
    (State.leaveService_steady _ p .disabled)
  have disabled := (left.trans (State.purgeUnreachable_steady _ p)).trans (State.portLeft_moves _ p).steady
  unfold State.disable
  split
  · exact Steady.refl s
  all_goals exact disabled

/-! ### The changes -/

/-- What a write to the tables and parameters keeps of their soundness. -/
structure KeepsSettings (s t : State) : Prop where
  range : s.paramsInRange = true → t.paramsInRange = true
  ages : s.agesFit = true → t.agesFit = true
  managers : s.managersDistinct = true → t.managersDistinct = true
  pulse : s.pulseOnlyInPulseMode = true → t.pulseOnlyInPulseMode = true

theorem KeepsSettings.refl (s : State) : KeepsSettings s s := ⟨id, id, id, id⟩

theorem KeepsSettings.trans {s t u : State} (h : KeepsSettings s t) (k : KeepsSettings t u) : KeepsSettings s u :=
  ⟨k.range ∘ h.range, k.ages ∘ h.ages, k.managers ∘ h.managers, k.pulse ∘ h.pulse⟩

/-- What an event is made of, resets apart. -/
inductive Change (s : State) : State → Prop
  | move {t : State} (h : TrafficMove s t) : Change s t
  | port (p : Port) (f : PortUnit → PortUnit) (queue : (f (s.port p)).queue = (s.port p).queue)
      (sending : (f (s.port p)).state.dirAsserted = (s.port p).state.dirAsserted)
      (range : (s.port p).params.inRange = true → (f (s.port p)).params.inRange = true) : Change s (s.updPort p f)
  | start (p : Port) : Change s (s.updPort p PortUnit.started)
  | complete (p : Port) (e : QueueEntry) (sending : (s.port p).state.dirAsserted = true)
      (marked : inTransmission (s.queue p) = some e) : Change s (s.complete p e)
  | collide (p : Port) (e : QueueEntry) (sending : (s.port p).state.dirAsserted = true)
      (marked : inTransmission (s.queue p) = some e) : Change s (s.collide p e)
  | contain (p : Port) (monitored : (s.port p).state.monitored = true) : Change s (s.contain p)
  | disable (p : Port) : Change s (s.disable p)
  | settings {t : State} (ports : t.ports = s.ports) (stamps : t.nextStamp = s.nextStamp)
      (powered : t.powered = s.powered) (restart : restartKey t.restart = restartKey s.restart)
      (keeps : KeepsSettings s t) : Change s t

/-- A chain of changes. -/
abbrev Changes : State → State → Prop := Relation.ReflTransGen Change

theorem Moves.changes {s t : State} (h : Moves s t) : Changes s t := by
  induction h with
  | refl => exact .refl
  | tail _ move ih => exact ih.tail (.move move)

/-- Main power and the kind of a pending restart. -/
theorem Change.powered_restart {s t : State} (h : Change s t) :
    t.powered = s.powered ∧ restartKey t.restart = restartKey s.restart := by
  cases h with
  | move h => exact ⟨h.steady.powered, h.steady.restart⟩
  | port p f => exact ⟨rfl, rfl⟩
  | start p => exact ⟨rfl, rfl⟩
  | complete p e => exact ⟨(s.complete_steady p e).powered, (s.complete_steady p e).restart⟩
  | collide p e => exact ⟨(s.collide_steady p e).powered, (s.collide_steady p e).restart⟩
  | contain p => exact ⟨(s.contain_steady p).powered, (s.contain_steady p).restart⟩
  | disable p => exact ⟨(s.disable_steady p).powered, (s.disable_steady p).restart⟩
  | settings _ _ powered restart => exact ⟨powered, restart⟩

theorem Changes.powered {s t : State} (h : Changes s t) : t.powered = s.powered := by
  induction h with
  | refl => rfl
  | tail _ change ih => exact change.powered_restart.1.trans ih

theorem Changes.restartKey {s t : State} (h : Changes s t) : restartKey t.restart = restartKey s.restart := by
  induction h with
  | refl => rfl
  | tail _ change ih => exact change.powered_restart.2.trans ih

theorem restartKey_eq_none (r : Option Restart) : restartKey r = none ↔ r = none := by simp [restartKey]

/-- No change makes a restart pending. -/
theorem Changes.restart_none {s t : State} (h : Changes s t) (absent : s.restart = none) : t.restart = none :=
  (restartKey_eq_none _).mp (h.restartKey.trans ((restartKey_eq_none _).mpr absent))

/-! ### Chains -/

theorem foldl_changes {α : Type} {f : State → α → State} {l : List α} (h : ∀ a ∈ l, ∀ s, Changes s (f s a)) (s : State) :
    Changes s (l.foldl f s) := by
  induction l generalizing s with
  | nil => exact .refl
  | cons a l ih =>
    exact (h a (List.mem_cons_self ..) s).trans (ih (fun b mem => h b (List.mem_cons_of_mem _ mem)) (f s a))

section Ports

variable (s : State) (p : Port)

/-- A change of a port that leaves its queue and its parameters, and whether it drives its line. -/
theorem State.updPort_changes (f : PortUnit → PortUnit) (queue : (f (s.port p)).queue = (s.port p).queue)
    (sending : (f (s.port p)).state.dirAsserted = (s.port p).state.dirAsserted)
    (params : (f (s.port p)).params = (s.port p).params) : Changes s (s.updPort p f) :=
  .single (.port p f queue sending fun range => by rwa [params])

theorem State.setPortState_changes {st : PortState} (same : st.dirAsserted = (s.port p).state.dirAsserted) :
    Changes s (s.setPortState p st) := s.updPort_changes p _ rfl same rfl

theorem State.setLine_changes (l : LineState) (h : StartHold) : Changes s (s.setLine p l h) :=
  s.updPort_changes p _ rfl rfl rfl

theorem PortUnit.reachQuiet_eq (n : Nat) (u : PortUnit) :
    PortUnit.reachQuiet n u =
      { u with line := (PortUnit.reachQuiet n u).line, busySpan := (PortUnit.reachQuiet n u).busySpan } := by
  unfold PortUnit.reachQuiet
  split <;> rfl

theorem State.reachQuiet_changes (n : Nat) : Changes s (s.reachQuiet p n) := by
  refine s.updPort_changes p _ ?_ ?_ ?_ <;> rw [PortUnit.reachQuiet_eq]

theorem State.state_reachQuiet (n : Nat) : ((s.reachQuiet p n).port p).state = (s.port p).state := by
  rw [State.reachQuiet, State.port_updPort_self, PortUnit.reachQuiet_eq]

theorem State.settle_changes : Changes s s.settle := by
  cases due : s.restart.any fun r => r.due with
  | true => rw [State.settle_of_due due]
  | false =>
    rw [State.settle_of_notDue due]
    exact foldl_changes (fun p _ s => .single (.start p)) s

end Ports

/-! ### The effects of the rows -/

section Effects

variable (s : State) (p : Port)

/-- A frame in progress abandoned, on a port that is not in SENDING. -/
theorem State.abandon_changes (b : BufferIx) (c : PortCounter) (still : (s.port p).state.dirAsserted = false) :
    Changes s (s.abandon p b c) := by
  have freed := (s.freeUp_reporting b).moves.changes
  exact (freed.trans (State.setPortState_changes (s.freeUp b) p (st := .listen) still.symm)).trans
    (State.countPort_moves _ p c).changes

theorem State.truncate_changes : Changes s (s.truncate p) := by
  unfold State.truncate
  split
  · rename_i receiving
    split
    · refine (s.reachQuiet_changes p _).trans (State.abandon_changes _ p _ _ ?_)
      rw [State.state_reachQuiet, receiving]
      rfl
    · exact .refl
  all_goals exact .refl

theorem State.reachStart_changes : Changes s (s.reachStart p) := by
  unfold State.reachStart
  split
  · exact s.reachQuiet_changes p _
  all_goals exact .refl

theorem State.missEcho_changes : Changes s (s.missEcho p) := by
  unfold State.missEcho
  split
  · rename_i sending marked
    exact .single (.collide p _ (by rw [sending]; rfl) marked)
  all_goals exact .refl

theorem State.endBackoff_changes : Changes s (s.endBackoff p) := by
  unfold State.endBackoff
  split
  · rename_i backoff
    split
    · refine (s.reachQuiet_changes p _).trans (State.setPortState_changes _ p ?_)
      rw [State.state_reachQuiet, backoff]
      rfl
    · exact .refl
  all_goals exact .refl

theorem State.endGuard_changes : Changes s (s.endGuard p) := by
  unfold State.endGuard
  split
  · rename_i guard
    exact s.setPortState_changes p (by rw [guard]; rfl)
  all_goals exact .refl

theorem State.resume_changes (still : (s.port p).state.dirAsserted = false) : Changes s (s.resume p) :=
  s.updPort_changes p _ rfl still.symm rfl

theorem State.endContainment_changes : Changes s (s.endContainment p) := by
  unfold State.endContainment
  split
  · rename_i contained
    exact s.resume_changes p (by rw [contained]; rfl)
  all_goals exact .refl

/-- A pulse that ends, or goes on, on a part whose other settings stay. -/
theorem KeepsSettings.of_pulse {s t : State} (ports : t.ports = s.ports) (params : t.params = s.params)
    (stations : t.stations = s.stations) (managers : t.managers = s.managers) (pulse : s.pulse = none → t.pulse = none) :
    KeepsSettings s t := by
  refine ⟨fun h => ?_, fun h => ?_, fun h => ?_, fun h => ?_⟩
  · simpa only [State.paramsInRange, State.port, params, ports] using h
  · simpa only [State.agesFit, params, stations] using h
  · simpa only [State.managersDistinct, State.slotHolds, managers] using h
  · rw [State.pulseOnlyInPulseMode, Bool.or_eq_true, Option.isNone_iff_eq_none] at h ⊢
    rw [params]
    exact h.imp_right pulse

/-- What the rows that are one event of the main domain do in it, but for a pin reset. -/
theorem Effect.changes {e : Effect} (notReset : ∀ straps, e ≠ .pinReset straps) : Changes s (e.apply s) := by
  cases e with
  | truncate p => exact s.truncate_changes p
  | idleReaches2Ct p => exact s.reachQuiet_changes p _
  | reachStart p => exact s.reachStart_changes p
  | missEcho p => exact s.missEcho_changes p
  | endBackoff p => exact s.endBackoff_changes p
  | endGuard p => exact s.endGuard_changes p
  | contain p =>
    by_cases monitored : (s.port p).state.monitored = true
    · rw [Effect.apply, if_pos monitored]
      exact .single (.contain p monitored)
    · rw [Effect.apply, if_neg monitored]
  | endContainment p => exact s.endContainment_changes p
  | lapse t => exact (s.lapse_moves t).changes
  | endGrace t => exact (s.endGrace_moves t).changes
  | endPulse => exact .single (.settings rfl rfl rfl rfl (.of_pulse rfl rfl rfl rfl fun _ => rfl))
  | pinReset straps => exact absurd rfl (notReset straps)
  | nothing => exact .refl

end Effects

/-! ### The second tick and the passing of time -/

section Time

variable (s : State)

theorem SameCore.changes {s t : State} (same : SameCore s t) : Changes s t := .single (.move (.other same))

theorem State.applyTime_changes (d : DateTime) : Changes s (s.applyTime d) := by
  have set : Changes s { s.zeroPhase with
      calendar := { s.calendar with now := d, valid := true, phase := 0 }
      staged := none } := SameCore.changes ⟨rfl, rfl, rfl, rfl, rfl, rfl, rfl, rfl⟩
  exact set.trans (State.evaluate_moves _).changes

theorem State.setNow_changes (d : DateTime) : Changes s (s.setNow d) :=
  SameCore.changes ⟨rfl, rfl, rfl, rfl, rfl, rfl, rfl, rfl⟩

theorem State.zeroPhase_changes : Changes s s.zeroPhase := SameCore.changes ⟨rfl, rfl, rfl, rfl, rfl, rfl, rfl, rfl⟩

end Time

end Sys2Proof.Machine
end

