-- ==== Sys2Proof/Proofs/Commands.lean ====
section
/-! SUPPORT. What a management command changes: the writes to the tables and parameters keep these sound, and every command
but RESTART is a chain of changes. -/

namespace Sys2Proof.Machine

/-! ### When the settings are sound -/

theorem State.paramsInRange_iff (s : State) :
    s.paramsInRange = true ↔ s.params.inRange = true ∧ ∀ p, (s.port p).params.inRange = true := by
  simp [State.paramsInRange, allPorts]

theorem State.agesFit_iff (s : State) :
    s.agesFit = true ↔
      s.params.ageLimit ≤ 255 ∧ ∀ e ∈ s.stations, StationEntry.ageFits s.params.ageLimit e = true := by
  simp only [State.agesFit, Bool.and_eq_true, decide_eq_true_eq, List.all_eq_true, Vector.mem_toList_iff]

theorem State.pulseOnlyInPulseMode_iff (s : State) :
    s.pulseOnlyInPulseMode = true ↔ (s.params.alertMode = .latched → s.pulse = none) := by
  cases mode : s.params.alertMode <;> simp [State.pulseOnlyInPulseMode, mode]

theorem PortParams.inRange_iff (u : PortParams) :
    u.inRange = true ↔
      PortParam.inRange u.quiet .quiet = true ∧ PortParam.inRange u.guard .guard = true ∧
        PortParam.inRange u.attempts .attempts = true ∧ PortParam.inRange u.jabberLimit .jabberLimit = true ∧
        PortParam.inRange u.containPeriod .containPeriod = true ∧ PortParam.inRange u.replyTimeout .replyTimeout = true := by
  simp only [PortParams.inRange, Bool.and_eq_true, and_assoc]

theorem CouplerParams.inRange_iff (u : CouplerParams) :
    u.inRange = true ↔
      CouplerParam.inRange u.ownAddress.toNat .ownAddress = true ∧ CouplerParam.inRange u.ageLimit .ageLimit = true ∧
        CouplerParam.inRange u.reserve .reserve = true ∧ CouplerParam.inRange u.maxOutstanding .maxOutstanding = true ∧
        CouplerParam.inRange u.lapseGrace .lapseGrace = true ∧ CouplerParam.inRange u.alertMask.toNat .alertMask = true ∧
        CouplerParam.inRange u.alertRecipient.toNat .alertRecipient = true := by
  simp only [CouplerParams.inRange, Bool.and_eq_true, and_assoc]

/-- The address of manager slot `i`, if it holds one. -/
def State.managerAt (s : State) (i : Fin 4) : Option Byte := (s.managers.get i).map (·.address)

theorem State.slotHolds_iff (s : State) (a : Byte) (i : Fin 4) : s.slotHolds a i = true ↔ s.managerAt i = some a := by
  simp [State.slotHolds, State.managerAt]

/-- The manager table by the addresses of its slots (R169). -/
theorem State.managersDistinct_iff (s : State) :
    s.managersDistinct = true ↔
      ∀ i a, s.managerAt i = some a → isStation a = true ∧ ∀ j, s.managerAt j = some a → i = j := by
  have slot (i : Fin 4) :
      (match s.managers.get i with
        | some r => isStation r.address && allSlots.all fun j => i == j || !s.slotHolds r.address j
        | none => true) = true ↔
      ∀ a, s.managerAt i = some a → isStation a = true ∧ ∀ j, s.managerAt j = some a → i = j := by
    have holds (a : Byte) (j : Fin 4) : s.slotHolds a j = false ↔ ¬ s.managerAt j = some a := by
      rw [← s.slotHolds_iff, Bool.not_eq_true]
    cases held : s.managers.get i with
    | none => simp [State.managerAt, held]
    | some r =>
      have here : s.managerAt i = some r.address := by simp [State.managerAt, held]
      simp [here, allSlots, holds, Classical.or_iff_not_imp_right]
  rw [State.managersDistinct, List.all_eq_true]
  exact ⟨fun h i => (slot i).mp (h i (List.mem_finRange i)), fun h i _ => (slot i).mpr (h i)⟩

/-- Soundness of the manager table speaks of the addresses alone. -/
theorem State.managersDistinct_of_addresses {s t : State} (same : ∀ i, t.managerAt i = s.managerAt i)
    (h : s.managersDistinct = true) : t.managersDistinct = true := by
  rw [State.managersDistinct_iff] at h ⊢
  simpa only [same] using h

/-! ### Ages (R62, R69 to R71) -/

namespace StationEntry

theorem ageFits_iff (limit : Nat) (e : StationEntry) :
    e.ageFits limit = true ↔ ∀ home age, e.state = .learned home age → age ≤ 254 ∧ (limit = 0 ∨ age < limit) := by
  cases state : e.state <;> simp [ageFits, state]

theorem ageFits_of_not_learned {limit : Nat} {e : StationEntry} (h : ∀ home age, e.state ≠ .learned home age) :
    e.ageFits limit = true :=
  (e.ageFits_iff limit).mpr fun home age state => absurd state (h home age)

theorem ageFits_aged {limit : Nat} {e : StationEntry} (small : limit ≤ 255) (h : e.ageFits limit = true) :
    (e.aged limit).ageFits limit = true := by
  rw [ageFits_iff] at h ⊢
  intro home age
  unfold aged
  split
  · rename_i home' age' state
    obtain ⟨bound, -⟩ := h home' age' state
    split
    · rename_i zero
      intro e
      injection e with _ e
      subst e
      exact ⟨by split <;> omega, .inl zero⟩
    · split
      · rename_i below
        intro e
        injection e with _ e
        subst e
        exact ⟨by omega, .inr below⟩
      · exact fun e => StationState.noConfusion e
  all_goals exact fun state => h home age state

theorem ageFits_limited {old limit : Nat} {e : StationEntry} (h : e.ageFits old = true) :
    (e.limited limit).ageFits limit = true := by
  rw [ageFits_iff] at h ⊢
  intro home age
  unfold limited
  split
  · rename_i home' age' state
    obtain ⟨bound, -⟩ := h home' age' state
    split
    · exact fun e => StationState.noConfusion e
    · rename_i fits
      intro e
      rw [state] at e
      injection e with _ e
      subst e
      exact ⟨bound, by omega⟩
  all_goals
    rename_i state
    exact fun e => StationState.noConfusion (state.symm.trans e)

theorem ageFits_flushed {limit : Nat} (e : StationEntry) : e.flushed.ageFits limit = true := by
  refine ageFits_of_not_learned fun home age => ?_
  unfold flushed
  split
  · exact fun e => StationState.noConfusion e
  all_goals
    rename_i state
    exact fun e => StationState.noConfusion (state.symm.trans e)

end StationEntry

/-! ### Writes to the tables and parameters -/

section Writes

variable (s : State)

/-- Every station entry changed by `f`, the limit becoming `limit`. -/
theorem KeepsSettings.of_stations {t : State} {f : StationEntry → StationEntry}
    (stations : t.stations = s.stations.map f) (ports : t.ports = s.ports) (params : t.params = s.params)
    (managers : t.managers = s.managers) (pulse : t.pulse = s.pulse)
    (fits : ∀ e, s.params.ageLimit ≤ 255 → e.ageFits s.params.ageLimit = true → (f e).ageFits s.params.ageLimit = true) :
    KeepsSettings s t := by
  obtain ⟨range, -, distinct, mode⟩ :=
    KeepsSettings.of_pulse (s := s) (t := { t with stations := s.stations }) ports params rfl managers fun none => pulse.trans none
  refine ⟨range, fun h => ?_, distinct, mode⟩
  rw [State.agesFit_iff] at h ⊢
  obtain ⟨small, all⟩ := h
  rw [params, stations]
  refine ⟨small, fun e mem => ?_⟩
  obtain ⟨x, old, rfl⟩ := Vector.mem_map.mp mem
  exact fits x small (all x old)

theorem State.ageStations_changes : Changes s s.ageStations :=
  .single (.settings rfl rfl rfl rfl
    (.of_stations s rfl rfl rfl rfl rfl fun _ small => StationEntry.ageFits_aged small))

theorem State.flushLearned_changes : Changes s s.flushLearned :=
  .single (.settings rfl rfl rfl rfl
    (.of_stations s rfl rfl rfl rfl rfl fun e _ _ => e.ageFits_flushed))

/-- An entry written whose age, if it has one, is 0. -/
theorem State.setStation_changes (a : Byte) {e : StationEntry}
    (young : ∀ home age, e.state = .learned home age → age = 0) : Changes s (s.setStation a e) := by
  unfold State.setStation
  split
  · rename_i i _
    refine .single (.settings rfl rfl rfl rfl ⟨id, fun h => ?_, id, id⟩)
    rw [State.agesFit_iff] at h ⊢
    obtain ⟨small, all⟩ := h
    refine ⟨small, fun x mem => ?_⟩
    obtain old | new := Vector.mem_or_eq_of_mem_set (hi := i.isLt) mem
    · exact all x old
    · rw [new, StationEntry.ageFits_iff]
      intro home age state
      rw [young home age state]
      exact ⟨by omega, by omega⟩
  · exact .refl

/-- A write of AGE_LIMIT in its range (R70, R174). -/
theorem State.writeAgeLimit_changes {limit : Nat} (range : limit ≤ 255) : Changes s (s.writeAgeLimit limit) := by
  refine .single (.settings rfl rfl rfl rfl ⟨fun h => ?_, fun h => ?_, id, id⟩)
  · rw [State.paramsInRange_iff] at h ⊢
    rw [CouplerParams.inRange_iff] at h ⊢
    obtain ⟨⟨own, -, rest⟩, ports⟩ := h
    exact ⟨⟨own, decide_eq_true range, rest⟩, ports⟩
  · rw [State.agesFit_iff] at h ⊢
    obtain ⟨-, all⟩ := h
    refine ⟨range, fun e mem => ?_⟩
    obtain ⟨x, old, rfl⟩ := Vector.mem_map.mp mem
    exact StationEntry.ageFits_limited (all x old)

/-- A write of ALERT_MODE ends a running pulse (R191). -/
theorem State.writeAlertMode_changes (m : AlertMode) : Changes s (s.writeAlertMode m) := by
  refine .single (.settings rfl rfl rfl rfl ⟨id, id, id, fun _ => ?_⟩)
  exact (State.pulseOnlyInPulseMode_iff _).mpr fun _ => rfl

/-- A write of another coupler parameter, in its range. -/
theorem State.updParams_changes (f : CouplerParams → CouplerParams)
    (range : s.params.inRange = true → (f s.params).inRange = true)
    (limit : (f s.params).ageLimit = s.params.ageLimit) (mode : (f s.params).alertMode = s.params.alertMode) :
    Changes s (s.updParams f) := by
  refine .single (.settings rfl rfl rfl rfl ⟨fun h => ?_, fun h => ?_, id, fun h => ?_⟩)
  · rw [State.paramsInRange_iff] at h ⊢
    exact ⟨range h.1, h.2⟩
  · simpa only [State.agesFit, State.updParams, limit] using h
  · simpa only [State.pulseOnlyInPulseMode, State.updParams, mode] using h

end Writes

/-! ### The manager table (R166, R167, R169) -/

theorem State.managerAt_setSlot (s : State) (i j : Fin 4) (m : Option ManagerRecord) :
    (s.setSlot i m).managerAt j = if j = i then m.map (·.address) else s.managerAt j := by
  have slot := get_set s.managers i j m
  rw [State.managerAt, State.setSlot_managers, slot]
  split <;> rfl

/-- A slot emptied, or given the address of a station that no other slot holds. -/
theorem State.managersDistinct_setSlot {s : State} {i : Fin 4} {m : Option ManagerRecord}
    (station : ∀ r, m = some r → isStation r.address = true)
    (fresh : ∀ r, m = some r → ∀ j, j ≠ i → s.managerAt j ≠ some r.address) (h : s.managersDistinct = true) :
    (s.setSlot i m).managersDistinct = true := by
  rw [State.managersDistinct_iff] at h ⊢
  intro j a
  rw [State.managerAt_setSlot]
  split
  · rename_i e
    subst e
    intro held
    obtain ⟨r, rfl, rfl⟩ := Option.map_eq_some_iff.mp held
    refine ⟨station r rfl, fun k => ?_⟩
    rw [State.managerAt_setSlot]
    split
    · exact fun _ => by symm; assumption
    · rename_i other
      exact fun twice => absurd twice (fresh r rfl k other)
  · rename_i other
    intro held
    obtain ⟨isStation, once⟩ := h j a held
    refine ⟨isStation, fun k => ?_⟩
    rw [State.managerAt_setSlot]
    split
    · intro twice
      obtain ⟨r, rfl, rfl⟩ := Option.map_eq_some_iff.mp twice
      exact absurd held (fresh r rfl j other)
    · exact once k

theorem State.setSlot_changes {s : State} {i : Fin 4} {m : Option ManagerRecord}
    (keeps : s.managersDistinct = true → (s.setSlot i m).managersDistinct = true) : Changes s (s.setSlot i m) :=
  .single (.settings rfl rfl rfl rfl ⟨id, id, keeps, id⟩)

/-- A result stored in the slot of its manager: the slot's address is that manager's already. -/
theorem State.storeResult_changes (s : State) (source sequence : Byte) (payload : List Byte) :
    Changes s (s.storeResult source sequence payload) := by
  unfold State.storeResult
  split
  · rename_i i slot
    have held : s.managerAt i = some source := (s.slotHolds_iff source i).mp (List.find?_some slot)
    refine State.setSlot_changes (State.managersDistinct_of_addresses fun j => ?_)
    rw [State.managerAt_setSlot]
    split
    · rename_i e
      rw [e, held]
      rfl
    · rfl
  · exact .refl

/-! ### The tests of a command -/

theorem error_ne_ok {α : Type} {code : ResultCode} {a : α} : (Except.error code : Except ResultCode α) ≠ .ok a := nofun

/-- A test that came before a result has passed. -/
theorem ok_of_bind {α β : Type} {x : Except ResultCode α} {f : α → Except ResultCode β} {b : β}
    (h : x >>= f = .ok b) : ∃ a, x = .ok a ∧ f a = .ok b := by
  cases x with
  | error code => exact absurd h error_ne_ok
  | ok a => exact ⟨a, rfl, h⟩

theorem require_ok_iff {ok : Bool} {code : ResultCode} {u : Unit} : require ok code = .ok u ↔ ok = true := by
  cases ok <;> simp [require]

theorem named_ok_iff {α : Type} {v : Option α} {code : ResultCode} {a : α} : named v code = .ok a ↔ v = some a := by
  cases v <;> simp [named]

/-! ### WRITE ENTRY (R172) -/

section WriteEntry

variable {s t : State} {args : List Byte}

theorem State.writeStation_changes (h : s.writeStation args = .ok t) : Changes s t := by
  obtain ⟨address, -, h⟩ := ok_of_bind h
  obtain ⟨-, -, h⟩ := ok_of_bind h
  obtain ⟨state, -, h⟩ := ok_of_bind h
  obtain ⟨-, -, h⟩ := ok_of_bind h
  obtain ⟨ceiling, -, h⟩ := ok_of_bind h
  obtain ⟨-, -, h⟩ := ok_of_bind h
  obtain ⟨segment, -, h⟩ := ok_of_bind h
  split at h
  · obtain ⟨written, pinned, h⟩ := ok_of_bind h
    injection h with h
    subst h
    refine s.setStation_changes address fun home age learned => ?_
    cases segment' : named (portOf segment) .badValue with
    | error code =>
      rw [segment'] at pinned
      exact absurd pinned error_ne_ok
    | ok p =>
      rw [segment'] at pinned
      injection pinned with pinned
      exact StationState.noConfusion (pinned.trans learned)
  · injection h with h
    subst h
    refine s.setStation_changes address fun home age learned => ?_
    split at learned <;> exact StationState.noConfusion learned

theorem State.writeGroup_changes (h : s.writeGroup args = .ok t) : Changes s t := by
  obtain ⟨index, -, h⟩ := ok_of_bind h
  split at h
  · obtain ⟨mask, -, h⟩ := ok_of_bind h
    obtain ⟨-, -, h⟩ := ok_of_bind h
    injection h with h
    subst h
    exact SameCore.changes ⟨rfl, rfl, rfl, rfl, rfl, rfl, rfl, rfl⟩
  · exact absurd h error_ne_ok

theorem State.writeWindow_changes (h : s.writeWindow args = .ok t) : Changes s t := by
  obtain ⟨index, -, h⟩ := ok_of_bind h
  split at h
  · rename_i inTable
    obtain ⟨enabled, -, h⟩ := ok_of_bind h
    obtain ⟨-, -, h⟩ := ok_of_bind h
    obtain ⟨days, -, h⟩ := ok_of_bind h
    obtain ⟨-, -, h⟩ := ok_of_bind h
    obtain ⟨c₄, -, h⟩ := ok_of_bind h
    obtain ⟨startHour, -, h⟩ := ok_of_bind h
    obtain ⟨c₅, -, h⟩ := ok_of_bind h
    obtain ⟨startMinute, -, h⟩ := ok_of_bind h
    obtain ⟨c₆, -, h⟩ := ok_of_bind h
    obtain ⟨stopHour, -, h⟩ := ok_of_bind h
    obtain ⟨c₇, -, h⟩ := ok_of_bind h
    obtain ⟨stopMinute, -, h⟩ := ok_of_bind h
    obtain ⟨mask, -, h⟩ := ok_of_bind h
    obtain ⟨-, -, h⟩ := ok_of_bind h
    obtain ⟨c₉, -, h⟩ := ok_of_bind h
    obtain ⟨action, -, h⟩ := ok_of_bind h
    injection h with h
    subst h
    have written (w : WindowEntry) : Changes s { s with windows := s.windows.set index.toNat w inTable } :=
      SameCore.changes ⟨rfl, rfl, rfl, rfl, rfl, rfl, rfl, rfl⟩
    exact (written _).trans (State.evaluate_moves _).changes
  · exact absurd h error_ne_ok

theorem State.writeManager_changes (h : s.writeManager args = .ok t) : Changes s t := by
  obtain ⟨index, -, h⟩ := ok_of_bind h
  split at h
  · rename_i inTable
    obtain ⟨address, -, h⟩ := ok_of_bind h
    obtain ⟨_, station, h⟩ := ok_of_bind h
    obtain ⟨_, fresh, h⟩ := ok_of_bind h
    injection h with h
    subst h
    rw [require_ok_iff] at station fresh
    refine State.setSlot_changes (State.managersDistinct_setSlot ?_ ?_)
    · intro r written
      split at written
      · exact absurd written (Option.some_ne_none _).symm
      · rename_i nonzero
        injection written with written
        subst written
        simpa only [nonzero, Bool.false_or] using station
    · intro r written j other held
      split at written
      · exact absurd written (Option.some_ne_none _).symm
      · rename_i nonzero
        injection written with written
        subst written
        rw [← s.slotHolds_iff] at held
        have apart : j.val ≠ index.toNat := fun e => other (Fin.ext e)
        have free : ∀ i : Fin 4, i.val ≠ index.toNat → s.slotHolds address i = false := by
          simpa only [nonzero, Bool.false_or, allSlots, Bool.not_eq_true', List.any_eq_false, List.mem_finRange,
            Bool.and_eq_true, not_and, bne_iff_ne, Bool.not_eq_true, true_imp_iff] using fresh
        rw [free j apart] at held
        exact Bool.noConfusion held
  · exact absurd h error_ne_ok

theorem State.writeEntry_changes (h : s.writeEntry args = .ok t) : Changes s t := by
  obtain ⟨code, -, h⟩ := ok_of_bind h
  split at h
  · exact State.writeStation_changes h
  · exact State.writeGroup_changes h
  · exact State.writeWindow_changes h
  · exact State.writeManager_changes h
  all_goals exact absurd h error_ne_ok

end WriteEntry

/-! ### SET PARAM (R173, R174) -/

section Parameters

variable (s : State)

/-- A per-port parameter changed within its range. -/
theorem State.updPortParams_changes (p : Port) (f : PortParams → PortParams)
    (range : (s.port p).params.inRange = true → (f (s.port p).params).inRange = true) :
    Changes s (s.updPortParams p f) := .single (.port p _ rfl rfl range)

theorem State.enable_changes (p : Port) : Changes s (s.enable p) := by
  unfold State.enable
  split
  · rename_i disabled
    exact s.resume_changes p (by rw [disabled]; rfl)
  all_goals exact .refl

theorem State.writePortEnable_changes (p : Port) (on : Bool) : Changes s (s.writePortEnable p on) := by
  have written := s.updPortParams_changes p (fun q => { q with enable := on }) id
  unfold State.writePortEnable
  dsimp only
  split
  · exact written.trans (State.enable_changes _ p)
  · exact written.tail (.disable p)

theorem State.writeJabberLimit_changes (p : Port) {limit : Nat} (range : PortParam.inRange limit .jabberLimit = true) :
    Changes s (s.writeJabberLimit p limit) := by
  have written := s.updPortParams_changes p (fun q => { q with jabberLimit := limit }) fun old => by
    simp only [PortParams.inRange, Bool.and_eq_true] at old ⊢
    tauto
  have state : ((s.updPortParams p fun q => { q with jabberLimit := limit }).port p).state = (s.port p).state := by
    rw [State.updPortParams, State.port_updPort_self]
  unfold State.writeJabberLimit
  generalize (s.updPortParams p fun q => { q with jabberLimit := limit }) = t at written state
  dsimp only
  split
  · rename_i above
    rw [Bool.and_eq_true] at above
    exact written.tail (.contain p (state ▸ above.1))
  · exact written

/-- A per-port write within range (R36 to R38). -/
theorem State.applyPortParam_changes (p : Port) {v : Nat} (q : PortParam) (range : q.inRange v = true) :
    Changes s (s.applyPortParam p v q) := by
  have written (f : PortParams → PortParams) := s.updPortParams_changes p f
  simp only [PortParams.inRange_iff] at written
  cases q with
  | enable => exact s.writePortEnable_changes p _
  | jabberLimit => exact s.writeJabberLimit_changes p range
  | baud =>
    have written (b : Baud) : Changes s (s.writeBaud p b) :=
      .single (.port p
        (fun u => { u with params := { u.params with baud := b }, line := u.line.afresh, startHold := .oneCt }) rfl rfl id)
    change Changes s (match Baud.ofRate v with | some b => s.writeBaud p b | none => s)
    split
    · exact written _
    · exact .refl
  | mgmtAccept => exact written (fun u => { u with mgmtAccept := v == 1 }) id
  | quiet => exact written (fun u => { u with quiet := v }) fun old => by tauto
  | guard => exact written (fun u => { u with guard := v }) fun old => by tauto
  | attempts => exact written (fun u => { u with attempts := v }) fun old => by tauto
  | containPeriod => exact written (fun u => { u with containPeriod := v }) fun old => by tauto
  | replyTimeout => exact written (fun u => { u with replyTimeout := v }) fun old => by tauto

/-- A coupler write within range (R174). -/
theorem State.applyCouplerParam_changes {v : Nat} (q : CouplerParam) (range : q.inRange v = true) :
    Changes s (s.applyCouplerParam v q) := by
  have written (f : CouplerParams → CouplerParams) := s.updParams_changes f
  simp only [CouplerParams.inRange_iff] at written
  have byte (small : v ≤ 239) : (byteOf v).toNat = v := Nat.mod_eq_of_lt (by omega)
  cases q with
  | ageLimit => exact s.writeAgeLimit_changes (of_decide_eq_true range)
  | alertMode => exact s.writeAlertMode_changes _
  | forwarding => exact written (fun u => { u with forwarding := v == 1 }) id rfl rfl
  | unknownPolicy => exact written (fun u => { u with unknownPolicy := if v == 0 then .flood else .drop }) id rfl rfl
  | reserve => exact written (fun u => { u with reserve := v }) (fun old => by tauto) rfl rfl
  | maxOutstanding => exact written (fun u => { u with maxOutstanding := v }) (fun old => by tauto) rfl rfl
  | lapseGrace => exact written (fun u => { u with lapseGrace := v }) (fun old => by tauto) rfl rfl
  | ownAddress =>
    have same := byte (of_decide_eq_true (Bool.and_eq_true_iff.mp range).2)
    refine written (fun u => { u with ownAddress := byteOf v }) (fun old => ?_) rfl rfl
    rw [same]
    tauto
  | alertRecipient =>
    have same := byte (of_decide_eq_true range)
    refine written (fun u => { u with alertRecipient := byteOf v }) (fun old => ?_) rfl rfl
    rw [same]
    tauto
  | alertMask =>
    have small : v ≤ 127 := of_decide_eq_true range
    have same : (BitVec.ofNat 7 v).toNat = v := Nat.mod_eq_of_lt (by omega)
    refine written (fun u => { u with alertMask := BitVec.ofNat 7 v }) (fun old => ?_) rfl rfl
    rw [same]
    tauto

theorem State.setParam_changes {s t : State} {args : List Byte} (h : s.setParam args = .ok t) : Changes s t := by
  obtain ⟨ident, -, h⟩ := ok_of_bind h
  obtain ⟨name, -, h⟩ := ok_of_bind h
  obtain ⟨port, -, h⟩ := ok_of_bind h
  cases name with
  | ofPort q =>
    obtain ⟨p, -, h⟩ := ok_of_bind h
    obtain ⟨v, -, h⟩ := ok_of_bind h
    obtain ⟨_, range, h⟩ := ok_of_bind h
    obtain ⟨-, -, h⟩ := ok_of_bind h
    injection h with h
    subst h
    split
    · exact .refl
    · exact s.applyPortParam_changes p q (require_ok_iff.mp range)
  | ofCoupler q =>
    obtain ⟨v, -, h⟩ := ok_of_bind h
    obtain ⟨_, range, h⟩ := ok_of_bind h
    injection h with h
    subst h
    split
    · exact .refl
    · exact s.applyCouplerParam_changes q (require_ok_iff.mp range)

end Parameters

/-! ### The other commands, and every command but RESTART -/

section Execution

variable (s : State)

theorem State.minuteTick_changes : Changes s s.minuteTick :=
  s.ageStations_changes.trans (State.evaluate_moves _).changes

theorem State.timeSet_changes (d : DateTime) : Changes s (s.timeSet d) := by
  unfold State.timeSet
  split
  · exact s.applyTime_changes d
  · exact SameCore.changes ⟨rfl, rfl, rfl, rfl, rfl, rfl, rfl, rfl⟩

theorem State.timeRound_changes : Changes s s.timeRound := by
  unfold State.timeRound
  dsimp only
  split
  · exact (s.zeroPhase_changes.trans (State.setNow_changes _ _)).trans (State.minuteTick_changes _)
  · exact s.zeroPhase_changes.trans (State.setNow_changes _ _)

theorem State.timeHold_changes : Changes s s.timeHold := by
  have held (u : State) : Changes u { u with calendar := { u.calendar with hold := true } } :=
    SameCore.changes ⟨rfl, rfl, rfl, rfl, rfl, rfl, rfl, rfl⟩
  unfold State.timeHold
  dsimp only
  split
  · exact (s.applyTime_changes _).trans (held _)
  · exact held s

theorem State.timeRun_changes : Changes s s.timeRun := SameCore.changes ⟨rfl, rfl, rfl, rfl, rfl, rfl, rfl, rfl⟩

theorem State.clearScope_changes (c : Scope) : Changes s (s.clearScope c) := by
  have counted (v : Vector Count 22) : Changes s { s with counters := v } :=
    SameCore.changes ⟨rfl, rfl, rfl, rfl, rfl, rfl, rfl, rfl⟩
  cases c with
  | port p => exact s.updPort_changes p (fun u => { u with counters := Vector.replicate 11 0 }) rfl rfl rfl
  | coupler1 => exact counted _
  | coupler2 => exact counted _

theorem State.readCounters_changes {s t : State} {args data : List Byte} (h : s.readCounters args = .ok (data, t)) :
    Changes s t := by
  obtain ⟨code, -, h⟩ := ok_of_bind h
  obtain ⟨scope, -, h⟩ := ok_of_bind h
  obtain ⟨flag, -, h⟩ := ok_of_bind h
  obtain ⟨-, -, h⟩ := ok_of_bind h
  injection h with h
  injection h with _ h
  subst h
  split
  · exact s.clearScope_changes scope
  · exact .refl

theorem State.clearAlert_changes {s t : State} {args : List Byte} (h : s.clearAlert args = .ok t) : Changes s t := by
  obtain ⟨causes, -, h⟩ := ok_of_bind h
  obtain ⟨-, -, h⟩ := ok_of_bind h
  injection h with h
  subst h
  exact SameCore.changes ⟨rfl, rfl, rfl, rfl, rfl, rfl, rfl, rfl⟩

theorem answerRead_changes (r : Except ResultCode (Nat × List Byte)) : Changes s (answerRead s r).2 := by
  cases r <;> exact .refl

theorem answerWrite_changes {r : Except ResultCode State} (h : ∀ t, r = .ok t → Changes s t) :
    Changes s (answerWrite s r).2 := by
  cases r with
  | error code => exact .refl
  | ok t => exact h t rfl

theorem answerWrite_ok_changes {t : State} (h : Changes s t) : Changes s (answerWrite s (.ok t)).2 := h

/-- Every command but RESTART (9.6). -/
theorem State.executeCommand_changes (room : BufferIx) (args : List Byte) {c : CommandCode} (notRestart : c ≠ .restart) :
    Changes s (s.executeCommand room args c).2 := by
  cases c with
  | status => exact answerRead_changes s _
  | readEntries => exact answerRead_changes s _
  | writeEntry => exact answerWrite_changes s fun _ => State.writeEntry_changes
  | getParam => exact answerRead_changes s _
  | setParam => exact answerWrite_changes s fun _ => State.setParam_changes
  | readCounters =>
    cases read : s.readCounters args with
    | error code => simp only [State.executeCommand, read, answerCounters, Relation.ReflTransGen.refl]
    | ok r =>
      simp only [State.executeCommand, read, answerCounters]
      exact State.readCounters_changes read
  | timeRead => exact answerRead_changes s _
  | timeSet =>
    refine answerWrite_changes s fun t h => ?_
    cases time : timeArg args with
    | error code =>
      rw [time] at h
      exact absurd h error_ne_ok
    | ok d =>
      rw [time] at h
      injection h with h
      subst h
      exact s.timeSet_changes d
  | timeRound =>
    refine answerWrite_changes s fun t h => ?_
    split at h
    · exact absurd h error_ne_ok
    · injection h with h
      subst h
      exact s.timeRound_changes
  | timeHold => exact answerWrite_ok_changes s s.timeHold_changes
  | timeRun => exact answerWrite_ok_changes s s.timeRun_changes
  | clearAlert => exact answerWrite_changes s fun _ => State.clearAlert_changes
  | flushLearned => exact answerWrite_ok_changes s s.flushLearned_changes
  | restart => exact absurd rfl notRestart

/-- RESTART, which is refused or makes a restart pending that awaits its result (R178). -/
theorem State.executeCommand_restart (room : BufferIx) (args : List Byte) :
    (s.executeCommand room args .restart).2 = s ∨
      ∃ k, (s.executeCommand room args .restart).2 = { s with restart := some ⟨k, room, false⟩ } := by
  cases accepted : s.restartCommand room args with
  | error code => simp [State.executeCommand, accepted, answerWrite]
  | ok t =>
    obtain ⟨code, -, h⟩ := ok_of_bind accepted
    obtain ⟨kind, -, h⟩ := ok_of_bind h
    injection h with h
    exact .inr ⟨kind, by simp [State.executeCommand, accepted, answerWrite, h]⟩

end Execution

end Sys2Proof.Machine
end

