-- ==== Sys2Proof/Proofs/Arrivals.lean ====
section
/-! SUPPORT. What a character, a frame and a command it carries leave: a chain of changes, or a restart that has just become
pending and awaits its result. -/

namespace Sys2Proof.Machine

/-! ### The second tick -/

theorem State.secondTickPowered_changes (s : State) : Changes s s.secondTickPowered := by
  unfold State.secondTickPowered
  split
  · exact s.applyTime_changes _
  · dsimp only
    split
    · exact s.zeroPhase_changes.trans (State.setNow_changes _ _)
    · exact (s.zeroPhase_changes.trans (State.setNow_changes _ _)).trans (State.minuteTick_changes _)

theorem State.advanceUnpowered_changes (s : State) : Changes s s.advanceUnpowered :=
  (s.setNow_changes _).trans (State.zeroPhase_changes _)

theorem State.secondTick_changes (s : State) : Changes s s.secondTick := by
  unfold State.secondTick
  split
  · exact .refl
  · split
    · exact s.secondTickPowered_changes
    · exact s.advanceUnpowered_changes

/-! ### A restart that becomes pending -/

/-- Port `p` stands in `t` as in `s`, but for its queue and counters. -/
structure StandsAt (p : Port) (s t : State) : Prop where
  state : (t.port p).state = (s.port p).state
  line : (t.port p).line = (s.port p).line
  params : (t.port p).params = (s.port p).params

theorem StandsAt.refl (p : Port) (s : State) : StandsAt p s s := ⟨rfl, rfl, rfl⟩

theorem StandsAt.trans {p : Port} {s t u : State} (h : StandsAt p s t) (k : StandsAt p t u) : StandsAt p s u :=
  ⟨k.state.trans h.state, k.line.trans h.line, k.params.trans h.params⟩

theorem StandsAt.of_ports {p : Port} {s t : State} (same : t.ports = s.ports) : StandsAt p s t := by
  constructor <;> rw [State.port, State.port, same]

theorem TrafficOwing.standsAt {ps : List Port} {s t : State} (h : TrafficOwing ps s t) (p : Port) : StandsAt p s t :=
  ⟨(h.ports p).state, (h.ports p).line, (h.ports p).params⟩

/-- The execution of a RESTART that came in at port `p`: changes, a restart that becomes pending and is not due, and changes
that leave it so; port `p` stands as it did. -/
def Pends (p : Port) (s t : State) : Prop :=
  ∃ (u : State) (k : RestartKind) (b : BufferIx), Changes s u ∧ u.restart = none ∧
    Changes { u with restart := some ⟨k, b, false⟩ } t ∧ t.restart = some ⟨k, b, false⟩ ∧ StandsAt p s t

/-- Changes that leave no restart pending that was not, or the execution of a RESTART. -/
def Outcome (p : Port) (s t : State) : Prop := Changes s t ∨ Pends p s t

theorem Outcome.after {p : Port} {s t u : State} (changes : Changes s t) (stands : StandsAt p s t)
    (h : Outcome p t u) : Outcome p s u := by
  obtain h | ⟨v, k, b, before, none, after, pending, there⟩ := h
  · exact .inl (changes.trans h)
  · exact .inr ⟨v, k, b, changes.trans before, none, after, pending, stands.trans there⟩

/-- What follows and touches neither the ports nor the pending restart. -/
theorem Outcome.before {p : Port} {s t u : State} (h : Outcome p s t) (changes : Changes t u)
    (ports : u.ports = t.ports) (restart : u.restart = t.restart) : Outcome p s u := by
  obtain h | ⟨v, k, b, before, none, after, pending, there⟩ := h
  · exact .inl (h.trans changes)
  · exact .inr ⟨v, k, b, before, none, after.trans changes, restart.trans pending, there.trans (.of_ports ports)⟩

/-! ### The Management Unit (R161 to R178) -/

section Management

variable (s : State) (p : Port)

theorem State.fillRoom_moves (room : BufferIx) (cs : List Byte) : Moves s (s.fillRoom p room cs) := by
  unfold State.fillRoom
  split
  · exact (s.setBuffer_reporting room _).moves
  · exact .refl

theorem State.fillRoom_ports (room : BufferIx) (cs : List Byte) : (s.fillRoom p room cs).ports = s.ports := by
  unfold State.fillRoom
  split <;> rfl

theorem State.fillRoom_restart (room : BufferIx) (cs : List Byte) : (s.fillRoom p room cs).restart = s.restart := by
  unfold State.fillRoom
  split <;> rfl

theorem State.storeResult_ports (source sequence : Byte) (payload : List Byte) :
    (s.storeResult source sequence payload).ports = s.ports := by
  unfold State.storeResult
  split <;> rfl

theorem State.storeResult_restart (source sequence : Byte) (payload : List Byte) :
    (s.storeResult source sequence payload).restart = s.restart := by
  unfold State.storeResult
  split <;> rfl

theorem State.deny_changes (f : FrameView) : Changes s (s.deny p f) := by
  have denied := (s.count_reporting .mgmtDenied).moves.changes.trans (State.raise_moves _ .denied).changes
  have produced := denied.trans (State.generate_reporting _ p
    (resultChars s.params.ownAddress f (resultPayload f.payload ⟨.denied, 0, []⟩))).moves.changes
  unfold State.deny
  split <;> rename_i e <;> rw [e] at produced
  · exact produced
  · exact produced.trans (State.count_reporting _ .mgmtNoRoom).moves.changes

/-- The end of an execution: the count, the stored result, the room filled (R167). -/
theorem State.executed_changes (source sequence : Byte) (payload : List Byte) (room : BufferIx) (cs : List Byte) :
    Changes s (((s.count .mgmtExecuted).storeResult source sequence payload).fillRoom p room cs) :=
  ((s.count_reporting _).moves.changes.trans (State.storeResult_changes _ _ _ _)).trans
    (State.fillRoom_moves _ p room cs).changes

theorem State.execute_outcome (f : FrameView) (own : Byte) (room : BufferIx) (c : CommandCode)
    (free : s.restart = none) : Outcome p s (s.execute p f own room c) := by
  have ends (t : State) (payload cs : List Byte) :
      Changes t (((t.count .mgmtExecuted).storeResult f.source (headerSequence f.payload) payload).fillRoom p room cs) :=
    t.executed_changes p _ _ payload room cs
  unfold State.execute
  dsimp only
  by_cases isRestart : c = .restart
  · subst isRestart
    obtain same | ⟨k, pends⟩ := s.executeCommand_restart room (f.payload.drop 2)
    · rw [same]
      exact .inl (ends s _ _)
    · rw [pends]
      refine .inr ⟨s, k, room, .refl, free, ends _ _ _, ?_, .of_ports ?_⟩
      · rw [State.fillRoom_restart, State.storeResult_restart]
        rfl
      · rw [State.fillRoom_ports, State.storeResult_ports]
        rfl
  · exact .inl ((s.executeCommand_changes room _ isRestart).trans (ends _ _ _))

theorem State.judge_outcome (f : FrameView) (own : Byte) (room : BufferIx) : Outcome p s (s.judge p f own room) := by
  have filled (cs : List Byte) : Outcome p s (s.fillRoom p room cs) := .inl (s.fillRoom_moves p room cs).changes
  unfold State.judge
  split
  · exact filled _
  · rename_i free
    split
    · exact filled _
    · split
      · exact filled _
      · exact s.execute_outcome p f own room _ (by simpa using free)

theorem State.manage_outcome (f : FrameView) : Outcome p s (s.manage p f) := by
  unfold State.manage
  split
  · split
    · exact .inl (s.deny_changes p f)
    · have secured := s.generate_reporting p []
      have traffic := s.generate_traffic p []
      split <;> rename_i e <;> rw [e] at secured traffic
      · exact .inl (secured.moves.changes.trans (State.count_reporting _ .mgmtNoRoom).moves.changes)
      · exact (State.judge_outcome _ p f _ _).after secured.moves.changes (traffic.standsAt p)
  · exact .inl (s.count_reporting .mgmtRefused).moves.changes

end Management

/-! ### Classification (R81) -/

section Classification

variable (s : State) (p : Port)

theorem State.settled_changes (c : CouplerCounter) (b : BufferIx) : Changes s ((s.count c).settleBuffer b 0) :=
  (s.count_reporting c).moves.changes.trans (State.settleBuffer_reporting _ b 0).moves.changes

theorem State.ownFrame_outcome (f : FrameView) (b : BufferIx) : Outcome p s (s.ownFrame p f b) := by
  unfold State.ownFrame
  split
  · exact (s.manage_outcome p f).before (State.settleBuffer_reporting _ b 0).moves.changes rfl rfl
  · exact .inl (s.settled_changes _ b)
  · exact .inl (s.settled_changes _ b)
  all_goals exact .inl ((s.countPort_moves p _).changes.trans (State.settleBuffer_reporting _ b 0).moves.changes)

theorem State.classifyLearned_outcome (f : FrameView) (b : BufferIx) : Outcome p s (s.classifyLearned p f b) := by
  have forwarded : Outcome p s
      (if s.params.forwarding then
        match f.kind with
        | .reply | .result => s.answer p (answerKey f) b
        | .datagram | .request | .manage | .notice => s.forward p f (destClass s.params.ownAddress f.dest) b
      else (s.count .forwardingOff).settleBuffer b 0) := by
    split
    · split
      · exact .inl (s.answer_moves p _ b).changes
      · exact .inl (s.answer_moves p _ b).changes
      all_goals exact .inl (s.forward_moves p f _ b).changes
    · exact .inl (s.settled_changes _ b)
  unfold State.classifyLearned
  split
  · exact s.ownFrame_outcome p f b
  all_goals exact forwarded

/-- Learning leaves every port as it stood (R64 to R66). -/
theorem State.learn_changes (source : Byte) :
    Changes s (s.learn p source).2 ∧ StandsAt p s (s.learn p source).2 := by
  have raised (c : CouplerCounter) (a : AlertCause) :
      Changes s ((s.count c).raise a) ∧ StandsAt p s ((s.count c).raise a) :=
    ⟨(s.count_reporting c).moves.changes.trans (State.raise_moves _ a).changes,
      ((s.count_traffic (ps := []) c).trans (State.raise_traffic _ a)).standsAt p⟩
  have heard (ceiling : BitVec 2) : Changes s (s.setStation source ⟨.learned p 0, ceiling⟩) :=
    s.setStation_changes source fun home age learned => by
      injection learned with _ e
      exact e.symm
  have stands (e : StationEntry) : StandsAt p s (s.setStation source e) := .of_ports (s.setStation_ports source e)
  unfold State.learn
  dsimp only
  split
  · exact raised _ _
  · split
    · exact ⟨(s.count_reporting _).moves.changes, .of_ports rfl⟩
    · split
      · exact ⟨.refl, .refl p s⟩
      · exact raised _ _
    · exact ⟨heard _, stands _⟩
    · split
      · exact ⟨heard _, stands _⟩
      · exact ⟨(heard _).trans (State.count_reporting _ .stationMoves).moves.changes, (stands _).trans (.of_ports rfl)⟩

theorem State.classify_outcome (f : FrameView) (b : BufferIx) : Outcome p s (s.classify p f b) := by
  obtain ⟨learned, stands⟩ := s.learn_changes p f.source
  unfold State.classify
  split <;> rename_i e <;> rw [e] at learned stands
  · exact .inl (learned.trans (State.settleBuffer_reporting _ b 0).moves.changes)
  · exact (State.classifyLearned_outcome _ p f b).after learned stands

end Classification

/-! ### Characters (chapter 1) -/

section Characters

variable (s : State) (p : Port)

/-- What the reception of a character leaves, `RESTART` apart a chain of changes; where a RESTART was executed, port `p`
is in LISTEN with the line and parameters it had. -/
def Receives (p : Port) (s t : State) : Prop :=
  Changes s t ∨ ∃ u, Changes s u ∧ (u.port p).state = .listen ∧ (u.port p).line = (s.port p).line ∧
    (u.port p).params = (s.port p).params ∧ Pends p u t

/-- Where port `p` is not in SENDING. -/
theorem State.received_receives (b : BufferIx) (k : Kind) (still : (s.port p).state.dirAsserted = false) :
    Receives p s (s.received p b k) := by
  have port : (((s.countPort p .framesIn).setPortState p .listen).port p) =
      { (s.port p).counted .framesIn with state := .listen } := by
    rw [State.countPort_eq, State.setPortState_eq, State.port_updPort_self, State.port_updPort_self]
  have before : Changes s ((s.countPort p .framesIn).setPortState p .listen) := by
    refine (s.countPort_moves p .framesIn).changes.trans (State.setPortState_changes _ p ?_)
    rw [State.countPort_eq, State.port_updPort_self]
    exact still.symm
  obtain changes | pends := State.classify_outcome ((s.countPort p .framesIn).setPortState p .listen) p
    (viewFrame (s.chars b) k) b
  · exact .inl (before.trans changes)
  · exact .inr ⟨_, before, by rw [port], by rw [port]; rfl, by rw [port]; rfl, pends⟩

theorem State.completeReception_receives (b : BufferIx) (n : Nat) (check : Check)
    (still : (s.port p).state.dirAsserted = false) : Receives p s (s.completeReception p b n check) := by
  have abandoned (c : PortCounter) : Receives p s (s.abandon p b c) := .inl (s.abandon_changes p b c still)
  unfold State.completeReception
  dsimp only
  split
  · split
    · split
      · exact s.received_receives p b _ still
      · exact abandoned _
    · exact abandoned _
  · exact abandoned _

theorem Receives.after {p : Port} {s t u : State} (changes : Changes s t) (ports : t.ports = s.ports)
    (h : Receives p t u) : Receives p s u := by
  have stands : StandsAt p s t := .of_ports ports
  obtain h | ⟨v, before, listen, line, params, pends⟩ := h
  · exact .inl (changes.trans h)
  · exact .inr ⟨v, changes.trans before, listen, line.trans stands.line, params.trans stands.params, pends⟩

theorem State.storeCharacter_receives (r : Reception) (v : Byte) (still : (s.port p).state.dirAsserted = false) :
    Receives p s (s.storeCharacter p r v) := by
  have stored (cs : List Byte) : Changes s (s.setChars r.buffer cs) := (s.setBuffer_reporting r.buffer _).moves.changes
  unfold State.storeCharacter
  dsimp only
  split
  · exact .inl ((stored _).trans (State.abandon_changes _ p _ _ still))
  · split
    · exact (State.completeReception_receives (s.setChars r.buffer (s.chars r.buffer ++ [v])) p r.buffer _ _ still).after
        (stored _) rfl
    · exact .inl ((stored _).trans (State.setPortState_changes _ p still.symm))

theorem State.startFrame_changes (v : Byte) (still : (s.port p).state.dirAsserted = false) :
    Changes s (s.startFrame p v) := by
  unfold State.startFrame
  split
  · refine ((s.countPort_moves p .noBuffer).changes.trans (State.setPortState_changes _ p ?_)).trans
      (State.raise_moves _ .poolExhausted).changes
    rw [State.countPort_eq, State.port_updPort_self]
    exact still.symm
  · rename_i b rest _
    have taken : Changes s (({ s with freeList := rest }).setBuffer b ⟨.reception p, [v]⟩) :=
      SameCore.changes ⟨rfl, rfl, rfl, rfl, rfl, rfl, rfl, rfl⟩
    exact taken.trans (State.setPortState_changes _ p still.symm)

theorem State.resync_changes (r : Reception) (v : Byte) (still : (s.port p).state.dirAsserted = false) :
    Changes s (s.resync p r v) := by
  have stored : Changes s (s.setChars r.buffer [v]) := (s.setBuffer_reporting r.buffer _).moves.changes
  refine (stored.trans (State.countPort_moves _ p .formatErrors).changes).trans (State.setPortState_changes _ p ?_)
  rw [State.countPort_eq, State.port_updPort_self]
  exact still.symm

/-- A character read back in SENDING (R24). -/
theorem State.echo_changes (pos elapsed : Nat) (c : LineCharacter) (sending : (s.port p).state.dirAsserted = true) :
    Changes s (s.echo p pos elapsed c) := by
  unfold State.echo
  split
  · exact .refl
  · rename_i e marked
    split
    · split
      · exact .single (.complete p e sending marked)
      · exact s.setPortState_changes p sending.symm
    · exact .single (.collide p e sending marked)

theorem State.routeCharacter_receives (c : LineCharacter) : Receives p s (s.routeCharacter p c) := by
  have offered (still : (s.port p).state.dirAsserted = false) : Receives p s (s.offer p c) := by
    unfold State.offer
    split
    · exact .inl (s.startFrame_changes p _ still)
    all_goals exact .inl .refl
  unfold State.routeCharacter
  split <;> rename_i state
  · exact offered (by rw [state]; rfl)
  · exact offered (by rw [state]; rfl)
  · exact offered (by rw [state]; rfl)
  · have still : (s.port p).state.dirAsserted = false := by rw [state]; rfl
    unfold State.assemble
    split
    · exact .inl (s.resync_changes p _ _ still)
    · exact s.storeCharacter_receives p _ _ still
    · exact .inl (s.abandon_changes p _ _ still)
  · exact .inl (s.echo_changes p _ _ c (by rw [state]; rfl))
  all_goals exact .inl .refl

/-- A character, decoded or not (R1). -/
theorem State.receiveCharacter_receives (c : LineCharacter) :
    Changes s (s.receiveCharacter p c) ∨ ∃ u, Changes s u ∧ (u.port p).state = .listen ∧
      (u.port p).line = lineAfter c ∧ (u.port p).params = (s.port p).params ∧ Pends p u (s.receiveCharacter p c) := by
  unfold State.receiveCharacter
  split
  · have moved := s.setLine_changes p (lineAfter c) (holdAfter c)
    have port : ((s.setLine p (lineAfter c) (holdAfter c)).port p) =
        { s.port p with line := lineAfter c, startHold := holdAfter c } := by rw [State.setLine_eq, State.port_updPort_self]
    obtain changes | ⟨u, before, listen, line, params, pends⟩ :=
      State.routeCharacter_receives (s.setLine p (lineAfter c) (holdAfter c)) p c
    · exact .inl (moved.trans changes)
    · exact .inr ⟨u, moved.trans before, listen, by rw [line, port], by rw [params, port], pends⟩
  · exact .inl (s.setLine_changes p _ _)

end Characters

end Sys2Proof.Machine
end

