-- ==== Sys2Proof/Proofs/Steps.lean ====
section
/-! SUPPORT. An invariant that every change, every reset and the loss of main power keep is kept by every step. -/

namespace Sys2Proof.Machine

/-! ### One CLK period -/

theorem State.updPorts_changes (s : State) {f : PortUnit → PortUnit} (queue : ∀ u, (f u).queue = u.queue)
    (sending : ∀ u, (f u).state.dirAsserted = u.state.dirAsserted) (params : ∀ u, (f u).params = u.params) :
    Changes s (s.updPorts f) :=
  foldl_changes (fun p _ s => s.updPort_changes p f (queue _) (sending _) (params _)) s

theorem PortState.dirAsserted_clkLater (st : PortState) : st.clkLater.dirAsserted = st.dirAsserted := by cases st <;> rfl

theorem PortState.dirAsserted_msLater (st : PortState) : st.msLater.dirAsserted = st.dirAsserted := by cases st <;> rfl

theorem State.msPass_changes (s : State) : Changes s s.msPass := by
  have ports := s.updPorts_changes (f := PortUnit.msLater) (fun _ => rfl) (fun u => u.state.dirAsserted_msLater) fun _ => rfl
  have counts (t : State) : Changes t
      { t with transactions := t.transactions.map TxEntry.msLater, pulse := t.pulse.map (· - 1) } :=
    .single (.settings rfl rfl rfl rfl (.of_pulse rfl rfl rfl rfl fun none => by rw [none]; rfl))
  exact ports.trans (counts _)

theorem State.msClock_changes (s : State) : Changes s s.msClock := by
  have counts (n : Nat) : Changes s { s with msCount := n } := SameCore.changes ⟨rfl, rfl, rfl, rfl, rfl, rfl, rfl, rfl⟩
  unfold State.msClock
  split
  · exact counts _
  · exact (counts _).trans (State.msPass_changes _)

theorem State.clkPass_changes (s : State) : Changes s s.clkPass := by
  unfold State.clkPass
  split
  · exact (s.updPorts_changes (f := PortUnit.clkLater) (fun _ => rfl) (fun u => u.state.dirAsserted_clkLater)
      fun _ => rfl).trans (State.msClock_changes _)
  · exact .refl

/-! ### What a step keeps -/

/-- `t` has the ports, stamps and settings of `s`: it may differ in main power, the supplies, the calendar, the straps, a
pending restart and the commands that wait. -/
structure SameHeld (s t : State) : Prop where
  ports : t.ports = s.ports
  nextStamp : t.nextStamp = s.nextStamp
  params : t.params = s.params
  managers : t.managers = s.managers
  stations : t.stations = s.stations
  pulse : t.pulse = s.pulse

/-- An invariant that changes, resets and supplies keep. -/
structure Kept (I : State → Prop) : Prop where
  change : ∀ {s t : State}, Change s t → I s → I t
  held : ∀ {s t : State}, SameHeld s t → I s → I t
  defaults : ∀ (s : State) (cause : ResetCause) (straps : Straps), I (s.resetToDefaults cause straps)
  warm : ∀ {s : State}, I s → I s.resetWarm
  dark : ∀ {s : State}, I s → I s.losePower

namespace Kept

variable {I : State → Prop} (kept : Kept I)
include kept

theorem changes {s t : State} (h : Changes s t) (holds : I s) : I t := by
  induction h with
  | refl => exact holds
  | tail _ change ih => exact kept.change change ih

theorem restartFirst {s : State} (holds : I s) : I s.restartFirst := by
  obtain same | ⟨r, -, -, -, taken⟩ := s.restartFirst_cases
  · rw [same]
    exact holds
  · rw [taken]
    cases r.kind with
    | warm =>
      rw [State.takeRestart]
      exact kept.warm holds
    | full =>
      rw [State.takeRestart]
      exact kept.defaults s .full s.straps

theorem settle {s : State} (holds : I s) : I s.settle := kept.changes s.settle_changes holds

/-- A row that is one event whose effect keeps the invariant. -/
theorem inEvent {s : State} {f : State → State} (effect : ∀ u, I u → I (f u)) (holds : I s) : I (s.inEvent f) :=
  kept.settle (effect _ (kept.restartFirst holds))

theorem lineEvent {s : State} {p : Port} {f : State → State} {level : LineState → LineState}
    (effect : ∀ u, I u → I (f u)) (holds : I s) : I (s.lineEvent p f level) := by
  unfold State.lineEvent
  split
  · exact kept.inEvent effect holds
  · exact kept.changes (s.updPort_changes p (fun u => { u with line := level u.line }) rfl rfl rfl) holds

theorem pends {p : Port} {s t : State} (h : Pends p s t) (holds : I s) : I t := by
  obtain ⟨u, k, b, before, -, after, -, -⟩ := h
  exact kept.changes after (kept.held (s := u) ⟨rfl, rfl, rfl, rfl, rfl, rfl⟩ (kept.changes before holds))

theorem receiveCharacter {s : State} {p : Port} {c : LineCharacter} (holds : I s) : I (s.receiveCharacter p c) := by
  obtain changes | ⟨u, before, -, -, -, pends⟩ := s.receiveCharacter_receives p c
  · exact kept.changes changes holds
  · exact kept.pends pends (kept.changes before holds)

theorem receiveFrame {s : State} {p : Port} {chars : List Byte} (holds : I s) : I (s.receiveFrame p chars) := by
  unfold State.receiveFrame
  induction lineCharacters chars generalizing s with
  | nil => exact holds
  | cons c cs ih => exact ih (kept.lineEvent (fun _ => kept.receiveCharacter) holds)

theorem effect {s : State} (e : Effect) (holds : I s) : I (e.apply s) := by
  by_cases reset : ∃ straps, e = .pinReset straps
  · obtain ⟨straps, rfl⟩ := reset
    exact kept.defaults s .pin straps
  · exact kept.changes (Effect.changes s fun straps e => reset ⟨straps, e⟩) holds

theorem lineEffect {s : State} {p : Port} (e : LineEffect) (holds : I s) : I (e.apply p s) := by
  cases e with
  | character c => exact kept.receiveCharacter holds
  | startBit =>
    refine kept.changes (s.updPort_changes p PortUnit.startBit ?_ ?_ ?_) holds <;>
      · unfold PortUnit.startBit
        split
        · split <;> rfl
        all_goals rfl
  | lineReturns => exact kept.changes (s.updPort_changes p PortUnit.lineReturns rfl rfl rfl) holds

theorem resetCold (s : State) (straps : Straps) : I (s.resetCold straps) :=
  kept.changes (State.raise_moves _ .calendarLost).changes (kept.defaults _ .cold straps)

theorem powerOn (s : State) (straps : Straps) : I (s.powerOn straps) := by
  unfold State.powerOn
  split
  · exact kept.resetCold s straps
  · exact kept.defaults _ .power straps

/-- Every row keeps it. -/
theorem run {s : State} (r : Row) (holds : I s) : I (r.run s) := by
  have first := kept.restartFirst holds
  have supply {t : State} (h : I t) : I { t with backupSupply := false } :=
    kept.held (s := t) ⟨rfl, rfl, rfl, rfl, rfl, rfl⟩ h
  cases r with
  | main e =>
    rw [Row.run]
    split
    · exact kept.inEvent (fun _ => kept.effect e) holds
    · exact holds
  | line p e => exact kept.lineEvent (fun _ => kept.lineEffect e) holds
  | frame p f k => exact kept.receiveFrame holds
  | secondTick =>
    rw [Row.run]
    split
    · exact kept.inEvent (fun u => kept.changes u.secondTick_changes) holds
    · exact kept.changes s.secondTick_changes holds
  | coldStart straps => exact kept.settle (kept.resetCold s straps)
  | powerStart straps => exact kept.settle (kept.powerOn s straps)
  | fullRestart straps =>
    have read : I (s.readsStraps straps) := by
      unfold State.readsStraps
      split
      · exact kept.held (s := s) ⟨rfl, rfl, rfl, rfl, rfl, rfl⟩ holds
      · exact holds
    rw [Row.run]
    split
    · exact kept.inEvent (fun _ => id) read
    · exact read
  | mainPowerLoss =>
    rw [Row.run]
    split
    · exact kept.dark first
    · exact holds
  | backupSupplyLoss =>
    rw [Row.run]
    split
    · exact supply first
    · exact kept.held (s := { s.restartFirst with backupSupply := false }) ⟨rfl, rfl, rfl, rfl, rfl, rfl⟩ (supply first)

theorem after {s : State} (c : Instr) (holds : I s) : I (s.after c) := by
  rw [State.after, exec_eq_run]
  exact kept.run (rowOf c) holds

theorem takeDue {s : State} (c : Instr) (holds : I s) : I (s.takeDue c) := by
  unfold State.takeDue
  split
  · exact kept.after c (kept.restartFirst holds)
  · exact kept.restartFirst holds

theorem foldl_takeDue {s : State} (l : List Instr) (holds : I s) : I (l.foldl State.takeDue s) := by
  induction l generalizing s with
  | nil => exact holds
  | cons c l ih => exact ih (kept.takeDue c holds)

theorem crystalClock {s : State} (holds : I s) : I s.crystalClock := by
  have still {t : State} (same : SameHeld s t) : I t := kept.held same holds
  unfold State.crystalClock
  split
  · exact still ⟨rfl, rfl, rfl, rfl, rfl, rfl⟩
  · unfold State.crystalPeriod
    dsimp only
    split
    · exact still ⟨rfl, rfl, rfl, rfl, rfl, rfl⟩
    · split
      · exact still ⟨rfl, rfl, rfl, rfl, rfl, rfl⟩
      · exact kept.after _ (still ⟨rfl, rfl, rfl, rfl, rfl, rfl⟩)

theorem tick {s : State} (holds : I s) : I s.tick :=
  kept.crystalClock (kept.foldl_takeDue timedEvents (kept.changes (State.clkPass_changes _) (kept.restartFirst holds)))

/-- Every step keeps it. -/
theorem step {s t : State} (h : step s = .next t) (holds : I s) : I t := by
  unfold Sys2Proof.Machine.step at h
  split at h
  · rw [exec_eq_run] at h
    injection h with h
    rw [← h]
    exact kept.run _ (kept.held (s := s) ⟨rfl, rfl, rfl, rfl, rfl, rfl⟩ holds)
  · injection h with h
    rw [← h]
    exact kept.tick holds

end Kept

/-! ### The settings (O12) -/

theorem Steady.keepsSettings {s t : State} (h : Steady s t) : KeepsSettings s t := by
  refine ⟨fun range => ?_, fun fit => ?_, fun distinct => ?_, fun mode => ?_⟩
  · rw [State.paramsInRange_iff] at range ⊢
    simpa only [h.params, h.portParams] using range
  · simpa only [State.agesFit, h.params, h.stations] using fit
  · simpa only [State.managersDistinct, State.slotHolds, h.managers] using distinct
  · rw [State.pulseOnlyInPulseMode_iff] at mode ⊢
    rw [h.params]
    exact fun latched => h.pulse latched (mode latched)

/-- No change makes the settings unsound. -/
theorem Change.keepsSettings {s t : State} (h : Change s t) : KeepsSettings s t := by
  cases h with
  | move h => exact h.steady.keepsSettings
  | port p f _ _ range =>
    refine ⟨fun all => ?_, id, id, id⟩
    rw [State.paramsInRange_iff] at all ⊢
    obtain ⟨own, ports⟩ := all
    refine ⟨own, fun q => ?_⟩
    rw [State.port_updPort]
    split
    · exact range (ports p)
    · exact ports q
  | start p =>
    refine (s.updPort_steady p PortUnit.started ?_).keepsSettings
    unfold PortUnit.started
    split
    · rfl
    · split <;> rfl
  | complete p e => exact (s.complete_steady p e).keepsSettings
  | collide p e => exact (s.collide_steady p e).keepsSettings
  | contain p => exact (s.contain_steady p).keepsSettings
  | disable p => exact (s.disable_steady p).keepsSettings
  | settings _ _ _ _ keeps => exact keeps

/-- The default parameters of a port lie in their ranges (R36). -/
theorem inRange_defaultPortParams (straps : Straps) (p : Port) : (defaultPortParams straps p).inRange = true := by
  simp [PortParams.inRange, PortParam.inRange, defaultPortParams]

theorem inRange_defaultCouplerParams (straps : Straps) : (defaultCouplerParams straps).inRange = true := by
  have own : (ownAddressFromStraps straps).toNat = 224 + straps.addr.toNat := by
    rw [ownAddressFromStraps_eq]
    exact Nat.mod_eq_of_lt (by have := straps.addr.isLt; omega)
  have station : CouplerParam.inRange (ownAddressFromStraps straps).toNat .ownAddress = true := by
    have := straps.addr.isLt
    simp only [CouplerParam.inRange, own, Bool.and_eq_true, decide_eq_true_eq]
    omega
  exact (CouplerParams.inRange_iff _).mpr ⟨station, rfl, rfl, rfl, rfl, rfl, rfl⟩

section Defaults

variable (s : State) (cause : ResetCause) (straps : Straps)

theorem State.paramsInRange_resetToDefaults : (s.resetToDefaults cause straps).paramsInRange = true := by
  rw [State.paramsInRange_iff]
  refine ⟨?_, fun p => ?_⟩
  · rw [State.resetToDefaults_eq]
    exact inRange_defaultCouplerParams straps
  · rw [State.port_resetToDefaults]
    exact inRange_defaultPortParams straps p

theorem State.agesFit_resetToDefaults : (s.resetToDefaults cause straps).agesFit = true := by
  rw [State.resetToDefaults_eq, State.agesFit_iff]
  refine ⟨show (30 : Nat) ≤ 255 by decide, fun e mem => ?_⟩
  obtain ⟨-, rfl⟩ := Vector.mem_replicate.mp mem
  rfl

theorem State.managersDistinct_resetToDefaults : (s.resetToDefaults cause straps).managersDistinct = true := by
  rw [State.resetToDefaults_eq]
  rfl

theorem State.pulseOnlyInPulseMode_resetToDefaults : (s.resetToDefaults cause straps).pulseOnlyInPulseMode = true := by
  rw [State.resetToDefaults_eq]
  rfl

end Defaults

theorem keepsSettings_resetWarm (s : State) : KeepsSettings s s.resetWarm := by
  refine ⟨fun h => ?_, fun h => ?_, State.managersDistinct_of_addresses fun i => ?_, fun _ => ?_⟩
  · rw [State.paramsInRange_iff] at h ⊢
    refine ⟨?_, fun p => ?_⟩
    · rw [State.resetWarm_eq]
      exact h.1
    · rw [State.port_resetWarm]
      exact h.2 p
  · rw [State.resetWarm_eq]
    exact h
  · rw [State.resetWarm_eq, State.managerAt, State.managerAt]
    simp only [keepAddress, Vector.get_eq_getElem, Vector.getElem_map, Option.map_map]
    rfl
  · rw [State.resetWarm_eq, State.pulseOnlyInPulseMode_iff]
    exact fun _ => rfl

theorem State.losePower_eq (s : State) :
    s.losePower =
      { s.losePower with
        params := s.params, managers := s.managers, stations := s.stations, nextStamp := 0, pulse := none
        restart := none, powered := false } := by
  unfold State.losePower
  dsimp only
  rw [foldl_updPort_eq fun _ => PortUnit.unpowered]
  split <;> rfl

theorem State.port_losePower (s : State) (p : Port) : s.losePower.port p = (s.port p).unpowered := by
  have ports := port_foldl_updPort (fun _ => PortUnit.unpowered) (List.nodup_finRange 4) (s.clearVolatile s.resetCause) p
  rw [if_pos (List.mem_finRange p)] at ports
  unfold State.losePower
  dsimp only
  split <;> exact ports

theorem keepsSettings_losePower (s : State) : KeepsSettings s s.losePower := by
  refine ⟨fun h => ?_, fun h => ?_, State.managersDistinct_of_addresses fun i => ?_, fun _ => ?_⟩
  · rw [State.paramsInRange_iff] at h ⊢
    refine ⟨?_, fun p => ?_⟩
    · rw [State.losePower_eq]
      exact h.1
    · rw [State.port_losePower]
      exact h.2 p
  · rw [State.losePower_eq]
    exact h
  · rw [State.losePower_eq]
    rfl
  · rw [State.losePower_eq, State.pulseOnlyInPulseMode_iff]
    exact fun _ => rfl

theorem SameHeld.keepsSettings {s t : State} (h : SameHeld s t) : KeepsSettings s t :=
  .of_pulse h.ports h.params h.stations h.managers fun none => h.pulse.trans none

/-- The part's parameters stay in range. -/
theorem kept_paramsInRange : Kept fun s => s.paramsInRange = true where
  change h := h.keepsSettings.range
  held h := h.keepsSettings.range
  defaults := State.paramsInRange_resetToDefaults
  warm := (keepsSettings_resetWarm _).range
  dark := (keepsSettings_losePower _).range

theorem kept_agesFit : Kept fun s => s.agesFit = true where
  change h := h.keepsSettings.ages
  held h := h.keepsSettings.ages
  defaults := State.agesFit_resetToDefaults
  warm := (keepsSettings_resetWarm _).ages
  dark := (keepsSettings_losePower _).ages

theorem kept_managersDistinct : Kept fun s => s.managersDistinct = true where
  change h := h.keepsSettings.managers
  held h := h.keepsSettings.managers
  defaults := State.managersDistinct_resetToDefaults
  warm := (keepsSettings_resetWarm _).managers
  dark := (keepsSettings_losePower _).managers

theorem kept_pulseOnlyInPulseMode : Kept fun s => s.pulseOnlyInPulseMode = true where
  change h := h.keepsSettings.pulse
  held h := h.keepsSettings.pulse
  defaults := State.pulseOnlyInPulseMode_resetToDefaults
  warm := (keepsSettings_resetWarm _).pulse
  dark := (keepsSettings_losePower _).pulse

/-- Settles O12: each of the four statements is kept by every change an event is made of. -/
theorem stepsKeepTheSettingsSound : Obligations.StepsKeepTheSettingsSound := fun _ _ stepped =>
  ⟨fun range ages => ⟨kept_paramsInRange.step stepped range, kept_agesFit.step stepped ages⟩,
    kept_managersDistinct.step stepped, kept_pulseOnlyInPulseMode.step stepped⟩

end Sys2Proof.Machine
end

