-- ==== Sys2Proof/Proofs/Marks.lean ====
section
/-! PROOFS. The in-transmission marks: how many entries of a queue carry one, what each change does to that number, and that
every step keeps one mark on a port in SENDING and none on any other. -/

namespace Sys2Proof.Machine

/-! ### A queue with its marks -/

/-- Each entry of a queue has a stamp of its own, already given out (R51). -/
structure Stamped (nextStamp : Nat) (q : List QueueEntry) : Prop where
  stamps : (q.map (·.stamp)).Nodup
  given : ∀ e ∈ q, e.stamp < nextStamp

/-- Queue `q` has `marks` entries in transmission, each entry soundly marked. -/
structure MarkedQueue (nextStamp marks : Nat) (q : List QueueEntry) : Prop extends Stamped nextStamp q where
  count : q.countP (·.inTx) = marks
  sound : ∀ e ∈ q, e.MarkSound

theorem insertEntry_perm (e : QueueEntry) (q : List QueueEntry) : (insertEntry e q).Perm (e :: q) := by
  induction q with
  | nil => exact .refl _
  | cons x xs ih =>
    unfold insertEntry
    split
    · exact .refl _
    · exact (ih.cons x).trans (.swap e x xs)

namespace Stamped

variable {next : Nat} {q : List QueueEntry}

theorem filter (h : Stamped next q) (f : QueueEntry → Bool) : Stamped next (q.filter f) :=
  ⟨h.stamps.sublist (List.filter_sublist.map _), fun x mem => h.given x (List.mem_filter.mp mem).1⟩

theorem later {next' : Nat} (h : Stamped next q) (le : next ≤ next') : Stamped next' q :=
  ⟨h.stamps, fun x mem => Nat.lt_of_lt_of_le (h.given x mem) le⟩

/-- Entries written over, each keeping its stamp. -/
theorem map (h : Stamped next q) {f : QueueEntry → QueueEntry} (stamp : ∀ e, (f e).stamp = e.stamp) :
    Stamped next (q.map f) := by
  refine ⟨?_, fun x mem => ?_⟩
  · rw [List.map_map]
    have same : (fun e => (f e).stamp) = fun e => e.stamp := funext stamp
    exact (congrArg (fun g => (q.map g).Nodup) same).mpr h.stamps
  · obtain ⟨e, old, rfl⟩ := List.mem_map.mp mem
    rw [stamp]
    exact h.given e old

/-- Moves keep the stamps apart. -/
theorem of_queueMove {next' : Nat} {q' : List QueueEntry} (h : Stamped next q) (move : QueueMove next next' q q') :
    Stamped next' q' := by
  cases move with
  | same le => exact h.later le
  | joined e unmarked stays stamp lt =>
    refine ⟨?_, fun x mem => ?_⟩
    · rw [((insertEntry_perm e q).map _).nodup_iff, List.map_cons, List.nodup_cons]
      refine ⟨fun mem => ?_, h.stamps⟩
      obtain ⟨x, old, same⟩ := List.mem_map.mp mem
      have := h.given x old
      omega
    · obtain rfl | old := mem_insertEntry.mp mem
      · omega
      · exact (h.later (Nat.le_of_lt lt)).given x old
  | left e _ _ le => exact (h.filter _).later le
  | relabelled f relabels le => exact (h.map fun e => (relabels e).stamp).later le

/-- A queue around one of its entries, whose stamp the others do not carry. -/
theorem split (h : Stamped next q) {e : QueueEntry} (mem : e ∈ q) :
    ∃ a b, q = a ++ e :: b ∧ ∀ x ∈ a ++ b, x.stamp ≠ e.stamp := by
  obtain ⟨a, b, rfl⟩ := List.append_of_mem mem
  refine ⟨a, b, rfl, fun x rest same => ?_⟩
  have stamps := h.stamps
  rw [List.map_append, List.map_cons, List.nodup_middle, List.nodup_cons, ← List.map_append] at stamps
  exact stamps.1 (same ▸ List.mem_map_of_mem rest)

/-- The queue that an entry leaves by its stamp. -/
theorem filter_around {a b : List QueueEntry} {e : QueueEntry} (apart : ∀ x ∈ a ++ b, x.stamp ≠ e.stamp) :
    ((a ++ e :: b).filter fun x => x.stamp != e.stamp) = a ++ b := by
  have others : ((a ++ b).filter fun x => x.stamp != e.stamp) = a ++ b :=
    List.filter_eq_self.mpr fun x hx => bne_iff_ne.mpr (apart x hx)
  rw [List.filter_append, List.filter_cons_of_neg (by simp), ← List.filter_append, others]

end Stamped

namespace MarkedQueue

variable {next marks : Nat} {q : List QueueEntry}

theorem nil (next : Nat) : MarkedQueue next 0 [] := ⟨⟨by simp, by simp⟩, rfl, by simp⟩

/-- An entry leaves by its stamp: what is left of the marks. -/
theorem filter_stamp (h : MarkedQueue next marks q) {e : QueueEntry} (mem : e ∈ q) :
    MarkedQueue next (if e.inTx then marks - 1 else marks) (q.filter fun x => x.stamp != e.stamp) := by
  have kept {x : QueueEntry} (hx : x ∈ q.filter fun x => x.stamp != e.stamp) : x ∈ q := (List.mem_filter.mp hx).1
  refine ⟨h.filter _, ?_, fun x hx => h.sound x (kept hx)⟩
  obtain ⟨a, b, rfl, apart⟩ := h.split mem
  have count := h.count
  rw [List.countP_append, List.countP_cons] at count
  rw [Stamped.filter_around apart, List.countP_append]
  cases marked : e.inTx <;> simp only [marked, if_true, if_false, Bool.false_eq_true] at count ⊢ <;> omega

/-- The marked entry is written over and left unmarked, with no removal pending. -/
theorem unmark (h : MarkedQueue next 1 q) {e : QueueEntry} (mem : e ∈ q) (marked : e.inTx = true)
    {f : QueueEntry → QueueEntry} (stamp : (f e).stamp = e.stamp) (unmarked : (f e).inTx = false)
    (stays : (f e).pendingRemoval = none) :
    MarkedQueue next 0 (q.map fun x => if x.stamp = e.stamp then f x else x) := by
  obtain ⟨a, b, rfl, apart⟩ := h.split mem
  have rest {l : List QueueEntry} (within : ∀ x ∈ l, x ∈ a ++ b) :
      (l.map fun x => if x.stamp = e.stamp then f x else x) = l := by
    refine List.map_congr_left (fun x hx => if_neg (apart x (within x hx))) |>.trans (List.map_id' l)
  have around : ((a ++ e :: b).map fun x => if x.stamp = e.stamp then f x else x) = a ++ f e :: b := by
    rw [List.map_append, List.map_cons, if_pos rfl, rest fun x hx => List.mem_append_left b hx,
      rest fun x hx => List.mem_append_right a hx]
  have old {x : QueueEntry} (hx : x ∈ a ++ b) : x ∈ a ++ e :: b := by
    rw [List.mem_append] at hx ⊢
    exact hx.imp_right (List.mem_cons_of_mem e)
  have entries {P : QueueEntry → Prop} (one : P (f e)) (others : ∀ x ∈ a ++ b, P x) : ∀ x ∈ a ++ f e :: b, P x := by
    intro x hx
    rw [List.mem_append, List.mem_cons] at hx
    obtain left | rfl | right := hx
    · exact others x (List.mem_append_left b left)
    · exact one
    · exact others x (List.mem_append_right a right)
  rw [around]
  refine ⟨⟨?_, entries (stamp ▸ h.given e mem) fun x hx => h.given x (old hx)⟩, ?_,
    entries ⟨.inr stays, fun withdrawn => ?_⟩ fun x hx => h.sound x (old hx)⟩
  · have stamps := h.stamps
    rw [List.map_append, List.map_cons] at stamps ⊢
    rwa [stamp]
  · have count := h.count
    rw [List.countP_append, List.countP_cons, marked] at count
    rw [List.countP_append, List.countP_cons, unmarked]
    simp only [if_true, if_false, Bool.false_eq_true] at count ⊢
    omega
  · rw [stays] at withdrawn
    exact absurd withdrawn (Option.some_ne_none _).symm

/-- The first entry of a queue without marks takes one. -/
theorem mark_head {e : QueueEntry} {rest : List QueueEntry} (h : MarkedQueue next 0 (e :: rest)) :
    MarkedQueue next 1 ({ e with inTx := true } :: rest) := by
  obtain ⟨⟨stamps, given⟩, count, sound⟩ := h
  have unmarked : rest.countP (·.inTx) = 0 := by
    rw [List.countP_cons] at count
    omega
  refine ⟨⟨stamps, ?_⟩, by rw [List.countP_cons, unmarked]; rfl, ?_⟩
  · rw [List.forall_mem_cons] at given ⊢
    exact given
  · rw [List.forall_mem_cons] at sound ⊢
    exact ⟨⟨.inl rfl, sound.1.2⟩, sound.2⟩

/-- Entries written over, each keeping its stamp and its mark. -/
theorem map (h : MarkedQueue next marks q) {f : QueueEntry → QueueEntry} (relabels : ∀ e, Relabels e (f e)) :
    MarkedQueue next marks (q.map f) := by
  refine ⟨h.toStamped.map fun e => (relabels e).stamp, ?_, fun x mem => ?_⟩
  · rw [List.countP_map, ← h.count]
    exact List.countP_congr fun e _ => by simp [(relabels e).inTx]
  · obtain ⟨e, old, rfl⟩ := List.mem_map.mp mem
    exact (relabels e).sound (h.sound e old)

theorem of_queueMove {next' : Nat} {q' : List QueueEntry} (h : MarkedQueue next marks q)
    (move : QueueMove next next' q q') : MarkedQueue next' marks q' := by
  have stamped := h.toStamped.of_queueMove move
  cases move with
  | same le => exact ⟨stamped, h.count, h.sound⟩
  | joined e unmarked stays =>
    refine ⟨stamped, ?_, fun x mem => ?_⟩
    · rw [(insertEntry_perm e q).countP_eq, List.countP_cons, h.count, unmarked]
      rfl
    · obtain rfl | old := mem_insertEntry.mp mem
      · exact ⟨.inr stays, fun withdrawn => by rw [stays] at withdrawn; exact absurd withdrawn (Option.some_ne_none _).symm⟩
      · exact h.sound x old
  | left e mem unmarked =>
    have left := h.filter_stamp mem
    rw [unmarked] at left
    exact ⟨stamped, left.count, left.sound⟩
  | relabelled f relabels =>
    have relabelled := h.map relabels
    exact ⟨stamped, relabelled.count, relabelled.sound⟩

end MarkedQueue

/-! ### The part with its marks -/

/-- One mark on a port in SENDING, none on any other. -/
def PortUnit.marks (u : PortUnit) : Nat := if u.state.dirAsserted then 1 else 0

theorem PortUnit.marks_of_still {u : PortUnit} (still : u.state.dirAsserted = false) : u.marks = 0 := by
  rw [PortUnit.marks, still]
  rfl

theorem PortUnit.marks_of_sending {u : PortUnit} (sending : u.state.dirAsserted = true) : u.marks = 1 := by
  rw [PortUnit.marks, sending]
  rfl

/-- Every port has its marks, every stamp is its own and given out. -/
def State.Marked (s : State) : Prop := ∀ q, MarkedQueue s.nextStamp (s.port q).marks (s.port q).queue

/-- The same, but that port `p` has no mark whatever its state. -/
def State.UnmarkedAt (p : Port) (s : State) : Prop :=
  ∀ q, MarkedQueue s.nextStamp (if q = p then 0 else (s.port q).marks) (s.port q).queue

theorem State.Marked.unmarkedAt {s : State} {p : Port} (h : s.Marked) (still : (s.port p).state.dirAsserted = false) :
    s.UnmarkedAt p := by
  intro q
  split
  · rename_i e
    subst e
    exact PortUnit.marks_of_still still ▸ h q
  · exact h q

theorem State.UnmarkedAt.at {s : State} {p : Port} (h : s.UnmarkedAt p) :
    MarkedQueue s.nextStamp 0 (s.port p).queue := by
  have here := h p
  rwa [if_pos rfl] at here

theorem State.UnmarkedAt.marked {s : State} {p : Port} (h : s.UnmarkedAt p)
    (still : (s.port p).state.dirAsserted = false) : s.Marked := by
  intro q
  by_cases e : q = p
  · subst e
    exact (PortUnit.marks_of_still still).symm ▸ h.at
  · have there := h q
    rwa [if_neg e] at there

theorem PortMove.marks {next next' : Nat} {u v : PortUnit} (h : PortMove next next' u v) : v.marks = u.marks := by
  rw [PortUnit.marks, PortUnit.marks, h.state]

theorem TrafficMove.marked {s t : State} (h : TrafficMove s t) (marked : s.Marked) : t.Marked := by
  intro q
  rw [(h.port q).marks]
  exact (marked q).of_queueMove (h.port q).queue

theorem Moves.marked {s t : State} (h : Moves s t) (marked : s.Marked) : t.Marked := by
  induction h with
  | refl => exact marked
  | tail _ move ih => exact move.marked ih

theorem Moves.unmarkedAt {s t : State} {p : Port} (h : Moves s t) (unmarked : s.UnmarkedAt p) : t.UnmarkedAt p := by
  induction h with
  | refl => exact unmarked
  | tail _ move ih =>
    intro q
    rw [(move.port q).marks]
    exact (ih q).of_queueMove (move.port q).queue

theorem Moves.state {s t : State} (h : Moves s t) (q : Port) : (t.port q).state = (s.port q).state := by
  induction h with
  | refl => rfl
  | tail _ move ih => exact (move.port q).state.trans ih

/-- Port `p` changed: its own queue is marked as before the change of its state says. -/
theorem State.Marked.updPort {s : State} (h : s.Marked) {p : Port} {f : PortUnit → PortUnit}
    (here : MarkedQueue s.nextStamp (s.port p).marks (s.port p).queue →
      MarkedQueue s.nextStamp (f (s.port p)).marks (f (s.port p)).queue) : (s.updPort p f).Marked := by
  intro q
  rw [State.port_updPort]
  split
  · exact here (h p)
  · exact h q

/-- A port without marks put in a state that is not SENDING. -/
theorem State.UnmarkedAt.updPort {s : State} {p : Port} (h : s.UnmarkedAt p) {f : PortUnit → PortUnit}
    (queue : (f (s.port p)).queue = (s.port p).queue) (still : (f (s.port p)).state.dirAsserted = false) :
    (s.updPort p f).Marked := by
  intro q
  rw [State.port_updPort]
  split
  · rw [queue, PortUnit.marks_of_still still]
    exact h.at
  · rename_i other
    have there := h q
    rwa [if_neg other] at there

/-- The entry in transmission is in the queue, and carries its mark. -/
theorem inTransmission_some {q : List QueueEntry} {e : QueueEntry} (h : inTransmission q = some e) :
    e ∈ q ∧ e.inTx = true := ⟨List.mem_of_find?_eq_some h, by simpa using List.find?_some h⟩

/-- The entry in transmission leaves: its port has no mark left. -/
theorem State.Marked.dequeue {s : State} (h : s.Marked) {p : Port} {e : QueueEntry}
    (sending : (s.port p).state.dirAsserted = true) (marked : inTransmission (s.queue p) = some e) :
    (s.dequeue p e).UnmarkedAt p := by
  obtain ⟨mem, inTx⟩ := inTransmission_some marked
  intro q
  rw [State.dequeue, State.setQueue, State.port_updPort]
  split
  · have left := (h p).filter_stamp mem
    rwa [inTx, if_pos rfl, PortUnit.marks_of_sending sending] at left
  · exact h q

theorem State.Marked.remove {s : State} (h : s.Marked) {p : Port} {e : QueueEntry}
    (sending : (s.port p).state.dirAsserted = true) (marked : inTransmission (s.queue p) = some e) (c : RemovalCause) :
    (s.remove p e c).UnmarkedAt p := (s.remove_moves_of_dequeue p e c).unmarkedAt (h.dequeue sending marked)

/-- A purge of a port without marks is traffic. -/
theorem State.UnmarkedAt.purgeUnreachable {s : State} {p : Port} (h : s.UnmarkedAt p) :
    Moves s (s.purgeUnreachable p) := by
  refine State.purgeUnreachable_moves fun e mem inTx => ?_
  have none := h.at.count
  rw [List.countP_eq_zero] at none
  exact none e mem inTx

/-- A port without marks leaves service, its queue purged (R31, R33). -/
theorem State.UnmarkedAt.leave {s : State} {p : Port} (h : s.UnmarkedAt p) {st : PortState}
    (still : st.dirAsserted = false) : (((s.leaveService p st).purgeUnreachable p).portLeft p).Marked := by
  have left : (s.leaveService p st).Marked := h.updPort rfl still
  have there : (s.leaveService p st).UnmarkedAt p := left.unmarkedAt (by
    rw [State.leaveService, State.port_updPort_self]
    exact still)
  exact (State.portLeft_moves _ p).marked (there.purgeUnreachable.marked left)

/-! ### What each change does to the marks -/

theorem State.Marked.start {s : State} (h : s.Marked) (p : Port) : (s.updPort p PortUnit.started).Marked := by
  refine h.updPort fun here => ?_
  cases start : (s.port p).canStart with
  | false => rwa [PortUnit.started_of_cannotStart start]
  | true =>
    obtain ⟨listen, nonempty, -⟩ := (s.port p).canStart_iff.mp start
    obtain ⟨e, rest, queue⟩ := List.exists_cons_of_ne_nil nonempty
    rw [PortUnit.started_of_canStart start queue]
    rw [PortUnit.marks_of_still (by rw [listen]; rfl), queue] at here
    exact here.mark_head

/-- A completed port listens or guards (R28). -/
theorem PortUnit.still_afterCompletion (u : PortUnit) (e : QueueEntry) :
    (u.afterCompletion e).dirAsserted = false := by
  unfold PortUnit.afterCompletion
  split <;> rfl

theorem State.Marked.complete {s : State} (h : s.Marked) {p : Port} {e : QueueEntry}
    (sending : (s.port p).state.dirAsserted = true) (marked : inTransmission (s.queue p) = some e) :
    (s.complete p e).Marked := (h.remove sending marked .completion).updPort rfl ((s.port p).still_afterCompletion e)

/-- The fate of an entry after a collision is its removal, or its stay without a pending removal (R25). -/
theorem State.settleCollided_cases (s : State) (p : Port) (e : QueueEntry) :
    (∃ c, s.settleCollided p e = s.remove p e c) ∨
      s.settleCollided p e = s.updEntry p e.stamp fun x => { x with pendingRemoval := none } := by
  have attempts : (∃ c, s.settleAttempts p e = s.remove p e c) ∨
      s.settleAttempts p e = s.updEntry p e.stamp fun x => { x with pendingRemoval := none } := by
    unfold State.settleAttempts
    split
    · exact .inl ⟨_, rfl⟩
    · exact .inr rfl
  unfold State.settleCollided
  split
  · exact .inl ⟨_, rfl⟩
  · split
    · exact .inl ⟨_, rfl⟩
    · exact attempts
  · exact attempts

/-- The port of a collision, before the fate of its entry is settled. -/
theorem State.port_collided (s : State) (p : Port) (e : QueueEntry) (length : Nat) (q : Port) :
    (s.collided p e length).port q =
      if q = p then
        { (s.port p).counted .collisions with
          state := .backoff length
          busySpan := 0
          queue := (s.port p).queue.map fun y =>
            if y.stamp = e.stamp then { y with attempts := y.attempts + 1, inTx := false } else y }
      else s.port q := by
  rw [State.collided, State.countPort_eq, State.updPort_updPort, State.port_updPort]
  rfl

section Updated

variable (q : List QueueEntry) (n : Nat) {f : QueueEntry → QueueEntry} (stamp : ∀ y, (f y).stamp = y.stamp)
include stamp

/-- An entry written over and then removed has left as it would have before. -/
theorem filter_updated :
    ((q.map fun y => if y.stamp = n then f y else y).filter fun x => x.stamp != n) = q.filter fun x => x.stamp != n := by
  induction q with
  | nil => rfl
  | cons y ys ih =>
    by_cases here : y.stamp = n
    · simp [here, stamp, ih]
    · simp [here, ih]

/-- An entry written over twice. -/
theorem map_updated (g : QueueEntry → QueueEntry) :
    ((q.map fun y => if y.stamp = n then f y else y).map fun y => if y.stamp = n then g y else y) =
      q.map fun y => if y.stamp = n then g (f y) else y := by
  rw [List.map_map]
  refine List.map_congr_left fun y _ => ?_
  by_cases here : y.stamp = n <;> simp [here, stamp]

end Updated

theorem State.Marked.collide {s : State} (h : s.Marked) {p : Port} {e : QueueEntry}
    (sending : (s.port p).state.dirAsserted = true) (marked : inTransmission (s.queue p) = some e) :
    (s.collide p e).Marked := by
  obtain ⟨mem, inTx⟩ := inTransmission_some marked
  have here : MarkedQueue s.nextStamp 1 (s.port p).queue := PortUnit.marks_of_sending sending ▸ h p
  rw [State.collide_eq]
  generalize backoffLength (s.port p).params.quiet (e.attempts + 1) s.params.ownAddress = length
  have other (q : Port) (ne : q ≠ p) : MarkedQueue s.nextStamp (s.port q).marks (s.port q).queue := h q
  obtain ⟨c, removed⟩ | stays := (s.collided p e length).settleCollided_cases p e.collided
  · rw [removed]
    refine (State.remove_moves_of_dequeue _ p e.collided c).marked fun q => ?_
    rw [State.dequeue, State.setQueue, State.port_updPort]
    split
    · have left := here.filter_stamp mem
      rw [inTx, if_pos rfl] at left
      have same : ((s.collided p e length).queue p).filter (fun x => x.stamp != e.collided.stamp) =
          (s.port p).queue.filter fun x => x.stamp != e.stamp := by
        rw [State.queue, State.port_collided, if_pos rfl]
        exact filter_updated _ e.stamp (f := fun y => { y with attempts := y.attempts + 1, inTx := false }) fun _ => rfl
      rw [same, State.port_collided, if_pos rfl]
      exact left
    · rename_i ne
      rw [State.port_collided, if_neg ne]
      exact other q ne
  · rw [stays, State.updEntry_eq]
    intro q
    rw [State.port_updPort]
    split
    · rw [State.port_collided, if_pos rfl]
      have unmarked := here.unmark mem inTx rfl rfl rfl
        (f := fun y => { y with attempts := y.attempts + 1, inTx := false, pendingRemoval := none })
      have twice := map_updated (s.port p).queue e.stamp
        (f := fun y => { y with attempts := y.attempts + 1, inTx := false }) (fun _ => rfl)
        fun x => { x with pendingRemoval := none }
      exact (congrArg (MarkedQueue s.nextStamp 0) twice).mpr unmarked
    · rename_i ne
      rw [State.port_collided, if_neg ne]
      exact other q ne

theorem State.Marked.contain {s : State} (h : s.Marked) {p : Port} (monitored : (s.port p).state.monitored = true) :
    (s.contain p).Marked := by
  have still : (s.port p).state.dirAsserted = false := by
    cases state : (s.port p).state with
    | sending pos elapsed =>
      rw [state] at monitored
      exact Bool.noConfusion monitored
    | _ => rfl
  have unmarked := (s.discardReception_moves p).unmarkedAt (h.unmarkedAt still)
  exact (State.raise_moves _ .containment).marked ((State.countPort_moves _ p .containments).marked (unmarked.leave rfl))

theorem State.Marked.abortTransmission {s : State} (h : s.Marked) (p : Port) :
    (s.abortTransmission p).UnmarkedAt p := by
  unfold State.abortTransmission
  split
  · rename_i pos elapsed e state marked
    exact h.remove (by rw [state]; rfl) marked .unreachable
  · rename_i pos elapsed state none
    have here : MarkedQueue s.nextStamp 1 (s.port p).queue := PortUnit.marks_of_sending (by rw [state]; rfl) ▸ h p
    obtain ⟨e, mem, inTx⟩ := List.countP_pos_iff.mp (here.count ▸ Nat.one_pos)
    exact absurd inTx (List.find?_eq_none.mp none e mem)
  all_goals
    rename_i state
    exact h.unmarkedAt (by rw [state]; rfl)

theorem State.Marked.disable {s : State} (h : s.Marked) (p : Port) : (s.disable p).Marked := by
  have discarded := (s.discardReception_moves p).marked h
  have left := (discarded.abortTransmission p).leave (st := .disabled) rfl
  unfold State.disable
  split
  · exact h
  all_goals exact left

/-- No change leaves a mark too many or too few. -/
theorem Change.marked {s t : State} (h : Change s t) (marked : s.Marked) : t.Marked := by
  cases h with
  | move h => exact h.marked marked
  | port p f queue sending =>
    refine marked.updPort fun here => ?_
    rwa [queue, PortUnit.marks, sending]
  | start p => exact marked.start p
  | complete p e sending inTx => exact marked.complete sending inTx
  | collide p e sending inTx => exact marked.collide sending inTx
  | contain p monitored => exact marked.contain monitored
  | disable p => exact marked.disable p
  | settings ports stamps =>
    intro q
    rw [State.port, ports, stamps]
    exact marked q

/-! ### O13 -/

/-- With nothing queued and no port in SENDING there is nothing to mark. -/
theorem State.marked_of_empty {s : State} (empty : s.QueuesEmpty) (still : ∀ p, (s.port p).state.dirAsserted = false) :
    s.Marked := by
  intro q
  rw [empty q, PortUnit.marks_of_still (still q)]
  exact .nil _

theorem kept_marked : Kept State.Marked where
  change := Change.marked
  held same marked q := by
    rw [State.port, same.ports, same.nextStamp]
    exact marked q
  defaults s cause straps := by
    refine State.marked_of_empty (fun p => ?_) fun p => ?_ <;> rw [State.port_resetToDefaults] <;> rfl
  warm _ := by
    refine State.marked_of_empty (fun p => ?_) fun p => ?_ <;> rw [State.port_resetWarm]
    · rfl
    · unfold PortUnit.afterWarm
      dsimp only
      split <;> rfl
  dark _ := by
    refine State.marked_of_empty (fun p => ?_) fun p => ?_ <;> rw [State.port_losePower] <;> rfl

theorem PortUnit.marksSound_iff (u : PortUnit) :
    u.marksSound = true ↔ u.queue.countP (·.inTx) = u.marks ∧ ∀ e ∈ u.queue, e.MarkSound := by
  have entry (e : QueueEntry) :
      ((e.inTx || e.pendingRemoval.isNone) && (e.pendingRemoval != some .withdrawn || e.link.isNone)) = true ↔ e.MarkSound := by
    simp [QueueEntry.MarkSound, Classical.or_iff_not_imp_left]
  simp only [PortUnit.marksSound, PortUnit.marks, Bool.and_eq_true, beq_iff_eq, List.all_eq_true,
    List.countP_eq_length_filter] at *
  simp only [← entry]

theorem State.marked_iff (s : State) :
    s.Marked ↔ s.marksSound = true ∧ ∀ p, Stamped s.nextStamp (s.port p).queue := by
  have sound : s.marksSound = true ↔ ∀ p, (s.port p).marksSound = true := by simp [State.marksSound, allPorts]
  simp only [sound, PortUnit.marksSound_iff]
  exact ⟨fun h => ⟨fun p => ⟨(h p).count, (h p).sound⟩, fun p => (h p).toStamped⟩,
    fun ⟨marks, stamped⟩ p => ⟨stamped p, (marks p).1, (marks p).2⟩⟩

/-- The stamps of a sound queue are its entries' own, and given out (R51). -/
theorem State.stamped_of_queuesSound {s : State} (h : s.queuesSound = true) (p : Port) :
    Stamped s.nextStamp (s.port p).queue := by
  have all : ∀ q, queueSound s.nextStamp (s.queue q) = true := by simpa [State.queuesSound, allPorts] using h
  have here := all p
  simp only [queueSound, Bool.and_eq_true, decide_eq_true_eq, List.all_eq_true] at here
  exact ⟨here.1.2, here.2⟩

/-- Settles O13: the marks, with the stamps that name their entries, are kept by every change an event is made of. -/
theorem stepsKeepTheMarksSound : Obligations.StepsKeepTheMarksSound := by
  intro s t queues marks stepped
  have marked : s.Marked := s.marked_iff.mpr ⟨marks, State.stamped_of_queuesSound queues⟩
  exact (t.marked_iff.mp (kept_marked.step stepped marked)).1

end Sys2Proof.Machine
end

