-- ==== Sys2Proof/Proofs/EventsComplete.lean ====
section
/-! PROOFS. Every step ends with its event complete: what the end of an event, a CLK period and an unpowered part leave, and
that a restart which fell due is pending no longer after the next step. -/

namespace Sys2Proof.Machine

/-! ### What it says of the ports -/

theorem State.eventsComplete_iff (s : State) :
    s.eventsComplete = true ↔ (s.restart.any fun r => r.due) = true ∨ ∀ p, (s.port p).canStart = false := by
  simp [State.eventsComplete, allPorts, State.canStart_eq]

theorem State.eventsComplete_of_cannotStart {s : State} (h : ∀ p, (s.port p).canStart = false) :
    s.eventsComplete = true := s.eventsComplete_iff.mpr (.inr h)

theorem State.eventsComplete_of_empty {s : State} (empty : s.QueuesEmpty) : s.eventsComplete = true :=
  State.eventsComplete_of_cannotStart fun p => PortUnit.canStart_of_empty (empty p)

/-- Completeness speaks of the ports and of the pending restart alone. -/
theorem State.eventsComplete_of_ports {s t : State} (ports : t.ports = s.ports) (restart : t.restart = s.restart)
    (h : s.eventsComplete = true) : t.eventsComplete = true := by
  rw [State.eventsComplete_iff] at h ⊢
  rw [restart]
  simpa only [State.port, ports] using h

/-- The end of an event completes it. -/
theorem State.eventsComplete_settle (s : State) : s.settle.eventsComplete = true := by
  cases due : s.restart.any fun r => r.due with
  | true => exact (State.eventsComplete_iff _).mpr (.inl (by rw [State.restart_settle, due]))
  | false =>
    refine State.eventsComplete_of_cannotStart fun p => ?_
    rw [State.port_settle due]
    exact PortUnit.canStart_started _

theorem State.darkUnpowered_iff (s : State) :
    s.darkUnpowered = true ↔
      s.powered = true ∨ s.restart = none ∧ ∀ p, (s.port p).state = .disabled ∧ (s.port p).queue = [] := by
  simp [State.darkUnpowered, allPorts, State.queue]

theorem State.dark_of_powered {s : State} (powered : s.powered = true) : s.darkUnpowered = true :=
  s.darkUnpowered_iff.mpr (.inl powered)

/-- What a part without main power is like (R132, log 12). -/
theorem State.dark_cases {s : State} (h : s.darkUnpowered = true) :
    s.powered = true ∨
      s.powered = false ∧ s.restart = none ∧ ∀ p, (s.port p).state = .disabled ∧ (s.port p).queue = [] := by
  cases powered : s.powered with
  | true => exact .inl rfl
  | false =>
    obtain on | off := s.darkUnpowered_iff.mp h
    · rw [powered] at on
      exact Bool.noConfusion on
    · exact .inr ⟨rfl, off⟩

theorem State.dark_of_same {s t : State} (ports : t.ports = s.ports) (restart : t.restart = s.restart)
    (powered : t.powered = s.powered) (h : s.darkUnpowered = true) : t.darkUnpowered = true := by
  rw [State.darkUnpowered_iff] at h ⊢
  rw [restart, powered]
  simpa only [State.port, ports] using h

/-- Without main power every event is complete. -/
theorem State.eventsComplete_of_dark {s : State} (h : s.darkUnpowered = true) (off : s.powered = false) :
    s.eventsComplete = true := by
  obtain on | ⟨-, -, ports⟩ := State.dark_cases h
  · rw [off] at on
    exact Bool.noConfusion on
  · exact State.eventsComplete_of_empty fun p => (ports p).2

/-! ### Restarts -/

/-- A restart that is taken leaves every queue empty (R59). -/
theorem State.queuesEmpty_takeRestart (s : State) (k : RestartKind) : (s.takeRestart k).QueuesEmpty := by
  intro p
  cases k
  · rw [State.takeRestart, State.port_resetWarm]
    rfl
  · rw [State.takeRestart, State.port_resetToDefaults]
    rfl

theorem State.eventsComplete_restartFirst {s : State} (h : s.eventsComplete = true) :
    s.restartFirst.eventsComplete = true := by
  obtain same | ⟨r, -, -, -, taken⟩ := s.restartFirst_cases
  · rwa [same]
  · rw [taken]
    exact State.eventsComplete_of_empty (s.queuesEmpty_takeRestart _)

theorem State.dark_restartFirst {s : State} (h : s.darkUnpowered = true) : s.restartFirst.darkUnpowered = true := by
  obtain on | ⟨off, -⟩ := State.dark_cases h
  · exact State.dark_of_powered (by rw [State.powered_restartFirst, on])
  · rwa [State.restartFirst_of_unpowered off]

/-- A restart that has fallen due, and main power, without which none is pending. -/
theorem State.restart_restartFirst_of_due {s : State} (dark : s.darkUnpowered = true) {r : Restart}
    (restart : s.restart = some r) (due : r.due = true) : s.powered = true ∧ s.restartFirst.restart = none := by
  obtain on | ⟨-, none, -⟩ := State.dark_cases dark
  · refine ⟨on, ?_⟩
    rw [restartFirst_of_due s r restart due on, takeRestart_restart]
  · rw [none] at restart
    exact absurd restart (Option.some_ne_none r).symm

theorem restartFirst_restart_none {s : State} (h : s.restart = none) : s.restartFirst.restart = none := by
  rw [restartFirst_of_none s h, h]

theorem State.restart_resetToDefaults (s : State) (cause : ResetCause) (straps : Straps) :
    (s.resetToDefaults cause straps).restart = none := by
  rw [State.resetToDefaults_eq]
  rfl

theorem State.powered_resetToDefaults (s : State) (cause : ResetCause) (straps : Straps) :
    (s.resetToDefaults cause straps).powered = s.powered := by rw [State.resetToDefaults_eq]

/-! ### Events of the main domain -/

/-- The effects of the main domain keep main power, and make no restart pending. -/
theorem Effect.powered_restart (e : Effect) (s : State) :
    (e.apply s).powered = s.powered ∧ (s.restart = none → (e.apply s).restart = none) := by
  by_cases reset : ∃ straps, e = .pinReset straps
  · obtain ⟨straps, rfl⟩ := reset
    exact ⟨s.powered_resetToDefaults .pin straps, fun _ => s.restart_resetToDefaults .pin straps⟩
  · have changes := Effect.changes s (e := e) fun straps e => reset ⟨straps, e⟩
    exact ⟨changes.powered, changes.restart_none⟩

/-- A row that is one event of the main domain, or a second tick, with main power: the event is complete, main power is
still there, and no restart is pending that was not. -/
structure Ends (s t : State) : Prop where
  complete : t.eventsComplete = true
  powered : t.powered = true
  restart : s.restartFirst.restart = none → t.restart = none

theorem State.inEvent_ends {s : State} {f : State → State} (powered : s.powered = true)
    (keeps : ∀ u : State, (f u).powered = u.powered ∧ (u.restart = none → (f u).restart = none)) :
    Ends s (s.inEvent f) := by
  obtain ⟨power, restart⟩ := keeps s.restartFirst
  refine ⟨State.eventsComplete_settle _, ?_, fun none => ?_⟩
  · rw [State.inEvent, State.powered_settle, power, State.powered_restartFirst, powered]
  · rw [State.inEvent, State.restart_settle, restart none]

theorem Row.run_main_ends {s : State} (e : Effect) (powered : s.powered = true) : Ends s ((Row.main e).run s) := by
  rw [Row.run, if_pos powered]
  exact State.inEvent_ends powered e.powered_restart

theorem Row.run_secondTick_ends {s : State} (powered : s.powered = true) : Ends s (Row.secondTick.run s) := by
  rw [Row.run, if_pos powered]
  exact State.inEvent_ends powered fun u => ⟨u.secondTick_changes.powered, u.secondTick_changes.restart_none⟩

/-! ### A frame -/

/-- A character on the line of an unpowered port moves the line alone. -/
theorem State.dark_updPort_line {s : State} (h : s.darkUnpowered = true) (p : Port) (l : LineState → LineState) :
    (s.updPort p fun u => { u with line := l u.line }).darkUnpowered = true := by
  rw [State.darkUnpowered_iff] at h ⊢
  refine h.imp_right fun ⟨restart, ports⟩ => ⟨restart, fun q => ?_⟩
  rw [State.port_updPort]
  split
  · exact ports p
  · exact ports q

theorem Pends.powered {p : Port} {s t : State} (h : Pends p s t) : t.powered = s.powered := by
  obtain ⟨u, k, b, before, -, after, -, -⟩ := h
  exact after.powered.trans before.powered

theorem State.powered_receiveCharacter (s : State) (p : Port) (c : LineCharacter) :
    (s.receiveCharacter p c).powered = s.powered := by
  obtain changes | ⟨u, before, -, -, -, pends⟩ := s.receiveCharacter_receives p c
  · exact changes.powered
  · exact pends.powered.trans before.powered

theorem LineEffect.powered (e : LineEffect) (p : Port) (s : State) : (e.apply p s).powered = s.powered := by
  cases e with
  | character c => exact s.powered_receiveCharacter p c
  | _ => rfl

/-- An event on a line, with main power or without. -/
theorem State.lineEvent_complete {s : State} (dark : s.darkUnpowered = true) {p : Port} {f : State → State}
    {level : LineState → LineState} (power : ∀ u : State, (f u).powered = u.powered) :
    (s.lineEvent p f level).eventsComplete = true ∧ (s.lineEvent p f level).darkUnpowered = true := by
  obtain on | ⟨off, -⟩ := State.dark_cases dark
  · rw [State.lineEvent, if_pos on]
    refine ⟨State.eventsComplete_settle _, State.dark_of_powered ?_⟩
    rw [State.inEvent, State.powered_settle, power, State.powered_restartFirst, on]
  · rw [State.lineEvent, if_neg (by rw [off]; decide)]
    have there := State.dark_updPort_line dark p level
    exact ⟨State.eventsComplete_of_dark there off, there⟩

theorem foldl_takeCharacter_complete {s : State} (dark : s.darkUnpowered = true) (p : Port) (cs : List LineCharacter) :
    (s.eventsComplete = true → (cs.foldl (State.takeCharacter p) s).eventsComplete = true) ∧
      (cs.foldl (State.takeCharacter p) s).darkUnpowered = true := by
  induction cs generalizing s with
  | nil => exact ⟨id, dark⟩
  | cons c cs ih =>
    obtain ⟨complete, dark⟩ :=
      State.lineEvent_complete dark (p := p) (level := fun _ => lineAfter c) fun u => u.powered_receiveCharacter p c
    obtain ⟨rest, after⟩ := ih dark
    exact ⟨fun _ => rest complete, after⟩

/-- Between the characters of a frame at port `p`: no restart is pending, or one that awaits its result while the port listens on
a line that has just become idle. -/
def State.Awaits (p : Port) (s : State) : Prop :=
  (s.restart = none ∧ s.paramsInRange = true) ∨
    ∃ k b, s.restart = some ⟨k, b, false⟩ ∧ (s.port p).state = .listen ∧ (s.port p).line = .idle 0 ∧
      1 ≤ (s.port p).params.quiet

/-- The end of an event starts nothing at a port whose line has just become idle. -/
theorem State.awaits_settle {s : State} {p : Port} {k : RestartKind} {b : BufferIx} (restart : s.restart = some ⟨k, b, false⟩)
    (listen : (s.port p).state = .listen) (line : (s.port p).line = .idle 0) (quiet : 1 ≤ (s.port p).params.quiet) :
    s.settle.Awaits p := by
  have notDue : s.NotDue := by rw [State.NotDue, restart]; rfl
  refine .inr ⟨k, b, by rw [State.restart_settle, restart], ?_⟩
  rw [State.port_settle notDue, PortUnit.started_of_cannotStart (PortUnit.canStart_of_idle_zero line quiet)]
  exact ⟨listen, line, quiet⟩

/-- A character at a part with no restart pending. -/
theorem State.takeCharacter_awaits_of_none {s : State} {p : Port} {v : Byte} {flag : Bool} (powered : s.powered = true)
    (none : s.restart = none) (range : s.paramsInRange = true) : (s.takeCharacter p (.good v flag)).Awaits p := by
  rw [State.takeCharacter, State.lineEvent, if_pos powered, State.inEvent, restartFirst_of_none s none]
  obtain changes | ⟨u, before, listen, line, params, pends⟩ := s.receiveCharacter_receives p (.good v flag)
  · exact .inl ⟨by rw [State.restart_settle, changes.restart_none none],
      kept_paramsInRange.settle (kept_paramsInRange.changes changes range)⟩
  · obtain ⟨-, k, b, -, -, -, restart, stands⟩ := pends
    exact State.awaits_settle restart (stands.state.trans listen) (stands.line.trans line)
      (by rw [stands.params, params]; exact State.one_le_quiet range p)

/-- A data character after the one that completed a RESTART's frame starts and removes nothing. -/
theorem State.takeCharacter_awaits {s : State} {p : Port} {v : Byte} (powered : s.powered = true) (h : s.Awaits p) :
    (s.takeCharacter p (.good v false)).Awaits p := by
  obtain ⟨none, range⟩ | ⟨k, b, restart, listen, line, quiet⟩ := h
  · exact State.takeCharacter_awaits_of_none powered none range
  · have decodable : (s.port p).line.decodable = true := by rw [line]; rfl
    have port : (s.setLine p (.idle 0) .ready).port p = { s.port p with line := .idle 0, startHold := .ready } := by
      rw [State.setLine_eq, State.port_updPort_self]
    have ignored : s.receiveCharacter p (.good v false) = s.setLine p (.idle 0) .ready := by
      rw [State.receiveCharacter_decoded decodable, lineAfter, holdAfter, State.routeCharacter_awaiting]
      · rfl
      · rw [State.state_setLine, listen]
        rfl
    rw [State.takeCharacter, State.lineEvent, if_pos powered, State.inEvent, restartFirst_of_notDue s _ restart rfl,
      ignored]
    exact State.awaits_settle restart (by rw [port]; exact listen) (by rw [port]) (by rw [port]; exact quiet)

theorem State.powered_takeCharacter {s : State} (powered : s.powered = true) (p : Port) (c : LineCharacter) :
    (s.takeCharacter p c).powered = true := by
  rw [State.takeCharacter, State.lineEvent, if_pos powered, State.inEvent, State.powered_settle,
    State.powered_receiveCharacter, State.powered_restartFirst, powered]

/-- A whole frame at a part with no restart pending. -/
theorem State.receiveFrame_awaits {s : State} {p : Port} {d : Byte} {rest : List Byte} (powered : s.powered = true)
    (none : s.restart = none) (range : s.paramsInRange = true) : (s.receiveFrame p (d :: rest)).Awaits p := by
  have first := State.takeCharacter_awaits_of_none (p := p) (v := d) (flag := true) powered none range
  have on := State.powered_takeCharacter powered p (.good d true)
  rw [State.receiveFrame, lineCharacters, List.foldl_cons]
  generalize s.takeCharacter p (.good d true) = t at first on
  induction rest generalizing t with
  | nil => exact first
  | cons v rest ih => exact ih _ (State.takeCharacter_awaits on first) (State.powered_takeCharacter on p _)

theorem State.Awaits.notDue {p : Port} {s : State} (h : s.Awaits p) (q : Restart) (restart : s.restart = some q) :
    q.due = false := by
  obtain ⟨none, -⟩ | ⟨k, b, pending, -⟩ := h
  · rw [none] at restart
    exact absurd restart (Option.some_ne_none q).symm
  · rw [pending] at restart
    injection restart with restart
    rw [← restart]

/-! ### Rows -/

/-- What a row leaves of what the last event left. -/
structure Leaves (s t : State) : Prop where
  complete : s.eventsComplete = true → t.eventsComplete = true
  dark : t.darkUnpowered = true
  taken : ∀ r, s.restart = some r → r.due = true → ∀ q, t.restart = some q → q.due = false

/-- No restart is pending. -/
theorem Leaves.of_none {s t : State} (complete : s.eventsComplete = true → t.eventsComplete = true)
    (dark : t.darkUnpowered = true) (none : ∀ r, s.restart = some r → r.due = true → t.restart = none) : Leaves s t :=
  ⟨complete, dark, fun r restart due q pending => by
    rw [none r restart due] at pending
    exact absurd pending (Option.some_ne_none q).symm⟩

theorem Ends.leaves {s t : State} (h : Ends s t) (dark : s.darkUnpowered = true) : Leaves s t :=
  .of_none (fun _ => h.complete) (State.dark_of_powered h.powered) fun _ restart due =>
    h.restart (State.restart_restartFirst_of_due dark restart due).2

/-- Without main power no restart is pending. -/
theorem Leaves.of_unpowered {s t : State} (dark : s.darkUnpowered = true) (off : s.powered = false)
    (same : t.darkUnpowered = true) (still : t.powered = false) : Leaves s t :=
  .of_none (fun _ => State.eventsComplete_of_dark same still) same fun r restart due => by
    obtain ⟨on, -⟩ := State.restart_restartFirst_of_due dark restart due
    rw [off] at on
    exact Bool.noConfusion on

theorem Leaves.unchanged {s : State} (dark : s.darkUnpowered = true) (off : s.powered = false) : Leaves s s :=
  .of_unpowered dark off dark off

theorem Row.run_line_leaves {s : State} (dark : s.darkUnpowered = true) (p : Port) (e : LineEffect) :
    Leaves s ((Row.line p e).run s) := by
  obtain ⟨complete, after⟩ := State.lineEvent_complete dark (p := p) (level := e.level) (e.powered p)
  refine ⟨fun _ => complete, after, fun r restart due q pending => ?_⟩
  obtain ⟨on, none⟩ := State.restart_restartFirst_of_due dark restart due
  rw [Row.run, State.lineEvent, if_pos on, State.inEvent, State.restart_settle] at pending
  cases e with
  | character c =>
    obtain changes | ⟨u, -, -, -, -, v, k, b, -, -, -, restart, -⟩ := s.restartFirst.receiveCharacter_receives p c
    · rw [LineEffect.apply, changes.restart_none none] at pending
      exact absurd pending (Option.some_ne_none q).symm
    · rw [LineEffect.apply, restart] at pending
      injection pending with pending
      rw [← pending]
  | startBit => exact absurd (none.symm.trans pending) (Option.some_ne_none q).symm
  | lineReturns => exact absurd (none.symm.trans pending) (Option.some_ne_none q).symm

theorem framedChars_cons (f : Frame) (k : Kind) : ∃ d rest, framedChars f k = d :: rest :=
  List.exists_cons_of_length_pos (by rw [framedChars_length]; omega)

theorem Row.run_frame_leaves {s : State} (range : s.paramsInRange = true) (dark : s.darkUnpowered = true) (p : Port)
    (f : Byte → Frame) (k : Kind) : Leaves s ((Row.frame p f k).run s) := by
  rw [Row.run]
  generalize f s.restartFirst.params.ownAddress = frame
  obtain ⟨complete, after⟩ := foldl_takeCharacter_complete dark p (lineCharacters (framedChars frame k))
  refine ⟨complete, after, fun r restart due => ?_⟩
  obtain ⟨on, none⟩ := State.restart_restartFirst_of_due dark restart due
  obtain ⟨d, rest, chars⟩ := framedChars_cons frame k
  rw [chars, ← State.receiveFrame_restartFirst]
  exact (State.receiveFrame_awaits (by rw [State.powered_restartFirst, on]) none
    (kept_paramsInRange.restartFirst range)).notDue

/-- A reset with main power present, and the end of its event. -/
theorem Leaves.of_reset {s t : State} (powered : t.powered = true) (none : t.restart = none) : Leaves s t.settle :=
  .of_none (fun _ => t.eventsComplete_settle) (State.dark_of_powered (by rw [State.powered_settle, powered]))
    fun _ _ _ => by rw [State.restart_settle, none]

theorem State.powerOn_powered_restart (s : State) (straps : Straps) :
    (s.powerOn straps).powered = true ∧ (s.powerOn straps).restart = none := by
  unfold State.powerOn
  split
  · rw [State.resetCold_eq]
    exact ⟨rfl, rfl⟩
  · exact ⟨State.powered_resetToDefaults _ .power straps, State.restart_resetToDefaults _ .power straps⟩

theorem State.readsStraps_eq (s : State) (straps : Straps) :
    s.readsStraps straps = { s with straps := (s.readsStraps straps).straps } := by
  unfold State.readsStraps
  split <;> rfl

theorem Row.run_fullRestart_leaves {s : State} (dark : s.darkUnpowered = true) (straps : Straps) :
    Leaves s ((Row.fullRestart straps).run s) := by
  have same : (s.readsStraps straps).ports = s.ports ∧ (s.readsStraps straps).restart = s.restart ∧
      (s.readsStraps straps).powered = s.powered := by
    rw [State.readsStraps_eq]
    exact ⟨rfl, rfl, rfl⟩
  obtain ⟨ports, restart, powered⟩ := same
  have read := State.dark_of_same ports restart powered dark
  rw [Row.run]
  obtain on | ⟨off, -⟩ := State.dark_cases dark
  · rw [if_pos (powered.trans on)]
    have ends := State.inEvent_ends (f := id) (powered.trans on) fun _ => ⟨rfl, id⟩
    obtain ⟨complete, dark, taken⟩ := ends.leaves read
    exact ⟨fun _ => complete (State.eventsComplete_of_ports ports restart ‹_›), dark, fun r pending => taken r (restart.trans pending)⟩
  · rw [if_neg (by rw [powered, off]; decide)]
    exact .of_unpowered dark off read (powered.trans off)

/-- The loss of main power (R132): nothing queued, driven or pending is left. -/
theorem State.dark_losePower (s : State) : s.losePower.darkUnpowered = true := by
  refine (State.darkUnpowered_iff _).mpr (.inr ⟨by rw [State.losePower_eq], fun p => ?_⟩)
  rw [State.port_losePower]
  exact ⟨rfl, rfl⟩

theorem Row.run_backupSupplyLoss_leaves {s : State} (dark : s.darkUnpowered = true) :
    Leaves s (Row.backupSupplyLoss.run s) := by
  have same : (Row.backupSupplyLoss.run s).ports = s.restartFirst.ports ∧
      (Row.backupSupplyLoss.run s).restart = s.restartFirst.restart ∧
      (Row.backupSupplyLoss.run s).powered = s.restartFirst.powered := by
    rw [Row.run]
    split <;> exact ⟨rfl, rfl, rfl⟩
  obtain ⟨ports, restart, powered⟩ := same
  refine .of_none (fun complete => ?_) (State.dark_of_same ports restart powered (State.dark_restartFirst dark))
    fun r pending due => ?_
  · exact State.eventsComplete_of_ports ports restart (State.eventsComplete_restartFirst complete)
  · rw [restart, (State.restart_restartFirst_of_due dark pending due).2]

/-- Every row. -/
theorem Row.run_leaves {s : State} (range : s.paramsInRange = true) (dark : s.darkUnpowered = true) (r : Row) :
    Leaves s (r.run s) := by
  obtain on | ⟨off, -⟩ := State.dark_cases dark
  case inl =>
    cases r with
    | main e => exact (Row.run_main_ends e on).leaves dark
    | line p e => exact Row.run_line_leaves dark p e
    | frame p f k => exact Row.run_frame_leaves range dark p f k
    | secondTick => exact (Row.run_secondTick_ends on).leaves dark
    | coldStart straps => exact .of_reset (by rw [State.resetCold_eq]; rfl) (by rw [State.resetCold_eq]; rfl)
    | powerStart straps =>
      obtain ⟨powered, none⟩ := s.powerOn_powered_restart straps
      exact .of_reset powered none
    | fullRestart straps => exact Row.run_fullRestart_leaves dark straps
    | mainPowerLoss =>
      rw [Row.run, if_pos on]
      exact .of_none (fun _ => State.eventsComplete_of_dark (State.dark_losePower _) (by rw [State.losePower_eq]))
        (State.dark_losePower _) fun _ _ _ => by rw [State.losePower_eq]
    | backupSupplyLoss => exact Row.run_backupSupplyLoss_leaves dark
  case inr =>
    have dead : ¬ s.powered = true := by rw [off]; decide
    cases r with
    | main e =>
      rw [Row.run, if_neg dead]
      exact .unchanged dark off
    | line p e => exact Row.run_line_leaves dark p e
    | frame p f k => exact Row.run_frame_leaves range dark p f k
    | secondTick =>
      rw [Row.run, if_neg dead]
      have ticked : s.secondTick.ports = s.ports ∧ s.secondTick.restart = s.restart ∧
          s.secondTick.powered = s.powered := by
        unfold State.secondTick
        rw [if_neg dead]
        split <;> exact ⟨rfl, rfl, rfl⟩
      obtain ⟨ports, restart, powered⟩ := ticked
      exact .of_unpowered dark off (State.dark_of_same ports restart powered dark) (powered.trans off)
    | coldStart straps => exact .of_reset (by rw [State.resetCold_eq]; rfl) (by rw [State.resetCold_eq]; rfl)
    | powerStart straps =>
      obtain ⟨powered, none⟩ := s.powerOn_powered_restart straps
      exact .of_reset powered none
    | fullRestart straps => exact Row.run_fullRestart_leaves dark straps
    | mainPowerLoss =>
      rw [Row.run, if_neg dead]
      exact .unchanged dark off
    | backupSupplyLoss => exact Row.run_backupSupplyLoss_leaves dark

/-! ### One CLK period -/

/-- The events that time brings are events of the main domain. -/
theorem rowOf_timedEvent {c : Instr} (timed : c ∈ timedEvents) : ∃ e, rowOf c = .main e := by
  obtain ⟨p, rfl | rfl | rfl | rfl | rfl | rfl | rfl | rfl⟩ | ⟨i, rfl⟩ | ⟨i, rfl⟩ | rfl := (mem_timedEvents c).mp timed
  all_goals exact ⟨_, rfl⟩

theorem State.after_eq_run (s : State) (c : Instr) : s.after c = (rowOf c).run s := by
  rw [State.after, exec_eq_run]

/-- What is left of a CLK period with the events of `l` still to be looked at: the last event is complete, or every port that
meets the start condition is still to be looked at. -/
def State.CompleteBut (l : List Instr) (s : State) : Prop :=
  s.eventsComplete = true ∨ ∀ p, (s.port p).canStart = true → Instr.startTransmission p ∈ l

theorem State.takeDue_completeBut {s : State} {c : Instr} {l : List Instr} (powered : s.powered = true)
    (timed : c ∈ timedEvents) (h : s.CompleteBut (c :: l)) : (s.takeDue c).CompleteBut l := by
  have on : s.restartFirst.powered = true := by rw [State.powered_restartFirst, powered]
  unfold State.takeDue
  split
  · obtain ⟨e, row⟩ := rowOf_timedEvent timed
    rw [State.after_eq_run, row]
    exact .inl (Row.run_main_ends e on).complete
  · rename_i notDue
    obtain complete | waits := h
    · exact .inl (State.eventsComplete_restartFirst complete)
    · obtain same | ⟨r, -, -, -, taken⟩ := s.restartFirst_cases
      · rw [same] at notDue ⊢
        refine .inr fun p start => ?_
        obtain rfl | later := List.mem_cons.mp (waits p start)
        · exact absurd start notDue
        · exact later
      · rw [taken]
        exact .inl (State.eventsComplete_of_empty (s.queuesEmpty_takeRestart _))

/-- What an event that time brings leaves of main power and of a part with no restart pending. -/
theorem State.takeDue_powered_restart {s : State} {c : Instr} (powered : s.powered = true) (timed : c ∈ timedEvents) :
    (s.takeDue c).powered = true ∧ (s.restart = none → (s.takeDue c).restart = none) := by
  have on : s.restartFirst.powered = true := by rw [State.powered_restartFirst, powered]
  unfold State.takeDue
  split
  · obtain ⟨e, row⟩ := rowOf_timedEvent timed
    rw [State.after_eq_run, row]
    obtain ⟨-, power, restart⟩ := Row.run_main_ends e on
    exact ⟨power, fun none => restart (restartFirst_restart_none (restartFirst_restart_none none))⟩
  · exact ⟨on, restartFirst_restart_none⟩

/-- All that is due, taken. -/
theorem foldl_takeDue_ends {l : List Instr} {s : State} (powered : s.powered = true) (timed : ∀ c ∈ l, c ∈ timedEvents)
    (h : s.CompleteBut l) :
    (l.foldl State.takeDue s).eventsComplete = true ∧ (l.foldl State.takeDue s).powered = true ∧
      (s.restart = none → (l.foldl State.takeDue s).restart = none) := by
  induction l generalizing s with
  | nil =>
    refine ⟨?_, powered, id⟩
    obtain complete | none := h
    · exact complete
    · exact State.eventsComplete_of_cannotStart fun p =>
        Bool.eq_false_of_not_eq_true fun start => List.not_mem_nil (none p start)
  | cons c l ih =>
    have first := timed c (List.mem_cons_self ..)
    obtain ⟨on, restart⟩ := State.takeDue_powered_restart powered first
    obtain ⟨complete, power, rest⟩ := ih on (fun x mem => timed x (List.mem_cons_of_mem c mem))
      (State.takeDue_completeBut powered first h)
    exact ⟨complete, power, rest ∘ restart⟩

theorem startTransmission_mem_timedEvents (p : Port) : Instr.startTransmission p ∈ timedEvents :=
  (mem_timedEvents _).mpr (.inl ⟨p, by simp⟩)

/-- The crystal moves on, with a second tick or without. -/
theorem State.crystalClock_cases (s : State) :
    (s.crystalClock.ports = s.ports ∧ s.crystalClock.restart = s.restart ∧ s.crystalClock.powered = s.powered) ∨
      s.crystalClock = Row.secondTick.run { s with crystalCount := 0 } := by
  unfold State.crystalClock
  split
  · exact .inl ⟨rfl, rfl, rfl⟩
  · unfold State.crystalPeriod
    dsimp only
    split
    · exact .inl ⟨rfl, rfl, rfl⟩
    · split
      · exact .inl ⟨rfl, rfl, rfl⟩
      · exact .inr (State.after_eq_run _ _)

/-- A CLK period with main power ends with its events complete. -/
theorem State.tick_ends {s : State} (powered : s.powered = true) : Ends s s.tick := by
  have on : s.restartFirst.clkPass.powered = true := by
    rw [(State.clkPass_changes _).powered, State.powered_restartFirst, powered]
  obtain ⟨complete, power, restart⟩ := foldl_takeDue_ends on (fun _ => id)
    (.inr fun p _ => startTransmission_mem_timedEvents p)
  have taken (absent : s.restartFirst.restart = none) : s.restartFirst.clkPass.takeAllDue.restart = none :=
    restart ((State.clkPass_changes _).restart_none absent)
  change s.restartFirst.clkPass.takeAllDue.eventsComplete = true at complete
  change s.restartFirst.clkPass.takeAllDue.powered = true at power
  rw [State.tick]
  generalize s.restartFirst.clkPass.takeAllDue = t at complete power taken
  obtain ⟨ports, same, still⟩ | ticked := t.crystalClock_cases
  · exact ⟨State.eventsComplete_of_ports ports same complete, still.trans power, fun none => same.trans (taken none)⟩
  · obtain ⟨complete, power, restart⟩ := Row.run_secondTick_ends (s := { t with crystalCount := 0 }) power
    rw [ticked]
    exact ⟨complete, power, fun none => restart (restartFirst_restart_none (taken none))⟩

/-- Without main power a CLK period moves the crystal alone. -/
theorem State.tick_unpowered {s : State} (off : s.powered = false) : s.tick = s.crystalClock := by
  have unmoved : timedEvents.foldl State.takeDue s = s := by
    refine foldl_fixed fun c timed => ?_
    obtain ⟨e, row⟩ := rowOf_timedEvent timed
    have same : s.after c = s := by
      rw [State.after_eq_run, row, Row.run, if_neg (by rw [off]; decide)]
    rw [State.takeDue, State.restartFirst_of_unpowered off, same, ite_self]
  rw [State.tick, State.restartFirst_of_unpowered off, State.clkPass, if_neg (by rw [off]; decide), State.takeAllDue, unmoved]

theorem State.tick_leaves {s : State} (range : s.paramsInRange = true) (dark : s.darkUnpowered = true) :
    Leaves s s.tick := by
  obtain on | ⟨off, -⟩ := State.dark_cases dark
  · exact (State.tick_ends on).leaves dark
  · rw [State.tick_unpowered off]
    obtain ⟨ports, restart, still⟩ | ticked := s.crystalClock_cases
    · exact .of_unpowered dark off (State.dark_of_same ports restart still dark) (still.trans off)
    · rw [ticked]
      obtain ⟨complete, after, taken⟩ := Row.run_leaves (s := { s with crystalCount := 0 }) range dark .secondTick
      exact ⟨complete, after, taken⟩

/-! ### O7 -/

/-- Settles O7: a row or a CLK period leaves what the statement says of the last event. -/
theorem stepsKeepEventsComplete : Obligations.StepsKeepEventsComplete := by
  intro s t range dark stepped
  suffices leaves : Leaves s t from ⟨leaves.complete, leaves.dark, leaves.taken⟩
  unfold step at stepped
  split at stepped
  · rename_i c rest _
    rw [exec_eq_run] at stepped
    injection stepped with stepped
    obtain ⟨complete, after, taken⟩ := Row.run_leaves (s := { s with pending := rest }) range dark (rowOf c)
    rw [← stepped]
    exact ⟨complete, after, taken⟩
  · injection stepped with stepped
    rw [← stepped]
    exact State.tick_leaves range dark

end Sys2Proof.Machine
end

