-- ==== Sys2Proof/Proofs/Purges.lean ====
section
/-! SUPPORT. A port that leaves service: its queue emptied entry by entry, the OPEN transactions that rely on it closed, and
what neither touches. -/

namespace Sys2Proof.Machine

/-! ### What reports leave alone -/

theorem TxEntry.Fades.refl (e : TxEntry) : e.Fades e := .inl rfl

theorem TxEntry.Fades.trans {a b c : TxEntry} (h : a.Fades b) (k : b.Fades c) : a.Fades c := by
  obtain rfl | rfl | ⟨core, n, m, d, rfl, rfl⟩ := h
  · exact k
  · obtain rfl | rfl | ⟨core, n, m, d, none, -⟩ := k
    · exact .inr (.inl rfl)
    · exact .inr (.inl rfl)
    · exact TxEntry.noConfusion none
  · obtain rfl | rfl | ⟨core', n', m', d', same, rfl⟩ := k
    · exact .inr (.inr ⟨core, n, m, d, rfl, rfl⟩)
    · exact .inr (.inl rfl)
    · injection same with same _ deadline
      subst same deadline
      exact .inr (.inr ⟨core, n, m', d, rfl, rfl⟩)

/-- What a fading entry still OPEN is: the exchange it was, with the deadline it had. -/
theorem TxEntry.Fades.opened {a b : TxEntry} (h : a.Fades b) {core : TxCore} {n : Nat} {d : Option Deadline}
    (entry : b = .opened core n d) : ∃ m, a = .opened core m d := by
  obtain rfl | rfl | ⟨core', k, m, d', before, rfl⟩ := h
  · exact ⟨n, entry⟩
  · exact TxEntry.noConfusion entry
  · injection entry with same _ deadline
    subst same deadline
    exact ⟨k, before⟩

/-- What a purge, a withdrawal and the reports they make consist of. -/
inductive PurgeMove (s : State) : State → Prop
  | report {t : State} (h : ReportMove s t) : PurgeMove s t
  | queue (p : Port) (q : List QueueEntry) : PurgeMove s (s.setQueue p q)
  | told (e : QueueEntry) : PurgeMove s (s.toldDeparture e)

/-- A chain of them. -/
abbrev Purging : State → State → Prop := Relation.ReflTransGen PurgeMove

theorem Reporting.purging {s t : State} (h : Reporting s t) : Purging s t := by
  induction h with
  | refl => exact .refl
  | tail _ move ih => exact ih.tail (.report move)

theorem foldl_purging {α : Type} {f : State → α → State} (h : ∀ s a, Purging s (f s a)) (l : List α) (s : State) :
    Purging s (l.foldl f s) := by
  induction l generalizing s with
  | nil => exact .refl
  | cons a l ih => exact (h s a).trans (ih (f s a))

theorem ReportMove.pendingAlerts_restart {s t : State} (h : ReportMove s t) :
    t.pendingAlerts = s.pendingAlerts ∧ t.restart = s.restart := by
  cases h <;> exact ⟨rfl, rfl⟩

theorem Reporting.restart {s t : State} (h : Reporting s t) : t.restart = s.restart := by
  induction h with
  | refl => rfl
  | tail _ move ih => exact move.pendingAlerts_restart.2.trans ih

theorem Reporting.pendingAlerts {s t : State} (h : Reporting s t) : t.pendingAlerts = s.pendingAlerts := by
  induction h with
  | refl => rfl
  | tail _ move ih => exact move.pendingAlerts_restart.1.trans ih

theorem ReportMove.fades {s t : State} (h : ReportMove s t) (i : TxIx) : (s.tx i).Fades (t.tx i) := by
  cases h with
  | fade j e fades =>
    rw [State.tx_setTx]
    split
    · rename_i same
      exact same ▸ fades
    · exact .refl _
  | _ => exact .refl _

/-- The word of a departure makes a pending restart due, or nothing (R55, R179). -/
theorem State.toldDeparture_eq (s : State) (e : QueueEntry) :
    s.toldDeparture e = { s with restart := (s.toldDeparture e).restart } := by
  unfold State.toldDeparture
  split
  · split <;> rfl
  all_goals rfl

theorem PurgeMove.fades {s t : State} (h : PurgeMove s t) (i : TxIx) : (s.tx i).Fades (t.tx i) := by
  cases h with
  | report h => exact h.fades i
  | queue p q => exact .refl _
  | told e =>
    rw [State.toldDeparture_eq]
    exact .refl _

theorem Purging.fades {s t : State} (h : Purging s t) (i : TxIx) : (s.tx i).Fades (t.tx i) := by
  induction h with
  | refl => exact .refl _
  | tail _ move ih => exact ih.trans (move.fades i)

theorem Purging.pendingAlerts {s t : State} (h : Purging s t) : t.pendingAlerts = s.pendingAlerts := by
  induction h with
  | refl => rfl
  | tail _ move ih =>
    refine Eq.trans ?_ ih
    cases move with
    | report h => exact h.pendingAlerts_restart.1
    | queue p q => rfl
    | told e => rw [State.toldDeparture_eq]

/-- A restart that has fallen due stays so. -/
theorem Purging.due {s t : State} (h : Purging s t) {k : RestartKind} {b : BufferIx}
    (due : s.restart = some ⟨k, b, true⟩) : t.restart = some ⟨k, b, true⟩ := by
  induction h with
  | refl => exact due
  | tail _ move ih =>
    cases move with
    | report h => exact h.pendingAlerts_restart.2.trans ih
    | queue p q => exact ih
    | told e =>
      unfold State.toldDeparture
      split
      · rename_i r pending _
        rw [ih] at pending
        injection pending with pending
        subst pending
        split
        · rfl
        · exact ih
      all_goals exact ih

/-! ### One removal -/

section Remove

variable (s : State) (p : Port) (e : QueueEntry)

/-- A removal as UNREACHABLE up to the word to the Management Unit: what it counts and reports. -/
def State.removed : State :=
  match e.link with
  | some t => (((s.dequeue p e).release e.buffer).countPort p .unreachable).reportRemoved t .contained
  | none => ((s.dequeue p e).release e.buffer).countPort p .unreachable

theorem State.remove_unreachable : s.remove p e .unreachable = (s.removed p e).toldDeparture e := by
  unfold State.remove State.removed
  cases e.link <;> rfl

theorem State.removed_reporting : Reporting (s.dequeue p e) (s.removed p e) := by
  have counted := (State.release_reporting (s.dequeue p e) e.buffer).trans
    (State.countPort_reporting _ p (c := .unreachable) (by decide))
  unfold State.removed
  split
  · exact counted.trans (State.reportRemoved_reporting _ _ _)
  · exact counted

theorem State.remove_unreachable_purging : Purging s (s.remove p e .unreachable) := by
  rw [State.remove_unreachable]
  have left : Purging s (s.dequeue p e) := .single (.queue p _)
  exact (left.trans (s.removed_reporting p e).purging).tail (.told e)

theorem State.remove_withdrawn_purging : Purging s (s.remove p e .withdrawn) := by
  have left : Purging s (s.dequeue p e) := .single (.queue p _)
  have released := left.trans (State.release_reporting (s.dequeue p e) e.buffer).purging
  unfold State.remove
  cases e.link <;> exact released.tail (.told e)

/-- A report touches no queue of a port out of service. -/
theorem ReportMove.queue_outOfService {s t : State} (h : ReportMove s t) {p : Port}
    (out : (s.port p).state.outOfService = true) : (t.port p).queue = (s.port p).queue := by
  have other {q : Port} (service : (s.port q).state.outOfService = false) : p ≠ q := fun e => by
    rw [← e, out] at service
    exact Bool.noConfusion service
  cases h with
  | countPort q c =>
    rw [State.countPort_eq, State.port_updPort]
    split
    · rename_i e
      rw [e]
      rfl
    · rfl
  | enqueue q n service =>
    have same : (s.enqueue q n).port p = s.port p := State.port_updPort_ne s (other service) fun u =>
      { u with queue := insertEntry ⟨n.buffer, n.rank, s.nextStamp, 0, false, n.origin, n.link, none⟩ (s.queue q) }
    rw [same]
  | dequeue q e service => exact congrArg PortUnit.queue (State.port_updPort_ne s (other service) _)
  | _ => rfl

theorem Reporting.queue_outOfService {s t : State} (h : Reporting s t) {p : Port}
    (out : (s.port p).state.outOfService = true) : (t.port p).queue = (s.port p).queue := by
  induction h with
  | refl => rfl
  | tail before move ih =>
    have state := before |> Reporting.moves |>.state p
    exact (move.queue_outOfService (by rw [state, out])).trans ih

theorem State.port_toldDeparture (q : Port) : (s.toldDeparture e).port q = s.port q := by
  rw [State.toldDeparture_eq]
  rfl

/-- A removal from a queue out of service takes that entry and no other. -/
theorem State.queue_remove_unreachable (out : (s.port p).state.outOfService = true) :
    ((s.remove p e .unreachable).port p).queue = (s.port p).queue.filter fun x => x.stamp != e.stamp := by
  have port : (s.dequeue p e).port p = { s.port p with queue := (s.queue p).filter fun x => x.stamp != e.stamp } := by
    rw [State.dequeue, State.setQueue, State.port_updPort_self]
  rw [State.remove_unreachable, State.port_toldDeparture,
    (s.removed_reporting p e).queue_outOfService (by rw [port, out]), port]
  rfl

theorem State.outOfService_remove (c : RemovalCause) (q : Port) :
    ((s.remove p e c).port q).state.outOfService = (s.port q).state.outOfService :=
  (s.remove_traffic p e c).outOfService q

end Remove

/-! ### The purge of a port out of service -/

/-- The entries of a queue removed as UNREACHABLE, in queue order. -/
def State.purged (s : State) (p : Port) : State := (s.queue p).foldl (fun t e => t.remove p e .unreachable) s

section Purge

variable {p : Port}

/-- The purge of a queue out of service, and the purge entry by entry, empty it alike. -/
theorem removeAll_eq_foldl (q : List QueueEntry) {s : State} (out : (s.port p).state.outOfService = true)
    (queue : (s.port p).queue = q) (stamps : (q.map (·.stamp)).Nodup) :
    removeAll p (fun _ => true) .unreachable q.length s = q.foldl (fun t e => t.remove p e .unreachable) s ∧
      ((q.foldl (fun t e => t.remove p e .unreachable) s).port p).queue = [] := by
  induction q generalizing s with
  | nil => exact ⟨rfl, queue⟩
  | cons e rest ih =>
    rw [List.map_cons, List.nodup_cons] at stamps
    obtain ⟨apart, stamps⟩ := stamps
    have left : ((s.remove p e .unreachable).port p).queue = rest := by
      rw [s.queue_remove_unreachable p e out, queue, List.filter_cons_of_neg (by simp)]
      exact List.filter_eq_self.mpr fun x mem => bne_iff_ne.mpr fun same =>
        apart (same ▸ List.mem_map_of_mem mem)
    have first : (s.queue p).find? (fun _ => true) = some e := by
      rw [State.queue, queue]
      rfl
    rw [List.length_cons, removeAll, first]
    exact ih (by rw [s.outOfService_remove, out]) left stamps

theorem State.purgeUnreachable_eq {s : State} (out : (s.port p).state.outOfService = true)
    (stamped : Stamped s.nextStamp (s.port p).queue) :
    s.purgeUnreachable p = s.purged p ∧ ((s.purged p).port p).queue = [] :=
  removeAll_eq_foldl (s.queue p) out rfl stamped.stamps

theorem State.purged_purging (s : State) : Purging s (s.purged p) :=
  foldl_purging (fun t e => t.remove_unreachable_purging p e) _ s

theorem State.purged_traffic (s : State) : Traffic s (s.purged p) :=
  foldl_traffic _ (fun t e => t.remove_traffic p e .unreachable) _ s

/-! ### UNREACHABLE, with no transaction OPEN -/

/-- No entry of the Transaction Table is OPEN. -/
def State.NoneOpen (s : State) : Prop := ∀ i, (s.tx i).isOpen = false

theorem State.dropCopy_of_noneOpen {s : State} (none : s.NoneOpen) (i : TxIx) : s.dropCopy i = (Option.none, s) := by
  have entry := none i
  unfold State.dropCopy
  split
  · rename_i opened
    rw [opened] at entry
    exact Bool.noConfusion entry
  · rename_i opened
    rw [opened] at entry
    exact Bool.noConfusion entry
  all_goals rfl

theorem State.reportRemoved_of_noneOpen {s : State} (none : s.NoneOpen) (i : TxIx) (loss : CopyLoss) :
    s.reportRemoved i loss = s := by
  rw [State.reportRemoved, copyRemoved, State.dropCopy_of_noneOpen none]

theorem State.release_transactions (s : State) (b : BufferIx) : (s.release b).transactions = s.transactions := by
  unfold State.release
  split
  · split <;> rfl
  all_goals rfl

/-- With no transaction OPEN a removal reports nothing. -/
theorem State.removed_of_noneOpen {s : State} (none : s.NoneOpen) (p : Port) (e : QueueEntry) :
    s.removed p e = ((s.dequeue p e).release e.buffer).countPort p .unreachable := by
  unfold State.removed
  split
  · refine State.reportRemoved_of_noneOpen (fun i => ?_) _ _
    have same : (((s.dequeue p e).release e.buffer).countPort p .unreachable).tx i = s.tx i := by
      rw [State.tx, State.countPort_transactions, State.release_transactions]
      rfl
    rw [same, none i]
  · rfl

theorem State.remove_of_noneOpen {s : State} (none : s.NoneOpen) (p : Port) (e : QueueEntry) :
    (s.remove p e .unreachable).NoneOpen ∧
      (s.remove p e .unreachable).portCounter p .unreachable = s.portCounter p .unreachable + 1 ∧
      ((s.remove p e .unreachable).port p).queue = (s.port p).queue.filter fun x => x.stamp != e.stamp := by
  have released : ((s.dequeue p e).release e.buffer).port p = (s.dequeue p e).port p := by
    rw [State.port, State.port, State.release_ports]
  have port : (s.remove p e .unreachable).port p =
      { (s.port p).counted .unreachable with queue := (s.queue p).filter fun x => x.stamp != e.stamp } := by
    rw [State.remove_unreachable, State.port_toldDeparture, State.removed_of_noneOpen none, State.countPort_eq,
      State.port_updPort_self, released, State.dequeue, State.setQueue, State.port_updPort_self]
    rfl
  refine ⟨fun i => ?_, ?_, ?_⟩
  · have same : (s.remove p e .unreachable).tx i = s.tx i := by
      rw [State.remove_unreachable, State.toldDeparture_eq, State.removed_of_noneOpen none]
      rw [State.tx, State.countPort_transactions, State.release_transactions]
      rfl
    rw [same, none i]
  · rw [State.portCounter, port]
    exact get_set _ _ _ _ |>.trans (if_pos rfl)
  · rw [port]
    rfl

theorem foldl_remove_of_noneOpen (q : List QueueEntry) {s : State} (none : s.NoneOpen) :
    (q.foldl (fun t e => t.remove p e .unreachable) s).NoneOpen ∧
      (q.foldl (fun t e => t.remove p e .unreachable) s).portCounter p .unreachable =
        s.portCounter p .unreachable + BitVec.ofNat 32 q.length := by
  induction q generalizing s with
  | nil => exact ⟨none, by simp⟩
  | cons e rest ih =>
    obtain ⟨still, counted, -⟩ := State.remove_of_noneOpen none p e
    obtain ⟨open', count⟩ := ih still
    refine ⟨open', ?_⟩
    rw [List.foldl_cons, count, counted, List.length_cons, BitVec.ofNat_add]
    ac_rfl

/-- The OPEN entries of a table are handled alone (R125). -/
theorem State.portLeft_of_noneOpen {s : State} (none : s.NoneOpen) (p : Port) : s.portLeft p = s := by
  refine foldl_fixed fun i _ => ?_
  have entry := none i
  unfold State.closeFor
  split
  · rename_i opened
    rw [opened] at entry
    exact Bool.noConfusion entry
  all_goals rfl

/-! ### A purged RESTART result (R55, R179) -/

theorem State.restart_remove_unreachable (s : State) (e : QueueEntry) {r : Restart} (pending : s.restart = some r) :
    (s.remove p e .unreachable).restart = some ⟨r.kind, r.buffer, r.due || (e.origin == .generated && r.buffer == e.buffer)⟩ := by
  obtain ⟨k, b, due⟩ := r
  have before : (s.removed p e).restart = some ⟨k, b, due⟩ := ((s.removed_reporting p e).restart).trans pending
  rw [State.remove_unreachable, State.toldDeparture, before]
  cases e.origin with
  | forwarded =>
    have other : (Origin.forwarded == Origin.generated) = false := rfl
    simp [before, other]
  | generated =>
    by_cases same : b = e.buffer
    · simp [same]
    · simp [same, before, beq_eq_false_iff_ne.mpr same]

theorem restart_foldl_remove (q : List QueueEntry) {s : State} {r : Restart} (pending : s.restart = some r)
    (awaited : ∃ e ∈ q, e.origin = .generated ∧ e.buffer = r.buffer) :
    (q.foldl (fun t e => t.remove p e .unreachable) s).restart = some ⟨r.kind, r.buffer, true⟩ := by
  induction q generalizing s r with
  | nil =>
    obtain ⟨e, mem, -⟩ := awaited
    exact absurd mem List.not_mem_nil
  | cons e rest ih =>
    have after := s.restart_remove_unreachable (p := p) e pending
    obtain ⟨x, mem, generated, buffer⟩ := awaited
    obtain rfl | later := List.mem_cons.mp mem
    · rw [generated, buffer] at after
      have due : (s.remove p x .unreachable).restart = some ⟨r.kind, r.buffer, true⟩ := by simpa using after
      exact Purging.due (foldl_purging (fun t e => t.remove_unreachable_purging p e) rest _) due
    · obtain ⟨due, after⟩ : ∃ due, (s.remove p e .unreachable).restart = some ⟨r.kind, r.buffer, due⟩ := ⟨_, after⟩
      exact ih (r := ⟨r.kind, r.buffer, due⟩) after ⟨x, later, generated, buffer⟩

end Purge

/-! ### The OPEN entries that rely on a port (R125) -/

section Rely

theorem removeAll_withdrawn_purging (p : Port) (doomed : QueueEntry → Bool) (n : Nat) (s : State) :
    Purging s (removeAll p doomed .withdrawn n s) := by
  induction n generalizing s with
  | zero => exact .refl
  | succ n ih =>
    unfold removeAll
    split
    · exact (s.remove_withdrawn_purging p _).trans (ih _)
    · exact .refl

theorem State.withdraw_purging (s : State) (t : TxIx) : Purging s (s.withdraw t) :=
  foldl_purging (fun _ p => Relation.ReflTransGen.head (.queue p _) (removeAll_withdrawn_purging p _ _ _)) _ s

/-- An entry OPEN on port `p`: its requester is there, or its responder or its deadline with the deadline running. -/
def TxEntry.ReliesOn (p : Port) (e : TxEntry) : Prop :=
  ∃ core n d, e = .opened core n d ∧
    (core.requesterSegment = p ∨ ∃ x, d = some x ∧ (core.responderSegment = some p ∨ x.segment = p))

/-- A fading entry comes to rely on no port. -/
theorem TxEntry.ReliesOn.of_fades {p : Port} {a b : TxEntry} (relies : b.ReliesOn p) (h : a.Fades b) : a.ReliesOn p := by
  obtain ⟨core, n, d, entry, on⟩ := relies
  obtain ⟨m, before⟩ := h.opened entry
  exact ⟨core, m, d, before, on⟩

theorem TxEntry.not_reliesOn_free (p : Port) : ¬ TxEntry.free.ReliesOn p := fun ⟨_, _, _, entry, _⟩ =>
  TxEntry.noConfusion entry

variable (s : State) (p : Port) (i : TxIx)

/-- The entry freed: a fading. -/
theorem State.freed_purging : Purging s ((s.withdraw i).setTx i .free) :=
  (s.withdraw_purging i).tail (.report (.fade i .free (.inr (.inl rfl))))

theorem State.closeFor_purging : Purging s (s.closeFor p i) := by
  unfold State.closeFor
  split
  · split
    · exact s.freed_purging i
    · split
      · split
        · exact (s.freed_purging i).trans (State.notify_reporting _ _ _ _).purging
        · exact .refl
      · exact .refl
  all_goals exact .refl

theorem State.portLeft_purging : Purging s (s.portLeft p) := foldl_purging (fun s t => s.closeFor_purging p t) _ s

/-- An entry that has been handled relies on the port no longer. -/
theorem State.not_reliesOn_closeFor : ¬ ((s.closeFor p i).tx i).ReliesOn p := by
  have free : ((s.withdraw i).setTx i .free).tx i = .free := by rw [State.tx_setTx, if_pos rfl]
  unfold State.closeFor
  split
  · rename_i core n d entry
    split
    · rw [free]
      exact TxEntry.not_reliesOn_free p
    · rename_i requester
      split
      · rename_i x
        split
        · intro relies
          have before := relies.of_fades ((State.notify_reporting _ _ _ _).purging.fades i)
          rw [free] at before
          exact TxEntry.not_reliesOn_free p before
        · rename_i elsewhere
          rintro ⟨core', n', d', same, on⟩
          rw [entry] at same
          injection same with sameCore _ sameDeadline
          subst sameCore sameDeadline
          obtain there | ⟨y, running, there⟩ := on
          · exact requester there
          · injection running with running
            subst running
            exact elsewhere there
      · rintro ⟨core', n', d', same, on⟩
        rw [entry] at same
        injection same with sameCore _ sameDeadline
        subst sameCore sameDeadline
        obtain there | ⟨y, running, -⟩ := on
        · exact requester there
        · exact absurd running (Option.some_ne_none y).symm
  all_goals
    rename_i entry
    rintro ⟨core, n, d, same, -⟩
    rw [entry] at same
    exact TxEntry.noConfusion same

/-- No entry relies on a port that has left service. -/
theorem State.not_reliesOn_portLeft : ¬ ((s.portLeft p).tx i).ReliesOn p := by
  have each (l : List TxIx) (t : State) (handled : i ∈ l) : ¬ ((l.foldl (fun s t => s.closeFor p t) t).tx i).ReliesOn p := by
    induction l generalizing t with
    | nil => exact absurd handled List.not_mem_nil
    | cons j l ih =>
      rw [List.foldl_cons]
      obtain rfl | later := List.mem_cons.mp handled
      · exact fun relies => t.not_reliesOn_closeFor p i
          (relies.of_fades ((foldl_purging (fun s t => s.closeFor_purging p t) l _).fades i))
      · exact ih _ later
  exact each allTx s (List.mem_finRange i)

end Rely

end Sys2Proof.Machine
end

