-- ==== Sys2Proof/Proofs/Containment.lean ====
section
/-! PROOFS. A containment: the port isolated, its queue purged, the transactions that rely on it closed, the alert raised. -/

namespace Sys2Proof.Machine

/-! ### The alert (R189 to R192) -/

/-- A cause raised is pending, and so is what was (R189, R190). -/
theorem State.pendingAlerts_raise (s : State) (c : AlertCause) :
    (s.raise c).pendingAlerts = s.pendingAlerts ||| c.mask := by
  have noticed (t : State) : (t.alertNotice c).pendingAlerts = t.pendingAlerts :=
    (t.alertNotice_reporting c).pendingAlerts
  have already (h : s.pendingAlerts &&& c.mask ≠ 0) : s.pendingAlerts = s.pendingAlerts ||| c.mask := by
    revert h
    generalize s.pendingAlerts = pending
    cases c <;> revert pending <;> decide
  unfold State.raise
  dsimp only
  split
  · rename_i pending
    exact already (bne_iff_ne.mp pending)
  · split
    · rfl
    · rw [noticed]
      split <;> rfl

/-- Raising a cause makes no transaction OPEN and takes no restart back. -/
theorem State.raise_purging_cases (s : State) (c : AlertCause) :
    ∃ t : State, t.transactions = s.transactions ∧ t.restart = s.restart ∧ t.ports = s.ports ∧ Purging t (s.raise c) ∧
      (s.params.alertRecipient = 0 → s.raise c = t) := by
  have none (t : State) (recipient : t.params.alertRecipient = 0) : t.alertNotice c = t := if_pos recipient
  have noticed (t : State) (transactions : t.transactions = s.transactions) (restart : t.restart = s.restart)
      (ports : t.ports = s.ports) (params : t.params = s.params) :
      ∃ u : State, u.transactions = s.transactions ∧ u.restart = s.restart ∧ u.ports = s.ports ∧
        Purging u (t.alertNotice c) ∧ (s.params.alertRecipient = 0 → t.alertNotice c = u) :=
    ⟨t, transactions, restart, ports, (t.alertNotice_reporting c).purging, fun recipient => none t (by rw [params, recipient])⟩
  unfold State.raise
  dsimp only
  split
  · exact ⟨s, rfl, rfl, rfl, .refl, fun _ => rfl⟩
  · split
    · exact ⟨{ s with pendingAlerts := s.pendingAlerts ||| c.mask }, rfl, rfl, rfl, .refl, fun _ => rfl⟩
    · refine noticed _ ?_ ?_ ?_ ?_ <;> split <;> rfl

/-! ### One counter -/

section Counted

variable (s : State) (p : Port) (c : PortCounter)

theorem PortUnit.counted_state (u : PortUnit) : (u.counted c).state = u.state := rfl

theorem PortUnit.counted_queue (u : PortUnit) : (u.counted c).queue = u.queue := rfl

theorem State.port_countPort_self : (s.countPort p c).port p = (s.port p).counted c := by
  rw [State.countPort_eq, State.port_updPort_self]

theorem State.tx_countPort (i : TxIx) : (s.countPort p c).tx i = s.tx i := rfl

end Counted

/-! ### The port isolated -/

/-- What a containment finds of its port (R31): the reception discarded, the port contained, its line ignored. -/
def State.isolated (s : State) (p : Port) : State :=
  (s.discardReception p).leaveService p (.contained (s.port p).params.containPeriod)

section Isolated

variable (s : State) (p : Port)

theorem State.discardReception_eq :
    s.discardReception p = { s with pool := (s.discardReception p).pool, freeList := (s.discardReception p).freeList } := by
  unfold State.discardReception
  split <;> rfl

theorem State.port_isolated :
    (s.isolated p).port p =
      { s.port p with state := .contained (s.port p).params.containPeriod, line := (s.port p).line.ignored } := by
  have same : (s.discardReception p).port p = s.port p := by rw [State.discardReception_eq]; rfl
  rw [State.isolated, State.leaveService, State.port_updPort_self, same]

/-- An isolated port is all that an isolation changes, buffers apart. -/
theorem State.isolated_eq :
    s.isolated p =
      { s with ports := (s.isolated p).ports, pool := (s.isolated p).pool, freeList := (s.isolated p).freeList } := by
  rw [State.isolated, State.discardReception_eq]
  rfl

end Isolated

section Contained

variable {s : State} {p : Port}

/-- A containment removes the entries one by one, closes the OPEN transactions, counts and raises (R31). -/
theorem State.contain_eq (stamped : Stamped s.nextStamp (s.port p).queue) :
    s.contain p = ((((s.isolated p).purged p).portLeft p).countPort p .containments).raise .containment ∧
      (((s.isolated p).purged p).port p).queue = [] := by
  have out : ((s.isolated p).port p).state.outOfService = true := by rw [State.port_isolated]; rfl
  have there : Stamped (s.isolated p).nextStamp ((s.isolated p).port p).queue := by
    rw [State.port_isolated, State.isolated_eq]
    exact stamped
  obtain ⟨purge, empty⟩ := State.purgeUnreachable_eq out there
  exact ⟨by rw [State.contain, ← State.isolated, purge], empty⟩

theorem State.queue_isolated : (s.isolated p).queue p = s.queue p := by rw [State.queue, State.port_isolated, State.queue]

/-- What the purge and the Transaction Table leave, before the containment is counted and its cause raised. -/
theorem State.left_purging : Purging (s.isolated p) (((s.isolated p).purged p).portLeft p) :=
  (State.purged_purging _).trans (State.portLeft_purging _ p)

theorem State.left_traffic : Traffic (s.isolated p) (((s.isolated p).purged p).portLeft p) :=
  (State.purged_traffic _).trans (State.portLeft_traffic _ p)

/-- Traffic before the containment is counted, and after (R31). -/
theorem State.contain_around (stamped : Stamped s.nextStamp (s.port p).queue) :
    Traffic (s.isolated p) (((s.isolated p).purged p).portLeft p) ∧
      Traffic ((((s.isolated p).purged p).portLeft p).countPort p .containments) (s.contain p) := by
  rw [(State.contain_eq stamped).1]
  exact ⟨State.left_traffic, State.raise_traffic _ .containment⟩

theorem State.state_contain (stamped : Stamped s.nextStamp (s.port p).queue) :
    ((s.contain p).port p).state = .contained (s.port p).params.containPeriod := by
  obtain ⟨before, after⟩ := State.contain_around stamped
  rw [(after.ports p).state, State.port_countPort_self, PortUnit.counted_state, (before.ports p).state,
    State.port_isolated]

theorem State.queue_contain (stamped : Stamped s.nextStamp (s.port p).queue) : ((s.contain p).port p).queue = [] := by
  obtain ⟨same, empty⟩ := State.contain_eq stamped
  have out : (((s.isolated p).purged p).port p).state.outOfService = true := by
    rw [(State.purged_traffic _).outOfService, State.port_isolated]
    rfl
  have left := State.portLeft_traffic ((s.isolated p).purged p) p
  have leftEmpty := (left.ports p).stillEmpty out empty
  rw [same]
  refine ((State.raise_traffic _ .containment).ports p).stillEmpty ?_ ?_
  · rw [State.port_countPort_self, PortUnit.counted_state]
    exact (left.outOfService p).trans out
  · rw [State.port_countPort_self, PortUnit.counted_queue, leftEmpty]

theorem State.containments_contain (stamped : Stamped s.nextStamp (s.port p).queue) :
    (s.contain p).portCounter p .containments = s.portCounter p .containments + 1 := by
  obtain ⟨before, after⟩ := State.contain_around stamped
  have same : ((((s.isolated p).purged p).portLeft p).portCounter p .containments) = s.portCounter p .containments :=
    ((before.ports p).containments).trans (by rw [State.port_isolated]; rfl)
  have counted := State.portCounter_countPort (((s.isolated p).purged p).portLeft p) p p .containments .containments
  rw [if_pos ⟨rfl, rfl⟩, same] at counted
  exact ((after.ports p).containments).trans counted

theorem State.pendingAlerts_contain (stamped : Stamped s.nextStamp (s.port p).queue) :
    (s.contain p).pendingAlerts = s.pendingAlerts ||| 1#7 := by
  rw [(State.contain_eq stamped).1, State.pendingAlerts_raise, State.countPort_pendingAlerts,
    State.left_purging.pendingAlerts, State.isolated_eq]
  rfl

/-- With no transaction OPEN and no alert notice to send, every entry counts once and nothing else does. -/
theorem State.unreachable_contain (stamped : Stamped s.nextStamp (s.port p).queue) (none : s.NoneOpen)
    (recipient : s.params.alertRecipient = 0) :
    (s.contain p).portCounter p .unreachable = s.portCounter p .unreachable + BitVec.ofNat 32 (s.queue p).length := by
  have noneIsolated : (s.isolated p).NoneOpen := by
    rw [State.isolated_eq]
    exact none
  obtain ⟨nonePurged, counted⟩ := foldl_remove_of_noneOpen (p := p) ((s.isolated p).queue p) noneIsolated
  have left : ((s.isolated p).purged p).portLeft p = (s.isolated p).purged p := State.portLeft_of_noneOpen nonePurged p
  have params : (((s.isolated p).purged p).countPort p .containments).params.alertRecipient = 0 := by
    rw [State.countPort_params, (State.purged_traffic _).params, State.isolated_eq]
    exact recipient
  obtain ⟨u, -, -, ports, -, raised⟩ :=
    State.raise_purging_cases (((s.isolated p).purged p).countPort p .containments) .containment
  have there : (s.contain p).portCounter p .unreachable =
      (((s.isolated p).purged p).countPort p .containments).portCounter p .unreachable := by
    rw [(State.contain_eq stamped).1, left, raised params, State.portCounter, State.port, ports]
    rfl
  have isolated : (s.isolated p).portCounter p .unreachable = s.portCounter p .unreachable := by
    rw [State.portCounter, State.port_isolated]
    rfl
  rw [there, State.portCounter_countPort, if_neg fun same => absurd same.2 (by decide), State.purged, counted, isolated, State.queue_isolated]

/-- The purge of an awaited RESTART result makes the restart due (R55, R179). -/
theorem State.restart_contain (stamped : Stamped s.nextStamp (s.port p).queue) {r : Restart}
    (pending : s.restart = some r) (awaited : ∃ e ∈ s.queue p, e.origin = .generated ∧ e.buffer = r.buffer) :
    (s.contain p).restart = some ⟨r.kind, r.buffer, true⟩ := by
  have pendingIsolated : (s.isolated p).restart = some r := by
    rw [State.isolated_eq]
    exact pending
  have due : ((s.isolated p).purged p).restart = some ⟨r.kind, r.buffer, true⟩ :=
    restart_foldl_remove _ pendingIsolated (by rwa [State.queue_isolated])
  obtain ⟨u, -, restart, -, raised, -⟩ :=
    State.raise_purging_cases ((((s.isolated p).purged p).portLeft p).countPort p .containments) .containment
  rw [(State.contain_eq stamped).1]
  rw [State.countPort_restart, (State.portLeft_purging _ p).due due] at restart
  exact raised.due restart

/-- No OPEN transaction relies on a contained port (R125). -/
theorem State.not_reliesOn_contain (stamped : Stamped s.nextStamp (s.port p).queue) (i : TxIx) :
    ¬ ((s.contain p).tx i).ReliesOn p := by
  obtain ⟨u, transactions, -, -, raised, -⟩ :=
    State.raise_purging_cases ((((s.isolated p).purged p).portLeft p).countPort p .containments) .containment
  have same : u.tx i = (((s.isolated p).purged p).portLeft p).tx i := by
    rw [State.tx, transactions]
    exact State.tx_countPort _ p .containments i
  rw [(State.contain_eq stamped).1]
  exact fun relies => State.not_reliesOn_portLeft _ p i (same ▸ relies.of_fades (raised.fades i))

end Contained

/-- An entry that does not rely on a port, in the words of R125. -/
theorem TxEntry.not_reliesOn {p : Port} {e : TxEntry} (h : ¬ e.ReliesOn p) {c : TxCore} {n : Nat} {d : Option Deadline}
    (entry : e = .opened c n d) :
    c.requesterSegment ≠ p ∧ ∀ x, d = some x → c.responderSegment ≠ some p ∧ x.segment ≠ p :=
  ⟨fun there => h ⟨c, n, d, entry, .inl there⟩, fun x running =>
    ⟨fun there => h ⟨c, n, d, entry, .inr ⟨x, running, .inl there⟩⟩,
      fun there => h ⟨c, n, d, entry, .inr ⟨x, running, .inr there⟩⟩⟩⟩

/-- The end of an event leaves a port that does not listen as it is. -/
theorem State.port_settle_of_state {s : State} {p : Port} (state : (s.port p).state ≠ .listen) :
    s.settle.port p = s.port p := by
  cases due : s.restart.any fun r => r.due with
  | true => rw [State.settle_of_due due]
  | false => rw [State.port_settle due, PortUnit.started_of_cannotStart (PortUnit.canStart_of_state state)]

/-! ### O39 -/

theorem exec_containment (p : Port) (s : State) :
    exec (.containment p) s = event (fun s => if (s.port p).state.monitored then s.contain p else s) s := rfl

/-- Settles O39: the port isolated, purged entry by entry and left by its transactions, and the end of the event. -/
theorem containmentIsolatesThePort : Obligations.ContainmentIsolatesThePort := by
  refine ⟨fun s p powered quiescent => ⟨fun monitored sound => ?_, fun still => ?_⟩, fun s p sound => ?_,
    fun l => by cases l <;> rfl, fun _ _ => rfl, fun s p i => ⟨fun entry => ?_, fun c m g entry => ?_,
      fun c n d entry => ⟨fun there => ?_, fun elsewhere => ⟨fun none => ?_, fun x running => ⟨fun relies => ?_,
        fun responder deadline => ?_⟩⟩⟩⟩⟩
  · have stamped := State.stamped_of_queuesSound sound p
    have row : exec (.containment p) s = .next (s.contain p).settle := by
      rw [exec_containment, event_of_quiescent powered quiescent, if_pos monitored]
    have steady := s.contain_steady p
    have port : (s.contain p).settle.port p = (s.contain p).port p := by
      refine State.port_settle_of_state ?_
      rw [State.state_contain stamped]
      exact fun e => PortState.noConfusion e
    refine ⟨row, _, row, by rw [port, State.state_contain stamped], ?_, by rw [port, steady.portParams], ?_, ?_, ?_, ?_,
      fun none recipient => ?_, fun r pending awaited => ?_, fun i c n d entry => ?_⟩
    · rw [State.queue, port, State.queue_contain stamped]
    · rw [State.portCounter, port]
      exact State.containments_contain stamped
    · rw [State.settle_eq]
      exact State.pendingAlerts_contain stamped
    · rw [State.settle_eq]
      exact steady.stations
    · rw [State.settle_eq]
      exact (s.contain_sameClock p).calendar
    · rw [State.portCounter, port]
      exact State.unreachable_contain stamped none recipient
    · rw [State.restart_settle]
      exact State.restart_contain stamped pending awaited
    · rw [State.settle_eq] at entry
      exact TxEntry.not_reliesOn (State.not_reliesOn_contain stamped i) entry
  · rw [exec_containment]
    exact event_unchanged powered quiescent (by rw [still]; rfl)
  · have stamped := State.stamped_of_queuesSound sound p
    intro stopped contained purged
    have isolated : contained = s.isolated p := by
      have discarded : stopped = s.discardReception p := by
        simp only [stopped, State.discardReception]
        cases (s.port p).state <;> rfl
      simp only [contained, discarded, State.isolated, State.leaveService]
      refine State.updPort_congr _ p ?_
      rw [State.discardReception_eq]
      rfl
    rw [(State.contain_eq stamped).1, State.purged, State.queue_isolated, ← isolated]
  · rw [State.closeFor, entry]
  · rw [State.closeFor, entry]
  · rw [State.closeFor, entry]
    exact if_pos there
  · rw [none] at entry
    rw [State.closeFor, entry]
    exact if_neg elsewhere
  · rw [running] at entry
    rw [State.closeFor, entry]
    exact (if_neg elsewhere).trans (if_pos relies)
  · rw [running] at entry
    rw [State.closeFor, entry]
    exact (if_neg elsewhere).trans (if_neg (not_or.mpr ⟨responder, deadline⟩))

end Sys2Proof.Machine
end

