-- ==== Sys2Proof/Proofs/CommandExecution.lean ====
section
/-! SUPPORT. A command from its frame to its answer: learning, the admission of its source, the room for its result, its
execution. -/

namespace Sys2Proof.Machine

/-! ### Learning (R64, R66) -/

theorem State.setStation_station (s : State) (a : Byte) : s.setStation a (s.station a) = s := by
  unfold State.setStation State.station
  cases stationIndex a with
  | none => rfl
  | some i => exact congrArg (fun v => { s with stations := v }) (Vector.set_getElem_self i.isLt)

/-- What learning lets through it learns. -/
theorem State.learn_of_letsThrough {s : State} {p : Port} {a : Byte} (lets : s.letsThrough p a = true) :
    s.learn p a = (.passed, s.heardFrom p a) := by
  rw [State.letsThrough, Bool.and_eq_true, Bool.and_eq_true, bne_iff_ne] at lets
  obtain ⟨⟨-, foreign⟩, state⟩ := lets
  unfold State.learn State.heardFrom StationEntry.heardOn
  rw [if_neg foreign]
  dsimp only
  cases known : (s.station a).state with
  | barred =>
    rw [known] at state
    exact Bool.noConfusion state
  | pinned home =>
    rw [known, beq_iff_eq] at state
    exact (if_pos state).trans (congrArg (Learning.passed, ·) (s.setStation_station a).symm)
  | unknown => rfl
  | learned home age => rfl

section Heard

variable (s : State) (p : Port) (a : Byte)

/-- Learning leaves all but the stations and a coupler counter. -/
theorem State.heardFrom_eq :
    s.heardFrom p a = { s with stations := (s.heardFrom p a).stations, counters := (s.heardFrom p a).counters } := by
  have set (e : StationEntry) : s.setStation a e = { s with stations := (s.setStation a e).stations } := by
    unfold State.setStation
    split <;> rfl
  unfold State.heardFrom
  dsimp only
  rw [set]
  split
  · split <;> rfl
  all_goals rfl

end Heard

/-! ### A command in its frame (R84) -/

section Taken

variable {s u : State} {p : Port} {b : BufferIx} {f : Frame}

/-- An arrival and its learning leave what the Management Unit reads. -/
theorem FrameLearned.keeps {k : Kind} (learned : FrameLearned s k p f b u) :
    u.params = s.params ∧ u.managers = s.managers ∧ u.restart = s.restart ∧ (u.port p).params = (s.port p).params := by
  obtain ⟨-, t, ⟨-, -, rest, -, rfl⟩, rfl⟩ := learned
  rw [State.heardFrom_eq]
  refine ⟨rfl, rfl, rfl, ?_⟩
  change ((s.arrived p b rest (framedChars f k)).port p).params = _
  rw [State.arrived, State.port_updPort_self]
  rfl

/-- A MANAGE frame to the own address that learning lets through is handed to the Management Unit (R84). -/
theorem exec_manage_of_frameLearned (own : f.dest = s.params.ownAddress) (learned : FrameLearned s .manage p f b u) :
    exec (.manage p f) s = .next ((u.manage p (viewOf f .manage)).freeUp b).settle := by
  obtain ⟨lets, t, arrives, rfl⟩ := learned
  have row := frameIsReceivedAndClassified s .manage p f b t arrives
  obtain ⟨-, -, rest, -, rfl⟩ := arrives
  have passed := State.learn_of_letsThrough (s := s.arrived p b rest (framedChars f .manage)) (p := p) (a := f.source) lets
  have toOwn : destClass ((s.arrived p b rest (framedChars f .manage)).heardFrom p f.source).params.ownAddress f.dest =
      .own := by
    rw [State.heardFrom_eq]
    exact if_pos own
  rw [frameRow, State.classify, viewOf, passed] at row
  rw [row]
  dsimp only
  rw [State.classifyLearned, toOwn]
  rfl

end Taken

/-! ### What the Management Unit reads of the managers (R163, R166) -/

section Managers

variable {s t : State} (managers : t.managers = s.managers)
include managers

theorem State.slotHolds_of_managers (a : Byte) : t.slotHolds a = s.slotHolds a := by
  funext i
  rw [State.slotHolds, State.slotHolds, managers]

theorem State.denies_of_managers (a : Byte) : t.denies a = s.denies a := by
  rw [State.denies, State.denies, State.slotHolds_of_managers managers, managers]

theorem State.cachedFor_of_managers (a sequence : Byte) : t.cachedFor a sequence = s.cachedFor a sequence := by
  rw [State.cachedFor, State.cachedFor, State.slotOf, State.slotOf, State.slotHolds_of_managers managers, managers]

end Managers

/-! ### From the Management Unit to execution (R161) -/

section Managed

variable {s u : State} {p : Port} {h : CommandHead} {c : CommandCode} {args : List Byte} {room : BufferIx}

/-- An admitted command with room for its result is judged (R161 to R164). -/
theorem State.manage_of_room {f : FrameView} (accepts : (s.port p).params.mgmtAccept = true)
    (admitted : s.denies f.source = false) (secured : s.generate p [] = (some room, u)) :
    s.manage p f = u.judge p f s.params.ownAddress room := by
  rw [State.manage, if_pos accepts, if_neg (by rw [admitted]; exact Bool.false_ne_true), secured]

theorem commandOf_code (c : CommandCode) : commandOf c.code = some c := by cases c <;> rfl

/-- A fresh command, with no restart pending, is executed and answered (R166, R167). -/
theorem State.judge_of_fresh {own : Byte} (running : u.restart = none)
    (fresh : u.cachedFor h.source h.sequence = none) {r : CommandResult} {t : State}
    (executes : u.executeCommand room args c = (r, t)) :
    u.judge p (viewOf (commandFrame own c h args) .manage) own room =
      ((t.count .mgmtExecuted).storeResult h.source h.sequence (answerPayload h c r)).fillRoom p room
        (generatedChars h.source own h.tag .result (answerPayload h c r)) := by
  have named : requestedCommand (viewOf (commandFrame own c h args) .manage).payload = some c := commandOf_code c
  have none : u.cachedFor (viewOf (commandFrame own c h args) .manage).source
      (headerSequence (viewOf (commandFrame own c h args) .manage).payload) = Option.none := fresh
  have executed : u.executeCommand room ((viewOf (commandFrame own c h args) .manage).payload.drop 2) c = (r, t) := executes
  rw [State.judge, if_neg (by rw [running]; exact Bool.false_ne_true), named]
  dsimp only
  rw [none]
  dsimp only
  rw [State.execute, executed]
  rfl

/-- A command that is taken executes in `u` with its room secured, and ends as R167 has it. -/
theorem CommandTaken.commandEvent {b : BufferIx} (taken : CommandTaken s p h c args b room u) {r : CommandResult}
    {t : State} (executes : u.executeCommand room args c = (r, t)) :
    commandEvent p c h args s = .next (t.commandDone p h c s.params.ownAddress b room r).settle := by
  obtain ⟨admits, v, learned, secured⟩ := taken
  simp only [State.admitsCommand, Bool.and_eq_true, Bool.not_eq_true', Option.isNone_iff_eq_none] at admits
  obtain ⟨⟨⟨accepts, admitted⟩, running⟩, fresh⟩ := admits
  obtain ⟨params, sameManagers, sameRestart, portParams⟩ := learned.keeps
  have reported : Reporting v u := by
    have placed := v.generate_reporting p []
    rwa [show (v.generate p []).2 = u from congrArg Prod.snd secured] at placed
  have managers : u.managers = s.managers := reported.moves.steady.managers.trans sameManagers
  have managed := State.manage_of_room (f := viewOf (commandFrame s.params.ownAddress c h args) .manage)
    (by rw [portParams, accepts]) ((State.denies_of_managers sameManagers h.source).trans admitted) secured
  rw [params, State.judge_of_fresh ((reported.restart.trans sameRestart).trans running)
    ((State.cachedFor_of_managers managers _ _).trans fresh) executes] at managed
  rw [Machine.commandEvent, restartFirst_of_none s running]
  exact (exec_manage_of_frameLearned rfl learned).trans (by rw [managed, State.commandDone])

end Managed

/-- A row that carries a command executes it where the command does. -/
theorem ExecutesWhen.of_commandEvent {cond : State → Prop} {i : Instr} {p : Port} {h : CommandHead} {c : CommandCode}
    {args : List Byte} {r : State → CommandResult} {e : BufferIx → State → State}
    (row : ∀ s, exec i s = commandEvent p c h args s)
    (does : ∀ u room, cond u → u.executeCommand room args c = (r u, e room u)) : ExecutesWhen cond i p h c args r e :=
  ⟨does, fun s _ room u taken there => (row s).trans (taken.commandEvent (does u room there))⟩

end Sys2Proof.Machine
end

