-- ==== Sys2Proof/Proofs/Disabling.lean ====
section
/-! SUPPORT. A port disabled (R33): its reception or transmission stopped, its queue purged, the transactions that rely on it
closed. -/

namespace Sys2Proof.Machine

/-- Moves keep the stamps of a queue apart. -/
theorem Moves.stamped {s t : State} (h : Moves s t) {p : Port} (stamped : Stamped s.nextStamp (s.port p).queue) :
    Stamped t.nextStamp (t.port p).queue := by
  induction h with
  | refl => exact stamped
  | tail _ move ih => exact ih.of_queueMove (move.port p).queue

/-! ### The work of a port stopped -/

/-- What a disable finds of its port (R33): no reception and no transmission in progress. -/
def State.stopped (s : State) (p : Port) : State := (s.discardReception p).abortTransmission p

section Stopped

variable (s : State) (p : Port)

theorem State.state_discardReception : ((s.discardReception p).port p).state = (s.port p).state := by
  rw [State.discardReception_eq]
  rfl

theorem State.queue_discardReception : (s.discardReception p).queue p = s.queue p := by
  rw [State.discardReception_eq]
  rfl

theorem State.stopped_receiving {r : Reception} (state : (s.port p).state = .receiving r) :
    s.stopped p = s.freeUp r.buffer := by
  rw [State.stopped, State.abortTransmission, State.state_discardReception, state]
  dsimp only
  rw [State.discardReception, state]

theorem State.stopped_sending {pos elapsed : Nat} {e : QueueEntry} (state : (s.port p).state = .sending pos elapsed)
    (inTx : inTransmission (s.queue p) = some e) : s.stopped p = s.remove p e .unreachable := by
  rw [State.stopped, State.abortTransmission, State.state_discardReception, State.queue_discardReception, state, inTx]
  dsimp only
  rw [State.discardReception, state]

theorem State.stopped_of_idle (receives : ∀ r, (s.port p).state ≠ .receiving r)
    (sends : ∀ pos elapsed, (s.port p).state = .sending pos elapsed → inTransmission (s.queue p) = none) :
    s.stopped p = s := by
  have discarded : s.discardReception p = s := by
    unfold State.discardReception
    split
    · rename_i r state
      exact absurd state (receives r)
    all_goals rfl
  rw [State.stopped, discarded]
  unfold State.abortTransmission
  split
  · rename_i pos elapsed e state inTx
    rw [sends pos elapsed state] at inTx
    exact absurd inTx (Option.some_ne_none e).symm
  all_goals rfl

/-- The stop of a port frees a buffer, removes an entry of its queue, or does nothing. -/
theorem State.stopped_cases :
    s.stopped p = s ∨ (∃ b, s.stopped p = s.freeUp b) ∨ ∃ e ∈ s.queue p, s.stopped p = s.remove p e .unreachable := by
  cases state : (s.port p).state with
  | receiving r => exact .inr (.inl ⟨_, s.stopped_receiving p state⟩)
  | sending pos elapsed =>
    cases inTx : inTransmission (s.queue p) with
    | some e => exact .inr (.inr ⟨e, List.mem_of_find?_eq_some inTx, s.stopped_sending p state inTx⟩)
    | none => exact .inl (s.stopped_of_idle p (by simp [state]) fun _ _ _ => inTx)
  | _ => exact .inl (s.stopped_of_idle p (by simp [state]) (by simp [state]))

theorem State.stopped_purging : Purging s (s.stopped p) := by
  obtain same | ⟨b, same⟩ | ⟨e, -, same⟩ := s.stopped_cases p <;> rw [same]
  · exact (s.freeUp_reporting b).purging
  · exact s.remove_unreachable_purging p e

theorem State.stopped_traffic : Traffic s (s.stopped p) := by
  obtain same | ⟨b, same⟩ | ⟨e, -, same⟩ := s.stopped_cases p <;> rw [same]
  · exact .refl s
  · exact s.freeUp_traffic b
  · exact s.remove_traffic p e .unreachable

end Stopped

section Disabled

variable {s : State} {p : Port}

theorem State.stopped_stamped (stamped : Stamped s.nextStamp (s.port p).queue) :
    Stamped (s.stopped p).nextStamp ((s.stopped p).port p).queue := by
  obtain same | ⟨b, same⟩ | ⟨e, -, same⟩ := s.stopped_cases p <;> rw [same]
  · exact stamped
  · exact stamped
  · refine (s.remove_moves_of_dequeue p e .unreachable).stamped ?_
    rw [State.dequeue, State.setQueue, State.port_updPort_self]
    exact stamped.filter _

/-- One entry of a queue removed by its stamp leaves the others. -/
theorem Stamped.length_filter {next : Nat} {q : List QueueEntry} (stamped : Stamped next q) {e : QueueEntry} (mem : e ∈ q) :
    (q.filter fun x => x.stamp != e.stamp).length + 1 = q.length := by
  obtain ⟨before, after, rfl⟩ := List.append_of_mem mem
  have apart := stamped.stamps
  simp only [List.map_append, List.map_cons, List.nodup_append, List.nodup_cons] at apart
  obtain ⟨-, ⟨later, -⟩, earlier⟩ := apart
  have keepBefore : before.filter (fun x => x.stamp != e.stamp) = before := List.filter_eq_self.mpr fun x there =>
    bne_iff_ne.mpr (earlier _ (List.mem_map_of_mem there) _ List.mem_cons_self)
  have keepAfter : after.filter (fun x => x.stamp != e.stamp) = after := List.filter_eq_self.mpr fun x there =>
    bne_iff_ne.mpr fun same => later (same ▸ List.mem_map_of_mem there)
  rw [List.filter_append, keepBefore, List.filter_cons_of_neg (by simp), keepAfter, List.length_append, List.length_append,
    List.length_cons]
  omega

/-- With no transaction OPEN, the entries that a stop has counted as UNREACHABLE and those still queued are the queue. -/
theorem State.stopped_of_noneOpen (stamped : Stamped s.nextStamp (s.port p).queue) (none : s.NoneOpen) :
    (s.stopped p).NoneOpen ∧
      (s.stopped p).portCounter p .unreachable + BitVec.ofNat 32 ((s.stopped p).port p).queue.length =
        s.portCounter p .unreachable + BitVec.ofNat 32 (s.port p).queue.length := by
  obtain same | ⟨b, same⟩ | ⟨e, mem, same⟩ := s.stopped_cases p <;> rw [same]
  · exact ⟨none, rfl⟩
  · exact ⟨none, rfl⟩
  · obtain ⟨still, counted, queue⟩ := State.remove_of_noneOpen none p e
    refine ⟨still, ?_⟩
    rw [counted, queue, ← stamped.length_filter mem, BitVec.ofNat_add]
    ac_rfl

/-! ### The port out of service -/

/-- A port just disabled, its queue still to be purged (R33). -/
def State.switchedOff (s : State) (p : Port) : State := (s.stopped p).leaveService p .disabled

theorem State.port_switchedOff :
    (s.switchedOff p).port p =
      { (s.stopped p).port p with state := .disabled, line := ((s.stopped p).port p).line.ignored } := by
  rw [State.switchedOff, State.leaveService, State.port_updPort_self]

theorem State.queue_switchedOff : (s.switchedOff p).queue p = ((s.stopped p).port p).queue := by
  rw [State.queue, State.port_switchedOff]

/-- A disable stops the port, removes its entries one by one and closes the transactions that rely on it (R33, R125). -/
theorem State.disable_eq (stamped : Stamped s.nextStamp (s.port p).queue) (inUse : (s.port p).state ≠ .disabled) :
    s.disable p = ((s.switchedOff p).purged p).portLeft p ∧ (((s.switchedOff p).purged p).port p).queue = [] := by
  have out : ((s.switchedOff p).port p).state.outOfService = true := by rw [State.port_switchedOff]; rfl
  have there : Stamped (s.switchedOff p).nextStamp ((s.switchedOff p).port p).queue := by
    rw [State.port_switchedOff]
    exact State.stopped_stamped stamped
  obtain ⟨purge, empty⟩ := State.purgeUnreachable_eq out there
  refine ⟨?_, empty⟩
  rw [← purge, State.switchedOff, State.stopped]
  unfold State.disable
  split
  · rename_i disabled
    exact absurd disabled inUse
  all_goals rfl

/-- What follows once the port is out of service. -/
theorem State.switchedOff_traffic : Traffic (s.switchedOff p) (((s.switchedOff p).purged p).portLeft p) :=
  (State.purged_traffic _).trans (State.portLeft_traffic _ p)

section Left

variable (stamped : Stamped s.nextStamp (s.port p).queue) (inUse : (s.port p).state ≠ .disabled)
include stamped inUse

theorem State.state_disable : ((s.disable p).port p).state = .disabled := by
  rw [(State.disable_eq stamped inUse).1, (State.switchedOff_traffic.ports p).state, State.port_switchedOff]

theorem State.queue_disable : ((s.disable p).port p).queue = [] := by
  obtain ⟨same, empty⟩ := State.disable_eq stamped inUse
  have out : (((s.switchedOff p).purged p).port p).state.outOfService = true := by
    rw [(State.purged_traffic _).outOfService, State.port_switchedOff]
    rfl
  rw [same]
  exact ((State.portLeft_traffic _ p).ports p).stillEmpty out empty

theorem State.containments_disable :
    (s.disable p).portCounter p .containments = s.portCounter p .containments := by
  have after : ((s.disable p).port p).counters.get 10 = ((s.switchedOff p).port p).counters.get 10 := by
    rw [(State.disable_eq stamped inUse).1]
    exact (State.switchedOff_traffic.ports p).containments
  rw [State.port_switchedOff] at after
  exact after.trans ((s.stopped_traffic p).ports p).containments

theorem State.pendingAlerts_disable : (s.disable p).pendingAlerts = s.pendingAlerts := by
  have left : Purging (s.switchedOff p) (((s.switchedOff p).purged p).portLeft p) :=
    (State.purged_purging _).trans (State.portLeft_purging _ p)
  rw [(State.disable_eq stamped inUse).1, left.pendingAlerts]
  exact (s.stopped_purging p).pendingAlerts

theorem State.not_reliesOn_disable (i : TxIx) : ¬ ((s.disable p).tx i).ReliesOn p := by
  rw [(State.disable_eq stamped inUse).1]
  exact State.not_reliesOn_portLeft _ p i

/-- With no transaction OPEN, a disable counts the entries of the queue as UNREACHABLE and nothing else. -/
theorem State.unreachable_disable (none : s.NoneOpen) :
    (s.disable p).portCounter p .unreachable = s.portCounter p .unreachable + BitVec.ofNat 32 (s.port p).queue.length := by
  obtain ⟨noneStopped, total⟩ := State.stopped_of_noneOpen stamped none
  have noneOff : (s.switchedOff p).NoneOpen := noneStopped
  obtain ⟨nonePurged, counted⟩ := foldl_remove_of_noneOpen (p := p) ((s.switchedOff p).queue p) noneOff
  have same : (s.switchedOff p).portCounter p .unreachable = (s.stopped p).portCounter p .unreachable := by
    rw [State.portCounter, State.port_switchedOff]
    rfl
  rw [(State.disable_eq stamped inUse).1, State.purged, State.portLeft_of_noneOpen nonePurged, counted, same,
    State.queue_switchedOff, total]

end Left

end Disabled

end Sys2Proof.Machine
end

