-- ==== Sys2Proof/Proofs/PortParameters.lean ====
section
/-! PROOFS. SET PARAM of a per-port parameter: its tests in their order, the ranges, and what a write does (R33 to R38, R173). -/

namespace Sys2Proof.Machine

/-! ### The row and its arguments -/

/-- Every SET PARAM row carries its command with the identifier it is for. -/
theorem exec_setRow (ident : Byte) (p : Port) (h : CommandHead) (port : Byte) (v : BitVec 32) (s : State) :
    exec (setRow ident p h port v) s = commandEvent p .setParam h ([ident, port] ++ fourBytes v) s := by
  have same {n : Nat} (at' : ident.toNat = n) : ident = BitVec.ofNat 8 n := BitVec.eq_of_toNat_eq (by
    rw [BitVec.toNat_ofNat, ← at', Nat.mod_eq_of_lt ident.isLt])
  unfold setRow
  split
  case h_8 => rfl
  all_goals
    rename_i code
    obtain rfl := same code
    rfl

theorem portOf_of_le {port : Byte} (none : 4 ≤ port.toNat) : portOf port = Option.none := dif_neg (Nat.not_lt.mpr none)

theorem portOf_of_toNat {port : Byte} {x : Port} (here : port.toNat = x.val) : portOf port = some x :=
  (dif_pos (here ▸ x.isLt)).trans (congrArg some (Fin.ext here))

section Arguments

variable {ident : Byte} {q : PortParam} (names : paramOf ident = some (.ofPort q)) (port : Byte) (v : BitVec 32) (u : State)
  (room : BufferIx)
include names

/-- SET PARAM of a per-port parameter: the port is named, then written (R173). -/
theorem State.setParam_ofPort :
    u.setParam ([ident, port] ++ fourBytes v) = named (portOf port) .badIndex >>= fun x => u.setPortParam q x v.toNat := by
  have value : valueArg ([ident, port] ++ fourBytes v) = .ok v.toNat := congrArg Except.ok (numberOf_fourBytes v)
  have read : argAt ([ident, port] ++ fourBytes v) 0 = .ok ident ∧ argAt ([ident, port] ++ fourBytes v) 1 = .ok port :=
    ⟨rfl, rfl⟩
  rw [State.setParam, read.1, read.2, value]
  simp only [names, named, Except.bind, bind]

theorem State.executeCommand_setParam_of_noPort (none : portOf port = Option.none) :
    u.executeCommand room ([ident, port] ++ fourBytes v) .setParam = (refusedResult .badIndex, u) := by
  rw [State.executeCommand, State.setParam_ofPort names, none]
  rfl

theorem State.executeCommand_setParam_of_port {x : Port} (here : portOf port = some x) :
    u.executeCommand room ([ident, port] ++ fourBytes v) .setParam = answerWrite u (u.setPortParam q x v.toNat) := by
  rw [State.executeCommand, State.setParam_ofPort names, here]
  rfl

end Arguments

/-! ### The tests of a write (R37, R173, log 20) -/

theorem PortState.takesBaud_iff (st : PortState) : st.takesBaud = true ↔ st = .listen ∨ st = .disabled := by
  cases st <;> simp [PortState.takesBaud]

/-- A write is BUSY: BAUD on a port neither in LISTEN nor in DISABLED (R37). -/
def State.busyFor (u : State) (q : PortParam) (x : Port) : Prop :=
  q = .baud ∧ (u.port x).state ≠ .listen ∧ (u.port x).state ≠ .disabled

theorem State.not_busyFor_iff (u : State) (q : PortParam) (x : Port) :
    ¬ u.busyFor q x ↔ (q != .baud || (u.port x).state.takesBaud) = true := by
  rw [Bool.or_eq_true, bne_iff_ne, PortState.takesBaud_iff, State.busyFor]
  tauto

section Tests

variable {u : State} {q : PortParam} {x : Port} {n : Nat}

theorem State.setPortParam_outOfRange (range : q.inRange n = false) : u.setPortParam q x n = .error .badValue := by
  rw [State.setPortParam, range]
  rfl

theorem State.setPortParam_busy (range : q.inRange n = true) (busy : u.busyFor q x) :
    u.setPortParam q x n = .error .busy := by
  have refused : (q != .baud || (u.port x).state.takesBaud) = false :=
    Bool.eq_false_iff.mpr fun takes => (u.not_busyFor_iff q x).mpr takes busy
  rw [State.setPortParam, range, refused]
  rfl

theorem State.setPortParam_written (range : q.inRange n = true) (free : ¬ u.busyFor q x) :
    u.setPortParam q x n = .ok (if (u.port x).params.read q = n then u else u.applyPortParam x n q) := by
  rw [State.setPortParam, range, (u.not_busyFor_iff q x).mp free]
  exact congrArg Except.ok (if_congr beq_iff_eq rfl rfl)

end Tests

/-! ### The ranges (R36) -/

theorem Baud.isSome_ofRate (n : Nat) :
    (Baud.ofRate n).isSome = true ↔ n ∈ [9600, 19200, 38400, 57600, 115200, 230400, 460800, 921600] := by
  simp [Baud.ofRate, List.find?_isSome, Baud.rate, eq_comm (a := n)]

theorem Baud.ofRate_rate (r : Baud) : Baud.ofRate r.rate = some r := by cases r <;> rfl

/-! ### The effects (R33, R34, R37, R38) -/

section Effects

variable (u : State) (x : Port) (n : Nat)

theorem State.port_updPortParams (f : PortParams → PortParams) :
    (u.updPortParams x f).port x = { u.port x with params := f (u.port x).params } := by
  rw [State.updPortParams, State.port_updPort_self]

theorem State.applyPortParam_enable_on : u.applyPortParam x 1 .enable =
    (u.updPortParams x fun w => { w with enable := true }).enable x := rfl

theorem State.applyPortParam_enable_off : u.applyPortParam x 0 .enable =
    (u.updPortParams x fun w => { w with enable := false }).disable x := rfl

theorem State.applyPortParam_baud (r : Baud) : u.applyPortParam x r.rate .baud = u.writeBaud x r := by
  rw [State.applyPortParam, Baud.ofRate_rate]

variable {u x}

theorem State.enable_of_inUse (inUse : (u.port x).state ≠ .disabled) : u.enable x = u := by
  unfold State.enable
  split
  · rename_i disabled
    exact absurd disabled inUse
  all_goals rfl

theorem State.enable_of_disabled (disabled : (u.port x).state = .disabled) : u.enable x = u.resume x := by
  rw [State.enable, disabled]

theorem State.disable_of_disabled (disabled : (u.port x).state = .disabled) : u.disable x = u := by
  rw [State.disable, disabled]

end Effects

/-- A port with PORT_ENABLE off, nothing else done yet (R33). -/
def State.enableOff (u : State) (x : Port) : State := u.updPort x fun w => { w with params := { w.params with enable := false } }

section EnableOff

variable (u : State) (x : Port)

theorem State.port_enableOff : (u.enableOff x).port x = { u.port x with params := { (u.port x).params with enable := false } } := by
  rw [State.enableOff, State.port_updPort_self]

theorem State.state_enableOff : ((u.enableOff x).port x).state = (u.port x).state := by rw [State.port_enableOff]

theorem State.queue_enableOff : (u.enableOff x).queue x = u.queue x := by rw [State.queue, State.port_enableOff, State.queue]

theorem State.portCounter_enableOff (c : PortCounter) : (u.enableOff x).portCounter x c = u.portCounter x c := by
  rw [State.portCounter, State.port_enableOff]
  rfl

/-- What the stop of a port is, by its state and the entry in transmission (R33). -/
theorem State.stopped_enableOff :
    (u.enableOff x).stopped x =
      match (u.port x).state, inTransmission (u.queue x) with
      | .receiving r, _ => (u.enableOff x).freeUp r.buffer
      | .sending _ _, some e => (u.enableOff x).remove x e .unreachable
      | _, _ => u.enableOff x := by
  have here := u.state_enableOff x
  have queue := u.queue_enableOff x
  cases state : (u.port x).state with
  | receiving r => exact State.stopped_receiving _ x (here.trans state)
  | sending pos elapsed =>
    cases inTx : inTransmission (u.queue x) with
    | some e => exact State.stopped_sending _ x (here.trans state) (queue ▸ inTx)
    | none => exact State.stopped_of_idle _ x (by simp [here, state]) fun _ _ _ => queue ▸ inTx
  | _ => exact State.stopped_of_idle _ x (by simp [here, state]) (by simp [here, state])

end EnableOff

/-! ### O51 -/

/-- Settles O51: the tests in their order, the ranges, and the effect of each write. -/
theorem portParameterWrites : Obligations.PortParameterWrites := by
  refine ⟨fun ident q p h port v names => ?commands, fun n => ?ranges, fun u x n => ?effects⟩
  case commands =>
    have row := exec_setRow ident p h port v
    refine ⟨fun none => .of_commandEvent row fun u room _ => ?_, fun x here => ⟨fun out => .of_commandEvent row fun u room _ => ?_,
      fun within => ⟨.of_commandEvent row fun u room busy => ?_, .of_commandEvent row fun u room ⟨free, same⟩ => ?_,
        .of_commandEvent row fun u room ⟨free, other⟩ => ?_⟩⟩⟩
    · exact State.executeCommand_setParam_of_noPort names port v u room (portOf_of_le none)
    all_goals rw [State.executeCommand_setParam_of_port names port v u room (portOf_of_toNat here)]
    · rw [State.setPortParam_outOfRange out]
      rfl
    · rw [State.setPortParam_busy within busy]
      rfl
    · rw [State.setPortParam_written within free, if_pos same]
      rfl
    · rw [State.setPortParam_written within free, if_neg other]
      rfl
  case ranges =>
    refine ⟨rfl, rfl, Baud.isSome_ofRate n, ?_, rfl, ?_, ?_, ?_, ?_⟩ <;> simp [PortParam.inRange, Bool.and_assoc, beq_eq_decide]
  case effects =>
    refine ⟨rfl, rfl, rfl, rfl, rfl, rfl, fun r rate => ?baud, fun within => ?within, fun monitored above => ?jabber,
      fun on inUse => ?stays, fun on disabled => ?resumes, fun off disabled => ?already, fun zero inUse sound => ?disables⟩
    case baud =>
      subst rate
      exact u.applyPortParam_baud x r
    case within =>
      refine if_neg fun above => ?_
      rw [Bool.and_eq_true, decide_eq_true_eq] at above
      obtain still | small := within
      · rw [still] at above
        exact Bool.noConfusion above.1
      · exact Nat.not_lt.mpr small above.2
    case jabber => exact if_pos (by rw [monitored, decide_eq_true above]; rfl)
    case stays =>
      subst on
      exact State.enable_of_inUse (by rw [State.port_updPortParams]; exact inUse)
    case resumes =>
      subst on
      rw [State.applyPortParam_enable_on, State.enable_of_disabled (by rw [State.port_updPortParams]; exact disabled),
        State.resume, State.updPortParams, State.updPort_updPort]
    case already =>
      subst off
      exact State.disable_of_disabled (by rw [State.port_updPortParams]; exact disabled)
    case disables =>
      subst zero
      have stamped : Stamped (u.enableOff x).nextStamp ((u.enableOff x).port x).queue := by
        rw [State.port_enableOff]
        exact State.stamped_of_queuesSound sound x
      have stillInUse : ((u.enableOff x).port x).state ≠ .disabled := by rwa [State.state_enableOff]
      intro off stopped disabled purged t
      have isStopped : stopped = (u.enableOff x).stopped x := (u.stopped_enableOff x).symm
      have isDisabled : t = (u.enableOff x).disable x := rfl
      have steady := (u.enableOff x).disable_steady x
      rw [isDisabled]
      refine ⟨?_, State.state_disable stamped stillInUse, by rw [steady.portParams, State.port_enableOff], steady.params,
        State.queue_disable stamped stillInUse, ?_, State.pendingAlerts_disable stamped stillInUse, fun none => ?_,
        fun i c k d entry => TxEntry.not_reliesOn (State.not_reliesOn_disable stamped stillInUse i) entry⟩
      · rw [(State.disable_eq stamped stillInUse).1, State.switchedOff, ← isStopped]
        rfl
      · rw [State.containments_disable stamped stillInUse, State.portCounter_enableOff]
      · rw [State.unreachable_disable stamped stillInUse none, State.portCounter_enableOff, State.port_enableOff, State.queue]

end Sys2Proof.Machine
end

