-- ==== Sys2Proof/Proofs/Learning.lean ====
section
/-! PROOFS. What learning drops: a frame from the own address, from a BARRED station or from one PINNED elsewhere (R64,
R65). -/

namespace Sys2Proof.Machine

/-! ### The three drops -/

section Dropped

variable {s t u : State} {k : Kind} {p home : Port} {f : Frame} {b : BufferIx} {a : Byte}

theorem State.learn_ownAddress (own : a = s.params.ownAddress) :
    s.learn p a = (.dropped, (s.count .addressClash).raise .addressClash) := if_pos own

theorem State.learn_barred (foreign : a ≠ s.params.ownAddress) (barred : (s.station a).state = .barred) :
    s.learn p a = (.dropped, s.count .barred) := by
  rw [State.learn, if_neg foreign]
  simp only [barred]

theorem State.learn_misplaced (foreign : a ≠ s.params.ownAddress) (pinned : (s.station a).state = .pinned home)
    (elsewhere : home ≠ p) : s.learn p a = (.dropped, (s.count .misplaced).raise .misplaced) := by
  rw [State.learn, if_neg foreign]
  simp only [pinned, if_neg elsewhere]

/-- Learning reads the own address and the stations as they stood before the frame. -/
theorem FrameArrives.keeps (arrives : FrameArrives s k p f b t) : t.params = s.params ∧ t.station a = s.station a := by
  obtain ⟨-, -, rest, -, rfl⟩ := arrives
  exact ⟨rfl, rfl⟩

/-- A frame that learning drops goes no further, and its buffer goes free (R82). -/
theorem exec_frameRow_of_dropped (arrives : FrameArrives s k p f b t) (drops : t.learn p f.source = (.dropped, u)) :
    exec (frameRow k p f) s = .next (u.freeUp b).settle := by
  have dropped : t.learn p (viewOf f k).source = (.dropped, u) := drops
  rw [frameIsReceivedAndClassified s k p f b t arrives, State.classify, dropped]
  rfl

end Dropped

/-! ### O23 -/

/-- Settles O23: each of the three tests of R64 that drops a frame, and then the end of a dropped frame. -/
theorem learningDropsFrames : Obligations.LearningDropsFrames := by
  intro s k p f b t arrives
  obtain ⟨params, station⟩ := arrives.keeps (a := f.source)
  rw [← params, ← station]
  exact ⟨fun own => exec_frameRow_of_dropped arrives (State.learn_ownAddress own),
    fun foreign barred => exec_frameRow_of_dropped arrives (State.learn_barred foreign barred),
    fun home foreign pinned elsewhere => exec_frameRow_of_dropped arrives (State.learn_misplaced foreign pinned elsewhere)⟩

end Sys2Proof.Machine
end

