-- ==== Sys2Proof/Proofs/TableWrites.lean ====
section
/-! PROOFS. WRITE ENTRY: its tests in their order, what a malformed one is refused with, and what a write to the STATION,
GROUP and MANAGER tables leaves (R73, R77, R169, R172). -/

namespace Sys2Proof.Machine

/-! ### A test and what comes after it -/

section Tests

variable {α β : Type} {ok : Bool} {code : ResultCode} {f : Unit → Except ResultCode β}

theorem require_bind_of_passed (passed : ok = true) : require ok code >>= f = f () := by
  subst passed
  rfl

theorem require_bind_of_failed (failed : ok = false) : require ok code >>= f = .error code := by
  subst failed
  rfl

theorem named_map (v : Option α) (g : α → β) : named (v.map g) code = (named v code).map g := by cases v <;> rfl

theorem argAt_of_missing {args : List Byte} {i : Nat} (missing : args.length ≤ i) : argAt args i = .error .badValue := by
  rw [argAt, List.getElem?_eq_none missing]

/-- A test whose only refusal is BAD_VALUE. -/
def BadValueOnly (x : Except ResultCode α) : Prop := ∀ code, x = .error code → code = .badValue

theorem badValueOnly_argAt (args : List Byte) (i : Nat) : BadValueOnly (argAt args i) := by
  unfold argAt
  split
  · exact fun _ => nofun
  · rintro _ ⟨⟩
    rfl

theorem badValueOnly_require (ok : Bool) : BadValueOnly (require ok .badValue) := by
  cases ok
  · rintro _ ⟨⟩
    rfl
  · exact fun _ => nofun

theorem badValueOnly_named (v : Option α) : BadValueOnly (named v .badValue) := by
  cases v
  · rintro _ ⟨⟩
    rfl
  · exact fun _ => nofun

/-- A test of values before one that always fails so does not show. -/
theorem BadValueOnly.bind_refused {x : Except ResultCode α} {f : α → Except ResultCode β} (only : BadValueOnly x)
    (refused : ∀ a, f a = .error .badValue) : x >>= f = .error .badValue := by
  cases test : x with
  | ok a => exact refused a
  | error code => exact congrArg Except.error (only code test)

theorem BadValueOnly.bind {x : Except ResultCode α} {f : α → Except ResultCode β} (only : BadValueOnly x)
    (next : ∀ a, BadValueOnly (f a)) : BadValueOnly (x >>= f) := by
  cases test : x with
  | ok a => exact next a
  | error code =>
    rintro _ ⟨⟩
    exact only code test

theorem badValueOnly_bcdUpTo (v : Byte) (most : Nat) : BadValueOnly (bcdUpTo v most) :=
  (badValueOnly_named _).bind fun _ => (badValueOnly_require _).bind fun _ _ => nofun

end Tests

/-! ### The tables that are written (R172) -/

/-- The write of a table, `args` beginning with the table's code. -/
def State.writeTable (u : State) (args : List Byte) : TableName → Except ResultCode State
  | .station => u.writeStation args
  | .group => u.writeGroup args
  | .window => u.writeWindow args
  | .manager => u.writeManager args
  | .transaction | .port => .error .badTable

/-- The tables that a WRITE ENTRY can name. -/
def writtenTables : List TableName := [.station, .group, .window, .manager]

/-- The characters of a write record after its index (11.3); no record is written to the last two tables. -/
def TableName.fields : TableName → Nat
  | .station => 3
  | .group => 1
  | .window => 8
  | .manager => 1
  | .transaction => 0
  | .port => 0

theorem mem_writtenTables {t : TableName} :
    t ∈ writtenTables ↔ t = .station ∨ t = .group ∨ t = .window ∨ t = .manager := by
  simp [writtenTables]

theorem tableOf_code (t : TableName) : tableOf t.code = some t := by cases t <;> rfl

theorem eq_code_of_tableOf {v : Byte} {t : TableName} (names : tableOf v = some t) : v = t.code :=
  (beq_iff_eq.mp (List.find?_some (p := fun t : TableName => t.code == v) names)).symm

theorem State.writeEntry_code (u : State) (t : TableName) (rest : List Byte) :
    u.writeEntry (t.code :: rest) = u.writeTable (t.code :: rest) t := by
  have read : argAt (t.code :: rest) 0 = .ok t.code := rfl
  rw [State.writeEntry, read]
  simp only [bind, Except.bind, tableOf_code]
  cases t <;> rfl

/-! ### Malformed writes (R165, log 19) -/

section Malformed

variable {u : State} {t : TableName} {index : Byte} {rest : List Byte}

theorem State.writeEntry_badTable {table : Byte} (notWritten : table.toNat = 0 ∨ 4 < table.toNat) :
    u.writeEntry (table :: rest) = .error .badTable := by
  cases names : tableOf table with
  | none =>
    have read : argAt (table :: rest) 0 = .ok table := rfl
    rw [State.writeEntry, read]
    simp only [bind, Except.bind, names]
  | some t =>
    obtain rfl := eq_code_of_tableOf names
    rw [State.writeEntry_code]
    cases t with
    | transaction => rfl
    | port => rfl
    | _ => exact absurd notWritten (by decide)

theorem State.writeEntry_noIndex (written : t ∈ writtenTables) : u.writeEntry [t.code] = .error .badValue := by
  obtain rfl | rfl | rfl | rfl := mem_writtenTables.mp written <;> rfl

/-- The index is judged before the fields. -/
theorem State.writeEntry_badIndex (written : t ∈ writtenTables) (outside : index.toNat < t.first ∨ t.last < index.toNat) :
    u.writeEntry (t.code :: index :: rest) = .error .badIndex := by
  rw [State.writeEntry_code]
  obtain rfl | rfl | rfl | rfl := mem_writtenTables.mp written
  · refine require_bind_of_failed (ok := isStation index) ?_
    rw [← Bool.not_eq_true, isStation_iff]
    simp only [TableName.first, TableName.last] at outside
    omega
  all_goals
    simp only [TableName.first, TableName.last, Nat.not_lt_zero, false_or] at outside
    exact dif_neg (by omega)

/-- A record with a field missing is refused with BAD_VALUE, whichever of its tests fails first. -/
theorem State.writeEntry_short (first : t.first ≤ index.toNat) (last : index.toNat ≤ t.last)
    (short : rest.length < t.fields) : u.writeEntry (t.code :: index :: rest) = .error .badValue := by
  have missing : argAt (t.code :: index :: rest) (t.fields + 1) = .error .badValue := argAt_of_missing (by simp; omega)
  rw [State.writeEntry_code]
  cases t with
  | transaction => exact absurd short (Nat.not_lt_zero _)
  | port => exact absurd short (Nat.not_lt_zero _)
  | station =>
    refine (require_bind_of_passed ((isStation_iff index).mpr ⟨first, last⟩)).trans ?_
    refine (badValueOnly_argAt _ _).bind_refused fun state => (badValueOnly_require _).bind_refused fun _ => ?_
    exact congrArg (· >>= _) missing
  | group => exact (dif_pos (Nat.lt_succ_of_le last)).trans (congrArg (· >>= _) missing)
  | manager => exact (dif_pos (Nat.lt_succ_of_le last)).trans (congrArg (· >>= _) missing)
  | window =>
    refine (dif_pos (Nat.lt_succ_of_le last)).trans ?_
    refine (badValueOnly_argAt _ _).bind_refused fun enabled => (badValueOnly_require _).bind_refused fun _ => ?_
    refine (badValueOnly_argAt _ _).bind_refused fun days => (badValueOnly_require _).bind_refused fun _ => ?_
    refine (badValueOnly_argAt _ _).bind_refused fun _ => (badValueOnly_bcdUpTo _ _).bind_refused fun startHour => ?_
    refine (badValueOnly_argAt _ _).bind_refused fun _ => (badValueOnly_bcdUpTo _ _).bind_refused fun startMinute => ?_
    refine (badValueOnly_argAt _ _).bind_refused fun _ => (badValueOnly_bcdUpTo _ _).bind_refused fun stopHour => ?_
    refine (badValueOnly_argAt _ _).bind_refused fun _ => (badValueOnly_bcdUpTo _ _).bind_refused fun stopMinute => ?_
    refine (badValueOnly_argAt _ _).bind_refused fun mask => (badValueOnly_require _).bind_refused fun _ => ?_
    exact congrArg (· >>= _) missing

end Malformed

/-! ### Whole records (R73, R77, R169) -/

/-- The state that the characters of a STATION write name, if they name one (R73). -/
def stationStateOf (state segment : Byte) : Option StationState :=
  if state = 0 then some .unknown
  else if state = 2 then (portOf segment).map .pinned
  else if state = 3 then some .barred
  else none

theorem stationStateOf_two (segment : Byte) : stationStateOf 2 segment = (portOf segment).map .pinned := rfl

theorem stationStateOf_pinned {segment : Byte} {q : Port} (here : segment.toNat = q.val) :
    stationStateOf 2 segment = some (.pinned q) := by
  rw [stationStateOf_two, portOf_of_toNat here]
  rfl

theorem stationStateOf_unnamed {state segment : Byte} (unnamed : state ≠ 0 ∧ state ≠ 2 ∧ state ≠ 3) :
    stationStateOf state segment = none := by
  obtain ⟨notUnknown, notPinned, notBarred⟩ := unnamed
  rw [stationStateOf, if_neg notUnknown, if_neg notPinned, if_neg notBarred]

theorem stationStateOf_noPort {segment : Byte} (noPort : 3 < segment.toNat) : stationStateOf 2 segment = none := by
  rw [stationStateOf_two, portOf_of_le noPort]
  rfl

/-- An address is held by a manager slot other than the one at `index` (R169). -/
def State.heldElsewhere (u : State) (index address : Byte) : Prop :=
  address ≠ 0 ∧ ∃ j : Fin 4, j.val ≠ index.toNat ∧ (u.managers.get j).map (·.address) = some address

theorem State.not_heldElsewhere_iff (u : State) (index address : Byte) :
    ¬ u.heldElsewhere index address ↔
      (address == 0 || !allSlots.any fun j => j.val != index.toNat && u.slotHolds address j) = true := by
  simp [State.heldElsewhere, State.slotHolds, allSlots, Classical.or_iff_not_imp_left]

section Records

variable (u : State) (address state segment ceiling index mask : Byte)

/-- The tests of a STATION write and what it leaves (R73). The test of the address comes first; the others share one
refusal, so their order does not show. -/
theorem State.writeEntry_station :
    u.writeEntry [1, address, state, segment, ceiling] =
      require (isStation address) .badIndex >>= fun _ =>
        require (ceiling.toNat ≤ 3) .badValue >>= fun _ =>
          named (stationStateOf state segment) .badValue >>= fun written =>
            .ok (u.setStation address ⟨written, ceiling.setWidth 2⟩) := by
  refine (u.writeEntry_code .station _).trans (congrArg (require (isStation address) .badIndex >>= ·) (funext fun _ => ?_))
  by_cases unknown : state = 0
  · subst unknown
    rfl
  by_cases pinned : state = 2
  · subst pinned
    rw [stationStateOf_two, named_map]
    rfl
  by_cases barred : state = 3
  · subst barred
    rfl
  have unnamed : (state == 0 || state == 2 || state == 3) = false := by
    rw [beq_false_of_ne unknown, beq_false_of_ne pinned, beq_false_of_ne barred]
    rfl
  rw [stationStateOf_unnamed ⟨unknown, pinned, barred⟩]
  exact (require_bind_of_failed unnamed).trans ((badValueOnly_require _).bind_refused fun _ => rfl).symm

/-- The test of a GROUP write inside the table, and what it leaves (R77). -/
theorem State.writeEntry_group {i : Fin 16} (here : index.toNat = i.val) :
    u.writeEntry [2, index, mask] =
      require (isSegmentMask mask) .badValue >>= fun _ =>
        .ok { u with groups := u.groups.set i.val (mask.setWidth 4) i.isLt } := by
  obtain ⟨n, inTable⟩ := i
  obtain rfl : index.toNat = n := here
  exact (u.writeEntry_code .group _).trans (dif_pos inTable)

/-- The tests of a MANAGER write inside the table, and what it leaves (R169). -/
theorem State.writeEntry_manager {i : Fin 4} (here : index.toNat = i.val) :
    u.writeEntry [4, index, address] =
      require (address == 0 || isStation address) .badValue >>= fun _ =>
        require (address == 0 || !allSlots.any fun j => j.val != index.toNat && u.slotHolds address j) .badValue >>= fun _ =>
          .ok (u.setSlot i (if address == 0 then none else some ⟨address, none⟩)) := by
  obtain ⟨n, inTable⟩ := i
  obtain rfl : index.toNat = n := here
  exact (u.writeEntry_code .manager _).trans (dif_pos inTable)

end Records

section Tests

variable {u : State} {address state segment ceiling index : Byte}

/-- A STATION write of a state that is none, of a ceiling above 3 or of a PINNED segment that is none (R73). -/
theorem State.writeEntry_station_refused (station : isStation address = true)
    (refused : (state ≠ 0 ∧ state ≠ 2 ∧ state ≠ 3) ∨ 3 < ceiling.toNat ∨ (state = 2 ∧ 3 < segment.toNat)) :
    u.writeEntry [1, address, state, segment, ceiling] = .error .badValue := by
  rw [State.writeEntry_station, require_bind_of_passed station]
  obtain unnamed | high | ⟨rfl, noPort⟩ := refused
  · rw [stationStateOf_unnamed unnamed]
    exact (badValueOnly_require _).bind_refused fun _ => rfl
  · exact require_bind_of_failed (decide_eq_false (Nat.not_le.mpr high))
  · rw [stationStateOf_noPort noPort]
    exact (badValueOnly_require _).bind_refused fun _ => rfl

theorem State.writeEntry_station_written (station : isStation address = true) (ceilingFits : ceiling.toNat ≤ 3)
    {written : StationState} (names : stationStateOf state segment = some written) :
    u.writeEntry [1, address, state, segment, ceiling] = .ok (u.setStation address ⟨written, ceiling.setWidth 2⟩) := by
  rw [State.writeEntry_station, require_bind_of_passed station, require_bind_of_passed (decide_eq_true ceilingFits), names]
  rfl

variable {i : Fin 4} (here : index.toNat = i.val)
include here

theorem State.writeEntry_manager_notStation (nonzero : address ≠ 0) (notStation : isStation address = false) :
    u.writeEntry [4, index, address] = .error .badValue := by
  rw [u.writeEntry_manager address index here, require_bind_of_failed]
  rw [beq_false_of_ne nonzero, notStation]
  rfl

section Holder

variable (holder : address = 0 ∨ isStation address = true)
include holder

theorem State.writeEntry_manager_heldElsewhere (held : u.heldElsewhere index address) :
    u.writeEntry [4, index, address] = .error .badValue := by
  have holds : (address == 0 || isStation address) = true := by rwa [Bool.or_eq_true, beq_iff_eq]
  rw [u.writeEntry_manager address index here, require_bind_of_passed holds, require_bind_of_failed]
  exact Bool.eq_false_iff.mpr fun free => (u.not_heldElsewhere_iff index address).mpr free held

theorem State.writeEntry_manager_written (free : ¬ u.heldElsewhere index address) :
    u.writeEntry [4, index, address] = .ok (u.setSlot i (if address = 0 then none else some ⟨address, none⟩)) := by
  have holds : (address == 0 || isStation address) = true := by rwa [Bool.or_eq_true, beq_iff_eq]
  rw [u.writeEntry_manager address index here, require_bind_of_passed holds,
    require_bind_of_passed ((u.not_heldElsewhere_iff index address).mp free)]
  simp only [beq_iff_eq]

end Holder

end Tests

/-! ### The rows of a write -/

theorem State.executeCommand_writeEntry_refused {u : State} {args : List Byte} {code : ResultCode} (room : BufferIx)
    (refused : u.writeEntry args = .error code) : u.executeCommand room args .writeEntry = (refusedResult code, u) :=
  congrArg (answerWrite u) refused

theorem State.executeCommand_writeEntry_written {u t : State} {args : List Byte} (room : BufferIx)
    (written : u.writeEntry args = .ok t) : u.executeCommand room args .writeEntry = (doneResult, t) :=
  congrArg (answerWrite u) written

section Rows

variable {i : Instr} {p : Port} {h : CommandHead} {args : List Byte}
  (row : ∀ s, exec i s = commandEvent p .writeEntry h args s)
include row

theorem ExecutesWhen.of_writeEntry_refused {cond : State → Prop} {code : ResultCode}
    (refused : ∀ u, cond u → u.writeEntry args = .error code) :
    ExecutesWhen cond i p h .writeEntry args (fun _ => refusedResult code) fun _ u => u :=
  .of_commandEvent row fun u room there => State.executeCommand_writeEntry_refused room (refused u there)

theorem ExecutesWhen.of_writeEntry_written {cond : State → Prop} {e : State → State}
    (written : ∀ u, cond u → u.writeEntry args = .ok (e u)) :
    ExecutesWhen cond i p h .writeEntry args (fun _ => doneResult) fun _ => e :=
  .of_commandEvent row fun u room there => State.executeCommand_writeEntry_written room (written u there)

theorem Executes.of_writeEntry_refused {code : ResultCode} (refused : ∀ u, State.writeEntry u args = .error code) :
    Executes i p h .writeEntry args (fun _ => refusedResult code) id := ExecutesWhen.of_writeEntry_refused row fun u _ => refused u

theorem Executes.of_writeEntry_written {e : State → State} (written : ∀ u, State.writeEntry u args = .ok (e u)) :
    Executes i p h .writeEntry args (fun _ => doneResult) e := ExecutesWhen.of_writeEntry_written row fun u _ => written u

end Rows

/-! ### The Station Table after a write (R62) -/

theorem stationIndex_eq_some_iff {a : Byte} {i : Fin 239} : stationIndex a = some i ↔ a.toNat = i.val + 1 := by
  have inTable := i.isLt
  unfold stationIndex
  split
  · rw [Option.some_inj, Fin.ext_iff]
    dsimp only
    omega
  · exact ⟨nofun, fun here => by omega⟩

theorem State.setStation_eq (u : State) (a : Byte) (e : StationEntry) :
    u.setStation a e = { u with stations := (u.setStation a e).stations } := by
  unfold State.setStation
  split <;> rfl

theorem State.station_setStation {u : State} {a : Byte} (station : isStation a = true) (c : Byte) (e : StationEntry) :
    (u.setStation a e).station c = if c = a then e else u.station c := by
  obtain ⟨i, written⟩ : ∃ i, stationIndex a = some i := ⟨_, dif_pos ((isStation_iff a).mp station)⟩
  have set : u.setStation a e = { u with stations := u.stations.set i.val e i.isLt } := by
    simp only [State.setStation, written]
  rw [set, State.station, State.station]
  cases read : stationIndex c with
  | none =>
    have other : c ≠ a := by
      rintro rfl
      exact nomatch read.symm.trans written
    exact (if_neg other).symm
  | some j =>
    have same : j = i ↔ c = a := by
      rw [Fin.ext_iff, ← BitVec.toNat_inj, stationIndex_eq_some_iff.mp read, stationIndex_eq_some_iff.mp written]
      omega
    exact (get_set u.stations i j e).trans (if_congr same rfl rfl)

theorem StationState.home_eq_some_iff (st : StationState) (q : Port) :
    st.home = some q ↔ (∃ age, st = .learned q age) ∨ st = .pinned q := by
  cases st <;> simp [StationState.home]

/-! ### O48 -/

/-- Settles O48: the tests of a STATION write, those of a malformed WRITE ENTRY to any table, and the entry a write leaves. -/
theorem stationWrites : Obligations.StationWrites := by
  refine ⟨fun p h address state segment ceiling => ?records, fun u room => ?malformed,
    fun u a c e station => ⟨State.station_setStation station c e, u.setStation_eq a e⟩, StationState.home_eq_some_iff⟩
  case records =>
    have row (s : State) : exec (.writeEntryStation p h address state segment ceiling) s =
      commandEvent p .writeEntry h [1, address, state, segment, ceiling] s := rfl
    refine ⟨fun notStation => .of_writeEntry_refused row fun u => ?notStation, fun station =>
      ⟨fun refused => .of_writeEntry_refused row fun u => State.writeEntry_station_refused station refused,
        fun ceilingFits => ⟨?unknown, ?barred, fun q pinned here => ?pinned⟩⟩⟩
    case notStation =>
      exact (u.writeEntry_station address state segment ceiling).trans (require_bind_of_failed notStation)
    case unknown =>
      rintro rfl
      exact .of_writeEntry_written row fun u => State.writeEntry_station_written station ceilingFits rfl
    case barred =>
      rintro rfl
      exact .of_writeEntry_written row fun u => State.writeEntry_station_written station ceilingFits rfl
    case pinned =>
      subst pinned
      exact .of_writeEntry_written row fun u => State.writeEntry_station_written station ceilingFits (stationStateOf_pinned here)
  case malformed =>
    exact ⟨rfl,
      fun table rest notWritten => State.executeCommand_writeEntry_refused room (State.writeEntry_badTable notWritten),
      fun t written => ⟨State.executeCommand_writeEntry_refused room (State.writeEntry_noIndex written), fun index rest =>
        ⟨fun outside => State.executeCommand_writeEntry_refused room (State.writeEntry_badIndex written outside),
          fun first last short => State.executeCommand_writeEntry_refused room (State.writeEntry_short first last short)⟩⟩⟩

/-! ### O49 -/

/-- Settles O49: the index, then the value, then what the write leaves. -/
theorem groupAndManagerWrites : Obligations.GroupAndManagerWrites := by
  refine fun p h index => ⟨fun mask => ?group, fun address => ?manager⟩
  case group =>
    have row (s : State) :
      exec (.writeEntryGroup p h index mask) s = commandEvent p .writeEntry h [2, index, mask] s := rfl
    refine ⟨fun outside => .of_writeEntry_refused row fun u => ?_,
      fun inTable wide => .of_writeEntry_refused row fun u => ?_,
      fun i here fits => .of_writeEntry_written row fun u => ?_⟩
    · exact State.writeEntry_badIndex (t := .group) (mem_writtenTables.mpr (by decide)) (.inr outside)
    · exact (u.writeEntry_group index mask (i := ⟨_, inTable⟩) rfl).trans
        (require_bind_of_failed (decide_eq_false (Nat.not_lt.mpr wide)))
    · exact (u.writeEntry_group index mask here).trans (require_bind_of_passed (decide_eq_true fits))
  case manager =>
    have row (s : State) :
      exec (.writeEntryManager p h index address) s = commandEvent p .writeEntry h [4, index, address] s := rfl
    refine ⟨fun outside => .of_writeEntry_refused row fun u => ?_,
      fun inTable nonzero notStation => .of_writeEntry_refused row fun u => ?_,
      fun i here holder =>
        ⟨.of_writeEntry_refused row fun u held => ?_, .of_writeEntry_written row fun u free => ?_⟩⟩
    · exact State.writeEntry_badIndex (t := .manager) (mem_writtenTables.mpr (by decide)) (.inr outside)
    · exact State.writeEntry_manager_notStation (i := ⟨_, inTable⟩) rfl nonzero notStation
    · exact State.writeEntry_manager_heldElsewhere here holder held
    · exact State.writeEntry_manager_written here holder free

end Sys2Proof.Machine
end

