-- ==== Sys2Proof/Proofs/Classification.lean ====
section
/-! PROOFS. What the Forwarding Engine makes of a frame that learning let through: its destination class (R83), its
target set (R90 to R92), and the frames that go no further (R84 to R87, R94 to R97). -/

namespace Sys2Proof.Machine

/-! ### Destination classes (R83) -/

section DestClass

variable {own d : Byte}

theorem destClass_own : destClass own own = .own := if_pos rfl

theorem destClass_ne_own (foreign : d ≠ own) : destClass own d ≠ .own := by
  unfold destClass
  rw [if_neg foreign]
  split
  · exact DestClass.noConfusion
  · split <;> exact DestClass.noConfusion

theorem destClass_broadcast (foreign : (0 : Byte) ≠ own) : destClass own 0 = .broadcast := by
  rw [destClass, if_neg foreign, if_pos rfl]

theorem destClass_group (foreign : d ≠ own) (group : 240 ≤ d.toNat) :
    destClass own d = .group ⟨d.toNat - 240, by omega⟩ := by
  have nonzero : d ≠ 0 := by rintro rfl; exact absurd group (by decide)
  rw [destClass, if_neg foreign, if_neg nonzero, dif_pos group]

theorem isStationAddress_iff : isStationAddress d = true ↔ d ≠ 0 ∧ ¬ 240 ≤ d.toNat := by
  have zero : d = 0 ↔ d.toNat = 0 := BitVec.toNat_inj.symm
  have range : isStationAddress d = true ↔ 1 ≤ d.toNat ∧ d.toNat ≤ 239 := isStation_iff d
  rw [range, ne_eq, zero]
  omega

theorem destClass_station (foreign : d ≠ own) (station : isStationAddress d = true) : destClass own d = .station := by
  obtain ⟨nonzero, below⟩ := isStationAddress_iff.mp station
  rw [destClass, if_neg foreign, if_neg nonzero, dif_neg below]

end DestClass

/-! ### Target sets (R90 to R92) -/

section Targets

variable {u : State} {p : Port} {d : Byte}

theorem State.targetsFor_broadcast : u.targetsFor p 0 = segmentsExcept p := if_pos rfl

theorem State.targetsFor_group (group : 240 ≤ d.toNat) :
    u.targetsFor p d =
      (SegmentMask.segments (u.groups.get ⟨d.toNat - 240, by omega⟩)).filter (· != p) := by
  have nonzero : d ≠ 0 := by rintro rfl; exact absurd group (by decide)
  rw [State.targetsFor, if_neg nonzero, dif_pos group]

/-- A station with a home segment is reached there, unless the frame was heard there (R92, R94). -/
theorem State.resolveStation_of_home {q : Port} (home : (u.station d).state.home = some q) :
    u.resolveStation p d = if q = p then .localFiltered else .targets [q] true := by
  obtain ⟨age, entry⟩ | entry := (StationState.home_eq_some_iff _ q).mp home
  · rw [State.resolveStation, entry]
  · rw [State.resolveStation, entry]

theorem State.resolveStation_of_barred (entry : (u.station d).state = .barred) : u.resolveStation p d = .barred := by
  rw [State.resolveStation, entry]

theorem State.resolveStation_of_flood (entry : (u.station d).state = .unknown)
    (policy : u.params.unknownPolicy = .flood) : u.resolveStation p d = .targets (segmentsExcept p) false := by
  rw [State.resolveStation, entry]
  dsimp only
  rw [policy]

theorem State.resolveStation_of_drop (entry : (u.station d).state = .unknown)
    (policy : u.params.unknownPolicy = .drop) : u.resolveStation p d = .noRoute := by
  rw [State.resolveStation, entry]
  dsimp only
  rw [policy]

section Station

variable (station : isStationAddress d = true)
include station

theorem State.targetsFor_of_home {q : Port} (home : (u.station d).state.home = some q) :
    u.targetsFor p d = if q = p then [] else [q] := by
  obtain ⟨nonzero, below⟩ := isStationAddress_iff.mp station
  obtain ⟨age, entry⟩ | entry := (StationState.home_eq_some_iff _ q).mp home
  · rw [State.targetsFor, if_neg nonzero, dif_neg below, entry]
  · rw [State.targetsFor, if_neg nonzero, dif_neg below, entry]

theorem State.targetsFor_of_barred (entry : (u.station d).state = .barred) : u.targetsFor p d = [] := by
  obtain ⟨nonzero, below⟩ := isStationAddress_iff.mp station
  rw [State.targetsFor, if_neg nonzero, dif_neg below, entry]

theorem State.targetsFor_of_unknown (entry : (u.station d).state = .unknown) :
    u.targetsFor p d = if u.params.unknownPolicy = .flood then segmentsExcept p else [] := by
  obtain ⟨nonzero, below⟩ := isStationAddress_iff.mp station
  rw [State.targetsFor, if_neg nonzero, dif_neg below, entry]

/-- Resolution finds the targets of a station, and names their segment where the station's home is known (R92). -/
theorem State.resolveStation_targets (routed : u.targetsFor p d ≠ []) :
    ∃ known, u.resolveStation p d = .targets (u.targetsFor p d) known ∧
      (if known then (u.targetsFor p d).head? else none) = (u.station d).state.home := by
  have homeKnown {q : Port} (home : (u.station d).state.home = some q) :
      ∃ known, u.resolveStation p d = .targets (u.targetsFor p d) known ∧
        (if known then (u.targetsFor p d).head? else none) = some q := by
    rw [State.targetsFor_of_home station home] at routed ⊢
    have elsewhere : q ≠ p := fun here => routed (if_pos here)
    rw [State.resolveStation_of_home home, if_neg elsewhere, if_neg elsewhere]
    exact ⟨true, rfl, rfl⟩
  cases entry : (u.station d).state with
  | barred => exact absurd (State.targetsFor_of_barred station entry) routed
  | unknown =>
    rw [State.targetsFor_of_unknown station entry] at routed ⊢
    have policy : u.params.unknownPolicy = .flood := Classical.by_contradiction fun drop => routed (if_neg drop)
    rw [State.resolveStation_of_flood entry policy, if_pos policy]
    exact ⟨false, rfl, rfl⟩
  | learned home age => exact homeKnown (by rw [entry]; rfl)
  | pinned home => exact homeKnown (by rw [entry]; rfl)

end Station

theorem State.resolve_group (group : 240 ≤ d.toNat) :
    (u.targetsFor p d = [] → u.resolve p d (.group ⟨d.toNat - 240, by omega⟩) = .noRoute) ∧
      (u.targetsFor p d ≠ [] →
        u.resolve p d (.group ⟨d.toNat - 240, by omega⟩) = .targets (u.targetsFor p d) false) := by
  rw [State.targetsFor_group group]
  unfold State.resolve
  dsimp only
  split
  · rename_i empty
    exact ⟨fun _ => rfl, fun routed => absurd empty routed⟩
  · rename_i q qs named
    rw [named]
    exact ⟨fun unrouted => absurd unrouted (List.cons_ne_nil q qs), fun _ => rfl⟩

/-- Where there is a target, resolution finds the target set. -/
theorem State.resolve_targets (foreign : d ≠ u.params.ownAddress) (routed : u.targetsFor p d ≠ []) :
    ∃ known, u.resolve p d (destClass u.params.ownAddress d) = .targets (u.targetsFor p d) known := by
  by_cases group : 240 ≤ d.toNat
  · rw [destClass_group foreign group]
    exact ⟨false, (State.resolve_group group).2 routed⟩
  · by_cases broadcast : d = 0
    · subst broadcast
      rw [destClass_broadcast foreign]
      exact ⟨false, rfl⟩
    · have station := isStationAddress_iff.mpr ⟨broadcast, group⟩
      rw [destClass_station foreign station]
      obtain ⟨known, resolved, -⟩ := State.resolveStation_targets station routed
      exact ⟨known, resolved⟩

end Targets

/-! ### The stages of a classification (R81) -/

section Stages

variable {u : State} {p : Port} {f : FrameView} {b : BufferIx}

theorem State.classifyLearned_of_own (own : f.dest = u.params.ownAddress) :
    u.classifyLearned p f b = u.ownFrame p f b := by
  rw [State.classifyLearned, own, destClass_own]

theorem State.classifyLearned_of_forwardingOff (foreign : f.dest ≠ u.params.ownAddress)
    (off : u.params.forwarding = false) : u.classifyLearned p f b = (u.count .forwardingOff).freeUp b := by
  unfold State.classifyLearned
  split
  · exact absurd ‹_› (destClass_ne_own foreign)
  all_goals exact if_neg (by rw [off]; exact Bool.false_ne_true)

theorem State.classifyLearned_of_answer (foreign : f.dest ≠ u.params.ownAddress) (on : u.params.forwarding = true)
    (kind : f.kind = .reply ∨ f.kind = .result) : u.classifyLearned p f b = u.answer p (answerKey f) b := by
  unfold State.classifyLearned
  rw [if_pos on]
  split
  · exact absurd ‹_› (destClass_ne_own foreign)
  all_goals
    obtain reply | result := kind
    · rw [reply]
    · rw [result]

theorem State.classifyLearned_of_forward (foreign : f.dest ≠ u.params.ownAddress) (on : u.params.forwarding = true)
    (notReply : f.kind ≠ .reply) (notResult : f.kind ≠ .result) :
    u.classifyLearned p f b = u.forward p f (destClass u.params.ownAddress f.dest) b := by
  unfold State.classifyLearned
  rw [if_pos on]
  split
  · exact absurd ‹_› (destClass_ne_own foreign)
  all_goals
    split
    · exact absurd ‹_› notReply
    · exact absurd ‹_› notResult
    all_goals rfl

theorem Kind.isRequest_iff (k : Kind) : k.isRequest = true ↔ k = .request ∨ k = .manage := by
  cases k <;> decide

/-- A frame to the broadcast or a group address is dropped without a notice (R95, R96). -/
theorem State.dropUnrouted_of_group (g : Fin 16) (counter : CouplerCounter) :
    u.dropUnrouted p f (.group g) b counter = (u.count counter).freeUp b := by
  have notStation : (f.kind.isRequest && DestClass.group g == .station) = false := Bool.and_false _
  rw [State.dropUnrouted, notStation]
  rfl

/-- A frame to a station is dropped with a notice where it asks for an answer (R95, R96). -/
theorem State.dropUnrouted_of_station (counter : CouplerCounter) :
    u.dropUnrouted p f .station b counter =
      if f.kind = .request ∨ f.kind = .manage then
        ((u.count counter).notify p (requestKey f) .noRoute).freeUp b
      else (u.count counter).freeUp b := by
  rw [State.dropUnrouted, show (f.kind.isRequest && DestClass.station == .station) = f.kind.isRequest from Bool.and_true _]
  by_cases asks : f.kind = .request ∨ f.kind = .manage
  · rw [if_pos asks, if_pos ((Kind.isRequest_iff _).mpr asks)]
    rfl
  · rw [if_neg asks, if_neg fun isRequest => asks ((Kind.isRequest_iff _).mp isRequest)]
    rfl

end Stages

/-! ### Rows of frames that learning let through -/

section Rows

variable {s u : State} {k : Kind} {p : Port} {f : Frame} {b : BufferIx}

/-- A frame that learning let through is classified in the state it left (R81). -/
theorem FrameLearned.exec_eq (learned : FrameLearned s k p f b u) :
    exec (frameRow k p f) s = .next (u.classifyLearned p (viewOf f k) b).settle := by
  obtain ⟨lets, t, arrives, rfl⟩ := learned
  have row := frameIsReceivedAndClassified s k p f b t arrives
  obtain ⟨-, -, rest, -, rfl⟩ := arrives
  have passed : (s.arrived p b rest (framedChars f k)).learn p (viewOf f k).source = (.passed, _) :=
    State.learn_of_letsThrough lets
  rw [row, State.classify, passed]
  rfl

theorem FrameLearned.exec_of_own (own : f.dest = s.params.ownAddress) (learned : FrameLearned s k p f b u) :
    exec (frameRow k p f) s = .next (u.ownFrame p (viewOf f k) b).settle := by
  rw [learned.exec_eq, State.classifyLearned_of_own (by rw [learned.keeps.1]; exact own)]

theorem FrameLearned.exec_of_answer (foreign : f.dest ≠ s.params.ownAddress) (on : s.params.forwarding = true)
    (kind : k = .reply ∨ k = .result) (learned : FrameLearned s k p f b u) :
    exec (frameRow k p f) s = .next (u.answer p (answerKey (viewOf f k)) b).settle := by
  rw [← learned.keeps.1] at foreign on
  rw [learned.exec_eq, State.classifyLearned_of_answer foreign on kind]

theorem FrameLearned.exec_of_forward (foreign : f.dest ≠ s.params.ownAddress) (on : s.params.forwarding = true)
    (notReply : k ≠ .reply) (notResult : k ≠ .result) (learned : FrameLearned s k p f b u) :
    exec (frameRow k p f) s =
      .next (u.forward p (viewOf f k) (destClass s.params.ownAddress f.dest) b).settle := by
  rw [← learned.keeps.1] at foreign on ⊢
  rw [learned.exec_eq, State.classifyLearned_of_forward foreign on notReply notResult]
  rfl

end Rows

/-! ### O24 -/

/-- Settles O24: the row is the classification of a frame for the own address, which goes by the frame's kind. -/
theorem framesForTheOwnAddress : Obligations.FramesForTheOwnAddress := by
  intro s p f b u own
  refine ⟨fun k kind learned => ?answer, fun k kind learned => ?formatError, fun learned => ?command⟩
  case answer =>
    obtain rfl | rfl := kind
    · exact learned.exec_of_own own
    · exact learned.exec_of_own own
  case formatError =>
    obtain rfl | rfl | rfl := kind
    · exact learned.exec_of_own own
    · exact learned.exec_of_own own
    · exact learned.exec_of_own own
  case command => exact exec_manage_of_frameLearned own learned

/-! ### O25 -/

section NoFurther

variable {u : State} {p : Port} {f : FrameView} {b : BufferIx}

theorem State.forward_of_localFiltered {c : DestClass} (resolved : u.resolve p f.dest c = .localFiltered) :
    u.forward p f c b = (u.count .localFiltered).freeUp b := by
  rw [State.forward, resolved]
  rfl

theorem State.forward_of_barred {c : DestClass} (resolved : u.resolve p f.dest c = .barred) :
    u.forward p f c b = u.dropUnrouted p f c b .barred := by
  rw [State.forward, resolved]

theorem State.forward_of_noRoute {c : DestClass} (resolved : u.resolve p f.dest c = .noRoute) :
    u.forward p f c b = u.dropUnrouted p f c b .noRoute := by
  rw [State.forward, resolved]

/-- Only a NOTICE passes the reserve test below the reserve (R48, R97). -/
theorem State.belowReserve_iff (s : State) (k : Kind) :
    s.belowReserve k = true ↔ k ≠ .notice ∧ s.freeList.length < s.params.reserve := by
  rw [State.belowReserve, Bool.and_eq_true, bne_iff_ne, decide_eq_true_iff]
  rfl

theorem State.forward_of_targets {c : DestClass} {targets : List Port} {known : Bool}
    (resolved : u.resolve p f.dest c = .targets targets known) :
    u.forward p f c b = if u.belowReserve f.kind then u.dropPoolLow b else u.place p f c b targets known := by
  rw [State.forward, resolved]

end NoFurther

/-- Settles O25: FORWARDING off before resolution, then what each resolution without a target drops, and with a target
the reserve test. -/
theorem framesThatGoNoFurther : Obligations.FramesThatGoNoFurther := by
  intro s k p f b u learned foreign unrouted
  have params := learned.keeps.1
  refine ⟨fun off => ?off, fun on notReply notResult => ?_⟩
  case off =>
    rw [← params] at foreign off
    rw [learned.exec_eq, State.classifyLearned_of_forwardingOff foreign off]
  rw [learned.exec_of_forward foreign on notReply notResult]
  refine ⟨fun station => ?_, fun group untargeted => ?group, fun routed notNotice low => ?poolLow⟩
  case group =>
    have resolved : u.resolve p (viewOf f k).dest _ = _ := (State.resolve_group group).1 untargeted
    rw [destClass_group foreign group, State.forward_of_noRoute resolved, State.dropUnrouted_of_group]
  case poolLow =>
    rw [← params] at foreign low ⊢
    obtain ⟨known, resolved⟩ := State.resolve_targets foreign routed
    have below : u.belowReserve (viewOf f k).kind = true := (u.belowReserve_iff k).mpr ⟨notNotice, low⟩
    rw [State.forward_of_targets resolved, if_pos below]
    rfl
  rw [destClass_station foreign station]
  refine ⟨fun here => ?localFiltered, fun barred => ?barred, fun unknown drop => ?noRoute⟩
  case localFiltered =>
    have resolved : u.resolve p (viewOf f k).dest .station = .localFiltered :=
      (State.resolveStation_of_home here).trans (if_pos rfl)
    rw [State.forward_of_localFiltered resolved]
  case barred =>
    have resolved : u.resolve p (viewOf f k).dest .station = .barred := State.resolveStation_of_barred barred
    rw [State.forward_of_barred resolved, State.dropUnrouted_of_station]
    rfl
  case noRoute =>
    rw [← params] at drop
    have resolved : u.resolve p (viewOf f k).dest .station = .noRoute := State.resolveStation_of_drop unknown drop
    rw [State.forward_of_noRoute resolved, State.dropUnrouted_of_station]
    rfl


end Sys2Proof.Machine
end

