-- ==== Sys2Proof/Proofs/Offers.lean ====
section
/-! SUPPORT. A forwarded frame of a class rank asked of several queues (R52, R54): it displaces nothing (R53), so that each
queue answers by itself alone. -/

namespace Sys2Proof.Machine

/-! ### One queue -/

section One

variable (s : State)

theorem Rank.ofClass_ne_express (c : BitVec 2) : Rank.ofClass c ≠ .express := by
  unfold Rank.ofClass
  split <;> exact Rank.noConfusion

/-- The judgement behind a verdict that displaces nothing (R52). -/
def Verdict.judgement : Verdict → Judgement
  | .admitted => .room
  | .unreachable => .unreachable
  | .window => .window
  | .queueFull => .queueFull

/-- A FORWARDED request of a class rank is judged as the verdict says (R52, R53). -/
theorem State.judgeAdmission_of_classRank (p : Port) {r : Rank} (classRank : r ≠ .express) :
    s.judgeAdmission .nothing p r .forwarded = (s.verdictFor p r).judgement := by
  have noPlaceOwed : (s.queue p).length + Owed.nothing.places.count p = (s.queue p).length := rfl
  unfold State.judgeAdmission State.verdictFor
  rw [noPlaceOwed]
  split
  · rfl
  · split
    · rfl
    · split
      · rfl
      · split
        · exact absurd rfl classRank
        all_goals rfl

/-- It is admitted or refused, and counted, as the verdict says (R52). -/
theorem State.requestAdmission_of_classRank (p : Port) {n : NewEntry} (classRank : n.rank ≠ .express)
    (forwarded : n.origin = .forwarded) : s.requestAdmission p n = (s.verdictFor p n.rank, s.offerTo n p) := by
  rw [State.requestAdmission, State.makePlace, forwarded, s.judgeAdmission_of_classRank p classRank, State.offerTo]
  cases s.verdictFor p n.rank <;> rfl

/-- A verdict reads nothing but the port and its disposition. -/
theorem State.verdictFor_congr {s t : State} {p : Port} (port : t.port p = s.port p)
    (dispositions : t.dispositions = s.dispositions) (r : Rank) : t.verdictFor p r = s.verdictFor p r := by
  unfold State.verdictFor State.queue State.disposition
  rw [port, dispositions]

/-- An offer touches its own port alone. -/
theorem State.port_offerTo_ne (n : NewEntry) {p q : Port} (other : q ≠ p) : (s.offerTo n p).port q = s.port q := by
  unfold State.offerTo
  split
  · exact State.port_updPort_ne s other fun u => { u with queue := _ }
  all_goals exact s.port_updPort_ne other _

theorem State.offerTo_dispositions (n : NewEntry) (p : Port) : (s.offerTo n p).dispositions = s.dispositions := by
  unfold State.offerTo
  split <;> rfl

theorem State.verdictFor_offerTo_ne (n : NewEntry) {p q : Port} (other : q ≠ p) (r : Rank) :
    (s.offerTo n p).verdictFor q r = s.verdictFor q r :=
  State.verdictFor_congr (s.port_offerTo_ne n other) (s.offerTo_dispositions n p) r

end One

/-! ### Several queues -/

/-- Each of several queues judges its own copy, as it stood before the first was asked (R54). -/
theorem admitEach_of_classRank {n : NewEntry} (classRank : n.rank ≠ .express) (forwarded : n.origin = .forwarded)
    {ps : List Port} (once : ps.Nodup) (s : State) :
    admitEach n ps s = (ps.map fun p => s.verdictFor p n.rank, s.offerEach ps n) := by
  induction ps generalizing s with
  | nil => rfl
  | cons p ps ih =>
    obtain ⟨fresh, once⟩ := List.nodup_cons.mp once
    have same : (ps.map fun q => (s.offerTo n p).verdictFor q n.rank) = ps.map fun q => s.verdictFor q n.rank :=
      List.map_congr_left fun q mem => s.verdictFor_offerTo_ne n (ne_of_mem_of_not_mem mem fresh) n.rank
    rw [admitEach, s.requestAdmission_of_classRank p classRank forwarded]
    dsimp only
    rw [ih once, same]
    rfl

section Counted

variable (s : State) (ps : List Port) (r : Rank)

theorem Verdict.isAdmitted_iff (v : Verdict) : v.isAdmitted = true ↔ v = .admitted := by cases v <;> decide

/-- As many were admitted as queues take the entry. -/
theorem admittedCount_verdicts : admittedCount (ps.map fun p => s.verdictFor p r) = (s.takers ps r).length := by
  rw [admittedCount, List.filter_map, List.length_map, State.takers]
  congr 2
  funext p
  exact Bool.eq_iff_iff.mpr ((Verdict.isAdmitted_iff _).trans decide_eq_true_iff.symm)

/-- The notice for a request that no target admits names the refusal of the first (R111). -/
theorem refusalNotice_verdicts : refusalNotice (ps.map fun p => s.verdictFor p r) = s.refusalCause ps r := by
  cases ps with
  | nil => rfl
  | cons p ps =>
    rw [State.refusalCause, List.map_cons, List.head?_cons, Option.map_some]
    cases s.verdictFor p r <;> rfl

end Counted

/-! ### Targets are distinct -/

theorem segmentsExcept_nodup (p : Port) : (segmentsExcept p).Nodup := (List.nodup_finRange 4).filter _

theorem segments_nodup (m : SegmentMask) : (SegmentMask.segments m).Nodup := (List.nodup_finRange 4).filter _

theorem State.targetsFor_nodup (u : State) (p : Port) (d : Byte) : (u.targetsFor p d).Nodup := by
  by_cases group : 240 ≤ d.toNat
  · rw [State.targetsFor_group group]
    exact (segments_nodup _).filter _
  · by_cases broadcast : d = 0
    · subst broadcast
      exact segmentsExcept_nodup p
    · have station := isStationAddress_iff.mpr ⟨broadcast, group⟩
      have atHome {q : Port} (home : (u.station d).state.home = some q) : (u.targetsFor p d).Nodup := by
        rw [State.targetsFor_of_home station home]
        split
        · exact List.nodup_nil
        · exact List.nodup_singleton q
      cases entry : (u.station d).state with
      | barred =>
        rw [State.targetsFor_of_barred station entry]
        exact List.nodup_nil
      | unknown =>
        rw [State.targetsFor_of_unknown station entry]
        split
        · exact segmentsExcept_nodup p
        · exact List.nodup_nil
      | learned home age => exact atHome (by rw [entry]; rfl)
      | pinned home => exact atHome (by rw [entry]; rfl)

end Sys2Proof.Machine
end

