-- ==== Sys2Proof/Proofs/Transactions.lean ====
section
/-! PROOFS. The Transaction Table asked about a key: where it stands (R105, R107), the entry a new request is given (R109), the
request that opens it (R110, R111), and the answer that closes it (R120 to R122). -/

namespace Sys2Proof.Machine

/-! ### Finding a key (R105, R107) -/

section Keys

variable {s : State} {key : TxKey} {i j : TxIx}

theorem mem_allTx (i : TxIx) : i ∈ allTx := List.mem_finRange i

theorem State.findKey_eq_none (absent : ∀ j, s.keyOf j ≠ some key) : s.findKey key = none :=
  List.find?_eq_none.mpr fun j _ held => absent j (beq_iff_eq.mp held)

/-- No two entries that are not FREE share a key (R105). -/
theorem State.keyOf_inj (sound : s.transactionsSound = true) (at_i : s.keyOf i = some key) (at_j : s.keyOf j = some key) :
    i = j := by
  obtain ⟨-, distinct⟩ := Bool.and_eq_true _ _ ▸ sound
  have pair := List.all_eq_true.mp (List.all_eq_true.mp distinct i (mem_allTx i)) j (mem_allTx j)
  simpa [at_i, at_j] using pair

/-- The entry that holds a key is the one found (R107). -/
theorem State.findKey_eq_some (sound : s.transactionsSound = true) (held : s.keyOf i = some key) :
    s.findKey key = some i := by
  cases found : s.findKey key with
  | none => exact absurd (beq_iff_eq.mpr held) (List.find?_eq_none.mp found i (mem_allTx i))
  | some j =>
    have at_j : s.keyOf j = some key := by
      have hit := List.find?_some found
      exact beq_iff_eq.mp hit
    exact congrArg some (State.keyOf_inj sound at_j held)

end Keys

/-! ### The entry a new request is given (R109) -/

section Allocation

variable {s : State} {i : TxIx}

theorem TxEntry.isFree_iff (e : TxEntry) : e.isFree = true ↔ e = .free := by cases e <;> simp [TxEntry.isFree]

theorem TxEntry.stamp_eq_some_iff (e : TxEntry) (n : Nat) : e.stamp = some n ↔ ∃ c g, e = .lapsed c n g := by
  cases e <;> simp [TxEntry.stamp]

theorem State.allocate_of_free (free : s.tx i = .free) (lowest : ∀ j, j < i → s.tx j ≠ .free) :
    s.allocate = some i := by
  have found : (allTx.find? fun t => (s.tx t).isFree) = some i := by
    refine List.find?_eq_some_iff_getElem.mpr ⟨(TxEntry.isFree_iff _).mpr free, i.val, ?_, ?_, fun j before => ?_⟩
    · rw [allTx, List.length_finRange]
      exact i.isLt
    · exact List.getElem_finRange _
    · have below : s.tx ⟨j, by omega⟩ ≠ .free := lowest _ before
      simpa [allTx, ← Bool.not_eq_true, TxEntry.isFree_iff] using below
  rw [State.allocate, found]

/-- The older of the LAPSED entry found so far and entry `t`, if that is LAPSED (R109). -/
def State.olderLapsed (s : State) (best : Option TxIx) (t : TxIx) : Option TxIx :=
  match (s.tx t).stamp, best with
  | none, _ => best
  | some _, none => some t
  | some n, some b => if n < ((s.tx b).stamp.getD 0) then some t else best

theorem State.oldestLapsed_eq (s : State) : s.oldestLapsed = allTx.foldl s.olderLapsed none := rfl

/-- What is found is LAPSED. -/
theorem State.olderLapsed_lapsed {best : Option TxIx} (t : TxIx)
    (lapsed : ∀ j, best = some j → ∃ n, (s.tx j).stamp = some n) :
    ∀ j, s.olderLapsed best t = some j → ∃ n, (s.tx j).stamp = some n := by
  unfold State.olderLapsed
  split
  · exact lapsed
  · rename_i n found
    rintro j ⟨⟩
    exact ⟨n, found⟩
  · rename_i n b found
    split
    · rintro j ⟨⟩
      exact ⟨n, found⟩
    · exact lapsed

section Oldest

variable {m : Nat} (stamped : (s.tx i).stamp = some m) (oldest : ∀ j n, j ≠ i → (s.tx j).stamp = some n → m < n)
include stamped oldest

/-- Against any other LAPSED entry, the one with the smallest stamp is kept. -/
theorem State.olderLapsed_keeps (t : TxIx) : s.olderLapsed (some i) t = some i := by
  unfold State.olderLapsed
  split
  · rfl
  · exact absurd ‹_› (Option.some_ne_none i)
  · rename_i n b found best
    obtain rfl := Option.some.inj best
    have notOlder : ¬ n < m := by
      by_cases same : t = i
      · rw [same, stamped] at found
        exact Nat.lt_irrefl m ∘ (Option.some.inj found ▸ ·)
      · exact Nat.lt_asymm (oldest t n same found)
    rw [stamped]
    exact if_neg notOlder

/-- It replaces any other LAPSED entry found before it. -/
theorem State.olderLapsed_takes {best : Option TxIx} (lapsed : ∀ j, best = some j → ∃ n, (s.tx j).stamp = some n) :
    s.olderLapsed best i = some i := by
  unfold State.olderLapsed
  rw [stamped]
  cases best with
  | none => rfl
  | some j =>
    dsimp only
    split
    · rfl
    · rename_i notOlder
      obtain ⟨n, found⟩ := lapsed j rfl
      rw [found] at notOlder
      exact congrArg some (Classical.by_contradiction fun other => notOlder (oldest j n other found))

theorem State.foldl_olderLapsed_keeps (l : List TxIx) : l.foldl s.olderLapsed (some i) = some i := by
  induction l with
  | nil => rfl
  | cons t l ih => rw [List.foldl_cons, State.olderLapsed_keeps stamped oldest t, ih]

theorem State.foldl_olderLapsed {l : List TxIx} (mem : i ∈ l) {best : Option TxIx}
    (lapsed : ∀ j, best = some j → ∃ n, (s.tx j).stamp = some n) : l.foldl s.olderLapsed best = some i := by
  induction l generalizing best with
  | nil => exact absurd mem List.not_mem_nil
  | cons t l ih =>
    rw [List.foldl_cons]
    obtain rfl | later := List.mem_cons.mp mem
    · rw [State.olderLapsed_takes stamped oldest lapsed]
      exact State.foldl_olderLapsed_keeps stamped oldest l
    · exact ih later (State.olderLapsed_lapsed t lapsed)

theorem State.oldestLapsed_eq_some : s.oldestLapsed = some i := by
  rw [State.oldestLapsed_eq]
  exact State.foldl_olderLapsed stamped oldest (mem_allTx i) fun _ found => absurd found.symm (Option.some_ne_none _)

end Oldest

theorem State.allocate_of_lapsed (full : ∀ j, s.tx j ≠ .free) {c : TxCore} {m g : Nat} (lapsed : s.tx i = .lapsed c m g)
    (oldest : ∀ j c' m' g', j ≠ i → s.tx j = .lapsed c' m' g' → m < m') : s.allocate = some i := by
  have noneFree : (allTx.find? fun t => (s.tx t).isFree) = none :=
    List.find?_eq_none.mpr fun j _ free => full j ((TxEntry.isFree_iff _).mp free)
  have stamped : (s.tx i).stamp = some m := (TxEntry.stamp_eq_some_iff _ m).mpr ⟨c, g, lapsed⟩
  rw [State.allocate, noneFree]
  refine State.oldestLapsed_eq_some stamped fun j n other found => ?_
  obtain ⟨c', g', entry⟩ := (TxEntry.stamp_eq_some_iff _ n).mp found
  exact oldest j c' n g' other entry

end Allocation

/-! ### O27 -/

section Requests

variable {u : State} {p : Port} {b : BufferIx} {i : TxIx}

/-- A request of a key the table does not hold asks for an entry of its own (R107). -/
theorem State.track_of_new {r : Tracked} (absent : ∀ j, u.keyOf j ≠ some r.key) : u.track r = u.openRequest r := by
  rw [State.track, State.findKey_eq_none absent]

section Opening

variable {r : Tracked} (below : u.openCount r.key.requester < u.params.maxOutstanding) (given : u.allocate = some i)
  (classRank : r.rank ≠ .express) (once : r.targets.Nodup)
include below given classRank once

/-- A request that is given an entry asks each target for a copy linked to it, and opens where one is taken (R109, R110). -/
theorem State.openRequest_opens (taken : (u.takers r.targets r.rank).length ≠ 0) :
    u.openRequest r =
      ((((u.setTx i .free).offerEach r.targets ⟨r.buffer, r.rank, .forwarded, some i⟩).setTx i
        (.opened ⟨r.key, r.segment, if r.known then r.targets.head? else none, 0⟩ (u.takers r.targets r.rank).length
          none)).count .txOpened).setCondition r.buffer (.held (u.takers r.targets r.rank).length) := by
  rw [← admittedCount_verdicts] at taken ⊢
  rw [State.openRequest, if_neg (Nat.not_le.mpr below), given]
  dsimp only
  rw [admitEach_of_classRank (n := ⟨r.buffer, r.rank, .forwarded, some i⟩) classRank rfl once]
  exact (if_neg taken).trans (if_neg taken)

/-- Where no target takes a copy the requester is told why the lowest did not (R111). -/
theorem State.openRequest_refused (untaken : (u.takers r.targets r.rank).length = 0) :
    u.openRequest r =
      (((u.setTx i .free).offerEach r.targets ⟨r.buffer, r.rank, .forwarded, some i⟩).notify r.segment r.key
        (u.refusalCause r.targets r.rank)).freeUp r.buffer := by
  rw [← admittedCount_verdicts] at untaken
  rw [← refusalNotice_verdicts, State.openRequest, if_neg (Nat.not_le.mpr below), given]
  dsimp only
  rw [admitEach_of_classRank (n := ⟨r.buffer, r.rank, .forwarded, some i⟩) classRank rfl once]
  exact if_pos untaken

end Opening

/-- A request for a station with a target, its buffer not lost to the reserve, is tracked (R100). -/
theorem State.forward_of_request {f : Frame} {k : Kind} (asks : k = .request ∨ k = .manage)
    (station : isStationAddress f.dest = true) (routed : u.targetsFor p f.dest ≠ [])
    (room : u.params.reserve ≤ u.freeList.length) :
    ∃ known, (if known then (u.targetsFor p f.dest).head? else none) = (u.station f.dest).state.home ∧
      u.forward p (viewOf f k) .station b =
        u.track ⟨⟨f.source, f.dest, f.tag, k.exchange⟩, p, u.targetsFor p f.dest, known, u.rankFor f, b⟩ := by
  obtain ⟨known, found, home⟩ := State.resolveStation_targets station routed
  have resolved : u.resolve p (viewOf f k).dest .station = .targets (u.targetsFor p f.dest) known := found
  have aboveReserve : ¬ u.belowReserve (viewOf f k).kind = true := fun low =>
    Nat.not_lt.mpr room ((u.belowReserve_iff k).mp low).2
  have tracked : ((viewOf f k).kind.isRequest && DestClass.station == .station) = true := by
    rw [(Kind.isRequest_iff (viewOf f k).kind).mpr asks]
    rfl
  refine ⟨known, home, ?_⟩
  rw [State.forward_of_targets resolved, if_neg aboveReserve, State.place, if_pos tracked]
  rfl

end Requests

/-- Settles O27: the row tracks the request, the entry it is given is the FREE or the LAPSED one named, and the targets that
take a copy decide whether it opens. -/
theorem requestsOpenATransaction : Obligations.RequestsOpenATransaction := by
  intro s k p f b u i learned asks foreign on station routed room key targets w admitted absent below which
  have params := learned.keeps.1
  have given : u.allocate = some i := by
    obtain ⟨free, lowest⟩ | ⟨full, c, m, g, lapsed, oldest⟩ := which
    · exact State.allocate_of_free free lowest
    · exact State.allocate_of_lapsed full lapsed oldest
  rw [← params] at room below
  have notReply : k ≠ .reply := by rintro rfl; simp at asks
  have notResult : k ≠ .result := by rintro rfl; simp at asks
  obtain ⟨known, home, tracked⟩ := State.forward_of_request (b := b) asks station routed room
  have row := learned.exec_of_forward foreign on notReply notResult
  rw [destClass_station foreign station, tracked, State.track_of_new absent] at row
  have classRank : u.rankFor f ≠ .express := Rank.ofClass_ne_express _
  have once : targets.Nodup := u.targetsFor_nodup p f.dest
  refine ⟨fun taken => ?opened, fun untaken => ?refused⟩
  case opened =>
    rw [row, State.openRequest_opens (r := ⟨key, p, targets, known, u.rankFor f, b⟩) below given classRank once taken]
    dsimp only
    rw [home]
  case refused =>
    rw [row, State.openRequest_refused (r := ⟨key, p, targets, known, u.rankFor f, b⟩) below given classRank once untaken]

/-! ### O30 -/

section Answers

variable {u : State} {p : Port} {b : BufferIx} {i : TxIx} {key : TxKey}

theorem State.keyOf_of_opened {c : TxCore} {n : Nat} {d : Option Deadline} (entry : u.tx i = .opened c n d) :
    u.keyOf i = some c.key := by
  rw [State.keyOf, entry]
  rfl

theorem State.keyOf_of_lapsed {c : TxCore} {m g : Nat} (entry : u.tx i = .lapsed c m g) : u.keyOf i = some c.key := by
  rw [State.keyOf, entry]
  rfl

theorem State.answer_of_absent (absent : ∀ j, u.keyOf j ≠ some key) :
    u.answer p key b = (u.count .unsolicited).freeUp b := by
  rw [State.answer, State.findKey_eq_none absent]
  rfl

theorem State.answer_of_lapsed (sound : u.transactionsSound = true) {c : TxCore} {m g : Nat}
    (entry : u.tx i = .lapsed c m g) : u.answer p c.key b = (u.count .lateReplies).freeUp b := by
  rw [State.answer, State.findKey_eq_some sound (State.keyOf_of_lapsed entry)]
  dsimp only
  rw [entry]
  rfl

theorem State.answer_of_opened (sound : u.transactionsSound = true) {c : TxCore} {n : Nat} {d : Option Deadline}
    (entry : u.tx i = .opened c n d) :
    u.answer p c.key b =
      (((u.withdraw i).setTx i .free).count .txAnswered).forwardAnswer p c.requesterSegment b := by
  rw [State.answer, State.findKey_eq_some sound (State.keyOf_of_opened entry)]
  dsimp only
  rw [entry]

theorem State.forwardAnswer_self : u.forwardAnswer p p b = u.freeUp b := if_pos rfl

/-- An answer is held by the one queue that admits it, and dropped by one that refuses it (R53, R121). -/
theorem State.forwardAnswer_of_verdict {q : Port} (away : q ≠ p) {v : Verdict} {x : State}
    (asked : u.requestAdmission q ⟨b, .express, .forwarded, none⟩ = (v, x)) :
    u.forwardAnswer p q b = if v = .admitted then x.setCondition b (.held 1) else x.freeUp b := by
  rw [State.forwardAnswer, if_neg away, asked]
  cases v <;> rfl

end Answers

/-- Settles O30: the row hands the answer to the table, and the entry that holds its key decides. -/
theorem answersCloseTransactions : Obligations.AnswersCloseTransactions := by
  intro s k p f b u learned kind foreign on sound key
  have row : exec (frameRow k p f) s = .next (u.answer p key b).settle := learned.exec_of_answer foreign on kind
  refine ⟨fun i c n d entry same => ?opened, fun i c m g entry same => ?lapsed, fun absent => ?absent⟩
  case opened =>
    rw [← same, State.answer_of_opened sound entry] at row
    refine ⟨fun heardThere => ?_, fun away v x asked => ?_⟩
    · rw [row, heardThere, State.forwardAnswer_self]
    · rw [row, State.forwardAnswer_of_verdict away asked]
      exact ⟨fun admitted => by rw [if_pos admitted], fun refused => by rw [if_neg refused]⟩
  case lapsed => rw [row, ← same, State.answer_of_lapsed sound entry]
  case absent => rw [row, State.answer_of_absent absent]

end Sys2Proof.Machine
end

