-- ==== Sys2Proof/Proofs/Copies.lean ====
section
/-! SUPPORT. The copies that queues hold of a transaction (R105): how many they are, what each small change of a queue or of
the Transaction Table does to that number, and the table held against it. -/

namespace Sys2Proof.Machine

/-! ### The copies in a queue -/

/-- How many entries of a queue carry a link to transaction `i`. -/
def copiesIn (i : TxIx) (q : List QueueEntry) : Nat := q.countP fun e => e.link == some i

section Queue

variable (i : TxIx) (q : List QueueEntry)

theorem copiesIn_cons (e : QueueEntry) : copiesIn i (e :: q) = copiesIn i q + if e.link = some i then 1 else 0 := by
  simp [copiesIn, List.countP_cons]

theorem copiesIn_insertEntry (e : QueueEntry) :
    copiesIn i (insertEntry e q) = copiesIn i q + if e.link = some i then 1 else 0 :=
  ((insertEntry_perm e q).countP_eq _).trans (copiesIn_cons i q e)

theorem copiesIn_map {f : QueueEntry → QueueEntry} (link : ∀ e ∈ q, (f e).link = some i ↔ e.link = some i) :
    copiesIn i (q.map f) = copiesIn i q := by
  rw [copiesIn, List.countP_map]
  refine List.countP_congr fun e mem => ?_
  simpa using link e mem

/-- An entry leaves by its stamp, and its copy with it. -/
theorem copiesIn_filter_stamp {next : Nat} {q : List QueueEntry} (stamped : Stamped next q) {e : QueueEntry} (mem : e ∈ q) :
    (copiesIn i (q.filter fun x => x.stamp != e.stamp) + if e.link = some i then 1 else 0) = copiesIn i q := by
  obtain ⟨a, b, rfl, apart⟩ := stamped.split mem
  have around : copiesIn i (a ++ e :: b) = copiesIn i (e :: (a ++ b)) := List.perm_middle.countP_eq _
  rw [Stamped.filter_around apart, around, copiesIn_cons]

theorem copiesIn_eq_zero : copiesIn i q = 0 ↔ ∀ e ∈ q, e.link ≠ some i := by simp [copiesIn, List.countP_eq_zero]

end Queue

/-! ### The copies in the part -/

section Part

variable {s t : State} (i : TxIx)

theorem State.links_eq_sum (s : State) : s.links i = ∑ p : Port, copiesIn i (s.queue p) := by
  rw [State.links, ← List.countP_eq_length_filter, State.entries, List.countP_flatten, List.map_map, Fin.sum_univ_def]
  rfl

/-- A change at the queue of port `p` alone changes the copies by those of that queue. -/
theorem State.links_of_queue {p : Port} (others : ∀ x, x ≠ p → t.queue x = s.queue x) :
    t.links i + copiesIn i (s.queue p) = s.links i + copiesIn i (t.queue p) := by
  have rest : ∑ x ∈ Finset.univ.erase p, copiesIn i (t.queue x) = ∑ x ∈ Finset.univ.erase p, copiesIn i (s.queue x) :=
    Finset.sum_congr rfl fun x mem => by rw [others x (Finset.ne_of_mem_erase mem)]
  have before := Finset.add_sum_erase Finset.univ (fun x => copiesIn i (s.queue x)) (Finset.mem_univ p)
  have after := Finset.add_sum_erase Finset.univ (fun x => copiesIn i (t.queue x)) (Finset.mem_univ p)
  rw [State.links_eq_sum, State.links_eq_sum]
  omega

end Part

/-- `t` has the queues, the stamps and the Transaction Table of `s`. -/
structure SameTracking (s t : State) : Prop where
  queue : ∀ p, t.queue p = s.queue p
  nextStamp : t.nextStamp = s.nextStamp
  transactions : t.transactions = s.transactions

namespace SameTracking

variable {s t u : State}

theorem refl (s : State) : SameTracking s s := ⟨fun _ => rfl, rfl, rfl⟩

theorem trans (h : SameTracking s t) (k : SameTracking t u) : SameTracking s u :=
  ⟨fun p => (k.queue p).trans (h.queue p), k.nextStamp.trans h.nextStamp, k.transactions.trans h.transactions⟩

/-- A change of what is neither a port nor a stamp nor the table. -/
theorem of_ports (ports : t.ports = s.ports) (nextStamp : t.nextStamp = s.nextStamp)
    (transactions : t.transactions = s.transactions) : SameTracking s t :=
  ⟨fun p => by rw [State.queue, State.queue, State.port, State.port, ports], nextStamp, transactions⟩

theorem tx (h : SameTracking s t) (i : TxIx) : t.tx i = s.tx i := by rw [State.tx, State.tx, h.transactions]

theorem keyOf (h : SameTracking s t) (i : TxIx) : t.keyOf i = s.keyOf i := by rw [State.keyOf, State.keyOf, h.tx]

theorem links (h : SameTracking s t) (i : TxIx) : t.links i = s.links i := by
  rw [State.links_eq_sum, State.links_eq_sum]
  simp only [h.queue]

end SameTracking

section Same

variable (s : State) (p : Port)

theorem State.updPort_sameTracking {f : PortUnit → PortUnit} (queue : (f (s.port p)).queue = (s.port p).queue) :
    SameTracking s (s.updPort p f) := by
  refine ⟨fun q => ?_, rfl, rfl⟩
  rw [State.queue, State.port_updPort]
  split
  · rename_i here
    rw [here, queue, State.queue]
  · rfl

theorem State.countPort_sameTracking (c : PortCounter) : SameTracking s (s.countPort p c) := s.updPort_sameTracking p rfl

theorem State.count_sameTracking (c : CouplerCounter) : SameTracking s (s.count c) := .of_ports rfl rfl rfl

theorem State.setBuffer_sameTracking (b : BufferIx) (v : Buffer) : SameTracking s (s.setBuffer b v) := .of_ports rfl rfl rfl

theorem State.freeUp_sameTracking (b : BufferIx) : SameTracking s (s.freeUp b) := .of_ports rfl rfl rfl

theorem State.release_sameTracking (b : BufferIx) : SameTracking s (s.release b) := by
  unfold State.release
  split
  · split
    · exact s.freeUp_sameTracking b
    · exact s.setBuffer_sameTracking b _
  all_goals exact .refl s

theorem State.settleBuffer_sameTracking (b : BufferIx) (n : Nat) : SameTracking s (s.settleBuffer b n) := by
  unfold State.settleBuffer
  split
  · exact s.freeUp_sameTracking b
  · exact s.setBuffer_sameTracking b _

theorem State.countPortOpt_sameTracking (c : Option PortCounter) : SameTracking s (s.countPortOpt p c) := by
  cases c with
  | none => exact .refl s
  | some c => exact s.countPort_sameTracking p c

theorem State.toldDeparture_sameTracking (e : QueueEntry) : SameTracking s (s.toldDeparture e) := by
  rw [State.toldDeparture_eq]
  exact .of_ports rfl rfl rfl

theorem State.displace_sameTracking (e : QueueEntry) : SameTracking (s.dequeue p e) (s.displace p e) :=
  (State.release_sameTracking _ e.buffer).trans (State.countPort_sameTracking _ p .queueFull)

/-- A withdrawn entry leaves its queue without a report (R57). -/
theorem State.remove_withdrawn_sameTracking (e : QueueEntry) : SameTracking (s.dequeue p e) (s.remove p e .withdrawn) := by
  have removed := State.toldDeparture_sameTracking ((s.dequeue p e).release e.buffer) e
  unfold State.remove
  cases e.link with
  | none => exact (State.release_sameTracking _ e.buffer).trans removed
  | some i => exact (State.release_sameTracking _ e.buffer).trans removed

end Same

/-! ### The table held against the copies (R105) -/

/-- An entry of the Transaction Table that `n` copies are linked to: copies pending counts them, and an OPEN entry without
a deadline has one (R105). -/
def TxEntry.Counts : TxEntry → Nat → Prop
  | .free, n | .lapsed _ _ _, n => n = 0
  | .opened _ m d, n => n = m ∧ (1 ≤ m ∨ d.isSome = true)

/-- The key of an entry that is not FREE. -/
def TxEntry.key (e : TxEntry) : Option TxKey := e.core.map (·.key)

/-- Stamps are their entries' own (R51), withdrawn entries carry no link (R57), no two transactions share a key, and each
but `off` counts its copies (R105). -/
structure State.TracksBut (off : Option TxIx) (s : State) : Prop where
  stamped : ∀ p, Stamped s.nextStamp (s.queue p)
  unlinked : ∀ p, ∀ e ∈ s.queue p, e.pendingRemoval = some .withdrawn → e.link = none
  counts : ∀ i, some i ≠ off → (s.tx i).Counts (s.links i)
  keys : ∀ i j key, s.keyOf i = some key → s.keyOf j = some key → i = j

/-- The same with no transaction left out. -/
abbrev State.Tracks (s : State) : Prop := s.TracksBut none

/-- A copy of transaction `i` has left its queue, and the table has not yet heard of it (R112, R113). -/
structure State.OwesReport (i : TxIx) (s : State) : Prop where
  tracks : s.TracksBut (some i)
  counts : (s.tx i).Counts (s.links i + 1)

namespace State.TracksBut

variable {off : Option TxIx} {s t : State} {i : TxIx} {p : Port}

theorem but (h : s.Tracks) (off : Option TxIx) : s.TracksBut off :=
  ⟨h.stamped, h.unlinked, fun i _ => h.counts i (Option.some_ne_none i), h.keys⟩

theorem full (h : s.TracksBut (some i)) (counts : (s.tx i).Counts (s.links i)) : s.Tracks := by
  refine ⟨h.stamped, h.unlinked, fun j _ => ?_, h.keys⟩
  by_cases same : j = i
  · rw [same]
    exact counts
  · exact h.counts j fun e => same (Option.some.inj e)

theorem same (h : s.TracksBut off) (same : SameTracking s t) : t.TracksBut off := by
  refine ⟨fun p => ?_, fun p => ?_, fun i others => ?_, fun i j key => ?_⟩
  · rw [same.queue, same.nextStamp]
    exact h.stamped p
  · rw [same.queue]
    exact h.unlinked p
  · rw [same.tx, same.links]
    exact h.counts i others
  · rw [same.keyOf, same.keyOf]
    exact h.keys i j key

/-- A change at the queue of port `p` alone, of no copies but those of `off`. -/
theorem of_queue (h : s.TracksBut off) (others : ∀ x, x ≠ p → t.queue x = s.queue x)
    (transactions : t.transactions = s.transactions) (later : s.nextStamp ≤ t.nextStamp)
    (stamped : Stamped t.nextStamp (t.queue p))
    (unlinked : ∀ e ∈ t.queue p, e.pendingRemoval = some .withdrawn → e.link = none)
    (copies : ∀ i, some i ≠ off → copiesIn i (t.queue p) = copiesIn i (s.queue p)) : t.TracksBut off := by
  have tx (i : TxIx) : t.tx i = s.tx i := by rw [State.tx, State.tx, transactions]
  refine ⟨fun x => ?_, fun x => ?_, fun i counted => ?_, fun i j key => ?_⟩
  · by_cases here : x = p
    · rw [here]
      exact stamped
    · rw [others x here]
      exact (h.stamped x).later later
  · by_cases here : x = p
    · rw [here]
      exact unlinked
    · rw [others x here]
      exact h.unlinked x
  · have links : t.links i = s.links i := by
      have changed := State.links_of_queue i others
      have same := copies i counted
      omega
    rw [tx, links]
    exact h.counts i counted
  · rw [State.keyOf, State.keyOf, tx, tx]
    exact h.keys i j key

/-- An entry joins a queue, linked to nothing or to the transaction left out. -/
theorem enqueue (h : s.TracksBut off) {n : NewEntry} (link : n.link = none ∨ n.link = off) :
    (s.enqueue p n).TracksBut off := by
  have queue : (s.enqueue p n).queue p =
      insertEntry ⟨n.buffer, n.rank, s.nextStamp, 0, false, n.origin, n.link, none⟩ (s.queue p) :=
    (s.queue_setQueue p p _).trans (if_pos rfl)
  refine h.of_queue (p := p) (fun x other => (s.queue_setQueue p x _).trans (if_neg other)) rfl (Nat.le_succ _) ?_ ?_ ?_
  · rw [queue]
    exact (h.stamped p).of_queueMove (.joined _ rfl rfl rfl (Nat.lt_succ_self _))
  · rw [queue]
    intro e mem withdrawn
    obtain rfl | old := mem_insertEntry.mp mem
    · exact absurd withdrawn (Option.some_ne_none _).symm
    · exact h.unlinked p e old withdrawn
  · intro i counted
    have unlinked : n.link ≠ some i := by
      obtain none | left := link
      · rw [none]
        exact (Option.some_ne_none i).symm
      · rw [left]
        exact counted.symm
    rw [queue, copiesIn_insertEntry, if_neg unlinked]
    rfl

/-- An entry leaves a queue, linked to nothing or to the transaction left out. -/
theorem dequeue (h : s.TracksBut off) {e : QueueEntry} (mem : e ∈ s.queue p) (link : e.link = none ∨ e.link = off) :
    (s.dequeue p e).TracksBut off := by
  have queue : (s.dequeue p e).queue p = (s.queue p).filter fun x => x.stamp != e.stamp :=
    (s.queue_setQueue p p _).trans (if_pos rfl)
  refine h.of_queue (p := p) (fun x other => (s.queue_setQueue p x _).trans (if_neg other)) rfl (Nat.le_refl _) ?_ ?_ ?_
  · rw [queue]
    exact (h.stamped p).filter _
  · rw [queue]
    exact fun x old => h.unlinked p x (List.mem_filter.mp old).1
  · intro i counted
    have unlinked : e.link ≠ some i := by
      obtain none | left := link
      · rw [none]
        exact (Option.some_ne_none i).symm
      · rw [left]
        exact counted.symm
    have left := copiesIn_filter_stamp i (h.stamped p) mem
    rw [if_neg unlinked] at left
    rw [queue]
    exact left

/-- The entries of a queue written over, each keeping its stamp and a link that is not to the transaction left out. -/
theorem relabel (h : s.TracksBut off) (p : Port) {f : QueueEntry → QueueEntry} (stamp : ∀ e, (f e).stamp = e.stamp)
    (unlinked : ∀ e, (e.pendingRemoval = some .withdrawn → e.link = none) →
      (f e).pendingRemoval = some .withdrawn → (f e).link = none)
    (link : ∀ i, some i ≠ off → ∀ e, (f e).link = some i ↔ e.link = some i) :
    (s.setQueue p ((s.queue p).map f)).TracksBut off := by
  have queue := (s.queue_setQueue p p ((s.queue p).map f)).trans (if_pos rfl)
  refine h.of_queue (p := p) (fun x other => (s.queue_setQueue p x _).trans (if_neg other)) rfl (Nat.le_refl _) ?_ ?_ ?_
  · rw [queue]
    exact (h.stamped p).map stamp
  · rw [queue]
    intro x mem
    obtain ⟨e, old, rfl⟩ := List.mem_map.mp mem
    exact unlinked e (h.unlinked p e old)
  · intro i counted
    rw [queue]
    exact copiesIn_map i _ fun e _ => link i counted e

/-- A linked copy leaves its queue. -/
theorem owesReport (h : s.Tracks) {e : QueueEntry} (mem : e ∈ s.queue p) (link : e.link = some i) :
    (s.dequeue p e).OwesReport i := by
  refine ⟨(h.but (some i)).dequeue mem (.inr link), ?_⟩
  have queue : (s.dequeue p e).queue p = (s.queue p).filter fun x => x.stamp != e.stamp :=
    (s.queue_setQueue p p _).trans (if_pos rfl)
  have changed := State.links_of_queue (t := s.dequeue p e) (s := s) (p := p) i fun x other =>
    (s.queue_setQueue p x _).trans (if_neg other)
  have left := copiesIn_filter_stamp i (h.stamped p) mem
  rw [if_pos link] at left
  rw [queue] at changed
  have links : (s.dequeue p e).links i + 1 = s.links i := by omega
  rw [links]
  exact h.counts i (Option.some_ne_none i)

/-- The transaction left out is written again, under a key that no other holds. -/
theorem setTx (h : s.TracksBut (some i)) {e : TxEntry} (counts : e.Counts (s.links i))
    (key : ∀ k, e.key = some k → ∀ j, s.keyOf j = some k → j = i) : (s.setTx i e).Tracks := by
  have keyOf (j : TxIx) : (s.setTx i e).keyOf j = if j = i then e.key else s.keyOf j := by
    rw [State.keyOf, State.tx_setTx]
    split <;> rfl
  refine ⟨h.stamped, h.unlinked, fun j _ => ?_, fun j l k => ?_⟩
  · change ((s.setTx i e).tx j).Counts (s.links j)
    rw [State.tx_setTx]
    split
    · rename_i here
      rw [here]
      exact counts
    · rename_i other
      exact h.counts j fun e => other (Option.some.inj e)
  · rw [keyOf, keyOf]
    split
    · rename_i here
      rw [here]
      split
      · rename_i there
        exact fun _ _ => there.symm
      · exact fun held other => (key k held l other).symm
    · split
      · rename_i there
        rw [there]
        exact fun other held => key k held j other
      · exact h.keys j l k

theorem setTx_free (h : s.TracksBut (some i)) (none : s.links i = 0) : (s.setTx i .free).Tracks :=
  h.setTx none fun _ key => absurd key (Option.some_ne_none _).symm

theorem setTx_sameKey (h : s.TracksBut (some i)) {e : TxEntry} (counts : e.Counts (s.links i)) (key : e.key = s.keyOf i) :
    (s.setTx i e).Tracks :=
  h.setTx counts fun k held j other => h.keys j i k other (key.symm.trans held)

end State.TracksBut

namespace State.OwesReport

variable {s t : State} {i : TxIx}

theorem same (h : s.OwesReport i) (same : SameTracking s t) : t.OwesReport i := by
  refine ⟨h.tracks.same same, ?_⟩
  rw [same.tx, same.links]
  exact h.counts

/-- The entry a report is owed to is OPEN, and counts the copy that has left. -/
theorem opened (h : s.OwesReport i) : ∃ c d, s.tx i = .opened c (s.links i + 1) d := by
  have counts := h.counts
  cases entry : s.tx i with
  | free =>
    rw [entry] at counts
    exact absurd counts (Nat.succ_ne_zero _)
  | lapsed c m g =>
    rw [entry] at counts
    exact absurd counts (Nat.succ_ne_zero _)
  | opened c m d =>
    rw [entry] at counts
    obtain ⟨rfl, -⟩ := counts
    exact ⟨c, d, rfl⟩

end State.OwesReport

end Sys2Proof.Machine
end

