-- ==== Sys2Proof/Proofs/CopyReports.lean ====
section
/-! SUPPORT. Reports and notices keep every transaction counting its copies (R105, R112, R113): a report makes up for the copy
that left, and so does the report of the copy that its notice may displace. -/

namespace Sys2Proof.Machine

/-! ### One report -/

section Reports

variable {s : State} {i : TxIx}

/-- A copy that went without completing is made up for (R113). -/
theorem State.OwesReport.dropCopy (h : s.OwesReport i) : (s.dropCopy i).2.Tracks := by
  obtain ⟨c, d, entry⟩ := h.opened
  have key {n : Nat} {d' : Option Deadline} : (TxEntry.opened c n d').key = s.keyOf i := by
    rw [State.keyOf, entry]
    rfl
  have counts := h.counts
  rw [entry] at counts
  unfold State.dropCopy
  rw [entry]
  cases d with
  | some d => exact h.tracks.setTx_sameKey ⟨rfl, .inr rfl⟩ key
  | none =>
    dsimp only
    split
    · exact h.tracks.setTx_free (by omega)
    · exact h.tracks.setTx_sameKey ⟨rfl, .inl (by omega)⟩ key

/-- A completed copy is made up for (R112). -/
theorem State.OwesReport.reportCompleted (h : s.OwesReport i) (p : Port) : (s.reportCompleted i p).Tracks := by
  obtain ⟨c, d, entry⟩ := h.opened
  unfold State.reportCompleted
  rw [entry]
  refine h.tracks.setTx_sameKey ⟨rfl, .inr rfl⟩ ?_
  rw [State.keyOf, entry]
  rfl

end Reports

/-! ### Admission and generated frames (R47, R52, R53) -/

/-- A report makes up for the copy it is about, on a part with less than `n` OPEN entries. -/
def MakesUp (n : Nat) (report : Owed → TxIx → State → State) : Prop :=
  ∀ owed i s, s.openEntries.card < n → s.OwesReport i → (report owed i s).Tracks

theorem State.openEntries_of_transactions {s t : State} (same : t.transactions = s.transactions) :
    t.openEntries = s.openEntries := by
  unfold State.openEntries State.tx
  rw [same]

section Admission

variable {s : State} {p : Port} {n : Nat} {report : Owed → TxIx → State → State}

/-- An entry displaced, and reported if it is a copy (R53). -/
theorem State.makePlace_tracks (makesUp : MakesUp n report) (few : s.openEntries.card < n) (owed : Owed) (m : Nat)
    (r : Rank) (o : Origin) (h : s.Tracks) : (s.makePlace report owed m p r o).2.Tracks := by
  unfold State.makePlace
  split
  · exact h
  · rename_i e judged
    obtain ⟨mem, -⟩ := State.judgeAdmission_displaces judged
    have left := s.displace_sameTracking p e
    split
    · rename_i i link
      refine makesUp _ i _ ?_ ((h.owesReport mem link).same left)
      rwa [State.openEntries_of_transactions (transactions_displace s p e)]
    · rename_i link
      exact (h.dequeue mem (.inl link)).same left
  all_goals exact h.same (s.countPort_sameTracking p _)

theorem State.joinGenerated_tracks (cs : List Byte) (h : s.Tracks) : (s.joinGenerated p cs).2.Tracks := by
  unfold State.joinGenerated
  split
  · exact h
  · exact (h.enqueue (.inl rfl)).same (.of_ports rfl rfl rfl)

theorem State.placeGenerated_tracks (makesUp : MakesUp n report) (few : s.openEntries.card < n) (owed : Owed)
    (cs : List Byte) (h : s.Tracks) : (s.placeGenerated report owed p cs).2.Tracks := by
  unfold State.placeGenerated
  split
  · exact h
  · have placed := State.makePlace_tracks (p := p) makesUp few owed 1 .express .generated h
    split <;> rename_i e <;> rw [e] at placed
    · exact State.joinGenerated_tracks cs placed
    all_goals exact placed

end Admission

theorem State.countNotice_tracks {r : Option BufferIx × State} (h : r.2.Tracks) : (State.countNotice r).Tracks := by
  obtain ⟨placed, t⟩ := r
  cases placed with
  | none => exact h.same (t.count_sameTracking .noticesLost)
  | some b => exact h.same (t.count_sameTracking .noticesSent)

/-- Each turn of a chain of reports closes one OPEN entry, so that the chain ends with every copy made up for. -/
theorem copyRemoved_makesUp (fuel : Nat) (loss : CopyLoss) : MakesUp fuel (copyRemoved fuel loss) := by
  induction fuel generalizing loss with
  | zero => exact fun _ _ _ few => absurd few (Nat.not_lt_zero _)
  | succ fuel ih =>
    intro owed i s few owes
    have dropped := owes.dropCopy
    unfold copyRemoved
    split <;> rename_i e <;> rw [e] at dropped
    · exact dropped
    · obtain ⟨isOpen, rfl⟩ := dropCopy_some e
      have fewer := openEntries_setTx_free_lt s i isOpen
      exact State.countNotice_tracks (State.placeGenerated_tracks (ih .queueFull) (by omega) owed _ dropped)

/-- The reports of a step have fuel for every OPEN entry (log 30). -/
theorem copyRemoved_tracks {s : State} {i : TxIx} (loss : CopyLoss) (owed : Owed) (h : s.OwesReport i) :
    (copyRemoved 33 loss owed i s).Tracks :=
  copyRemoved_makesUp 33 loss owed i s (Nat.lt_succ_of_le (openEntries_card_le s)) h

/-! ### Notices, alerts and removals -/

section Notices

variable {s : State} {p : Port}

/-- An entry linked to nothing asks for a place. -/
theorem State.requestAdmission_tracks {n : NewEntry} (unlinked : n.link = none) (h : s.Tracks) :
    (s.requestAdmission p n).2.Tracks := by
  have placed := State.makePlace_tracks (p := p) (copyRemoved_makesUp 33 .queueFull)
    (Nat.lt_succ_of_le (openEntries_card_le s)) .nothing 0 n.rank n.origin h
  unfold State.requestAdmission
  split <;> rename_i e <;> rw [e] at placed
  · exact placed.enqueue (.inl unlinked)
  all_goals exact placed

theorem State.generate_tracks (cs : List Byte) (h : s.Tracks) : (s.generate p cs).2.Tracks :=
  State.placeGenerated_tracks (copyRemoved_makesUp 33 .queueFull) (Nat.lt_succ_of_le (openEntries_card_le s)) .nothing cs h

theorem State.sendNotice_tracks (cs : List Byte) (h : s.Tracks) : (s.sendNotice p cs).Tracks :=
  State.countNotice_tracks (State.generate_tracks cs h)

theorem State.notify_tracks (key : TxKey) (cause : NoticeCause) (h : s.Tracks) : (s.notify p key cause).Tracks :=
  State.sendNotice_tracks _ h

theorem State.alertNotice_tracks (c : AlertCause) (h : s.Tracks) : (s.alertNotice c).Tracks := by
  unfold State.alertNotice
  dsimp only
  split
  · exact h
  · split
    · exact State.sendNotice_tracks _ h
    · exact h.same (s.count_sameTracking _)

theorem State.raise_tracks (c : AlertCause) (h : s.Tracks) : (s.raise c).Tracks := by
  have driven {t : State} (ports : t.ports = s.ports) (stamps : t.nextStamp = s.nextStamp)
      (table : t.transactions = s.transactions) : t.Tracks := h.same (.of_ports ports stamps table)
  unfold State.raise
  dsimp only
  split
  · exact h
  · split
    · exact driven rfl rfl rfl
    · refine State.alertNotice_tracks c ?_
      split <;> exact driven rfl rfl rfl

/-- A copy that left is reported, whatever removed it but a withdrawal (R55). -/
theorem State.reportRemoval_tracks {i : TxIx} {c : RemovalCause} (reported : c ≠ .withdrawn) (h : s.OwesReport i) :
    (s.reportRemoval p i c).Tracks := by
  cases c with
  | completion => exact h.reportCompleted p
  | withdrawn => exact absurd rfl reported
  | undeliverable => exact copyRemoved_tracks .undeliverable .nothing h
  | window => exact copyRemoved_tracks .window .nothing h
  | unreachable => exact copyRemoved_tracks .contained .nothing h

/-- An entry removed: one that is a copy is reported, unless it is withdrawn, when it is none (R55, R57). -/
theorem State.remove_tracks {e : QueueEntry} {c : RemovalCause} (mem : e ∈ s.queue p)
    (withdrawn : c = .withdrawn → e.link = none) (h : s.Tracks) : (s.remove p e c).Tracks := by
  have counted : SameTracking (s.dequeue p e) (((s.dequeue p e).release e.buffer).countPortOpt p c.counter) :=
    (State.release_sameTracking _ e.buffer).trans (State.countPortOpt_sameTracking _ p c.counter)
  unfold State.remove
  refine State.TracksBut.same ?_ (State.toldDeparture_sameTracking _ e)
  cases link : e.link with
  | none => exact (h.dequeue mem (.inl link)).same counted
  | some i =>
    refine State.reportRemoval_tracks (fun cause => ?_) ((h.owesReport mem link).same counted)
    exact absurd (link.symm.trans (withdrawn cause)) (Option.some_ne_none i)

end Notices

/-! ### Purges -/

/-- Removals that are reported. -/
theorem removeAll_tracks {p : Port} {doomed : QueueEntry → Bool} {c : RemovalCause} (reported : c ≠ .withdrawn) (n : Nat)
    {s : State} (h : s.Tracks) : (removeAll p doomed c n s).Tracks := by
  induction n generalizing s with
  | zero => exact h
  | succ n ih =>
    unfold removeAll
    split
    · rename_i e found
      exact ih (State.remove_tracks (List.mem_of_find?_eq_some found) (fun cause => absurd cause reported) h)
    · exact h

section Purges

variable {s : State}

theorem State.purgeUnreachable_tracks (p : Port) (h : s.Tracks) : (s.purgeUnreachable p).Tracks :=
  removeAll_tracks RemovalCause.noConfusion _ h

/-- A window purge marks or removes what the disposition refuses (R56). -/
theorem State.purgeWindow_tracks (p : Port) (h : s.Tracks) : (s.purgeWindow p).Tracks := by
  unfold State.purgeWindow
  refine removeAll_tracks RemovalCause.noConfusion _ (h.relabel p (fun e => ?_) (fun e unlinked => ?_) fun i _ e => ?_)
  · split <;> rfl
  · split
    · exact fun withdrawn => PendingRemoval.noConfusion (Option.some.inj withdrawn)
    · exact unlinked
  · split <;> rfl

theorem foldl_tracks {α : Type} {f : State → α → State} (keeps : ∀ s a, s.Tracks → (f s a).Tracks) (l : List α) (s : State)
    (h : s.Tracks) : (l.foldl f s).Tracks := by
  induction l generalizing s with
  | nil => exact h
  | cons a l ih => exact ih _ (keeps s a h)

theorem State.evaluate_tracks (h : s.Tracks) : s.evaluate.Tracks := by
  refine foldl_tracks (fun t p tracks => ?_) _ _ (h.same (.of_ports rfl rfl rfl))
  split
  · exact State.purgeWindow_tracks p tracks
  · exact tracks

end Purges

end Sys2Proof.Machine
end

