-- ==== Sys2Proof/Proofs/CopyAccounts.lean ====
section
/-! SUPPORT. The Transaction Table keeps its account of copies (R105): a withdrawal leaves a transaction without copies (R57),
the requests for its copies are counted as they are admitted (R110, R117), and its entry is then written to match. -/

namespace Sys2Proof.Machine

/-! ### Withdrawals (R57) -/

/-- In `t` nothing of the table has changed since `s`, and all but transaction `i` count their copies, of which the queues
of `ports` hold none for `i`. -/
structure WithdrawnAt (ports : List Port) (i : TxIx) (s t : State) : Prop where
  tracks : t.TracksBut (some i)
  transactions : t.transactions = s.transactions
  copies : ∀ p, p ∈ ports ∨ copiesIn i (s.queue p) = 0 → copiesIn i (t.queue p) = 0

section Withdrawals

variable {s : State} {i : TxIx} {p : Port}

theorem State.queue_dequeue (s : State) (p x : Port) (e : QueueEntry) :
    (s.dequeue p e).queue x = if x = p then (s.queue p).filter fun y => y.stamp != e.stamp else s.queue x :=
  s.queue_setQueue p x _

/-- A copy of transaction `i` withdrawn. -/
theorem State.TracksBut.remove_withdrawn (h : s.TracksBut (some i)) {e : QueueEntry} (mem : e ∈ s.queue p)
    (link : e.link = some i) : (s.remove p e .withdrawn).TracksBut (some i) :=
  (h.dequeue mem (.inr link)).same (s.remove_withdrawn_sameTracking p e)

/-- Every copy of transaction `i` withdrawn from one queue. -/
theorem removeAll_withdraws (n : Nat) (h : s.TracksBut (some i)) (fits : (s.queue p).length ≤ n) :
    WithdrawnAt [p] i s (removeAll p (fun e => e.link == some i) .withdrawn n s) := by
  have unlinked {t : State} (none : ∀ e ∈ t.queue p, e.link ≠ some i) (x : Port)
      (at_x : x ∈ [p] ∨ copiesIn i (t.queue x) = 0) : copiesIn i (t.queue x) = 0 := by
    obtain here | clear := at_x
    · rw [List.mem_singleton.mp here, copiesIn_eq_zero]
      exact none
    · exact clear
  induction n generalizing s with
  | zero =>
    have empty : s.queue p = [] := List.length_eq_zero_iff.mp (Nat.le_zero.mp fits)
    exact ⟨h, rfl, unlinked fun e mem => by rw [empty] at mem; exact absurd mem List.not_mem_nil⟩
  | succ n ih =>
    unfold removeAll
    split
    · rename_i e found
      have mem := List.mem_of_find?_eq_some found
      have link : e.link = some i := beq_iff_eq.mp (List.find?_some (p := fun x : QueueEntry => x.link == some i) found)
      have left := s.remove_withdrawn_sameTracking p e
      have shorter : ((s.remove p e .withdrawn).queue p).length ≤ n := by
        rw [left.queue, State.queue_dequeue, if_pos rfl]
        have := filter_stamp_length (s.queue p) e mem
        omega
      obtain ⟨tracks, transactions, copies⟩ := ih (h.remove_withdrawn mem link) shorter
      refine ⟨tracks, transactions.trans left.transactions, fun x at_x => ?_⟩
      by_cases here : x = p
      · exact copies x (.inl (List.mem_singleton.mpr here))
      · refine copies x (.inr ?_)
        rw [left.queue, State.queue_dequeue, if_neg here]
        exact at_x.resolve_left fun mem => here (List.mem_singleton.mp mem)
    · rename_i none
      exact ⟨h, rfl, unlinked fun e mem link => List.find?_eq_none.mp none e mem (beq_iff_eq.mpr link)⟩

/-- The copies in one queue withdrawn, one in transmission losing its link. -/
theorem State.withdrawFrom_withdraws (p : Port) (h : s.TracksBut (some i)) : WithdrawnAt [p] i s (s.withdrawFrom i p) := by
  have other {e : QueueEntry} (linked : (e.inTx && e.link == some i) = true) (j : TxIx) (apart : some j ≠ some i) :
      e.link ≠ some j := by
    simp only [Bool.and_eq_true, beq_iff_eq] at linked
    rw [linked.2]
    exact apart.symm
  have unlinked := h.relabel p (f := fun e =>
    if e.inTx && e.link == some i then { e with link := none, pendingRemoval := some .withdrawn } else e)
    (fun e => by split <;> rfl) (fun e unlinked => by split; exacts [fun _ => rfl, unlinked])
    fun j apart e => by
      split
      · rename_i linked
        exact iff_of_false (Option.some_ne_none j).symm (other linked j apart)
      · rfl
  obtain ⟨tracks, transactions, copies⟩ := removeAll_withdraws (p := p) _ unlinked (Nat.le_refl _)
  refine ⟨tracks, transactions, fun x at_x => ?_⟩
  by_cases here : x = p
  · exact copies x (.inl (List.mem_singleton.mpr here))
  · refine copies x (.inr ?_)
    rw [State.queue_setQueue, if_neg here]
    exact at_x.resolve_left fun mem => here (List.mem_singleton.mp mem)

theorem foldl_withdraws (ps : List Port) (h : s.TracksBut (some i)) :
    WithdrawnAt ps i s (ps.foldl (fun s p => s.withdrawFrom i p) s) := by
  induction ps generalizing s with
  | nil => exact ⟨h, rfl, fun p at_p => at_p.resolve_left List.not_mem_nil⟩
  | cons p ps ih =>
    obtain ⟨tracks, transactions, copies⟩ := State.withdrawFrom_withdraws p h
    obtain ⟨tracks', transactions', copies'⟩ := ih tracks
    refine ⟨tracks', transactions'.trans transactions, fun x at_x => copies' x ?_⟩
    obtain mem | clear := at_x
    · obtain here | later := List.mem_cons.mp mem
      · exact .inr (copies x (.inl (List.mem_singleton.mpr here)))
      · exact .inl later
    · exact .inr (copies x (.inr clear))

/-- A withdrawal leaves transaction `i` without copies, and the table as it was. -/
theorem State.withdraw_withdraws (h : s.TracksBut (some i)) : WithdrawnAt allPorts i s (s.withdraw i) :=
  foldl_withdraws allPorts h

/-- A queue of every port was visited. -/
theorem WithdrawnAt.links {t : State} (h : WithdrawnAt allPorts i s t) : t.links i = 0 := by
  rw [State.links_eq_sum]
  exact Finset.sum_eq_zero fun p _ => h.copies p (.inl (List.mem_finRange p))

theorem WithdrawnAt.tx {t : State} {ps : List Port} (h : WithdrawnAt ps i s t) (j : TxIx) : t.tx j = s.tx j := by
  rw [State.tx, State.tx, h.transactions]

/-- Transaction `i` closed, its copies withdrawn. -/
theorem State.closed_tracks (i : TxIx) (h : s.Tracks) : ((s.withdraw i).setTx i .free).Tracks :=
  have withdrawn := State.withdraw_withdraws (h.but (some i))
  withdrawn.tracks.setTx_free withdrawn.links

end Withdrawals

/-! ### Requests for copies (R54, R110) -/

section Requests

variable {s : State} {i : TxIx}

theorem State.links_enqueue (s : State) (p : Port) {n : NewEntry} (link : n.link = some i) :
    (s.enqueue p n).links i = s.links i + 1 := by
  have queue : (s.enqueue p n).queue p =
      insertEntry ⟨n.buffer, n.rank, s.nextStamp, 0, false, n.origin, n.link, none⟩ (s.queue p) :=
    (s.queue_setQueue p p _).trans (if_pos rfl)
  have changed := State.links_of_queue (t := s.enqueue p n) (s := s) (p := p) i fun x other =>
    (s.queue_setQueue p x _).trans (if_neg other)
  rw [queue, copiesIn_insertEntry, if_pos link] at changed
  omega

/-- The copies of transaction `i` as requests for more leave them: as many more as were admitted. -/
structure Copied (i : TxIx) (admitted : Nat) (s t : State) : Prop where
  tracks : t.TracksBut (some i)
  links : t.links i = s.links i + admitted
  transactions : t.transactions = s.transactions

theorem Copied.of_same {t : State} (h : s.TracksBut (some i)) (same : SameTracking s t) : Copied i 0 s t :=
  ⟨h.same same, same.links i, same.transactions⟩

theorem State.requestAdmission_copied {n : NewEntry} (link : n.link = some i) (classRank : n.rank ≠ .express)
    (forwarded : n.origin = .forwarded) (p : Port) (h : s.TracksBut (some i)) :
    Copied i (admittedCount [(s.requestAdmission p n).1]) s (s.requestAdmission p n).2 := by
  rw [s.requestAdmission_of_classRank p classRank forwarded, State.offerTo]
  cases s.verdictFor p n.rank with
  | admitted => exact ⟨h.enqueue (.inr link), s.links_enqueue p link, rfl⟩
  | unreachable => exact .of_same h (s.countPort_sameTracking p _)
  | window => exact .of_same h (s.countPort_sameTracking p _)
  | queueFull => exact .of_same h (s.countPort_sameTracking p _)

theorem admittedCount_cons (v : Verdict) (vs : List Verdict) :
    admittedCount (v :: vs) = admittedCount [v] + admittedCount vs := by
  rw [admittedCount, admittedCount, admittedCount, ← List.length_append, ← List.filter_append]
  rfl

theorem admitEach_copied {n : NewEntry} (link : n.link = some i) (classRank : n.rank ≠ .express)
    (forwarded : n.origin = .forwarded) (ps : List Port) (h : s.TracksBut (some i)) :
    Copied i (admittedCount (admitEach n ps s).1) s (admitEach n ps s).2 := by
  induction ps generalizing s with
  | nil => exact ⟨h, rfl, rfl⟩
  | cons p ps ih =>
    have asked := State.requestAdmission_copied link classRank forwarded p h
    have rest := ih asked.tracks
    refine ⟨rest.tracks, ?_, rest.transactions.trans asked.transactions⟩
    have counted := admittedCount_cons (s.requestAdmission p n).1 (admitEach n ps (s.requestAdmission p n).2).1
    have before := asked.links
    have after := rest.links
    change (admitEach n ps (s.requestAdmission p n).2).2.links i =
      s.links i + admittedCount ((s.requestAdmission p n).1 :: (admitEach n ps (s.requestAdmission p n).2).1)
    omega

theorem admitEach_tracks {n : NewEntry} (unlinked : n.link = none) (ps : List Port) (h : s.Tracks) :
    (admitEach n ps s).2.Tracks := by
  induction ps generalizing s with
  | nil => exact h
  | cons p ps ih => exact ih (State.requestAdmission_tracks unlinked h)

end Requests

/-! ### Tracked requests (R107 to R111, R116 to R119) -/

section Tracked

variable {s : State}

theorem TxEntry.Counts.opened {c : TxCore} {n m : Nat} (copies : n = m) (some : m ≠ 0) :
    (TxEntry.opened c m none).Counts n := ⟨copies, .inl (Nat.one_le_iff_ne_zero.mpr some)⟩

theorem State.refuse_tracks (r : Tracked) (cause : NoticeCause) (h : s.Tracks) : (s.refuse r cause).Tracks :=
  (State.notify_tracks _ _ h).same (State.settleBuffer_sameTracking _ _ _)

theorem State.refuseAtLimit_tracks (r : Tracked) (h : s.Tracks) : (s.refuseAtLimit r).Tracks :=
  State.refuse_tracks r _ (h.same (s.count_sameTracking _))

/-- What is found is LAPSED. -/
theorem State.oldestLapsed_lapsed {i : TxIx} (found : s.oldestLapsed = some i) : ∃ n, (s.tx i).stamp = some n := by
  have lapsed (l : List TxIx) (best : Option TxIx) (before : ∀ j, best = some j → ∃ n, (s.tx j).stamp = some n) :
      ∀ j, l.foldl s.olderLapsed best = some j → ∃ n, (s.tx j).stamp = some n := by
    induction l generalizing best with
    | nil => exact before
    | cons t l ih => exact ih _ (State.olderLapsed_lapsed t before)
  exact lapsed allTx none (fun _ absent => absurd absent.symm (Option.some_ne_none _)) i found

/-- The entry a request is given is FREE or LAPSED, and without copies (R109). -/
theorem State.links_of_allocate {i : TxIx} (h : s.Tracks) (given : s.allocate = some i) : s.links i = 0 := by
  have counts := h.counts i (Option.some_ne_none i)
  unfold State.allocate at given
  split at given
  · rename_i j found
    obtain rfl := Option.some.inj given
    rw [(TxEntry.isFree_iff _).mp (List.find?_some (p := fun t => (s.tx t).isFree) found)] at counts
    exact counts
  · obtain ⟨n, stamped⟩ := State.oldestLapsed_lapsed given
    obtain ⟨c, g, entry⟩ := (TxEntry.stamp_eq_some_iff _ n).mp stamped
    rw [entry] at counts
    exact counts

theorem State.keyOf_of_findKey_none {key : TxKey} (absent : s.findKey key = none) (i : TxIx) : s.keyOf i ≠ some key :=
  fun held => List.find?_eq_none.mp absent i (mem_allTx i) (beq_iff_eq.mpr held)

theorem State.keyOf_of_findKey_some {key : TxKey} {i : TxIx} (found : s.findKey key = some i) : s.keyOf i = some key :=
  beq_iff_eq.mp (List.find?_some (p := fun t => ((s.tx t).core.map (·.key)) == some key) found)

/-- A request of a key the table does not hold opens an entry for the copies admitted, or leaves it FREE. -/
theorem State.openRequest_tracks {r : Tracked} (classRank : r.rank ≠ .express) (absent : ∀ i, s.keyOf i ≠ some r.key)
    (h : s.Tracks) : (s.openRequest r).Tracks := by
  unfold State.openRequest
  split
  · exact State.refuseAtLimit_tracks r h
  · split
    · exact State.refuse_tracks r _ (State.raise_tracks _ (h.same (s.count_sameTracking _)))
    · rename_i i given
      have none := State.links_of_allocate h given
      have freed : (s.setTx i .free).Tracks := (h.but (some i)).setTx_free none
      have asked := admitEach_copied (n := ⟨r.buffer, r.rank, .forwarded, some i⟩) rfl classRank rfl r.targets
        (freed.but (some i))
      dsimp only
      generalize admitEach ⟨r.buffer, r.rank, .forwarded, some i⟩ r.targets (s.setTx i .free) = answers at asked
      have links : answers.2.links i = admittedCount answers.1 := by
        rw [asked.links, show (s.setTx i .free).links i = 0 from none, Nat.zero_add]
      have tx (j : TxIx) : answers.2.tx j = if j = i then .free else s.tx j := by
        rw [← State.tx_setTx, State.tx, asked.transactions, State.tx]
      split
      · rename_i untaken
        refine State.refuse_tracks r _ (asked.tracks.full ?_)
        rw [tx, if_pos rfl, links, untaken]
        rfl
      · rename_i taken
        refine ((asked.tracks.setTx (.opened links taken) fun k key j held => ?_).same
          (State.count_sameTracking _ _)).same (State.settleBuffer_sameTracking _ _ _)
        obtain rfl := Option.some.inj key
        rw [State.keyOf, tx] at held
        split at held
        · assumption
        · exact absurd held (absent j)

/-- A retry sent afresh counts the copies it is given, or frees its entry (R117 to R119). -/
theorem State.sendAfresh_tracks {i : TxIx} {c : TxCore} {r : Tracked} (classRank : r.rank ≠ .express)
    (h : s.TracksBut (some i)) (none : s.links i = 0) (key : s.keyOf i = some c.key) : (s.sendAfresh i c r).Tracks := by
  unfold State.sendAfresh
  dsimp only
  generalize retryTargets _ r = targets
  have asked := admitEach_copied (n := ⟨r.buffer, r.rank, .forwarded, some i⟩) rfl classRank rfl targets h
  generalize admitEach ⟨r.buffer, r.rank, .forwarded, some i⟩ targets s = answers at asked
  have links : answers.2.links i = admittedCount answers.1 := by rw [asked.links, none, Nat.zero_add]
  have keyOf : answers.2.keyOf i = some c.key := by rw [← key, State.keyOf, State.tx, asked.transactions]; rfl
  split
  · rename_i untaken
    exact State.refuse_tracks r _ (asked.tracks.setTx_free (links.trans untaken))
  · rename_i taken
    refine (asked.tracks.setTx_sameKey (.opened links taken) ?_).same (State.settleBuffer_sameTracking _ _ _)
    exact keyOf.symm

theorem State.track_tracks {r : Tracked} (classRank : r.rank ≠ .express) (h : s.Tracks) : (s.track r).Tracks := by
  unfold State.track
  split
  · rename_i absent
    exact State.openRequest_tracks classRank (State.keyOf_of_findKey_none absent) h
  · rename_i i found
    have key := State.keyOf_of_findKey_some found
    have counts := h.counts i (Option.some_ne_none i)
    split <;> rename_i entry
    · exact (h.same (s.count_sameTracking _)).same (State.settleBuffer_sameTracking _ _ _)
    · have withdrawn := State.withdraw_withdraws (h.but (some i))
      refine State.sendAfresh_tracks classRank withdrawn.tracks withdrawn.links ?_
      rw [State.keyOf, withdrawn.tx, entry]
      rfl
    · split
      · exact State.refuseAtLimit_tracks r h
      · rw [entry] at counts
        exact State.sendAfresh_tracks classRank (h.but (some i)) counts (State.keyOf_of_lapsed entry)
    · rw [State.keyOf, entry] at key
      exact absurd key.symm (Option.some_ne_none _)

end Tracked

/-! ### Answers, lapses and ports that leave service (R120 to R125) -/

section Closing

variable {s : State}

theorem State.forwardAnswer_tracks (p q : Port) (b : BufferIx) (h : s.Tracks) : (s.forwardAnswer p q b).Tracks := by
  unfold State.forwardAnswer
  split
  · exact h.same (s.settleBuffer_sameTracking b 0)
  · have asked := State.requestAdmission_tracks (p := q) (n := ⟨b, .express, .forwarded, none⟩) rfl h
    split <;> rename_i e <;> rw [e] at asked <;> exact asked.same (State.settleBuffer_sameTracking _ b _)

theorem State.counted_tracks (c : CouplerCounter) (b : BufferIx) (h : s.Tracks) : ((s.count c).settleBuffer b 0).Tracks :=
  (h.same (s.count_sameTracking c)).same (State.settleBuffer_sameTracking _ b 0)

theorem State.answer_tracks (p : Port) (key : TxKey) (b : BufferIx) (h : s.Tracks) : (s.answer p key b).Tracks := by
  unfold State.answer
  split
  · exact State.counted_tracks _ b h
  · split
    · exact State.forwardAnswer_tracks p _ b ((State.closed_tracks _ h).same (State.count_sameTracking _ _))
    all_goals exact State.counted_tracks _ b h

/-- A report leaves FREE and LAPSED entries so. -/
theorem Reporting.notOpen {t : State} (h : Reporting s t) {i : TxIx} (closed : (s.tx i).isOpen = false) :
    (t.tx i).isOpen = false := by
  obtain same | free | ⟨c, n, m, d, opened, -⟩ := h.purging.fades i
  · rw [same, closed]
  · rw [free]
    rfl
  · rw [opened] at closed
    exact Bool.noConfusion closed

/-- An entry that is not OPEN has no copies. -/
theorem State.TracksBut.links_of_notOpen {i : TxIx} (h : s.Tracks) (closed : (s.tx i).isOpen = false) : s.links i = 0 := by
  have counts := h.counts i (Option.some_ne_none i)
  cases entry : s.tx i with
  | free =>
    rw [entry] at counts
    exact counts
  | lapsed c m g =>
    rw [entry] at counts
    exact counts
  | opened c n d =>
    rw [entry] at closed
    exact Bool.noConfusion closed

theorem State.setLapsed_sameTracking (s : State) (i : TxIx) (c : TxCore) :
    SameTracking (s.setTx i (.lapsed c s.nextLapse s.params.lapseGrace)) (s.setLapsed i c) := .of_ports rfl rfl rfl

/-- A deadline that expires (R123): the entry lapses without copies, and stays without them while its notice is made. -/
theorem State.lapse_tracks (i : TxIx) (h : s.Tracks) : (s.lapse i).Tracks := by
  unfold State.lapse
  split
  · rename_i c n d entry
    have withdrawn := State.withdraw_withdraws (h.but (some i))
    have lapsed : ((s.withdraw i).setLapsed i c).Tracks := by
      refine (withdrawn.tracks.setTx_sameKey (e := .lapsed c _ _) withdrawn.links ?_).same
        (State.setLapsed_sameTracking _ i c)
      rw [State.keyOf, withdrawn.tx, entry]
      rfl
    have told := State.notify_tracks (p := c.requesterSegment) c.key .noAnswer
      (lapsed.same (State.count_sameTracking _ .txLapsed))
    unfold State.freeWithoutGrace
    split
    · refine (told.but (some i)).setTx_free (told.links_of_notOpen ((State.notify_reporting _ _ _ _).notOpen ?_))
      rw [(State.count_sameTracking _ .txLapsed).tx, (State.setLapsed_sameTracking _ i c).tx, State.tx_setTx, if_pos rfl]
      rfl
    · exact told
  all_goals exact h

theorem State.endGrace_tracks (i : TxIx) (h : s.Tracks) : (s.endGrace i).Tracks := by
  unfold State.endGrace
  split
  · rename_i entry
    exact (h.but (some i)).setTx_free (h.links_of_notOpen (by rw [entry]; rfl))
  all_goals exact h

theorem State.closeFor_tracks (p : Port) (i : TxIx) (h : s.Tracks) : (s.closeFor p i).Tracks := by
  have closed := State.closed_tracks i h
  unfold State.closeFor
  split
  · split
    · exact closed
    · split
      · split
        · exact State.notify_tracks _ _ closed
        · exact h
      · exact h
  all_goals exact h

theorem State.portLeft_tracks (p : Port) (h : s.Tracks) : (s.portLeft p).Tracks :=
  foldl_tracks (fun _ i => State.closeFor_tracks p i) allTx s h

end Closing

end Sys2Proof.Machine
end

