-- ==== Sys2Proof/Proofs/CopyPorts.lean ====
section
/-! SUPPORT. The ports and the calendar keep the account of copies (R105): whatever a port does with its queue, an entry that
leaves it is reported or is a copy no longer. -/

namespace Sys2Proof.Machine

/-! ### Ports (chapter 2) -/

section Ports

variable {s : State} {p : Port}

theorem State.updPort_tracks {f : PortUnit → PortUnit} (queue : (f (s.port p)).queue = (s.port p).queue) (h : s.Tracks) :
    (s.updPort p f).Tracks := h.same (s.updPort_sameTracking p queue)

theorem State.setPortState_tracks (st : PortState) (h : s.Tracks) : (s.setPortState p st).Tracks :=
  State.updPort_tracks rfl h

theorem State.enterMonitored_tracks (st : PortState) (h : s.Tracks) : (s.enterMonitored p st).Tracks :=
  State.updPort_tracks rfl h

/-- A port that starts marks an entry, and leaves its stamp and its link (R22). -/
theorem State.started_tracks (p : Port) (h : s.Tracks) : (s.updPort p PortUnit.started).Tracks := by
  cases start : (s.port p).canStart with
  | false => exact State.updPort_tracks (by rw [PortUnit.started_of_cannotStart start]) h
  | true =>
    obtain ⟨-, nonempty, -⟩ := (s.port p).canStart_iff.mp start
    obtain ⟨e, rest, queue⟩ := List.exists_cons_of_ne_nil nonempty
    have before : s.queue p = e :: rest := queue
    have after : (s.updPort p PortUnit.started).queue p = { e with inTx := true } :: rest := by
      rw [State.queue, State.port_updPort_self, PortUnit.started_of_canStart start queue]
    obtain ⟨stamps, given⟩ := before ▸ h.stamped p
    have unlinked := before ▸ h.unlinked p
    rw [List.forall_mem_cons] at given unlinked
    refine h.of_queue (p := p) (fun x other => ?_) rfl (Nat.le_refl _) ?_ ?_ fun i _ => ?_
    · rw [State.queue, State.port_updPort_ne s other, State.queue]
    · rw [after]
      exact ⟨stamps, List.forall_mem_cons.mpr given⟩
    · rw [after]
      exact List.forall_mem_cons.mpr unlinked
    · rw [after, before, copiesIn_cons, copiesIn_cons]

theorem State.updPorts_tracks {f : PortUnit → PortUnit} (keeps : ∀ u p, State.Tracks u → (u.updPort p f).Tracks)
    (h : s.Tracks) : (s.updPorts f).Tracks := foldl_tracks keeps allPorts s h

theorem State.settle_tracks (h : s.Tracks) : s.settle.Tracks := by
  cases due : s.restart.any fun r => r.due with
  | true => rwa [State.settle_of_due due]
  | false =>
    rw [State.settle_of_notDue due]
    exact State.updPorts_tracks (fun _ p => State.started_tracks p) h

theorem State.abandon_tracks (b : BufferIx) (c : PortCounter) (h : s.Tracks) : (s.abandon p b c).Tracks :=
  (State.setPortState_tracks .listen (h.same (s.freeUp_sameTracking b))).same (State.countPort_sameTracking _ p c)

theorem State.reachQuiet_tracks (n : Nat) (h : s.Tracks) : (s.reachQuiet p n).Tracks :=
  State.updPort_tracks (by rw [PortUnit.reachQuiet_eq]) h

theorem State.complete_tracks {e : QueueEntry} (mem : e ∈ s.queue p) (h : s.Tracks) : (s.complete p e).Tracks :=
  have removed := State.remove_tracks (c := .completion) mem RemovalCause.noConfusion h
  State.enterMonitored_tracks _ removed

/-- The fate of an entry after a collision (R25): a withdrawn one is a copy no longer, and every other is reported where it is
removed. -/
theorem State.settleCollided_tracks {e : QueueEntry} (mem : e ∈ s.queue p) (h : s.Tracks) :
    (s.settleCollided p e).Tracks := by
  have attempts : (s.settleAttempts p e).Tracks := by
    unfold State.settleAttempts
    split
    · exact State.remove_tracks mem RemovalCause.noConfusion h
    · refine h.relabel p (fun x => ?_) (fun x unlinked => ?_) fun i _ x => ?_
      · split <;> rfl
      · split
        · exact fun withdrawn => absurd withdrawn (Option.some_ne_none _).symm
        · exact unlinked
      · split <;> rfl
  unfold State.settleCollided
  split
  · rename_i withdrawn
    exact State.remove_tracks mem (fun _ => h.unlinked p e mem withdrawn) h
  · split
    · exact State.remove_tracks mem RemovalCause.noConfusion h
    · exact attempts
  · exact attempts

/-- The attempt counted and the mark gone, the entry stands where it stood (R25). -/
theorem State.collide_tracks {e : QueueEntry} (mem : e ∈ s.queue p) (h : s.Tracks) : (s.collide p e).Tracks := by
  have counted := h.same (s.countPort_sameTracking p .collisions)
  have updated : ((s.countPort p .collisions).updEntry p e.stamp QueueEntry.collided).Tracks := by
    refine counted.relabel p (fun x => ?_) (fun x unlinked => ?_) fun i _ x => ?_
    · split <;> rfl
    · split <;> exact unlinked
    · split <;> rfl
  have stands : e.collided ∈ ((s.countPort p .collisions).updEntry p e.stamp QueueEntry.collided).queue p := by
    rw [State.updEntry, State.queue_setQueue, if_pos rfl]
    refine List.mem_map.mpr ⟨e, ?_, if_pos (beq_self_eq_true e.stamp)⟩
    rwa [(s.countPort_sameTracking p .collisions).queue]
  unfold State.collide
  refine State.settleCollided_tracks ?_ (State.enterMonitored_tracks _ updated)
  rw [State.enterMonitored, (State.updPort_sameTracking _ p rfl).queue]
  exact stands

theorem State.discardReception_tracks (p : Port) (h : s.Tracks) : (s.discardReception p).Tracks := by
  unfold State.discardReception
  split
  · exact h.same (s.freeUp_sameTracking _)
  all_goals exact h

theorem State.contain_tracks (p : Port) (h : s.Tracks) : (s.contain p).Tracks := by
  have left : ((s.discardReception p).leaveService p (.contained (s.port p).params.containPeriod)).Tracks :=
    State.updPort_tracks rfl (State.discardReception_tracks p h)
  have counted := (State.portLeft_tracks p (State.purgeUnreachable_tracks p left)).same
    (State.countPort_sameTracking _ p .containments)
  exact State.raise_tracks .containment counted

theorem State.abortTransmission_tracks (p : Port) (h : s.Tracks) : (s.abortTransmission p).Tracks := by
  unfold State.abortTransmission
  split
  · rename_i marked
    exact State.remove_tracks (inTransmission_some marked).1 RemovalCause.noConfusion h
  all_goals exact h

theorem State.disable_tracks (p : Port) (h : s.Tracks) : (s.disable p).Tracks := by
  have left : (((s.discardReception p).abortTransmission p).leaveService p .disabled).Tracks :=
    State.updPort_tracks rfl (State.abortTransmission_tracks p (State.discardReception_tracks p h))
  have disabled := State.portLeft_tracks p (State.purgeUnreachable_tracks p left)
  unfold State.disable
  split
  · exact h
  all_goals exact disabled

/-- What the rows that are one event of the main domain do in it, but for a pin reset. -/
theorem Effect.tracks {e : Effect} (notReset : ∀ straps, e ≠ .pinReset straps) (h : s.Tracks) : (e.apply s).Tracks := by
  cases e with
  | truncate p =>
    change (s.truncate p).Tracks
    unfold State.truncate
    split
    · split
      · exact State.abandon_tracks _ _ (State.reachQuiet_tracks _ h)
      · exact h
    all_goals exact h
  | idleReaches2Ct p => exact State.reachQuiet_tracks _ h
  | reachStart p =>
    change (s.reachStart p).Tracks
    unfold State.reachStart
    split
    · exact State.reachQuiet_tracks _ h
    all_goals exact h
  | missEcho p =>
    change (s.missEcho p).Tracks
    unfold State.missEcho
    split
    · rename_i marked
      exact State.collide_tracks (inTransmission_some marked).1 h
    all_goals exact h
  | endBackoff p =>
    change (s.endBackoff p).Tracks
    unfold State.endBackoff
    split
    · split
      · exact State.setPortState_tracks _ (State.reachQuiet_tracks _ h)
      · exact h
    all_goals exact h
  | endGuard p =>
    change (s.endGuard p).Tracks
    unfold State.endGuard
    split
    · exact State.updPort_tracks rfl h
    all_goals exact h
  | contain p =>
    rw [Effect.apply]
    split
    · exact State.contain_tracks p h
    · exact h
  | endContainment p =>
    change (s.endContainment p).Tracks
    unfold State.endContainment
    split
    · exact State.updPort_tracks rfl h
    all_goals exact h
  | lapse t => exact State.lapse_tracks t h
  | endGrace t => exact State.endGrace_tracks t h
  | endPulse => exact h.same (.of_ports rfl rfl rfl)
  | pinReset straps => exact absurd rfl (notReset straps)
  | nothing => exact h

end Ports

/-! ### The calendar (chapter 7) -/

section Calendar

variable {s : State}

theorem State.applyTime_tracks (d : DateTime) (h : s.Tracks) : (s.applyTime d).Tracks :=
  State.evaluate_tracks (h.same (.of_ports rfl rfl rfl))

theorem State.minuteTick_tracks (h : s.Tracks) : s.minuteTick.Tracks :=
  State.evaluate_tracks (h.same (.of_ports rfl rfl rfl))

theorem State.setNow_tracks (d : DateTime) (h : s.Tracks) : (s.zeroPhase.setNow d).Tracks := h.same (.of_ports rfl rfl rfl)

theorem State.secondTick_tracks (h : s.Tracks) : s.secondTick.Tracks := by
  unfold State.secondTick
  split
  · exact h
  · split
    · unfold State.secondTickPowered
      split
      · exact State.applyTime_tracks _ h
      · dsimp only
        split
        · exact State.setNow_tracks _ h
        · exact State.minuteTick_tracks (State.setNow_tracks _ h)
    · exact h.same (.of_ports rfl rfl rfl)

theorem State.timeSet_tracks (d : DateTime) (h : s.Tracks) : (s.timeSet d).Tracks := by
  unfold State.timeSet
  split
  · exact State.applyTime_tracks d h
  · exact h.same (.of_ports rfl rfl rfl)

theorem State.timeRound_tracks (h : s.Tracks) : s.timeRound.Tracks := by
  unfold State.timeRound
  dsimp only
  split
  · exact State.minuteTick_tracks (State.setNow_tracks _ h)
  · exact State.setNow_tracks _ h

theorem State.timeHold_tracks (h : s.Tracks) : s.timeHold.Tracks := by
  have held {u : State} (tracks : u.Tracks) : State.Tracks { u with calendar := { u.calendar with hold := true } } :=
    tracks.same (.of_ports rfl rfl rfl)
  unfold State.timeHold
  dsimp only
  split
  · exact held (State.applyTime_tracks _ h)
  · exact held h

end Calendar

end Sys2Proof.Machine
end

