-- ==== Sys2Proof/Proofs/CopyArrivals.lean ====
section
/-! SUPPORT. What a character, a frame and a command it carries leave of the account of copies (R105). -/

namespace Sys2Proof.Machine

/-! ### Management commands (chapter 9) -/

/-- Where a command is accepted, the state it leaves counts its copies. -/
def AcceptedTracks (x : Except ResultCode State) : Prop := ∀ t, x = .ok t → t.Tracks

namespace AcceptedTracks

theorem ok {t : State} (h : t.Tracks) : AcceptedTracks (.ok t) := by
  rintro _ ⟨⟩
  exact h

theorem error (code : ResultCode) : AcceptedTracks (.error code) := fun _ => nofun

/-- Tests come before. -/
theorem bind {α : Type} {x : Except ResultCode α} {f : α → Except ResultCode State} (next : ∀ a, AcceptedTracks (f a)) :
    AcceptedTracks (x >>= f) := by
  intro t accepted
  obtain ⟨a, -, accepted⟩ := ok_of_bind accepted
  exact next a t accepted

end AcceptedTracks

section Commands

variable {s : State} {args : List Byte}

theorem State.setStation_sameTracking (s : State) (a : Byte) (e : StationEntry) : SameTracking s (s.setStation a e) := by
  unfold State.setStation
  split
  · exact .of_ports rfl rfl rfl
  · exact .refl s

theorem State.writeStation_tracks (h : s.Tracks) : AcceptedTracks (s.writeStation args) := by
  refine .bind fun address => .bind fun _ => .bind fun state => .bind fun _ => .bind fun ceiling => .bind fun _ =>
    .bind fun segment => ?_
  have written (e : StationState) : AcceptedTracks (.ok (s.setStation address ⟨e, ceiling.setWidth 2⟩)) :=
    .ok (h.same (s.setStation_sameTracking address _))
  dsimp only
  split
  · exact .bind written
  · exact .bind written

theorem State.writeGroup_tracks (h : s.Tracks) : AcceptedTracks (s.writeGroup args) := by
  refine .bind fun index => ?_
  split
  · exact .bind fun mask => .bind fun _ => .ok (h.same (.of_ports rfl rfl rfl))
  · exact .error _

theorem State.writeWindow_tracks (h : s.Tracks) : AcceptedTracks (s.writeWindow args) := by
  refine .bind fun index => ?_
  split
  · exact .bind fun _ => .bind fun _ => .bind fun _ => .bind fun _ => .bind fun _ => .bind fun _ => .bind fun _ =>
      .bind fun _ => .bind fun _ => .bind fun _ => .bind fun _ => .bind fun _ => .bind fun _ => .bind fun _ =>
      .bind fun _ => .bind fun _ => .ok (State.evaluate_tracks (h.same (.of_ports rfl rfl rfl)))
  · exact .error _

theorem State.writeManager_tracks (h : s.Tracks) : AcceptedTracks (s.writeManager args) := by
  refine .bind fun index => ?_
  split
  · exact .bind fun _ => .bind fun _ => .bind fun _ => .ok (h.same (.of_ports rfl rfl rfl))
  · exact .error _

theorem State.writeEntry_tracks (h : s.Tracks) : AcceptedTracks (s.writeEntry args) := by
  refine .bind fun table => ?_
  split
  · exact State.writeStation_tracks h
  · exact State.writeGroup_tracks h
  · exact State.writeWindow_tracks h
  · exact State.writeManager_tracks h
  all_goals exact .error _

theorem State.applyPortParam_tracks (p : Port) (v : Nat) (q : PortParam) (h : s.Tracks) :
    (s.applyPortParam p v q).Tracks := by
  have written (f : PortParams → PortParams) : (s.updPortParams p f).Tracks := State.updPort_tracks rfl h
  cases q with
  | enable =>
    change (s.writePortEnable p (v == 1)).Tracks
    unfold State.writePortEnable
    dsimp only
    split
    · unfold State.enable
      split
      · exact State.updPort_tracks rfl (written _)
      all_goals exact written _
    · exact State.disable_tracks p (written _)
  | jabberLimit =>
    change (s.writeJabberLimit p v).Tracks
    unfold State.writeJabberLimit
    dsimp only
    split
    · exact State.contain_tracks p (written _)
    · exact written _
  | baud =>
    unfold State.applyPortParam
    dsimp only
    split
    · exact State.updPort_tracks rfl h
    · exact h
  | _ =>
    rw [State.applyPortParam]
    exact written _

theorem State.setPortParam_tracks (q : PortParam) (p : Port) (v : Nat) (h : s.Tracks) :
    AcceptedTracks (s.setPortParam q p v) := by
  refine .bind fun _ => .bind fun _ => .ok ?_
  split
  · exact h
  · exact State.applyPortParam_tracks p v q h

theorem State.setCouplerParam_tracks (q : CouplerParam) (v : Nat) (h : s.Tracks) :
    AcceptedTracks (s.setCouplerParam q v) := by
  refine .bind fun _ => .ok ?_
  split
  · exact h
  · cases q <;> exact h.same (.of_ports rfl rfl rfl)

theorem State.setParam_tracks (h : s.Tracks) : AcceptedTracks (s.setParam args) := by
  refine .bind fun _ => .bind fun q => .bind fun _ => ?_
  cases q with
  | ofPort q => exact .bind fun p => .bind fun v => State.setPortParam_tracks q p v h
  | ofCoupler q => exact .bind fun v => State.setCouplerParam_tracks q v h

theorem State.clearScope_tracks (c : Scope) (h : s.Tracks) : (s.clearScope c).Tracks := by
  have counted (v : Vector Count 22) : State.Tracks { s with counters := v } := h.same (.of_ports rfl rfl rfl)
  cases c with
  | port p => exact State.updPort_tracks (f := fun u => { u with counters := Vector.replicate 11 0 }) rfl h
  | coupler1 => exact counted _
  | coupler2 => exact counted _

theorem State.readCounters_tracks {t : State} {data : List Byte} (read : s.readCounters args = .ok (data, t))
    (h : s.Tracks) : t.Tracks := by
  obtain ⟨code, -, read⟩ := ok_of_bind read
  obtain ⟨scope, -, read⟩ := ok_of_bind read
  obtain ⟨flag, -, read⟩ := ok_of_bind read
  obtain ⟨-, -, read⟩ := ok_of_bind read
  injection read with read
  injection read with _ read
  subst read
  split
  · exact State.clearScope_tracks scope h
  · exact h

theorem answerRead_tracks (r : Except ResultCode (Nat × List Byte)) (h : s.Tracks) : (answerRead s r).2.Tracks := by
  cases r <;> exact h

theorem answerWrite_tracks {r : Except ResultCode State} (accepted : AcceptedTracks r) (h : s.Tracks) :
    (answerWrite s r).2.Tracks := by
  cases r with
  | error code => exact h
  | ok t => exact accepted t rfl

/-- Every command of 9.6. -/
theorem State.executeCommand_tracks (room : BufferIx) (args : List Byte) (c : CommandCode) (h : s.Tracks) :
    (s.executeCommand room args c).2.Tracks := by
  cases c with
  | status => exact answerRead_tracks _ h
  | readEntries => exact answerRead_tracks _ h
  | writeEntry => exact answerWrite_tracks (State.writeEntry_tracks h) h
  | getParam => exact answerRead_tracks _ h
  | setParam => exact answerWrite_tracks (State.setParam_tracks h) h
  | readCounters =>
    cases read : s.readCounters args with
    | error code =>
      rw [State.executeCommand, read]
      exact h
    | ok r =>
      rw [State.executeCommand, read]
      exact State.readCounters_tracks read h
  | timeRead => exact answerRead_tracks _ h
  | timeSet =>
    refine answerWrite_tracks ?_ h
    cases timeArg args with
    | error code => exact .error code
    | ok d => exact .ok (State.timeSet_tracks d h)
  | timeRound =>
    refine answerWrite_tracks ?_ h
    split
    · exact .error _
    · exact .ok (State.timeRound_tracks h)
  | timeHold => exact answerWrite_tracks (.ok (State.timeHold_tracks h)) h
  | timeRun => exact answerWrite_tracks (.ok (h.same (.of_ports rfl rfl rfl))) h
  | clearAlert => exact answerWrite_tracks (.bind fun _ => .bind fun _ => .ok (h.same (.of_ports rfl rfl rfl))) h
  | flushLearned => exact answerWrite_tracks (.ok (h.same (.of_ports rfl rfl rfl))) h
  | restart => exact answerWrite_tracks (.bind fun _ => .bind fun _ => .ok (h.same (.of_ports rfl rfl rfl))) h

end Commands

/-! ### The Management Unit (R161 to R167) -/

section Management

variable {s : State} (p : Port)

theorem State.fillRoom_tracks (room : BufferIx) (cs : List Byte) (h : s.Tracks) : (s.fillRoom p room cs).Tracks := by
  unfold State.fillRoom
  split
  · exact h.same (s.setBuffer_sameTracking room _)
  · exact h

theorem State.storeResult_sameTracking (s : State) (source sequence : Byte) (payload : List Byte) :
    SameTracking s (s.storeResult source sequence payload) := by
  unfold State.storeResult
  split
  · exact .of_ports rfl rfl rfl
  · exact .refl s

theorem State.deny_tracks (f : FrameView) (h : s.Tracks) : (s.deny p f).Tracks := by
  have produced := State.generate_tracks (p := p)
    (resultChars s.params.ownAddress f (resultPayload f.payload ⟨.denied, 0, []⟩))
    (State.raise_tracks .denied (h.same (s.count_sameTracking .mgmtDenied)))
  unfold State.deny
  split <;> rename_i e <;> rw [e] at produced
  · exact produced
  · exact produced.same (State.count_sameTracking _ .mgmtNoRoom)

theorem State.execute_tracks (f : FrameView) (own : Byte) (room : BufferIx) (c : CommandCode) (h : s.Tracks) :
    (s.execute p f own room c).Tracks :=
  State.fillRoom_tracks p room _ (((State.executeCommand_tracks room _ c h).same (State.count_sameTracking _ _)).same
    (State.storeResult_sameTracking _ _ _ _))

theorem State.judge_tracks (f : FrameView) (own : Byte) (room : BufferIx) (h : s.Tracks) :
    (s.judge p f own room).Tracks := by
  unfold State.judge
  split
  · exact State.fillRoom_tracks p room _ h
  · split
    · exact State.fillRoom_tracks p room _ h
    · split
      · exact State.fillRoom_tracks p room _ h
      · exact State.execute_tracks p f own room _ h

theorem State.manage_tracks (f : FrameView) (h : s.Tracks) : (s.manage p f).Tracks := by
  unfold State.manage
  split
  · split
    · exact State.deny_tracks p f h
    · have secured := State.generate_tracks (p := p) [] h
      split <;> rename_i e <;> rw [e] at secured
      · exact secured.same (State.count_sameTracking _ _)
      · exact State.judge_tracks p f _ _ secured
  · exact h.same (s.count_sameTracking _)

end Management

/-! ### Classification (chapter 5) -/

section Classification

variable {s : State} (p : Port)

theorem State.dropUnrouted_tracks (f : FrameView) (c : DestClass) (b : BufferIx) (counter : CouplerCounter)
    (h : s.Tracks) : (s.dropUnrouted p f c b counter).Tracks := by
  have counted := h.same (s.count_sameTracking counter)
  unfold State.dropUnrouted
  dsimp only
  refine State.TracksBut.same ?_ (State.settleBuffer_sameTracking _ b 0)
  split
  · exact State.notify_tracks _ _ counted
  · exact counted

theorem State.place_tracks (f : FrameView) (c : DestClass) (b : BufferIx) (segments : List Port) (known : Bool)
    (h : s.Tracks) : (s.place p f c b segments known).Tracks := by
  unfold State.place
  split
  · exact State.track_tracks (Rank.ofClass_ne_express _) h
  · exact (admitEach_tracks rfl segments h).same (State.settleBuffer_sameTracking _ b _)

theorem State.forward_tracks (f : FrameView) (c : DestClass) (b : BufferIx) (h : s.Tracks) :
    (s.forward p f c b).Tracks := by
  unfold State.forward
  split
  · exact State.counted_tracks _ b h
  · exact State.dropUnrouted_tracks p f c b _ h
  · exact State.dropUnrouted_tracks p f c b _ h
  · split
    · exact (State.raise_tracks _ (h.same (s.count_sameTracking _))).same (State.settleBuffer_sameTracking _ b 0)
    · exact State.place_tracks p f c b _ _ h

theorem State.ownFrame_tracks (f : FrameView) (b : BufferIx) (h : s.Tracks) : (s.ownFrame p f b).Tracks := by
  unfold State.ownFrame
  split
  · exact (State.manage_tracks p f h).same (State.settleBuffer_sameTracking _ b 0)
  · exact State.counted_tracks _ b h
  · exact State.counted_tracks _ b h
  all_goals exact (h.same (s.countPort_sameTracking p _)).same (State.settleBuffer_sameTracking _ b 0)

theorem State.classifyLearned_tracks (f : FrameView) (b : BufferIx) (h : s.Tracks) : (s.classifyLearned p f b).Tracks := by
  have forwarded : (if s.params.forwarding then
      match f.kind with
      | .reply | .result => s.answer p (answerKey f) b
      | .datagram | .request | .manage | .notice => s.forward p f (destClass s.params.ownAddress f.dest) b
    else (s.count .forwardingOff).settleBuffer b 0).Tracks := by
    split
    · split
      · exact State.answer_tracks p _ b h
      · exact State.answer_tracks p _ b h
      all_goals exact State.forward_tracks p f _ b h
    · exact State.counted_tracks _ b h
  unfold State.classifyLearned
  split
  · exact State.ownFrame_tracks p f b h
  all_goals exact forwarded

theorem State.learn_tracks (source : Byte) (h : s.Tracks) : (s.learn p source).2.Tracks := by
  have raised (c : CouplerCounter) (a : AlertCause) : ((s.count c).raise a).Tracks :=
    State.raise_tracks a (h.same (s.count_sameTracking c))
  have heard (e : StationEntry) : (s.setStation source e).Tracks := h.same (s.setStation_sameTracking source e)
  unfold State.learn
  dsimp only
  split
  · exact raised _ _
  · split
    · exact h.same (s.count_sameTracking _)
    · split
      · exact h
      · exact raised _ _
    · exact heard _
    · split
      · exact heard _
      · exact (heard _).same (State.count_sameTracking _ _)

theorem State.classify_tracks (f : FrameView) (b : BufferIx) (h : s.Tracks) : (s.classify p f b).Tracks := by
  have learned := State.learn_tracks p f.source h
  unfold State.classify
  split <;> rename_i e <;> rw [e] at learned
  · exact learned.same (State.settleBuffer_sameTracking _ b 0)
  · exact State.classifyLearned_tracks p f b learned

end Classification

/-! ### Characters (chapter 1) -/

section Characters

variable {s : State} (p : Port)

theorem State.completeReception_tracks (b : BufferIx) (n : Nat) (check : Check) (h : s.Tracks) :
    (s.completeReception p b n check).Tracks := by
  have abandoned (c : PortCounter) : (s.abandon p b c).Tracks := State.abandon_tracks b c h
  unfold State.completeReception
  dsimp only
  split
  · split
    · split
      · exact State.classify_tracks p _ b (State.updPort_tracks rfl (h.same (s.countPort_sameTracking p .framesIn)))
      · exact abandoned _
    · exact abandoned _
  · exact abandoned _

theorem State.storeCharacter_tracks (r : Reception) (v : Byte) (h : s.Tracks) : (s.storeCharacter p r v).Tracks := by
  have stored (cs : List Byte) : (s.setChars r.buffer cs).Tracks := h.same (s.setBuffer_sameTracking r.buffer _)
  unfold State.storeCharacter
  dsimp only
  split
  · exact State.abandon_tracks _ _ (stored _)
  · split
    · exact State.completeReception_tracks p _ _ _ (stored _)
    · exact State.updPort_tracks rfl (stored _)

theorem State.startFrame_tracks (v : Byte) (h : s.Tracks) : (s.startFrame p v).Tracks := by
  unfold State.startFrame
  split
  · exact State.raise_tracks _ (State.updPort_tracks rfl (h.same (s.countPort_sameTracking p .noBuffer)))
  · exact State.updPort_tracks rfl (h.same (.of_ports rfl rfl rfl))

theorem State.assemble_tracks (r : Reception) (c : LineCharacter) (h : s.Tracks) : (s.assemble p r c).Tracks := by
  unfold State.assemble
  split
  · rename_i v
    have stored : (s.setChars r.buffer [v]).Tracks := h.same (s.setBuffer_sameTracking r.buffer _)
    exact State.setPortState_tracks _ (stored.same (State.countPort_sameTracking _ p .formatErrors))
  · exact State.storeCharacter_tracks p r _ h
  · exact State.abandon_tracks _ _ h

theorem State.echo_tracks (pos elapsed : Nat) (c : LineCharacter) (h : s.Tracks) : (s.echo p pos elapsed c).Tracks := by
  unfold State.echo
  split
  · exact h
  · rename_i e marked
    obtain ⟨mem, -⟩ := inTransmission_some marked
    split
    · split
      · exact State.complete_tracks mem h
      · exact State.updPort_tracks rfl h
    · exact State.collide_tracks mem h

theorem State.receiveCharacter_tracks (c : LineCharacter) (h : s.Tracks) : (s.receiveCharacter p c).Tracks := by
  have offered {u : State} (tracks : u.Tracks) : (u.offer p c).Tracks := by
    unfold State.offer
    split
    · exact State.startFrame_tracks p _ tracks
    all_goals exact tracks
  have moved (hold : StartHold) : (s.setLine p (lineAfter c) hold).Tracks := State.updPort_tracks rfl h
  unfold State.receiveCharacter
  split
  · unfold State.routeCharacter
    split
    · exact offered (moved _)
    · exact offered (moved _)
    · exact offered (moved _)
    · exact State.assemble_tracks p _ c (moved _)
    · exact State.echo_tracks p _ _ c (moved _)
    all_goals exact moved _
  · exact moved _

theorem LineEffect.tracks (e : LineEffect) (h : s.Tracks) : (e.apply p s).Tracks := by
  cases e with
  | character c => exact State.receiveCharacter_tracks p c h
  | startBit =>
    refine State.updPort_tracks ?_ h
    unfold PortUnit.startBit
    split
    · split <;> rfl
    all_goals rfl
  | lineReturns => exact State.updPort_tracks rfl h

end Characters

end Sys2Proof.Machine
end

