-- ==== Sys2Proof/Proofs/CopySteps.lean ====
section
/-! PROOFS. Every step keeps the Transaction Table sound (R105): the resets, the rows, and the passing of time. -/

namespace Sys2Proof.Machine

/-! ### Resets, restarts and events -/

section Events

variable {s : State}

/-- With nothing queued and every entry FREE there is nothing to count (R59, R106). -/
theorem State.tracks_of_empty (empty : s.QueuesEmpty) (free : s.transactions = Vector.replicate 32 .free) : s.Tracks := by
  have tx (i : TxIx) : s.tx i = .free := by
    rw [State.tx, free, Vector.get_eq_getElem, Vector.getElem_replicate]
  have queue (p : Port) : s.queue p = [] := empty p
  refine ⟨fun p => ?_, fun p e mem => ?_, fun i _ => ?_, fun i j key held => ?_⟩
  · rw [queue]
    exact ⟨List.nodup_nil, fun e mem => absurd mem List.not_mem_nil⟩
  · rw [queue] at mem
    exact absurd mem List.not_mem_nil
  · rw [tx, State.links_eq_sum]
    refine Finset.sum_eq_zero fun p _ => ?_
    rw [queue]
    rfl
  · rw [State.keyOf, tx] at held
    exact absurd held (Option.some_ne_none _).symm

theorem State.resetToDefaults_tracks (s : State) (cause : ResetCause) (straps : Straps) :
    (s.resetToDefaults cause straps).Tracks := by
  refine State.tracks_of_empty (fun p => ?_) ?_
  · rw [State.port_resetToDefaults]
    rfl
  · rw [State.resetToDefaults_eq]
    rfl

theorem State.resetWarm_tracks (s : State) : s.resetWarm.Tracks := by
  refine State.tracks_of_empty (fun p => ?_) ?_
  · rw [State.port_resetWarm]
    rfl
  · rw [State.resetWarm_eq]

theorem State.losePower_tracks (s : State) : s.losePower.Tracks := by
  refine State.tracks_of_empty (fun p => ?_) ?_
  · rw [State.port_losePower]
    rfl
  · unfold State.losePower
    dsimp only
    rw [foldl_updPort_eq fun _ => PortUnit.unpowered]
    split <;> rfl

theorem State.resetCold_tracks (s : State) (straps : Straps) : (s.resetCold straps).Tracks :=
  State.raise_tracks _ (State.resetToDefaults_tracks _ .cold straps)

theorem State.powerOn_tracks (s : State) (straps : Straps) : (s.powerOn straps).Tracks := by
  unfold State.powerOn
  split
  · exact s.resetCold_tracks straps
  · exact State.resetToDefaults_tracks _ .power straps

theorem State.restartFirst_tracks (h : s.Tracks) : s.restartFirst.Tracks := by
  obtain same | ⟨r, -, -, -, taken⟩ := s.restartFirst_cases
  · rwa [same]
  · rw [taken]
    cases r.kind with
    | warm => exact s.resetWarm_tracks
    | full => exact s.resetToDefaults_tracks .full s.straps

/-- An event whose effect keeps the account of copies keeps it. -/
theorem State.inEvent_tracks {f : State → State} (effect : ∀ u, State.Tracks u → (f u).Tracks) (h : s.Tracks) :
    (s.inEvent f).Tracks := State.settle_tracks (effect _ (State.restartFirst_tracks h))

theorem State.lineEvent_tracks {p : Port} {f : State → State} {level : LineState → LineState}
    (effect : ∀ u, State.Tracks u → (f u).Tracks) (h : s.Tracks) : (s.lineEvent p f level).Tracks := by
  unfold State.lineEvent
  split
  · exact State.inEvent_tracks effect h
  · exact State.updPort_tracks rfl h

theorem State.receiveFrame_tracks (p : Port) (cs : List Byte) (h : s.Tracks) : (s.receiveFrame p cs).Tracks :=
  foldl_tracks (fun _ c => State.lineEvent_tracks fun _ => State.receiveCharacter_tracks p c) _ s h

theorem Effect.apply_tracks (e : Effect) (h : s.Tracks) : (e.apply s).Tracks := by
  by_cases reset : ∃ straps, e = .pinReset straps
  · obtain ⟨straps, rfl⟩ := reset
    exact s.resetToDefaults_tracks .pin straps
  · exact Effect.tracks (fun straps e => reset ⟨straps, e⟩) h

/-- Every row keeps the account of copies. -/
theorem Row.run_tracks (r : Row) (h : s.Tracks) : (r.run s).Tracks := by
  cases r with
  | main e =>
    rw [Row.run]
    split
    · exact State.inEvent_tracks (fun _ => e.apply_tracks) h
    · exact h
  | line p e => exact State.lineEvent_tracks (fun _ => e.tracks p) h
  | frame p f k => exact State.receiveFrame_tracks p _ h
  | secondTick =>
    rw [Row.run]
    split
    · exact State.inEvent_tracks (fun _ => State.secondTick_tracks) h
    · exact State.secondTick_tracks h
  | coldStart straps => exact State.settle_tracks (s.resetCold_tracks straps)
  | powerStart straps => exact State.settle_tracks (s.powerOn_tracks straps)
  | fullRestart straps =>
    have read : (s.readsStraps straps).Tracks := by
      unfold State.readsStraps
      split
      · exact h.same (.of_ports rfl rfl rfl)
      · exact h
    rw [Row.run]
    split
    · exact State.inEvent_tracks (fun _ => id) read
    · exact read
  | mainPowerLoss =>
    rw [Row.run]
    split
    · exact State.losePower_tracks _
    · exact h
  | backupSupplyLoss =>
    have first := State.restartFirst_tracks h
    rw [Row.run]
    split
    · exact first.same (.of_ports rfl rfl rfl)
    · exact first.same (.of_ports rfl rfl rfl)

end Events

/-! ### Time -/

section Time

variable {s : State}

theorem TxEntry.counts_msLater (e : TxEntry) (n : Nat) (h : e.Counts n) : e.msLater.Counts n := by
  cases e with
  | free => exact h
  | lapsed c m g => exact h
  | opened c m d =>
    cases d with
    | none => exact h
    | some d => exact ⟨h.1, .inr rfl⟩

theorem TxEntry.key_msLater (e : TxEntry) : e.msLater.key = e.key := by
  cases e with
  | free => rfl
  | lapsed c m g => rfl
  | opened c m d => cases d <;> rfl

/-- Deadlines and graces count down, and no copy goes with them (R114, R124). -/
theorem State.msLater_tracks (pulse : Option Nat) (h : s.Tracks) :
    State.Tracks { s with transactions := s.transactions.map TxEntry.msLater, pulse := pulse } := by
  have tx (i : TxIx) : (s.transactions.map TxEntry.msLater).get i = (s.tx i).msLater := by
    rw [State.tx, Vector.get_eq_getElem, Vector.getElem_map, Vector.get_eq_getElem]
  have keyOf (i : TxIx) :
      State.keyOf { s with transactions := s.transactions.map TxEntry.msLater, pulse := pulse } i = s.keyOf i :=
    (congrArg TxEntry.key (tx i)).trans (s.tx i).key_msLater
  refine ⟨h.stamped, h.unlinked, fun i _ => ?_, fun i j key => ?_⟩
  · change ((s.transactions.map TxEntry.msLater).get i).Counts (s.links i)
    rw [tx]
    exact (s.tx i).counts_msLater _ (h.counts i (Option.some_ne_none i))
  · rw [keyOf, keyOf]
    exact h.keys i j key

theorem State.msPass_tracks (h : s.Tracks) : s.msPass.Tracks :=
  have ports := State.updPorts_tracks (f := PortUnit.msLater) (fun _ _ => State.updPort_tracks rfl) h
  State.msLater_tracks _ ports

theorem State.msClock_tracks (h : s.Tracks) : s.msClock.Tracks := by
  have counted (n : Nat) : State.Tracks { s with msCount := n } := h.same (.of_ports rfl rfl rfl)
  unfold State.msClock
  split
  · exact counted _
  · exact State.msPass_tracks (counted _)

theorem State.clkPass_tracks (h : s.Tracks) : s.clkPass.Tracks := by
  unfold State.clkPass
  split
  · exact State.msClock_tracks
      (State.updPorts_tracks (f := PortUnit.clkLater) (fun _ _ => State.updPort_tracks rfl) h)
  · exact h

theorem State.after_tracks (c : Instr) (h : s.Tracks) : (s.after c).Tracks := by
  rw [State.after, exec_eq_run]
  exact (rowOf c).run_tracks h

theorem State.takeDue_tracks (c : Instr) (h : s.Tracks) : (s.takeDue c).Tracks := by
  have first := State.restartFirst_tracks h
  unfold State.takeDue
  split
  · exact State.after_tracks c first
  · exact first

theorem State.crystalClock_tracks (h : s.Tracks) : s.crystalClock.Tracks := by
  unfold State.crystalClock
  split
  · exact h.same (.of_ports rfl rfl rfl)
  · unfold State.crystalPeriod
    dsimp only
    split
    · exact h.same (.of_ports rfl rfl rfl)
    · split
      · exact h.same (.of_ports rfl rfl rfl)
      · exact State.after_tracks _ (h.same (.of_ports rfl rfl rfl))

theorem State.tick_tracks (h : s.Tracks) : s.tick.Tracks :=
  State.crystalClock_tracks
    (foldl_tracks (fun _ => State.takeDue_tracks) timedEvents _ (State.clkPass_tracks (State.restartFirst_tracks h)))

/-- Every step keeps the account of copies. -/
theorem step_tracks {t : State} (stepped : step s = .next t) (h : s.Tracks) : t.Tracks := by
  unfold step at stepped
  split at stepped
  · rw [exec_eq_run] at stepped
    injection stepped with stepped
    rw [← stepped]
    exact Row.run_tracks _ (h.same (.of_ports rfl rfl rfl))
  · injection stepped with stepped
    rw [← stepped]
    exact State.tick_tracks h

end Time

/-! ### O11 -/

section Soundness

variable {s : State}

theorem State.txSound_iff (i : TxIx) : s.txSound i = true ↔ (s.tx i).Counts (s.links i) := by
  unfold State.txSound
  cases s.tx i <;> simp [TxEntry.Counts]

/-- R105 with the stamps and the links of the queues: what each step keeps. -/
theorem State.tracks_iff :
    s.Tracks ↔ s.transactionsSound = true ∧ (∀ p, Stamped s.nextStamp (s.queue p)) ∧
      ∀ p, ∀ e ∈ s.queue p, e.pendingRemoval = some .withdrawn → e.link = none := by
  have sound : s.transactionsSound = true ↔ (∀ i, (s.tx i).Counts (s.links i)) ∧
      ∀ i j key, s.keyOf i = some key → s.keyOf j = some key → i = j := by
    refine ⟨fun h => ⟨fun i => ?_, fun i j key => State.keyOf_inj h⟩, fun ⟨counts, keys⟩ => ?_⟩
    · obtain ⟨all, -⟩ := Bool.and_eq_true _ _ ▸ h
      exact (State.txSound_iff i).mp (List.all_eq_true.mp all i (mem_allTx i))
    · refine Bool.and_eq_true_iff.mpr ⟨List.all_eq_true.mpr fun i _ => (State.txSound_iff i).mpr (counts i),
        List.all_eq_true.mpr fun i _ => List.all_eq_true.mpr fun j _ => ?_⟩
      cases held : s.keyOf i with
      | none => simp
      | some key =>
        by_cases same : s.keyOf j = some key
        · simp [keys i j key held same]
        · simp [Ne.symm same]
  exact ⟨fun h => ⟨sound.mpr ⟨fun i => h.counts i (Option.some_ne_none i), h.keys⟩, h.stamped, h.unlinked⟩,
    fun ⟨h, stamped, unlinked⟩ => ⟨stamped, unlinked, fun i _ => (sound.mp h).1 i, (sound.mp h).2⟩⟩

end Soundness

/-- Settles O11: every step keeps each transaction counting its copies, with the stamps that name the copies and the links
that a withdrawal has cut. -/
theorem stepsKeepTheTransactionsSound : Obligations.StepsKeepTheTransactionsSound := by
  intro s t queues marks transactions stepped
  have stamped := State.stamped_of_queuesSound queues
  have marked : s.Marked := s.marked_iff.mpr ⟨marks, stamped⟩
  have unlinked (p : Port) (e : QueueEntry) (mem : e ∈ s.queue p) : e.pendingRemoval = some .withdrawn → e.link = none :=
    ((marked p).sound e mem).2
  exact (State.tracks_iff.mp (step_tracks stepped (State.tracks_iff.mpr ⟨transactions, stamped, unlinked⟩))).1

end Sys2Proof.Machine
end

