-- ==== Sys2Proof/Proofs/Requests.lean ====
section
/-! PROOFS. Tracked requests that open no entry: those refused (R108, R109), duplicates (R115) and retries (R116 to R119); and
the deadline that lapses an entry (R123). -/

namespace Sys2Proof.Machine

/-! ### The row of a tracked request (R100, R107) -/

/-- The row of a request to a station with a target hands it to the Transaction Table. -/
theorem FrameLearned.exec_of_tracked {s u : State} {k : Kind} {p : Port} {f : Frame} {b : BufferIx}
    (learned : FrameLearned s k p f b u) (asks : k = .request ∨ k = .manage) (foreign : f.dest ≠ s.params.ownAddress)
    (on : s.params.forwarding = true) (station : isStationAddress f.dest = true) (routed : u.targetsFor p f.dest ≠ [])
    (room : s.params.reserve ≤ u.freeList.length) :
    ∃ known, exec (frameRow k p f) s = .next
      (u.track ⟨⟨f.source, f.dest, f.tag, k.exchange⟩, p, u.targetsFor p f.dest, known, u.rankFor f, b⟩).settle := by
  have notReply : k ≠ .reply := by rintro rfl; simp at asks
  have notResult : k ≠ .result := by rintro rfl; simp at asks
  rw [← learned.keeps.1] at room
  obtain ⟨known, -, tracked⟩ := State.forward_of_request (b := b) asks station routed room
  refine ⟨known, ?_⟩
  rw [learned.exec_of_forward foreign on notReply notResult, destClass_station foreign station, tracked]

/-! ### O29 -/

section Refused

variable {u : State} {r : Tracked}

theorem State.refuseAtLimit_eq (u : State) (r : Tracked) :
    u.refuseAtLimit r = ((u.count .requesterLimit).notify r.segment r.key .requesterLimit).freeUp r.buffer := rfl

/-- At the requester limit no entry is opened (R108). -/
theorem State.openRequest_atLimit (limit : u.params.maxOutstanding ≤ u.openCount r.key.requester) :
    u.openRequest r = u.refuseAtLimit r := if_pos limit

/-- With every entry OPEN there is none to give (R109). -/
theorem State.allocate_of_allOpen (full : ∀ j, (u.tx j).isOpen = true) : u.allocate = none := by
  have noneFree : (allTx.find? fun t => (u.tx t).isFree) = none := by
    refine List.find?_eq_none.mpr fun j _ free => ?_
    have here := full j
    rw [(TxEntry.isFree_iff _).mp free] at here
    exact Bool.noConfusion here
  have noneLapsed : u.oldestLapsed = none := by
    refine Option.eq_none_iff_forall_ne_some.mpr fun j found => ?_
    obtain ⟨n, stamped⟩ := State.oldestLapsed_lapsed found
    obtain ⟨c, g, entry⟩ := (TxEntry.stamp_eq_some_iff _ n).mp stamped
    have here := full j
    rw [entry] at here
    exact Bool.noConfusion here
  rw [State.allocate, noneFree]
  exact noneLapsed

theorem State.openRequest_tableFull (below : u.openCount r.key.requester < u.params.maxOutstanding)
    (full : ∀ j, (u.tx j).isOpen = true) :
    u.openRequest r =
      (((u.count .tableFull).raise .tableFull).notify r.segment r.key .tableFull).freeUp r.buffer := by
  rw [State.openRequest, if_neg (Nat.not_le.mpr below), State.allocate_of_allOpen full]
  rfl

end Refused

/-- Settles O29: the request asks for an entry of its own, and is refused by the limit or by a table without one to give. -/
theorem requestsAreRefused : Obligations.RequestsAreRefused := by
  refine ⟨?_, fun s a => ?counts⟩
  case counts =>
    refine congrArg List.length (List.filter_congr fun i _ => ?_)
    cases s.tx i <;> simp [TxEntry.isOpen, TxEntry.core]
  intro s k p f b u learned asks foreign on station routed room key absent
  obtain ⟨known, row⟩ := learned.exec_of_tracked asks foreign on station routed room
  rw [State.track_of_new absent] at row
  rw [row, ← learned.keeps.1]
  refine ⟨fun limit => ?limit, fun below full => ?full⟩
  case limit => rw [State.openRequest_atLimit limit, State.refuseAtLimit_eq]
  case full => rw [State.openRequest_tableFull below full]

/-! ### O28 -/

section KnownKeys

variable {u : State} {r : Tracked} {i : TxIx} {c : TxCore}

theorem retryTargets_nodup (c : TxCore) (once : r.targets.Nodup) : (retryTargets c r).Nodup := by
  unfold retryTargets
  split
  · split
    · exact once
    · exact List.nodup_singleton _
  · exact segmentsExcept_nodup _

/-- A retry asks each of its targets for a copy, and opens its entry again where one is taken (R116 to R119). -/
theorem State.sendAfresh_eq (i : TxIx) (c : TxCore) (classRank : r.rank ≠ .express) (once : r.targets.Nodup) :
    u.sendAfresh i c r =
      if (u.takers (retryTargets c r) r.rank).length = 0 then
        (((u.offerEach (retryTargets c r) ⟨r.buffer, r.rank, .forwarded, some i⟩).setTx i .free).notify r.segment r.key
          (u.refusalCause (retryTargets c r) r.rank)).freeUp r.buffer
      else
        ((u.offerEach (retryTargets c r) ⟨r.buffer, r.rank, .forwarded, some i⟩).setTx i
          (.opened { c with requesterSegment := r.segment, retries := min 255 (c.retries + 1) }
            (u.takers (retryTargets c r) r.rank).length none)).setCondition r.buffer
          (.held (u.takers (retryTargets c r) r.rank).length) := by
  have targets :
      retryTargets { c with requesterSegment := r.segment, retries := min 255 (c.retries + 1) } r = retryTargets c r := rfl
  have asked := admitEach_of_classRank (n := ⟨r.buffer, r.rank, .forwarded, some i⟩) classRank rfl
    (retryTargets_nodup c once) u
  rw [State.sendAfresh, targets, asked, ← admittedCount_verdicts, ← refusalNotice_verdicts]
  dsimp only
  split
  · rfl
  · rename_i taken
    exact if_neg taken

section Found

variable (sound : u.transactionsSound = true) (key : r.key = c.key)
include sound key

/-- A DUPLICATE (R115). -/
theorem State.track_of_duplicate {n : Nat} (entry : u.tx i = .opened c n none) :
    u.track r = (u.count .duplicates).freeUp r.buffer := by
  rw [State.track, key, State.findKey_eq_some sound (State.keyOf_of_opened entry)]
  dsimp only
  rw [entry]
  rfl

/-- A retry of an OPEN entry (R117). -/
theorem State.track_of_retry {n : Nat} {d : Deadline} (entry : u.tx i = .opened c n (some d)) :
    u.track r = (u.withdraw i).sendAfresh i c r := by
  rw [State.track, key, State.findKey_eq_some sound (State.keyOf_of_opened entry)]
  dsimp only
  rw [entry]

/-- A retry of a LAPSED entry (R118). -/
theorem State.track_of_lapsed {m g : Nat} (entry : u.tx i = .lapsed c m g) :
    u.track r =
      if u.params.maxOutstanding ≤ u.openCount r.key.requester then u.refuseAtLimit r else u.sendAfresh i c r := by
  rw [State.track, key, State.findKey_eq_some sound (State.keyOf_of_lapsed entry), ← key]
  dsimp only
  rw [entry]

end Found

end KnownKeys

/-- Settles O28: the entry that holds the key decides, and a retry is sent afresh on what the withdrawal left. -/
theorem requestsOfAKnownKey : Obligations.RequestsOfAKnownKey := by
  intro s k p f b u i c learned asks foreign on station routed room sound key targets afresh
  obtain ⟨known, row⟩ := learned.exec_of_tracked asks foreign on station routed room
  rw [row, ← learned.keeps.1, ← key]
  have sent (w : State) :
      w.sendAfresh i c ⟨c.key, p, u.targetsFor p f.dest, known, u.rankFor f, b⟩ = afresh w :=
    State.sendAfresh_eq i c (Rank.ofClass_ne_express _) (u.targetsFor_nodup p f.dest)
  have requester : c.key.requester = f.source := by rw [key]
  refine ⟨fun n entry => ?duplicate, fun n d entry => ?retry, fun m g entry => ?lapsed⟩
  case duplicate => rw [State.track_of_duplicate sound rfl entry]
  case retry => rw [State.track_of_retry sound rfl entry, sent]
  case lapsed =>
    rw [State.track_of_lapsed sound rfl entry, ← requester]
    refine ⟨fun limit => ?_, fun below => ?_⟩
    · rw [if_pos limit, State.refuseAtLimit_eq]
    · rw [if_neg (Nat.not_le.mpr below), sent]

/-! ### O40 -/

/-- The row DEADLINE_EXPIRY is one event of the main domain. -/
theorem exec_deadlineExpiry (i : TxIx) (s : State) : exec (.deadlineExpiry i) s = event (fun s => s.lapse i) s := rfl

section Lapse

variable (s : State) (i : TxIx) (c : TxCore)

/-- An entry that lapses does so under the grace in force before its copies were withdrawn (R123). -/
theorem State.setLapsed_withdraw :
    (s.withdraw i).setLapsed i c =
      { (s.withdraw i).setTx i (.lapsed c (s.withdraw i).nextLapse s.params.lapseGrace) with
        nextLapse := (s.withdraw i).nextLapse + 1 } := by
  rw [State.setLapsed, (s.withdraw_traffic i).params]

/-- The entry lapsed, counted, and its requester told (R123, R126). -/
def State.lapsedTold : State :=
  (((s.withdraw i).setLapsed i c).count .txLapsed).notify c.requesterSegment c.key .noAnswer

theorem State.lapsedTold_params : (s.lapsedTold i c).params = s.params :=
  ((((s.withdraw_traffic i).trans (State.setLapsed_traffic _ i c)).trans (State.count_traffic _ .txLapsed)).trans
    (State.notify_traffic _ _ _ .noAnswer)).params

/-- The lapse of an entry with a running deadline, FREE at once with LAPSE_GRACE 0 (R123). -/
theorem State.lapse_of_deadline {n : Nat} {d : Deadline} (entry : s.tx i = .opened c n (some d)) :
    s.lapse i = if s.params.lapseGrace = 0 then (s.lapsedTold i c).setTx i .free else s.lapsedTold i c := by
  have lapses : s.lapse i = (s.lapsedTold i c).freeWithoutGrace i := by
    unfold State.lapse
    rw [entry]
    rfl
  rw [lapses, State.freeWithoutGrace, State.lapsedTold_params]

end Lapse

/-- Settles O40: the row is the lapse of the entry, in a part that has nothing else to do before it. -/
theorem deadlinesLapse : Obligations.DeadlinesLapse := by
  intro s i c n d powered quiescent entry
  rw [exec_deadlineExpiry, event_of_quiescent powered quiescent, s.lapse_of_deadline i c entry, State.lapsedTold,
    State.setLapsed_withdraw]

end Sys2Proof.Machine
end

