-- ==== Sys2Proof/Proofs/Dates.lean ====
section
/-! PROOFS. Dates as a count: the days before a month and before a year, so that the carries of the calendar count seconds
over its whole range. -/

namespace Sys2Proof.Machine

/-! ### Days before a month and a year (R133) -/

/-- Days from the first of January of a year to the first of a month. -/
def daysToMonth (year month : Nat) : Nat := ((List.range (month - 1)).map fun m => monthLength year (m + 1)).sum

theorem dayNumber_eq (d : DateTime) :
    dayNumber d = daysToYear d.year + daysToMonth d.year d.month + (d.day - 1) := rfl

theorem daysToMonth_next (year : Nat) {month : Nat} (pos : 1 ≤ month) :
    daysToMonth year (month + 1) = daysToMonth year month + monthLength year month := by
  obtain ⟨m, rfl⟩ := Nat.exists_eq_add_of_le' pos
  simp [daysToMonth, List.range_succ]

theorem monthLength_february (year : Nat) : monthLength year 2 = if year % 4 = 0 then 29 else 28 := by
  simp [monthLength, isLeap]

/-- The eleven months before December, and so the year, are a day longer where the year is divisible by 4. -/
theorem daysToMonth_december (year : Nat) : daysToMonth year 12 = if year % 4 = 0 then 335 else 334 := by
  have months : daysToMonth year 12 = 31 + monthLength year 2 + 275 := by
    simp [daysToMonth, List.range_succ, monthLength]
    omega
  rw [months, monthLength_february]
  split <;> rfl

theorem daysToYear_next {year : Nat} (inRange : 2000 ≤ year) :
    daysToYear (year + 1) = daysToYear year + daysToMonth year 12 + 31 := by
  rw [daysToMonth_december, daysToYear, daysToYear]
  split <;> omega

theorem monthLength_bounds (year month : Nat) : 28 ≤ monthLength year month ∧ monthLength year month ≤ 31 := by
  unfold monthLength
  split
  · split <;> omega
  all_goals omega

/-! ### The next day (R134) -/

theorem DateTime.real_iff (d : DateTime) :
    d.real = true ↔
      2000 ≤ d.year ∧ d.year ≤ 2099 ∧ 1 ≤ d.month ∧ d.month ≤ 12 ∧ 1 ≤ d.day ∧ d.day ≤ monthLength d.year d.month ∧
        d.hour ≤ 23 ∧ d.minute ≤ 59 ∧ d.second ≤ 59 := by
  simp [DateTime.real, and_assoc]

/-- The last day of the range. -/
def DateTime.onLastDay (d : DateTime) : Prop := d.year = 2099 ∧ d.month = 12 ∧ d.day = 31

variable {d : DateTime}

/-- Every day but the last of the range is followed by the day numbered one more. -/
theorem dayNumber_nextDay (real : d.real = true) (notLast : ¬ d.onLastDay) :
    dayNumber d.nextDay = dayNumber d + 1 := by
  obtain ⟨from2000, to2099, fromJanuary, toDecember, fromFirst, toLast, -⟩ := d.real_iff.mp real
  have months := daysToMonth_next d.year fromJanuary
  unfold DateTime.nextDay
  split
  · simp only [dayNumber_eq]
    omega
  · split
    · simp only [dayNumber_eq, months]
      omega
    · have december : d.month = 12 := by omega
      have whole : d.day = monthLength d.year d.month := by omega
      have thirtyFirst : d.day = 31 := by
        rw [whole, december]
        rfl
      split
      · have january : daysToMonth (d.year + 1) 1 = 0 := rfl
        simp only [dayNumber_eq, daysToYear_next from2000, january, december, thirtyFirst]
      · exact absurd ⟨by omega, december, thirtyFirst⟩ notLast

theorem DateTime.real_nextDay (real : d.real = true) : d.nextDay.real = true := by
  rw [DateTime.real_iff] at real
  have length (year month : Nat) := monthLength_bounds year month
  have next := length d.year (d.month + 1)
  have january := length (d.year + 1) 1
  have first := length 2000 1
  unfold DateTime.nextDay
  split
  · simp only [DateTime.real_iff]
    omega
  · split
    · simp only [DateTime.real_iff]
      omega
    · split <;>
      · simp only [DateTime.real_iff]
        omega

/-! ### The next minute and the next second (R134, R141) -/

theorem DateTime.real_nextMinute (real : d.real = true) : d.nextMinute.real = true := by
  have fields := d.real_iff.mp real
  unfold DateTime.nextMinute
  split
  · simp only [DateTime.real_iff]
    omega
  · split
    · simp only [DateTime.real_iff]
      omega
    · refine DateTime.real_nextDay ?_
      simp only [DateTime.real_iff]
      omega

theorem DateTime.real_nextSecond (real : d.real = true) : d.nextSecond.real = true := by
  have fields := d.real_iff.mp real
  unfold DateTime.nextSecond
  split
  · simp only [DateTime.real_iff]
    omega
  · exact DateTime.real_nextMinute real

/-- The hour, minute and second of a day that has begun its next. -/
theorem DateTime.time_nextDay (d : DateTime) :
    d.nextDay.hour = d.hour ∧ d.nextDay.minute = d.minute ∧ d.nextDay.second = d.second := by
  unfold DateTime.nextDay
  split
  · exact ⟨rfl, rfl, rfl⟩
  · split
    · exact ⟨rfl, rfl, rfl⟩
    · split <;> exact ⟨rfl, rfl, rfl⟩

/-- The last minute of an hour, the last hour of a day: a carry into the date is midnight of the next day. -/
theorem DateTime.nextMinute_instant (real : d.real = true)
    (notLast : ¬ (d.onLastDay ∧ d.hour = 23 ∧ d.minute = 59)) :
    d.nextMinute.instant + d.second = d.instant + 60 := by
  have fields := d.real_iff.mp real
  unfold DateTime.nextMinute
  split
  · have sameDay : dayNumber { d with minute := d.minute + 1, second := 0 } = dayNumber d := rfl
    simp only [DateTime.instant, sameDay]
    omega
  · split
    · have sameDay : dayNumber { d with hour := d.hour + 1, minute := 0, second := 0 } = dayNumber d := rfl
      simp only [DateTime.instant, sameDay]
      omega
    · have midnight : ({ d with hour := 0, minute := 0, second := 0 } : DateTime).real = true := by
        simp only [DateTime.real_iff]
        omega
      have day := dayNumber_nextDay midnight fun last => notLast ⟨last, by omega, by omega⟩
      have sameDay : dayNumber { d with hour := 0, minute := 0, second := 0 } = dayNumber d := rfl
      obtain ⟨hour, minute, second⟩ := DateTime.time_nextDay { d with hour := 0, minute := 0, second := 0 }
      simp only [DateTime.instant, day, sameDay, hour, minute, second]
      omega

/-- Every second but the last of the range is followed by the second counted one more. -/
theorem DateTime.instant_nextSecond (real : d.real = true) (notLast : d ≠ calendarEnd) :
    d.nextSecond.instant = d.instant + 1 := by
  have fields := d.real_iff.mp real
  unfold DateTime.nextSecond
  split
  · have sameDay : dayNumber { d with second := d.second + 1 } = dayNumber d := rfl
    simp only [DateTime.instant, sameDay]
    omega
  · have last : d.second = 59 := by omega
    have fieldwise : d = ⟨d.year, d.month, d.day, d.hour, d.minute, d.second⟩ := rfl
    have carried := DateTime.nextMinute_instant real fun ⟨⟨year, month, day⟩, hour, minute⟩ =>
      notLast (by rw [fieldwise, year, month, day, hour, minute, last, calendarEnd])
    omega

/-- The days that a real date and time's count of seconds is made of. -/
theorem DateTime.instant_days (real : d.real = true) : d.instant / 86400 = dayNumber d := by
  have fields := d.real_iff.mp real
  rw [DateTime.instant]
  omega

/-- The carries out of the last second of a minute, in their order (R134). -/
theorem DateTime.nextSecond_of_last (last : d.second = 59) :
    d.nextSecond =
      if d.minute < 59 then { d with minute := d.minute + 1, second := 0 }
      else if d.hour < 23 then { d with hour := d.hour + 1, minute := 0, second := 0 }
      else if d.day < monthLength d.year d.month then ⟨d.year, d.month, d.day + 1, 0, 0, 0⟩
      else if d.month < 12 then ⟨d.year, d.month + 1, 1, 0, 0, 0⟩
      else if d.year < 2099 then ⟨d.year + 1, 1, 1, 0, 0, 0⟩
      else calendarEpoch := by
  rw [DateTime.nextSecond, if_neg (by omega)]
  rfl

/-! ### O43 -/

/-- Settles O43: a day is followed by the day numbered one more, and the carries within a day keep the count. -/
theorem nextSecondIsOneSecondLater : Obligations.NextSecondIsOneSecondLater := by
  refine ⟨fun d real notLast => ⟨DateTime.real_nextSecond real, DateTime.instant_nextSecond real notLast⟩, by decide,
    fun d real => ?weekday, ⟨rfl, rfl, rfl, rfl⟩, fun year _ _ => ?months, DateTime.real_iff,
    fun d => ⟨fun early => if_pos early, DateTime.nextSecond_of_last, rfl⟩⟩
  case weekday => rw [DateTime.instant_days real, weekday, Nat.add_comm]
  case months => simp only [List.map_cons, List.map_nil, monthLength, isLeap, beq_iff_eq]

end Sys2Proof.Machine
end

