-- ==== Sys2Proof/Proofs/SecondTicks.lean ====
section
/-! PROOFS. The second tick: what it does to the calendar, by the supplies, the staged time and the present second. -/

namespace Sys2Proof.Machine

/-! ### The tick itself (R132, R134 to R137) -/

/-- The calendar one second later, at the beginning of a second and of a crystal period (R134, log 5). -/
def State.secondLater (s : State) : State :=
  { s with calendar := { s.calendar with now := s.calendar.now.nextSecond, phase := 0 }, crystalCount := 0 }

theorem State.secondLater_eq (s : State) : s.secondLater = s.zeroPhase.setNow s.calendar.now.nextSecond := rfl

/-- A set time applied: the calendar shows it, VALID is on, HOLD stays as it was (R137). -/
theorem State.applyTime_eq (s : State) (d : DateTime) :
    s.applyTime d =
      State.evaluate { s with calendar := ⟨d, 0, true, s.calendar.hold⟩, crystalCount := 0, staged := none } := rfl

section Tick

variable {s : State}

/-- On HOLD, and with the contents of the backup domain lost, there is none (R136, log 12). -/
theorem State.secondTick_stands (stands : s.calendar.hold = true ∨ s.backupLost = true) : s.secondTick = s :=
  if_pos (Bool.or_eq_true_iff.mpr stands)

theorem State.secondTick_runs (hold : s.calendar.hold = false) (kept : s.backupLost = false) :
    s.secondTick = if s.powered then s.secondTickPowered else s.advanceUnpowered := by
  simp [State.secondTick, hold, kept]

theorem State.advanceUnpowered_eq (s : State) : s.advanceUnpowered = s.secondLater := rfl

theorem State.secondTickPowered_of_none (none : s.staged = none) :
    s.secondTickPowered =
      if s.calendar.now.second < 59 then
        s.zeroPhase.setNow { s.calendar.now with second := s.calendar.now.second + 1 }
      else (s.zeroPhase.setNow s.calendar.now.nextMinute).minuteTick := by
  rw [State.secondTickPowered, none]

theorem State.secondTickPowered_early (none : s.staged = none) (early : s.calendar.now.second < 59) :
    s.secondTickPowered = s.secondLater := by
  rw [State.secondTickPowered_of_none none, if_pos early, State.secondLater_eq, DateTime.nextSecond, if_pos early]

/-- A carry into the minutes is a minute tick (R135). -/
theorem State.secondTickPowered_carry (none : s.staged = none) (last : s.calendar.now.second = 59) :
    s.secondTickPowered = s.secondLater.minuteTick := by
  have late : ¬ s.calendar.now.second < 59 := by omega
  rw [State.secondTickPowered_of_none none, if_neg late, State.secondLater_eq, DateTime.nextSecond, if_neg late]

theorem State.secondTickPowered_staged {d : DateTime} (staged : s.staged = some d) :
    s.secondTickPowered = s.applyTime d := by
  rw [State.secondTickPowered, staged]

/-- The row on a quiescent part, with main power and without. -/
theorem exec_secondTick (quiescent : s.quiescent = true) :
    exec .secondTick s = .next (if s.powered then s.secondTick.settle else s.secondTick) := by
  rw [exec_eq_run]
  change Host.Outcome.next (if s.powered then s.inEvent State.secondTick else s.secondTick) = _
  rw [State.inEvent, State.restartFirst_of_quiescent quiescent]

/-- A tick that leaves the ports and the pending restart ends with nothing to start. -/
theorem exec_secondTick_of_ports (quiescent : s.quiescent = true) (ports : s.secondTick.ports = s.ports)
    (restart : s.secondTick.restart = s.restart) : exec .secondTick s = .next s.secondTick := by
  have settled := State.settle_of_quiescent (State.quiescent_of_ports _ quiescent ports restart)
  rw [exec_secondTick quiescent, settled, ite_self]

end Tick

/-! ### Aging (R69) -/

theorem StationEntry.aged_eq (limit : Nat) (e : StationEntry) :
    StationEntry.aged limit e =
      match e.state with
      | .learned home age =>
        if limit = 0 then
          if age < 254 then ⟨.learned home (age + 1), e.ceiling⟩ else e
        else if limit ≤ age + 1 then ⟨.unknown, e.ceiling⟩
        else ⟨.learned home (age + 1), e.ceiling⟩
      | .unknown => e
      | .pinned _ => e
      | .barred => e := by
  obtain ⟨state, ceiling⟩ := e
  cases state with
  | learned home age =>
    by_cases off : limit = 0
    · simp only [StationEntry.aged, if_pos off]
      split <;> rfl
    · simp only [StationEntry.aged, if_neg off]
      by_cases young : age + 1 < limit
      · rw [if_pos young, if_neg (Nat.not_le.mpr young)]
      · rw [if_neg young, if_pos (Nat.not_lt.mp young)]
  | unknown | pinned home | barred => rfl

/-! ### O42 -/

/-- Settles O42: the tick case by case; only an evaluation can leave something for the end of the event to start. -/
theorem secondTicksAdvanceTheCalendar : Obligations.SecondTicksAdvanceTheCalendar := by
  refine ⟨?_, StationEntry.aged_eq⟩
  intro s quiescent advanced
  refine ⟨fun stands => ?stands, fun hold kept => ?runs⟩
  case stands =>
    have same := State.secondTick_stands stands
    rw [exec_secondTick_of_ports quiescent (by rw [same]) (by rw [same]), same]
  case runs =>
    have tick := State.secondTick_runs hold kept
    have advances (later : s.secondTick = s.secondLater) : exec .secondTick s = .next advanced := by
      rw [exec_secondTick_of_ports quiescent (by rw [later]; rfl) (by rw [later]; rfl), later]
      rfl
    have settles (powered : s.powered = true) : exec .secondTick s = .next s.secondTickPowered.settle := by
      rw [exec_secondTick quiescent, if_pos powered, tick, if_pos powered]
    refine ⟨fun dark => ?_, fun powered d staged => ?_, fun powered none early => ?_, fun powered none last => ?_⟩
    · refine advances ?_
      rw [tick, dark]
      exact s.advanceUnpowered_eq
    · rw [settles powered, State.secondTickPowered_staged staged, State.applyTime_eq, hold]
    · refine advances ?_
      rw [tick, if_pos powered, State.secondTickPowered_early none early]
    · rw [settles powered, State.secondTickPowered_carry none last]
      rfl

end Sys2Proof.Machine
end

