-- ==== Sys2Proof/Proofs/CalendarSound.lean ====
section
/-! SUPPORT. The calendar and the staged time stay sound: whatever the ports, the traffic and the commands do leaves them as
they are, but for the second tick, the TIME commands and the supplies, which set them to real values. -/

namespace Sys2Proof.Machine

/-! ### A sound calendar -/

/-- A calendar with a staged time as R133, R134, R137 and R139 have them: both real, the phase within a second, nothing
staged on HOLD. -/
structure TimeSound (c : Calendar) (staged : Option DateTime) : Prop where
  now : c.now.real = true
  phase : c.phase < 32768
  staged : ∀ d, staged = some d → d.real = true ∧ c.hold = false

/-- The part's calendar and its staged time are sound. -/
def State.InTime (s : State) : Prop := TimeSound s.calendar s.staged

theorem State.inTime_iff (s : State) : s.InTime ↔ s.calendarReal = true ∧ s.nothingStagedOnHold = true := by
  rw [State.calendarReal, State.nothingStagedOnHold, Config.crystalPerSecond, Bool.and_eq_true, Bool.and_eq_true,
    decide_eq_true_eq]
  cases staged : s.staged with
  | none =>
    simp only [Option.all_none, Option.isSome_none, Bool.and_false, Bool.not_false, and_true]
    exact ⟨fun h => ⟨h.now, h.phase⟩, fun ⟨now, phase⟩ =>
      ⟨now, phase, fun d some => absurd (staged.symm.trans some) (Option.some_ne_none d).symm⟩⟩
  | some d =>
    simp only [Option.all_some, Option.isSome_some, Bool.and_true, Bool.not_eq_true']
    refine ⟨fun h => ?_, fun ⟨⟨⟨now, phase⟩, real⟩, hold⟩ => ⟨now, phase, fun e same => ?_⟩⟩
    · obtain ⟨real, hold⟩ := h.staged d staged
      exact ⟨⟨⟨h.now, h.phase⟩, real⟩, hold⟩
    · obtain rfl := Option.some.inj (staged.symm.trans same)
      exact ⟨real, hold⟩

/-- With nothing staged HOLD may be on. -/
theorem TimeSound.nothingStaged {c : Calendar} (now : c.now.real = true) (phase : c.phase < 32768) : TimeSound c none :=
  ⟨now, phase, fun _ => nofun⟩

/-- A calendar at the beginning of a second. -/
theorem TimeSound.begun {d : DateTime} {valid hold : Bool} {staged : Option DateTime} (now : d.real = true)
    (sound : ∀ e, staged = some e → e.real = true ∧ hold = false) : TimeSound ⟨d, 0, valid, hold⟩ staged :=
  ⟨now, Nat.succ_pos _, sound⟩

theorem timeSound_cold : TimeSound coldCalendar none := .begun (by decide) fun _ => nofun

section Frame

variable {s t : State} (h : s.InTime)
include h

/-- Nothing else of the state plays a part. -/
theorem State.InTime.same (calendar : t.calendar = s.calendar) (staged : t.staged = s.staged) : t.InTime := by
  rw [State.InTime, calendar, staged]
  exact h

theorem State.InTime.traffic {ps : List Port} (traffic : TrafficOwing ps s t) : t.InTime :=
  h.same traffic.calendar traffic.staged

/-- The staged time discarded (R137). -/
theorem State.InTime.discarded (calendar : t.calendar = s.calendar) (none : t.staged = none) : t.InTime := by
  rw [State.InTime, calendar, none]
  exact .nothingStaged h.now h.phase

theorem State.InTime.evaluate : s.evaluate.InTime :=
  State.InTime.traffic (h.same (t := { s with dispositions := s.formDispositions }) rfl rfl) s.evaluate_traffic

theorem State.InTime.remove (p : Port) (e : QueueEntry) (c : RemovalCause) : (s.remove p e c).InTime :=
  h.traffic (s.remove_traffic p e c)

theorem State.InTime.raise (c : AlertCause) : (s.raise c).InTime := h.traffic (s.raise_traffic c)

theorem State.InTime.setStation (a : Byte) (e : StationEntry) : (s.setStation a e).InTime := by
  unfold State.setStation
  split
  · exact h.same rfl rfl
  · exact h

theorem State.InTime.updPorts (f : PortUnit → PortUnit) : (s.updPorts f).InTime := by
  rw [State.updPorts_eq]
  exact h.same rfl rfl

theorem State.InTime.settle : s.settle.InTime := by
  rw [State.settle_eq]
  exact h.same rfl rfl

end Frame

/-! ### The second tick and the TIME commands (R134 to R143) -/

section Calendar

variable {s : State} {d : DateTime}

theorem State.inTime_applyTime (real : d.real = true) : (s.applyTime d).InTime := by
  rw [State.applyTime_eq]
  exact State.InTime.evaluate (TimeSound.begun real fun _ => nofun)

variable (h : s.InTime)
include h

/-- The date and time set at the beginning of a second. -/
theorem State.InTime.setNow (real : d.real = true) : (s.zeroPhase.setNow d).InTime := .begun real h.staged

theorem State.InTime.secondLater : s.secondLater.InTime := h.setNow (DateTime.real_nextSecond h.now)

theorem State.InTime.minuteTick : s.minuteTick.InTime :=
  State.InTime.evaluate (h.same (t := s.ageStations) rfl rfl)

theorem State.InTime.secondTickPowered : s.secondTickPowered.InTime := by
  cases staged : s.staged with
  | some d =>
    rw [State.secondTickPowered_staged staged]
    exact State.inTime_applyTime (h.staged d staged).1
  | none =>
    by_cases early : s.calendar.now.second < 59
    · rw [State.secondTickPowered_early staged early]
      exact h.secondLater
    · rw [State.secondTickPowered_of_none staged, if_neg early]
      exact (h.setNow (DateTime.real_nextMinute h.now)).minuteTick

theorem State.InTime.secondTick : s.secondTick.InTime := by
  unfold State.secondTick
  split
  · exact h
  · split
    · exact h.secondTickPowered
    · rw [State.advanceUnpowered_eq]
      exact h.secondLater

theorem State.InTime.timeSet (real : d.real = true) : (s.timeSet d).InTime := by
  unfold State.timeSet
  split
  · exact State.inTime_applyTime real
  · rename_i running
    refine ⟨h.now, h.phase, fun e staged => ?_⟩
    obtain rfl := Option.some.inj staged
    exact ⟨real, Bool.eq_false_of_not_eq_true running⟩

theorem State.InTime.timeRound : s.timeRound.InTime := by
  have truncated : ({ s.calendar.now with second := 0 } : DateTime).real = true := by
    have fields := s.calendar.now.real_iff.mp h.now
    simp only [DateTime.real_iff]
    omega
  unfold State.timeRound
  dsimp only
  split
  · exact (h.setNow (DateTime.real_nextMinute h.now)).minuteTick
  · exact h.setNow truncated

/-- HOLD turned on where nothing is staged (R142). -/
theorem State.InTime.held (none : s.staged = none) :
    State.InTime { s with calendar := { s.calendar with hold := true } } := by
  rw [State.InTime, none]
  exact .nothingStaged h.now h.phase

theorem State.InTime.timeHold : s.timeHold.InTime := by
  unfold State.timeHold
  split
  · rename_i d staged
    refine (State.inTime_applyTime (h.staged d staged).1).held ?_
    rw [State.applyTime_eq]
    exact (State.evaluate_traffic _).staged
  · rename_i staged
    exact h.held staged

theorem State.InTime.timeRun : s.timeRun.InTime := .begun h.now fun d staged => ⟨(h.staged d staged).1, rfl⟩

end Calendar

/-! ### Ports (chapter 2) -/

section Ports

variable {s : State} (h : s.InTime) (p : Port)
include h

theorem State.InTime.updPort (f : PortUnit → PortUnit) : (s.updPort p f).InTime := h.same rfl rfl

theorem State.InTime.settleCollided (e : QueueEntry) : (s.settleCollided p e).InTime := by
  have attempts : (s.settleAttempts p e).InTime := by
    unfold State.settleAttempts
    split
    · exact h.remove p e _
    · exact h.updPort p _
  unfold State.settleCollided
  split
  · exact h.remove p e _
  · split
    · exact h.remove p e _
    · exact attempts
  · exact attempts

theorem State.InTime.collide (e : QueueEntry) : (s.collide p e).InTime :=
  State.InTime.settleCollided (((h.updPort p _).updPort p _).updPort p _) p _

theorem State.InTime.complete (e : QueueEntry) : (s.complete p e).InTime := (h.remove p e _).updPort p _

theorem State.InTime.abandon (b : BufferIx) (c : PortCounter) : (s.abandon p b c).InTime := h.same rfl rfl

theorem State.InTime.discardReception : (s.discardReception p).InTime := by
  unfold State.discardReception
  split
  · exact h.traffic (s.freeUp_traffic (ps := []) _)
  all_goals exact h

/-- A port leaves service: its queue purged, the transactions that rely on it closed (R32, R125). -/
theorem State.InTime.outOfService (st : PortState) :
    (((s.leaveService p st).purgeUnreachable p).portLeft p).InTime :=
  State.InTime.traffic (State.InTime.traffic (h.updPort p _) (State.purgeUnreachable_traffic _ p))
    (State.portLeft_traffic _ p)

theorem State.InTime.contain : (s.contain p).InTime :=
  (((h.discardReception p).outOfService p _).updPort p _).raise .containment

theorem State.InTime.disable : (s.disable p).InTime := by
  have aborted : ((s.discardReception p).abortTransmission p).InTime := by
    unfold State.abortTransmission
    split
    · exact (h.discardReception p).remove p _ _
    all_goals exact h.discardReception p
  unfold State.disable
  split
  · exact h
  all_goals exact aborted.outOfService p _

theorem State.InTime.truncate : (s.truncate p).InTime := by
  unfold State.truncate
  split
  · split
    · exact (h.updPort p _).abandon p _ _
    · exact h
  all_goals exact h

theorem State.InTime.reachStart : (s.reachStart p).InTime := by
  unfold State.reachStart
  split
  · exact h.updPort p _
  all_goals exact h

theorem State.InTime.missEcho : (s.missEcho p).InTime := by
  unfold State.missEcho
  split
  · exact h.collide p _
  all_goals exact h

theorem State.InTime.endBackoff : (s.endBackoff p).InTime := by
  unfold State.endBackoff
  split
  · split
    · exact (h.updPort p _).updPort p _
    · exact h
  all_goals exact h

theorem State.InTime.endGuard : (s.endGuard p).InTime := by
  unfold State.endGuard
  split
  · exact h.updPort p _
  all_goals exact h

theorem State.InTime.endContainment : (s.endContainment p).InTime := by
  unfold State.endContainment
  split
  · exact h.updPort p _
  all_goals exact h

end Ports

/-! ### Management commands (chapter 9) -/

/-- Where a command's tests pass, what they answer has a property. -/
def Accepts {α : Type} (P : α → Prop) (x : Except ResultCode α) : Prop := ∀ a, x = .ok a → P a

namespace Accepts

variable {α β : Type} {P : β → Prop}

theorem ok {b : β} (h : P b) : Accepts P (.ok b) := by
  rintro _ ⟨⟩
  exact h

theorem error (code : ResultCode) : Accepts P (.error code) := fun _ => nofun

/-- Tests come before. -/
theorem bind {x : Except ResultCode α} {f : α → Except ResultCode β} (next : ∀ a, Accepts P (f a)) :
    Accepts P (x >>= f) := by
  intro b accepted
  obtain ⟨a, -, accepted⟩ := ok_of_bind accepted
  exact next a b accepted

/-- A test that has passed holds afterwards. -/
theorem require {test : Bool} {code : ResultCode} {f : Unit → Except ResultCode β}
    (next : test = true → Accepts P (f ())) : Accepts P (Machine.require test code >>= f) := by
  intro b accepted
  obtain ⟨_, passed, accepted⟩ := ok_of_bind accepted
  exact next (require_ok_iff.mp passed) b accepted

end Accepts

/-- A TIME SET that passes its tests names a real date and time (R139). -/
theorem accepts_timeArg (args : List Byte) : Accepts (fun d => d.real = true) (timeArg args) :=
  .bind fun _ => .bind fun _ => .bind fun _ => .bind fun _ => .bind fun _ => .bind fun _ => .bind fun _ =>
    .bind fun _ => .bind fun _ => .bind fun _ => .bind fun _ => .bind fun _ => .require fun real => .ok real

section Commands

variable {s : State} {args : List Byte} (h : s.InTime)
include h

theorem State.InTime.writeEntry : Accepts State.InTime (s.writeEntry args) := by
  refine .bind fun table => ?_
  split
  · refine .bind fun address => .bind fun _ => .bind fun state => .bind fun _ => .bind fun ceiling => .bind fun _ =>
      .bind fun segment => ?_
    split <;> exact .bind fun _ => .ok (h.setStation address _)
  · refine .bind fun index => ?_
    split
    · exact .bind fun mask => .bind fun _ => .ok (h.same rfl rfl)
    · exact .error _
  · refine .bind fun index => ?_
    split
    · exact .bind fun _ => .bind fun _ => .bind fun _ => .bind fun _ => .bind fun _ => .bind fun _ => .bind fun _ =>
        .bind fun _ => .bind fun _ => .bind fun _ => .bind fun _ => .bind fun _ => .bind fun _ => .bind fun _ =>
        .bind fun _ => .bind fun _ => .ok (State.InTime.evaluate (h.same rfl rfl))
    · exact .error _
  · refine .bind fun index => ?_
    split
    · exact .bind fun _ => .bind fun _ => .bind fun _ => .ok (h.same rfl rfl)
    · exact .error _
  all_goals exact .error _

theorem State.InTime.applyPortParam (p : Port) (v : Nat) (q : PortParam) : (s.applyPortParam p v q).InTime := by
  have written (f : PortParams → PortParams) : (s.updPortParams p f).InTime := h.updPort p _
  cases q with
  | enable =>
    change (s.writePortEnable p (v == 1)).InTime
    unfold State.writePortEnable State.enable
    dsimp only
    split
    · split
      · exact (written _).updPort p _
      all_goals exact written _
    · exact (written _).disable p
  | jabberLimit =>
    change (s.writeJabberLimit p v).InTime
    unfold State.writeJabberLimit
    dsimp only
    split
    · exact (written _).contain p
    · exact written _
  | baud =>
    unfold State.applyPortParam
    dsimp only
    split
    · exact h.updPort p _
    · exact h
  | quiet | guard | attempts | containPeriod | replyTimeout | mgmtAccept => exact written _

theorem State.InTime.setParam : Accepts State.InTime (s.setParam args) := by
  refine .bind fun _ => .bind fun q => .bind fun _ => ?_
  cases q with
  | ofPort q =>
    refine .bind fun p => .bind fun v => .bind fun _ => .bind fun _ => .ok ?_
    split
    · exact h
    · exact h.applyPortParam p v q
  | ofCoupler q =>
    refine .bind fun v => .bind fun _ => .ok ?_
    split
    · exact h
    · cases q <;> exact h.same rfl rfl

theorem State.InTime.clearScope (c : Scope) : (s.clearScope c).InTime := by
  have counted (v : Vector Count 22) : State.InTime { s with counters := v } := h.same rfl rfl
  cases c with
  | port p => exact h.updPort p _
  | coupler1 | coupler2 => exact counted _

theorem State.InTime.readCounters : Accepts (fun r => r.2.InTime) (s.readCounters args) := by
  refine .bind fun _ => .bind fun scope => .bind fun flag => .bind fun _ => .ok ?_
  change State.InTime (if flag == 1 then s.clearScope scope else s)
  split
  · exact h.clearScope scope
  · exact h

theorem State.InTime.answerRead (r : Except ResultCode (Nat × List Byte)) : (answerRead s r).2.InTime := by
  cases r <;> exact h

theorem State.InTime.answerWrite {r : Except ResultCode State} (accepted : Accepts State.InTime r) :
    (answerWrite s r).2.InTime := by
  cases r with
  | error code => exact h
  | ok t => exact accepted t rfl

/-- Every command of 9.6. -/
theorem State.InTime.executeCommand (room : BufferIx) (args : List Byte) (c : CommandCode) :
    (s.executeCommand room args c).2.InTime := by
  cases c with
  | status | readEntries | getParam | timeRead => exact h.answerRead _
  | writeEntry => exact h.answerWrite h.writeEntry
  | setParam => exact h.answerWrite h.setParam
  | readCounters =>
    cases read : s.readCounters args with
    | error code =>
      rw [State.executeCommand, read]
      exact h
    | ok r =>
      rw [State.executeCommand, read]
      exact h.readCounters r read
  | timeSet =>
    refine h.answerWrite ?_
    cases passed : timeArg args with
    | error code => exact .error code
    | ok d => exact .ok (h.timeSet (accepts_timeArg args d passed))
  | timeRound =>
    refine h.answerWrite ?_
    split
    · exact .error _
    · exact .ok h.timeRound
  | timeHold => exact h.answerWrite (.ok h.timeHold)
  | timeRun => exact h.answerWrite (.ok h.timeRun)
  | clearAlert => exact h.answerWrite (.bind fun _ => .bind fun _ => .ok (h.same rfl rfl))
  | flushLearned => exact h.answerWrite (.ok (h.same rfl rfl))
  | restart => exact h.answerWrite (.bind fun _ => .bind fun _ => .ok (h.same rfl rfl))

end Commands

/-! ### The Management Unit and classification (R81, R161 to R167) -/

section Classification

variable {s : State} (h : s.InTime) (p : Port)
include h

theorem State.InTime.fillRoom (room : BufferIx) (cs : List Byte) : (s.fillRoom p room cs).InTime := by
  unfold State.fillRoom
  split
  · exact h.same rfl rfl
  · exact h

theorem State.InTime.deny (f : FrameView) : (s.deny p f).InTime := by
  have denied := State.InTime.raise (h.same (t := s.count .mgmtDenied) rfl rfl) .denied
  have produced := denied.traffic (State.generate_traffic _ p
    (resultChars s.params.ownAddress f (resultPayload f.payload ⟨.denied, 0, []⟩)))
  unfold State.deny
  split <;> rename_i e <;> rw [e] at produced
  · exact produced
  · exact produced.same rfl rfl

theorem State.InTime.storeResult (source sequence : Byte) (payload : List Byte) :
    (s.storeResult source sequence payload).InTime := by
  unfold State.storeResult
  split
  · exact h.same rfl rfl
  · exact h

theorem State.InTime.execute (f : FrameView) (own : Byte) (room : BufferIx) (c : CommandCode) :
    (s.execute p f own room c).InTime := by
  have counted := State.InTime.same (h.executeCommand room (f.payload.drop 2) c)
    (t := (s.executeCommand room (f.payload.drop 2) c).2.count .mgmtExecuted) rfl rfl
  exact (counted.storeResult _ _ _).fillRoom p room _

theorem State.InTime.judge (f : FrameView) (own : Byte) (room : BufferIx) : (s.judge p f own room).InTime := by
  unfold State.judge
  split
  · exact h.fillRoom p room _
  · split
    · exact h.fillRoom p room _
    · split
      · exact h.fillRoom p room _
      · exact h.execute p f own room _

theorem State.InTime.manage (f : FrameView) : (s.manage p f).InTime := by
  unfold State.manage
  split
  · split
    · exact h.deny p f
    · have secured := h.traffic (s.generate_traffic p [])
      split <;> rename_i e <;> rw [e] at secured
      · exact secured.same rfl rfl
      · exact secured.judge p f _ _
  · exact h.same rfl rfl

/-- A frame counted as dropped and its buffer settled (R82). -/
theorem State.InTime.settleBuffer (b : BufferIx) (n : Nat) : (s.settleBuffer b n).InTime :=
  h.traffic (s.settleBuffer_traffic (ps := []) b n)

theorem State.InTime.count (c : CouplerCounter) : (s.count c).InTime := h.same rfl rfl

theorem State.InTime.forward (f : FrameView) (c : DestClass) (b : BufferIx) : (s.forward p f c b).InTime := by
  have unrouted (counter : CouplerCounter) : (s.dropUnrouted p f c b counter).InTime := by
    unfold State.dropUnrouted
    dsimp only
    split
    · exact State.InTime.settleBuffer ((h.count counter).traffic (State.notify_traffic _ p _ .noRoute)) b 0
    · exact (h.count counter).settleBuffer b 0
  unfold State.forward
  split
  · exact (h.count _).settleBuffer b 0
  · exact unrouted _
  · exact unrouted _
  · split
    · exact ((h.count _).raise _).settleBuffer b 0
    · unfold State.place
      split
      · exact h.traffic (s.track_traffic _)
      · exact State.InTime.settleBuffer (h.traffic (admitEach_traffic _ _ s)) b _

theorem State.InTime.ownFrame (f : FrameView) (b : BufferIx) : (s.ownFrame p f b).InTime := by
  unfold State.ownFrame
  split
  · exact (h.manage p f).settleBuffer b 0
  · exact (h.count _).settleBuffer b 0
  · exact (h.count _).settleBuffer b 0
  all_goals exact (h.updPort p _).settleBuffer b 0

theorem State.InTime.classifyLearned (f : FrameView) (b : BufferIx) : (s.classifyLearned p f b).InTime := by
  unfold State.classifyLearned
  split
  · exact h.ownFrame p f b
  all_goals
    split
    · split
      · exact h.traffic (s.answer_traffic p _ b)
      · exact h.traffic (s.answer_traffic p _ b)
      all_goals exact h.forward p f _ b
    · exact (h.count _).settleBuffer b 0

theorem State.InTime.learn (source : Byte) : (s.learn p source).2.InTime := by
  unfold State.learn
  dsimp only
  split
  · exact (h.count _).raise _
  · split
    · exact h.count _
    · split
      · exact h
      · exact (h.count _).raise _
    · exact h.setStation source _
    · split
      · exact h.setStation source _
      · exact (h.setStation source _).count _

theorem State.InTime.classify (f : FrameView) (b : BufferIx) : (s.classify p f b).InTime := by
  have learned := h.learn p f.source
  unfold State.classify
  split <;> rename_i e <;> rw [e] at learned
  · exact learned.settleBuffer b 0
  · exact learned.classifyLearned p f b

end Classification

/-! ### Characters (chapter 1) -/

section Characters

variable {s : State} (h : s.InTime) (p : Port)
include h

theorem State.InTime.completeReception (b : BufferIx) (n : Nat) (check : Check) :
    (s.completeReception p b n check).InTime := by
  unfold State.completeReception
  dsimp only
  split
  · split
    · split
      · exact ((h.updPort p _).updPort p _).classify p _ b
      · exact h.abandon p b _
    · exact h.abandon p b _
  · exact h.abandon p b _

theorem State.InTime.setChars (b : BufferIx) (cs : List Byte) : (s.setChars b cs).InTime := h.same rfl rfl

theorem State.InTime.storeCharacter (r : Reception) (v : Byte) : (s.storeCharacter p r v).InTime := by
  unfold State.storeCharacter
  dsimp only
  split
  · exact (h.setChars _ _).abandon p _ _
  · split
    · exact (h.setChars _ _).completeReception p _ _ _
    · exact (h.setChars _ _).updPort p _

theorem State.InTime.startFrame (v : Byte) : (s.startFrame p v).InTime := by
  unfold State.startFrame
  split
  · exact ((h.updPort p _).updPort p _).raise _
  · exact h.same rfl rfl

theorem State.InTime.assemble (r : Reception) (c : LineCharacter) : (s.assemble p r c).InTime := by
  unfold State.assemble
  split
  · exact ((h.setChars _ _).updPort p _).updPort p _
  · exact h.storeCharacter p r _
  · exact h.abandon p _ _

theorem State.InTime.echo (pos elapsed : Nat) (c : LineCharacter) : (s.echo p pos elapsed c).InTime := by
  unfold State.echo
  split
  · exact h
  · split
    · split
      · exact h.complete p _
      · exact h.updPort p _
    · exact h.collide p _

theorem State.InTime.routeCharacter (c : LineCharacter) : (s.routeCharacter p c).InTime := by
  have offered : (s.offer p c).InTime := by
    unfold State.offer
    split
    · exact h.startFrame p _
    all_goals exact h
  unfold State.routeCharacter
  split
  · exact offered
  · exact offered
  · exact offered
  · exact h.assemble p _ c
  · exact h.echo p _ _ c
  all_goals exact h

theorem State.InTime.receiveCharacter (c : LineCharacter) : (s.receiveCharacter p c).InTime := by
  unfold State.receiveCharacter
  split
  · exact (h.updPort p _).routeCharacter p c
  · exact h.updPort p _

end Characters

end Sys2Proof.Machine
end

