-- ==== Sys2Proof/Proofs/CalendarSteps.lean ====
section
/-! PROOFS. Every step keeps the calendar and a staged time real: the resets and supplies, the rows, and the passing of
time. -/

namespace Sys2Proof.Machine

/-! ### Resets, supplies and events -/

section Events

variable {s : State}

/-- A reset keeps the calendar it finds and discards the staged time (R137, R144). -/
theorem State.InTime.resetToDefaults (h : s.InTime) (cause : ResetCause) (straps : Straps) :
    (s.resetToDefaults cause straps).InTime := by
  rw [State.resetToDefaults_eq]
  exact h.discarded rfl rfl

theorem State.InTime.resetWarm (h : s.InTime) : s.resetWarm.InTime := by
  rw [State.resetWarm_eq]
  exact h.discarded rfl rfl

theorem State.inTime_resetCold (s : State) (straps : Straps) : (s.resetCold straps).InTime := by
  rw [State.resetCold_eq]
  exact timeSound_cold

theorem State.InTime.powerOn (h : s.InTime) (straps : Straps) : (s.powerOn straps).InTime := by
  unfold State.powerOn
  split
  · exact s.inTime_resetCold straps
  · have started := h.same (t := { s with powered := true }) rfl rfl
    exact started.resetToDefaults .power straps

theorem State.InTime.restartFirst (h : s.InTime) : s.restartFirst.InTime := by
  obtain same | ⟨r, -, -, -, taken⟩ := s.restartFirst_cases
  · rwa [same]
  · rw [taken]
    cases r.kind with
    | warm => exact h.resetWarm
    | full => exact h.resetToDefaults .full s.straps

/-- The backup domain keeps its contents, or stands at those of a cold start (R132, log 12). -/
theorem State.InTime.losePower (h : s.InTime) : s.losePower.InTime := by
  unfold State.losePower
  dsimp only
  rw [foldl_updPort_eq fun _ => PortUnit.unpowered]
  split
  · exact h.discarded rfl rfl
  · exact timeSound_cold

/-- A backup domain that loses its contents keeps nothing staged on HOLD (R132, log 12). -/
theorem State.InTime.loseBackup (h : s.InTime) : s.loseBackup.InTime :=
  ⟨timeSound_cold.now, timeSound_cold.phase, fun d staged => ⟨(h.staged d staged).1, rfl⟩⟩

theorem State.InTime.inEvent {f : State → State} (effect : ∀ u, State.InTime u → (f u).InTime) (h : s.InTime) :
    (s.inEvent f).InTime := (effect _ h.restartFirst).settle

theorem State.InTime.lineEvent {p : Port} {f : State → State} {level : LineState → LineState}
    (effect : ∀ u, State.InTime u → (f u).InTime) (h : s.InTime) : (s.lineEvent p f level).InTime := by
  unfold State.lineEvent
  split
  · exact h.inEvent effect
  · exact h.updPort p _

theorem State.InTime.foldl {α : Type} {f : State → α → State} (keeps : ∀ s a, State.InTime s → (f s a).InTime)
    (l : List α) (h : s.InTime) : (l.foldl f s).InTime := by
  induction l generalizing s with
  | nil => exact h
  | cons a l ih => exact ih (keeps s a h)

theorem State.InTime.effect (h : s.InTime) (e : Effect) : (e.apply s).InTime := by
  cases e with
  | truncate p => exact h.truncate p
  | idleReaches2Ct p => exact h.updPort p _
  | reachStart p => exact h.reachStart p
  | missEcho p => exact h.missEcho p
  | endBackoff p => exact h.endBackoff p
  | endGuard p => exact h.endGuard p
  | contain p =>
    rw [Effect.apply]
    split
    · exact h.contain p
    · exact h
  | endContainment p => exact h.endContainment p
  | lapse t => exact h.traffic (s.lapse_traffic t)
  | endGrace t => exact h.traffic (s.endGrace_traffic t)
  | endPulse => exact h.same rfl rfl
  | pinReset straps => exact h.resetToDefaults .pin straps
  | nothing => exact h

theorem State.InTime.lineEffect (h : s.InTime) (p : Port) (e : LineEffect) : (e.apply p s).InTime := by
  cases e with
  | character c => exact h.receiveCharacter p c
  | startBit => exact h.updPort p _
  | lineReturns => exact h.updPort p _

/-- Every row keeps the calendar sound. -/
theorem State.InTime.run (h : s.InTime) (r : Row) : (r.run s).InTime := by
  cases r with
  | main e =>
    rw [Row.run]
    split
    · exact h.inEvent fun _ sound => sound.effect e
    · exact h
  | line p e => exact h.lineEvent fun _ sound => sound.lineEffect p e
  | frame p f k => exact h.foldl (fun _ c sound => sound.lineEvent fun _ sound => sound.receiveCharacter p c) _
  | secondTick =>
    rw [Row.run]
    split
    · exact h.inEvent fun _ sound => sound.secondTick
    · exact h.secondTick
  | coldStart straps => exact (s.inTime_resetCold straps).settle
  | powerStart straps => exact (h.powerOn straps).settle
  | fullRestart straps =>
    have read : (s.readsStraps straps).InTime := by
      unfold State.readsStraps
      split
      · exact h.same rfl rfl
      · exact h
    rw [Row.run]
    split
    · exact read.inEvent fun _ => id
    · exact read
  | mainPowerLoss =>
    rw [Row.run]
    split
    · exact h.restartFirst.losePower
    · exact h
  | backupSupplyLoss =>
    have absent := h.restartFirst.same (t := { s.restartFirst with backupSupply := false }) rfl rfl
    rw [Row.run]
    split
    · exact absent
    · exact absent.loseBackup

/-! ### Time -/

theorem State.InTime.clkPass (h : s.InTime) : s.clkPass.InTime := by
  rw [State.clkPass_eq]
  exact h.same rfl rfl

theorem State.InTime.after (h : s.InTime) (c : Instr) : (s.after c).InTime := by
  rw [State.after, exec_eq_run]
  exact h.run (rowOf c)

theorem State.InTime.takeDue (h : s.InTime) (c : Instr) : (s.takeDue c).InTime := by
  unfold State.takeDue
  split
  · exact h.restartFirst.after c
  · exact h.restartFirst

/-- The phase advances within a second, or wraps in a second tick (R134). -/
theorem State.InTime.crystalClock (h : s.InTime) : s.crystalClock.InTime := by
  by_cases within : s.crystalCount + 1 < 900
  · rw [State.crystalClock_within within]
    exact h.same rfl rfl
  · cases runs : s.calendar.hold || s.backupLost with
    | true =>
      rw [State.crystalClock_stands within runs]
      exact h.same rfl rfl
    | false =>
      by_cases early : s.calendar.phase + 1 < 32768
      · rw [State.crystalClock_advances within runs early]
        exact ⟨h.now, early, h.staged⟩
      · rw [State.crystalClock_wraps within runs early]
        have begun := h.same (t := { s with crystalCount := 0 }) rfl rfl
        exact begun.after .secondTick

/-- Every step keeps the calendar sound. -/
theorem State.InTime.step {t : State} (h : s.InTime) (stepped : step s = .next t) : t.InTime := by
  cases waiting : s.pending with
  | nil =>
    obtain rfl := Host.Outcome.next.inj ((step_of_idle waiting).symm.trans stepped)
    exact State.InTime.crystalClock (h.restartFirst.clkPass.foldl (fun _ c sound => sound.takeDue c) timedEvents)
  | cons c rest =>
    have taken := h.same (t := { s with pending := rest }) rfl rfl
    rw [Machine.step, waiting] at stepped
    obtain rfl := Host.Outcome.next.inj ((exec_eq_run c _).symm.trans stepped)
    exact taken.run (rowOf c)

end Events

/-! ### O8 -/

/-- Settles O8: a sound calendar with a sound staged time is kept by everything a step is made of. -/
theorem stepsKeepTheCalendarReal : Obligations.StepsKeepTheCalendarReal := by
  intro s t real staged stepped
  exact t.inTime_iff.mp (State.InTime.step (s.inTime_iff.mpr ⟨real, staged⟩) stepped)

end Sys2Proof.Machine
end

