-- ==== Sys2Proof/Proofs/Supplies.lean ====
section
/-! PROOFS. The supplies: the resets that sample the straps and keep the calendar, what is lost with main power and with VBAK,
and what the rows still do without main power. -/

namespace Sys2Proof.Machine

/-! ### Resets that keep the calendar (R144, R179, R181) -/

section Resets

variable {s : State}

/-- The whole state a reset leaves that samples the straps on a part with main power. -/
theorem State.resetToDefaults_of_powered (powered : s.powered = true) (cause : ResetCause) (straps : Straps) :
    s.resetToDefaults cause straps = s.afterReset cause straps := by
  rw [State.resetToDefaults_eq, powered]
  rfl

theorem State.settle_afterReset (s : State) (cause : ResetCause) (straps : Straps) :
    (s.afterReset cause straps).settle = s.afterReset cause straps :=
  State.settle_of_quiescent (s.quiescent_afterReset cause straps)

/-- A power-on that finds the backup domain's contents is a power start. -/
theorem exec_powerStart (kept : s.backupLost = false) (supply : s.backupSupply = true) (straps : Straps) :
    exec (.powerStart straps) s = .next (s.afterReset .power straps) := by
  have started : s.powerOn straps = s.afterReset .power straps := by
    have warm : ¬ (s.backupLost || !s.backupSupply) = true := by rw [kept, supply]; decide
    rw [State.powerOn, if_neg warm, State.resetToDefaults_of_powered rfl]
    rfl
  change Host.Outcome.next (s.powerOn straps).settle = _
  rw [started, State.settle_afterReset]

/-- A power-on that does not find them is a cold start (R132, log 12). -/
theorem exec_powerStart_of_lost (lost : s.backupLost = true ∨ s.backupSupply = false) (straps : Straps) :
    exec (.powerStart straps) s = exec (.coldStart straps) s := by
  have cold : s.powerOn straps = s.resetCold straps := if_pos (by simpa using lost)
  exact congrArg (fun t : State => Host.Outcome.next t.settle) cold

theorem exec_pinReset (powered : s.powered = true) (straps : Straps) :
    exec (.pinReset straps) s = .next (s.afterReset .pin straps) := by
  have reset : s.restartFirst.resetToDefaults .pin straps = s.afterReset .pin straps := by
    rw [State.resetToDefaults_of_powered (s.powered_restartFirst.trans powered), State.afterReset_restartFirst]
  change event _ s = _
  rw [event, if_pos powered, State.inEvent, reset, State.settle_afterReset]

/-- The row WARM_RESTART is an event without an effect of its own: a restart that fell due comes with it (log 8). -/
theorem exec_warmRestart (powered : s.powered = true) : exec .warmRestart s = .next s.restartFirst.settle :=
  congrArg Host.Outcome.next (if_pos powered)

/-- So is FULL_RESTART, on the straps it reads. -/
theorem exec_fullRestart (s : State) (straps : Straps) :
    exec (.fullRestart straps) s = exec .warmRestart (s.readsStraps straps) := rfl

theorem exec_warmRestart_of_full {b : BufferIx} (powered : s.powered = true)
    (due : s.restart = some ⟨.full, b, true⟩) : exec .warmRestart s = .next (s.afterReset .full s.straps) := by
  rw [exec_warmRestart powered, restartFirst_of_due s _ due rfl powered, State.takeRestart,
    State.resetToDefaults_of_powered powered, State.settle_afterReset]

theorem exec_fullRestart_of_full {b : BufferIx} (powered : s.powered = true)
    (due : s.restart = some ⟨.full, b, true⟩) (straps : Straps) :
    exec (.fullRestart straps) s = .next (s.afterReset .full straps) := by
  have reads : s.readsStraps straps = { s with straps := straps } := by
    simp [State.readsStraps, State.restartDue, powered, due]
  rw [exec_fullRestart, reads]
  exact exec_warmRestart_of_full (s := { s with straps := straps }) powered due

/-- Where no full restart has fallen due no straps are read (log 8). -/
theorem exec_fullRestart_of_notDue (none : s.restartDue .full = false) (straps : Straps) :
    exec (.fullRestart straps) s = exec .warmRestart s := by
  rw [exec_fullRestart, State.readsStraps, none, Bool.and_false]
  rfl

theorem State.restartDue_of_quiescent (quiescent : s.quiescent = true) (k : RestartKind) : s.restartDue k = false := by
  have notDue := (s.quiescent_iff.mp quiescent).1
  cases restart : s.restart with
  | none => rw [State.restartDue, restart, Option.any_none]
  | some r =>
    rw [restart, Option.any_some] at notDue
    rw [State.restartDue, restart, Option.any_some, notDue, Bool.and_false]

end Resets

/-! ### O58 -/

/-- Settles O58: each row by the reset it is, and a row with nothing due by the event it is not. -/
theorem sampledResetsKeepTheCalendar : Obligations.SampledResetsKeepTheCalendar := by
  refine fun s straps => ⟨fun kept supply => exec_powerStart kept supply straps,
    fun lost => exec_powerStart_of_lost lost straps, fun powered => ⟨exec_pinReset powered straps,
      fun b due => ⟨exec_fullRestart_of_full powered due straps, exec_warmRestart_of_full powered due⟩,
      fun b due => exec_fullRestart_of_notDue ?warm straps, fun quiescent => ?nothingDue⟩⟩
  case warm =>
    rw [State.restartDue, due]
    rfl
  case nothingDue =>
    have unchanged : exec .warmRestart s = .next s := event_unchanged powered quiescent rfl
    exact ⟨(exec_fullRestart_of_notDue (State.restartDue_of_quiescent quiescent .full) straps).trans unchanged,
      unchanged⟩

/-! ### Main power removed (R132) -/

/-- The part as main power leaves it, its backup domain apart. -/
def State.darkened (s : State) : State :=
  { s.clearVolatile s.resetCause with
    ports := #v[(s.port 0).unpowered, (s.port 1).unpowered, (s.port 2).unpowered, (s.port 3).unpowered]
    powered := false }

/-- With VBAK absent the backup domain goes too. -/
theorem State.losePower_eq_darkened (s : State) :
    s.losePower = if s.backupSupply then s.darkened else s.darkened.loseBackup := by
  unfold State.losePower
  dsimp only
  rw [foldl_updPort_allPorts fun _ => PortUnit.unpowered]
  rfl

/-- Neither the supplies nor the calendar are part of a restart. -/
theorem State.supplies_restartFirst (s : State) :
    s.restartFirst.calendar = s.calendar ∧ s.restartFirst.backupSupply = s.backupSupply ∧
      s.restartFirst.backupLost = s.backupLost := by
  obtain same | ⟨r, -, -, -, taken⟩ := s.restartFirst_cases
  · rw [same]
    exact ⟨rfl, rfl, rfl⟩
  · rw [taken]
    obtain ⟨calendar, supply, lost, -⟩ := s.kept_takeRestart r.kind
    exact ⟨calendar, supply, lost⟩

/-- What a part without main power holds: nothing driven, queued, received, tracked or pending (R132, log 12). -/
structure State.Dark (s : State) : Prop where
  powered : s.powered = false
  staged : s.staged = none
  pendingAlerts : s.pendingAlerts = 0
  pulse : s.pulse = none
  restart : s.restart = none
  freeList : s.freeList = List.finRange 48
  tx : ∀ i, s.tx i = .free
  port : ∀ p, (s.port p).state = .disabled ∧ s.queue p = []

theorem State.dark_darkened (s : State) : s.darkened.Dark where
  powered := rfl
  staged := rfl
  pendingAlerts := rfl
  pulse := rfl
  restart := rfl
  freeList := rfl
  tx i := by
    change (Vector.replicate 32 TxEntry.free).get i = .free
    rw [Vector.get_eq_getElem, Vector.getElem_replicate]
  port p := by
    have port : s.darkened.port p = (s.port p).unpowered := get_fourPorts (fun p => (s.port p).unpowered) p
    rw [State.queue, port]
    exact ⟨rfl, rfl⟩

/-- The loss of the backup domain is nothing to the main domain. -/
theorem State.Dark.loseBackup {s : State} (h : s.Dark) : s.loseBackup.Dark :=
  ⟨h.powered, h.staged, h.pendingAlerts, h.pulse, h.restart, h.freeList, h.tx, h.port⟩

theorem State.losePower_dark (s : State) : s.losePower.Dark := by
  rw [State.losePower_eq_darkened]
  split
  · exact s.dark_darkened
  · exact s.dark_darkened.loseBackup

theorem State.Dark.txd {s : State} (h : s.Dark) (p : Port) : s.txd p = none := by
  rw [State.txd, (h.port p).1]

theorem State.losePower_of_supply {s : State} (supply : s.backupSupply = true) : s.losePower = s.darkened := by
  rw [State.losePower_eq_darkened, if_pos supply]

theorem State.losePower_of_noSupply {s : State} (absent : s.backupSupply = false) :
    s.losePower = s.darkened.loseBackup := by
  rw [State.losePower_eq_darkened, if_neg (by rw [absent]; decide)]

theorem State.backupSupply_losePower (s : State) : s.losePower.backupSupply = s.backupSupply := by
  rw [State.losePower_eq_darkened]
  split <;> rfl

/-- What the backup domain holds when main power goes: its contents from VBAK, or those of a cold start. -/
theorem State.backup_losePower (s : State) :
    (s.backupSupply = true → s.losePower.calendar = s.calendar ∧ s.losePower.backupLost = s.backupLost) ∧
      (s.backupSupply = false → s.losePower.calendar = coldCalendar ∧ s.losePower.backupLost = true) := by
  refine ⟨fun supply => ?_, fun absent => ?_⟩
  · rw [State.losePower_of_supply supply]
    exact ⟨rfl, rfl⟩
  · rw [State.losePower_of_noSupply absent]
    exact ⟨rfl, rfl⟩

theorem exec_mainPowerLoss (s : State) :
    exec .mainPowerLoss s = .next (if s.powered then s.restartFirst.losePower else s) := rfl

/-- VBAK is absent from now on; the backup domain loses its contents where it alone supplied them (log 12). -/
theorem exec_backupSupplyLoss (s : State) :
    exec .backupSupplyLoss s =
      .next (if s.powered then { s.restartFirst with backupSupply := false }
        else State.loseBackup { s.restartFirst with backupSupply := false }) := by
  rw [exec_eq_run, ← s.powered_restartFirst]
  rfl

/-! ### O60 -/

/-- Settles O60: what is lost with main power, by what VBAK supplies then, and what is lost with VBAK. -/
theorem suppliesAreLost : Obligations.SuppliesAreLost := by
  intro s lost
  refine ⟨fun powered => ⟨?supply, s.restartFirst.losePower, ?main, ?parts⟩, fun dark => ⟨?dark, ?both⟩⟩
  case supply => rw [exec_backupSupplyLoss, if_pos powered]
  case main => rw [exec_mainPowerLoss, if_pos powered]
  case parts =>
    obtain ⟨calendar, supply, contents⟩ := s.supplies_restartFirst
    obtain ⟨kept, gone⟩ := s.restartFirst.backup_losePower
    rw [calendar, supply, contents] at kept
    rw [supply] at gone
    have dark := s.restartFirst.losePower_dark
    exact ⟨dark.powered, (State.backupSupply_losePower _).trans supply, kept, gone, dark.staged, dark.pendingAlerts,
      dark.pulse, dark.restart, dark.freeList, dark.tx, fun p => ⟨(dark.port p).1, (dark.port p).2, dark.txd p⟩⟩
  case dark => rw [exec_mainPowerLoss, dark]; rfl
  case both =>
    rw [exec_backupSupplyLoss, if_neg (by rw [dark]; decide), State.restartFirst_of_unpowered dark]
    rfl

/-! ### Rows without main power (R132, log 12) -/

/-- The line a row is on, and the level it leaves there. -/
def Row.level : Row → Option (Port × (LineState → LineState))
  | .line p e => some (p, e.level)
  | .frame p _ _ => some (p, fun _ => .idle 0)
  | .main _ | .secondTick | .coldStart _ | .powerStart _ | .fullRestart _ | .mainPowerLoss | .backupSupplyLoss => none

theorem level_rowOf (c : Instr) : (rowOf c).level = lineLevelOf c := by cases c <;> rfl

/-- The rows that are not those of the main domain: the calendar's and the supplies'. -/
def Row.ofBackupDomain : Row → Bool
  | .secondTick | .coldStart _ | .powerStart _ | .backupSupplyLoss => true
  | .main _ | .line _ _ | .frame _ _ _ | .fullRestart _ | .mainPowerLoss => false

theorem ofBackupDomain_rowOf {c : Instr} (tick : c ≠ .secondTick) (cold : ∀ straps, c ≠ .coldStart straps)
    (start : ∀ straps, c ≠ .powerStart straps) (supply : c ≠ .backupSupplyLoss) :
    (rowOf c).ofBackupDomain = false := by
  cases c
  case secondTick => exact absurd rfl tick
  case coldStart straps => exact absurd rfl (cold straps)
  case powerStart straps => exact absurd rfl (start straps)
  case backupSupplyLoss => exact absurd rfl supply
  all_goals rfl

section Unpowered

variable {s : State} (dark : s.powered = false)
include dark

theorem State.lineEvent_of_unpowered (p : Port) (f : State → State) (level : LineState → LineState) :
    s.lineEvent p f level = s.updPort p fun u => { u with line := level u.line } :=
  if_neg (by rw [dark]; decide)

theorem State.takeCharacter_of_unpowered (p : Port) (d : Byte) (flag : Bool) :
    s.takeCharacter p (.good d flag) = s.updPort p fun u => { u with line := .idle 0 } :=
  State.lineEvent_of_unpowered dark p _ _

/-- Characters with a stop bit, one after another, leave the line idle. -/
theorem State.foldl_takeCharacter_of_unpowered (p : Port) (d : Byte) (flag : Bool) (rest : List Byte) :
    ((LineCharacter.good d flag :: rest.map fun b => .good b false).foldl (State.takeCharacter p) s) =
      s.updPort p fun u => { u with line := .idle 0 } := by
  induction rest generalizing s d flag with
  | nil => exact State.takeCharacter_of_unpowered dark p d flag
  | cons b rest ih =>
    rw [List.map_cons, List.foldl_cons, State.takeCharacter_of_unpowered dark,
      ih (s := s.updPort p fun u => { u with line := .idle 0 }) dark, State.updPort_updPort]

theorem State.receiveFrame_of_unpowered (p : Port) (f : Frame) (k : Kind) :
    s.receiveFrame p (framedChars f k) = s.updPort p fun u => { u with line := .idle 0 } := by
  obtain ⟨d, rest, chars⟩ := framedChars_cons f k
  rw [State.receiveFrame, chars]
  exact State.foldl_takeCharacter_of_unpowered dark p d true rest

/-- A row on a line moves that line alone (R35). -/
theorem Row.run_of_level {r : Row} {p : Port} {level : LineState → LineState} (on : r.level = some (p, level)) :
    r.run s = s.updPort p fun u => { u with line := level u.line } := by
  cases r with
  | line q e =>
    obtain ⟨rfl, rfl⟩ := Prod.mk.inj (Option.some.inj on)
    exact State.lineEvent_of_unpowered dark q _ _
  | frame q f k =>
    obtain ⟨rfl, rfl⟩ := Prod.mk.inj (Option.some.inj on)
    exact State.receiveFrame_of_unpowered dark q _ k
  | main _ | secondTick | coldStart _ | powerStart _ | fullRestart _ | mainPowerLoss | backupSupplyLoss =>
    exact absurd on (Option.some_ne_none _).symm

/-- A row of the main domain that is on no line does nothing. -/
theorem Row.run_of_no_level {r : Row} (off : r.level = none) (main : r.ofBackupDomain = false) : r.run s = s := by
  have dead : ¬ s.powered = true := by rw [dark]; decide
  cases r with
  | main e => exact if_neg dead
  | mainPowerLoss => exact if_neg dead
  | fullRestart straps =>
    have unread : s.readsStraps straps = s := if_neg (by rw [dark]; simp)
    rw [Row.run, unread, if_neg dead]
  | line _ _ | frame _ _ _ => exact absurd off (Option.some_ne_none _)
  | secondTick | coldStart _ | powerStart _ | backupSupplyLoss => exact Bool.noConfusion main

end Unpowered

/-! ### O4 -/

/-- Settles O4: without main power a row comes down to the level it leaves on its line, if it has one. -/
theorem unpoweredPartFollowsItsLinesAlone : Obligations.UnpoweredPartFollowsItsLinesAlone := by
  intro c s dark
  split
  · trivial
  · trivial
  · trivial
  · trivial
  · rename_i notTick notCold notStart notLoss
    split
    · rename_i p level names
      rw [exec_eq_run, Row.run_of_level dark ((level_rowOf c).trans names)]
    · rename_i silent
      rw [exec_eq_run, Row.run_of_no_level dark ((level_rowOf c).trans silent)
        (ofBackupDomain_rowOf notTick notCold notStart notLoss)]

end Sys2Proof.Machine
end

