-- ==== Sys2Proof/Proofs/WindowPurges.lean ====
section
/-! PROOFS. The dispositions at work (R150): the request for admission that one refuses, and the window purge (R56), which
takes exactly the entries it refuses, entry by entry, whatever notices their reports owe. -/

namespace Sys2Proof.Machine

/-! ### A request for admission (R52) -/

section Requests

variable (s : State) (p : Port) (n : NewEntry)

/-- In service, a request is judged WINDOW exactly where the disposition does not admit it. -/
theorem State.judgeAdmission_window_iff {owed : Owed} {r : Rank} {o : Origin}
    (service : (s.port p).state.outOfService = false) :
    s.judgeAdmission owed p r o = .window ↔ (s.disposition p).admits r o = false := by
  unfold State.judgeAdmission
  rw [service]
  cases (s.disposition p).admits r o with
  | false => exact ⟨fun _ => rfl, fun _ => rfl⟩
  | true =>
    refine ⟨fun judged => ?_, Bool.noConfusion⟩
    simp only [Bool.false_eq_true, if_false, Bool.not_true] at judged
    split at judged
    · exact Judgement.noConfusion judged
    · split at judged <;> exact Judgement.noConfusion judged

theorem State.requestAdmission_of_window (judged : s.judgeAdmission .nothing p n.rank n.origin = .window) :
    s.requestAdmission p n = (.window, s.countPort p .windowDrops) := by
  rw [State.requestAdmission, State.makePlace, judged]

/-- No other judgement is answered WINDOW. -/
theorem State.requestAdmission_window_iff :
    (s.requestAdmission p n).1 = .window ↔ s.judgeAdmission .nothing p n.rank n.origin = .window := by
  refine ⟨fun answered => ?_, fun judged => by rw [s.requestAdmission_of_window p n judged]⟩
  rw [State.requestAdmission, State.makePlace] at answered
  cases judged : s.judgeAdmission .nothing p n.rank n.origin with
  | window => rfl
  | displaces e =>
    rw [judged] at answered
    cases link : e.link <;> simp only [link] at answered <;> exact Verdict.noConfusion answered
  | room | unreachable | queueFull =>
    rw [judged] at answered
    exact Verdict.noConfusion answered

end Requests

/-! ### What the notice of a report does to a queue with room (R47, R113) -/

/-- A queue as it was, or with a generated entry more. -/
inductive NoticeJoined (q : List QueueEntry) : List QueueEntry → Prop
  | same : NoticeJoined q q
  | joined (e : QueueEntry) (generated : e.origin = .generated) : NoticeJoined q (insertEntry e q)

/-- The report of a copy touches a queue with room only by the notice it may owe. -/
def JoinsNotice (report : Owed → TxIx → State → State) : Prop :=
  ∀ owed i s p, (s.queue p).length + owed.places.count p < Config.queueSize →
    NoticeJoined (s.queue p) ((report owed i s).queue p)

section Notices

variable {s : State} {p q : Port}

/-- A queue with room is not displaced from (R53). -/
theorem State.judgeAdmission_displaces_full {owed : Owed} {r : Rank} {o : Origin} {e : QueueEntry}
    (judged : s.judgeAdmission owed p r o = .displaces e) :
    ¬ (s.queue p).length + owed.places.count p < Config.queueSize := by
  intro room
  unfold State.judgeAdmission at judged
  rw [if_pos room] at judged
  split at judged
  · exact Judgement.noConfusion judged
  · split at judged <;> exact Judgement.noConfusion judged

theorem State.queue_countPort (c : PortCounter) : (s.countPort q c).queue p = s.queue p := by
  rw [State.queue, State.countPort_eq, State.port_updPort]
  split
  · rename_i here
    rw [here]
    rfl
  · rfl

theorem State.queue_of_ports {t : State} (ports : t.ports = s.ports) : t.queue p = s.queue p := by
  rw [State.queue, State.port, ports]
  rfl

theorem State.queue_displace_ne (other : p ≠ q) (e : QueueEntry) : (s.displace q e).queue p = s.queue p := by
  rw [State.displace, State.queue_countPort, State.queue_of_ports (State.release_ports _ _), State.queue_dequeue,
    if_neg other]

variable {report : Owed → TxIx → State → State} (h : JoinsNotice report)
include h

/-- A request for a place at port `q`: the queue of `q` itself, if it has room, stays as it is. -/
theorem State.queue_makePlace {owed : Owed} (room : (s.queue p).length + owed.places.count p < Config.queueSize)
    (n : Nat) (r : Rank) (o : Origin) :
    (q = p → (s.makePlace report owed n q r o).2.queue p = s.queue p) ∧
      NoticeJoined (s.queue p) ((s.makePlace report owed n q r o).2.queue p) := by
  have unchanged {t : State} (same : t.queue p = s.queue p) :
      (q = p → t.queue p = s.queue p) ∧ NoticeJoined (s.queue p) (t.queue p) :=
    ⟨fun _ => same, same ▸ .same⟩
  unfold State.makePlace
  split
  · exact unchanged rfl
  · rename_i e judged
    have other : p ≠ q := by
      rintro rfl
      exact State.judgeAdmission_displaces_full judged room
    have displaced := s.queue_displace_ne other e
    split
    · rename_i i _
      have stillRoom : ((s.displace q e).queue p).length + (q :: owed.places).count p < Config.queueSize := by
        rwa [displaced, List.count_cons_of_ne other.symm]
      exact ⟨fun here => absurd here.symm other, displaced ▸ h ⟨q :: owed.places, owed.buffers + n⟩ i _ p stillRoom⟩
    · exact unchanged displaced
  all_goals exact unchanged (State.queue_countPort _)

omit h in
theorem State.queue_joinGenerated (cs : List Byte) :
    (q ≠ p → (s.joinGenerated q cs).2.queue p = s.queue p) ∧
      NoticeJoined (s.queue p) ((s.joinGenerated q cs).2.queue p) := by
  unfold State.joinGenerated
  split
  · exact ⟨fun _ => rfl, .same⟩
  · rename_i b _ _
    let e : QueueEntry := ⟨b, .express, s.nextStamp, 0, false, .generated, none, none⟩
    have queue : (s.setQueue q (insertEntry e (s.queue q))).queue p =
        if p = q then insertEntry e (s.queue q) else s.queue p :=
      s.queue_setQueue q p _
    refine ⟨fun other => queue.trans (if_neg other.symm), ?_⟩
    change NoticeJoined _ ((s.setQueue q (insertEntry e (s.queue q))).queue p)
    rw [queue]
    split
    · rename_i here
      exact here ▸ .joined e rfl
    · exact .same

/-- A generated frame joins a queue with room, or leaves it as it was: where the frame displaces at another port, the
report of that displacement may owe the queue a notice, and then the frame itself does not join it. -/
theorem State.queue_placeGenerated {owed : Owed} (room : (s.queue p).length + owed.places.count p < Config.queueSize)
    (cs : List Byte) : NoticeJoined (s.queue p) ((s.placeGenerated report owed q cs).2.queue p) := by
  unfold State.placeGenerated
  split
  · exact .same
  · have placed := State.queue_makePlace (q := q) h room 1 .express .generated
    split <;> rename_i t made <;> rw [made] at placed
    · obtain ⟨atHome, joined⟩ := placed
      have generated := State.queue_joinGenerated (s := t) (p := p) (q := q) cs
      by_cases here : q = p
      · exact atHome here ▸ generated.2
      · exact generated.1 here ▸ joined
    all_goals exact placed.2

end Notices

theorem State.dropCopy_ports (s : State) (i : TxIx) : (s.dropCopy i).2.ports = s.ports := by
  unfold State.dropCopy
  split
  · split <;> rfl
  all_goals rfl

theorem State.countNotice_ports (r : Option BufferIx × State) : (State.countNotice r).ports = r.2.ports := by
  obtain ⟨placed, t⟩ := r
  cases placed <;> rfl

/-- Only the last notice of a chain of reports finds room without displacing, so a queue with room gains one at most. -/
theorem copyRemoved_joinsNotice (fuel : Nat) (loss : CopyLoss) : JoinsNotice (copyRemoved fuel loss) := by
  induction fuel generalizing loss with
  | zero => exact fun _ _ _ _ _ => .same
  | succ fuel ih =>
    intro owed i s p room
    have dropped : (s.dropCopy i).2.queue p = s.queue p := State.queue_of_ports (s.dropCopy_ports i)
    unfold copyRemoved
    split <;> rename_i t fate <;> rw [fate] at dropped
    · exact dropped ▸ .same
    · rw [State.queue_of_ports (State.countNotice_ports _), ← dropped]
      exact State.queue_placeGenerated (ih .queueFull) (dropped ▸ room) _

/-! ### A removal with cause WINDOW -/

/-- What the removals of a purge need of queue `p`: at most 16 entries (R50), each with a stamp of its own (R51). -/
structure State.PurgeableAt (s : State) (p : Port) : Prop where
  stamped : Stamped s.nextStamp (s.queue p)
  fits : (s.queue p).length ≤ Config.queueSize

/-- What a window purge removes: an entry refused that is not in transmission. -/
def QueueEntry.doomedBy (d : Disposition) (e : QueueEntry) : Bool := !e.inTx && e.refusedBy d

theorem QueueEntry.not_doomedBy_of_generated {e : QueueEntry} (generated : e.origin = .generated) (d : Disposition) :
    e.doomedBy d = false := by
  have admitted : d.admits e.rank .generated = true := rfl
  rw [QueueEntry.doomedBy, QueueEntry.refusedBy, generated, admitted, Bool.not_true, Bool.and_false]

theorem QueueEntry.doomedBy_iff {d : Disposition} {e : QueueEntry} :
    e.doomedBy d = true ↔ e.inTx = false ∧ e.refusedBy d = true := by
  rw [QueueEntry.doomedBy, Bool.and_eq_true, Bool.not_eq_true']

section Removal

variable {s : State} {p : Port} {e : QueueEntry}

/-- The entry leaves its queue, where its report may queue a notice. -/
theorem State.queue_remove_window (here : s.PurgeableAt p) (mem : e ∈ s.queue p) :
    NoticeJoined ((s.queue p).filter fun x => x.stamp != e.stamp) ((s.remove p e .window).queue p) := by
  have told (t : State) : (t.toldDeparture e).queue p = t.queue p := congrArg PortUnit.queue (t.port_toldDeparture e p)
  have left : (((s.dequeue p e).release e.buffer).countPort p .windowDrops).queue p =
      (s.queue p).filter fun x => x.stamp != e.stamp := by
    rw [State.queue_countPort, State.queue_of_ports (State.release_ports _ _), State.queue_dequeue, if_pos rfl]
  have shorter := filter_stamp_length (s.queue p) e mem
  have room : ((s.queue p).filter fun x => x.stamp != e.stamp).length < Config.queueSize :=
    Nat.lt_of_lt_of_le shorter here.fits
  unfold State.remove
  rw [told]
  cases e.link with
  | none => exact left ▸ .same
  | some i => exact left ▸ copyRemoved_joinsNotice 33 .window .nothing i _ p (by rw [left]; exact room)

theorem State.PurgeableAt.remove (here : s.PurgeableAt p) (mem : e ∈ s.queue p) (unmarked : e.inTx = false) :
    (s.remove p e .window).PurgeableAt p :=
  ⟨(State.remove_moves mem unmarked .window).stamped here.stamped,
    ((s.remove_traffic p e .window).ports p).fits here.fits⟩

end Removal

/-! ### Removals one after another -/

theorem filter_insertEntry_of_neg {f : QueueEntry → Bool} {e : QueueEntry} (spared : f e = false) (q : List QueueEntry) :
    (insertEntry e q).filter f = q.filter f := by
  induction q with
  | nil => simp [insertEntry, spared]
  | cons x xs ih =>
    unfold insertEntry
    split
    · rw [List.filter_cons_of_neg (by simp [spared])]
    · rw [List.filter_cons, List.filter_cons, ih]

/-- A notice is no entry that a disposition refuses. -/
theorem NoticeJoined.filter_doomedBy {q q' : List QueueEntry} (h : NoticeJoined q q') (d : Disposition) :
    q'.filter (·.doomedBy d) = q.filter (·.doomedBy d) := by
  cases h with
  | same => rfl
  | joined e generated => exact filter_insertEntry_of_neg (QueueEntry.not_doomedBy_of_generated generated d) q

theorem NoticeJoined.mem {q q' : List QueueEntry} (h : NoticeJoined q q') {e : QueueEntry} (mem : e ∈ q) : e ∈ q' := by
  cases h with
  | same => exact mem
  | joined n _ => exact mem_insertEntry.mpr (.inr mem)

/-- The first of the refused entries removed, the others are still there, in their order. -/
theorem State.PurgeableAt.doomed_remove {s : State} {p : Port} (here : s.PurgeableAt p) {d : Disposition} {e : QueueEntry}
    {rest : List QueueEntry} (doomed : (s.queue p).filter (·.doomedBy d) = e :: rest) :
    ((s.remove p e .window).queue p).filter (·.doomedBy d) = rest := by
  have first : e ∈ (s.queue p).filter (·.doomedBy d) := doomed ▸ List.mem_cons_self
  have apart : ∀ x ∈ [] ++ rest, x.stamp ≠ e.stamp := by
    have stamps := (here.stamped.filter (·.doomedBy d)).stamps
    rw [doomed, List.map_cons, List.nodup_cons] at stamps
    exact fun x mem same => stamps.1 (same ▸ List.mem_map_of_mem mem)
  rw [(State.queue_remove_window here (List.mem_filter.mp first).1).filter_doomedBy, List.filter_comm, doomed]
  exact Stamped.filter_around (a := []) apart

/-- A queue after the entries a disposition dooms have gone: none of them is left, and every other entry is. -/
structure PurgedOf (d : Disposition) (q q' : List QueueEntry) : Prop where
  gone : ∀ e ∈ q', e.doomedBy d = false
  kept : ∀ e ∈ q, e.doomedBy d = false → e ∈ q'

/-- The removals of a purge go through the refused entries as the queue held them at first: the notices that the reports
queue meanwhile are refused by no disposition. -/
theorem removeAll_window {p : Port} {d : Disposition} (l : List QueueEntry) {n : Nat} {s : State} (here : s.PurgeableAt p)
    (doomed : (s.queue p).filter (·.doomedBy d) = l) (bound : l.length ≤ n) :
    removeAll p (·.doomedBy d) .window n s = l.foldl (fun t e => t.remove p e .window) s ∧
      PurgedOf d (s.queue p) ((l.foldl (fun t e => t.remove p e .window) s).queue p) := by
  have found : (s.queue p).find? (·.doomedBy d) = l.head? := by rw [← doomed, List.head?_filter]
  induction l generalizing n s with
  | nil =>
    have none : ∀ e ∈ s.queue p, e.doomedBy d = false := fun e mem =>
      Bool.eq_false_of_not_eq_true (List.filter_eq_nil_iff.mp doomed e mem)
    refine ⟨?_, none, fun e mem _ => mem⟩
    cases n with
    | zero => rfl
    | succ n => rw [removeAll, found]; rfl
  | cons e rest ih =>
    cases n with
    | zero => exact absurd bound (by simp)
    | succ n =>
      have first : e ∈ (s.queue p).filter (·.doomedBy d) := doomed ▸ List.mem_cons_self
      obtain ⟨mem, refused⟩ := List.mem_filter.mp first
      have unmarked := (QueueEntry.doomedBy_iff.mp refused).1
      have left := here.doomed_remove doomed
      obtain ⟨same, gone, kept⟩ := ih (here.remove mem unmarked) left (Nat.le_of_succ_le_succ bound)
        (by rw [← left, List.head?_filter])
      refine ⟨?_, gone, fun x old spared => kept x ?_ spared⟩
      · rw [removeAll, found]
        exact same
      · have apart : x.stamp ≠ e.stamp := fun same => by
          obtain rfl := List.inj_on_of_nodup_map here.stamped.stamps old mem same
          rw [refused] at spared
          exact Bool.noConfusion spared
        exact (State.queue_remove_window here mem).mem (List.mem_filter.mpr ⟨old, bne_iff_ne.mpr apart⟩)

/-! ### The window purge (R56) -/

/-- An entry as a window purge marks it: in transmission and refused, it takes pending removal WINDOW, unless it holds
WITHDRAWN. -/
def QueueEntry.windowMarked (d : Disposition) (e : QueueEntry) : QueueEntry :=
  if e.inTx = true ∧ e.refusedBy d = true ∧ e.pendingRemoval ≠ some .withdrawn then
    { e with pendingRemoval := some .window }
  else e

/-- The marks of a window purge on queue `p`. -/
def State.windowMarked (s : State) (p : Port) : State :=
  s.updPort p fun u => { u with queue := u.queue.map (·.windowMarked (s.disposition p)) }

section Marks

variable (s : State) (p : Port) (d : Disposition) (e : QueueEntry)

/-- An entry that holds WINDOW already is marked again with no effect. -/
theorem QueueEntry.windowMarked_eq :
    e.windowMarked d =
      if e.inTx && e.refusedBy d && e.pendingRemoval.isNone then { e with pendingRemoval := some .window } else e := by
  obtain ⟨_, _, _, _, inTx, _, _, pending⟩ := e
  unfold QueueEntry.windowMarked
  cases inTx with
  | false => rfl
  | true =>
    match pending with
    | none => simp
    | some .window => simp
    | some .withdrawn => simp

theorem QueueEntry.windowMarked_stamp : (e.windowMarked d).stamp = e.stamp := by
  unfold QueueEntry.windowMarked
  split <;> rfl

theorem QueueEntry.windowMarked_of_unmarked (unmarked : e.inTx = false) : e.windowMarked d = e := by
  rw [QueueEntry.windowMarked, unmarked]
  exact if_neg fun marked => Bool.noConfusion marked.1

theorem State.queue_windowMarked :
    (s.windowMarked p).queue p = (s.queue p).map (·.windowMarked (s.disposition p)) := by
  rw [State.windowMarked, State.queue, State.port_updPort_self]
  rfl

theorem State.purgeableAt_windowMarked (sound : s.queuesSound = true) : (s.windowMarked p).PurgeableAt p := by
  have all : ∀ q, queueSound s.nextStamp (s.queue q) = true := by simpa [State.queuesSound, allPorts] using sound
  have fits := all p
  simp only [queueSound, Bool.and_eq_true, decide_eq_true_eq] at fits
  refine ⟨?_, ?_⟩
  · rw [State.queue_windowMarked]
    exact (State.stamped_of_queuesSound sound p).map (QueueEntry.windowMarked_stamp (s.disposition p))
  · rw [State.queue_windowMarked, List.length_map]
    exact fits.1.1.1

/-- The purge marks, and then removes. -/
theorem State.purgeWindow_eq :
    s.purgeWindow p =
      removeAll p (·.doomedBy (s.disposition p)) .window ((s.windowMarked p).queue p).length (s.windowMarked p) := by
  have marks : (fun e : QueueEntry => e.windowMarked (s.disposition p)) = fun e =>
      if e.inTx && e.refusedBy (s.disposition p) && e.pendingRemoval.isNone then
        { e with pendingRemoval := some .window }
      else e := funext (QueueEntry.windowMarked_eq (s.disposition p))
  have marked : s.windowMarked p = s.setQueue p ((s.queue p).map (·.windowMarked (s.disposition p))) := rfl
  rw [marked, marks]
  rfl

end Marks

/-- The purge of a sound queue, entry by entry, and what it leaves there. -/
theorem State.purgeWindow_of_sound {s : State} (sound : s.queuesSound = true) (p : Port) :
    s.purgeWindow p =
        (((s.windowMarked p).queue p).filter (·.doomedBy (s.disposition p))).foldl (fun t e => t.remove p e .window)
          (s.windowMarked p) ∧
      PurgedOf (s.disposition p) ((s.windowMarked p).queue p) ((s.purgeWindow p).queue p) := by
  obtain ⟨entries, purged⟩ :=
    removeAll_window _ (s.purgeableAt_windowMarked p sound) rfl (List.length_filter_le _ ((s.windowMarked p).queue p))
  rw [State.purgeWindow_eq, entries]
  exact ⟨rfl, purged⟩

/-! ### O31 -/

/-- Settles O31: the table by rank, the test of admission, and the purge entry by entry. -/
theorem dispositionsAdmitByRankAndOrigin : Obligations.DispositionsAdmitByRankAndOrigin := by
  refine ⟨fun _ _ _ => rfl, fun _ => rfl, ?limited1, ?limited2, ?limited3, ?quiet, fun _ => rfl, ?requests, ?purges⟩
  case limited1 | limited2 | limited3 | quiet =>
    intro r
    cases r <;> decide
  case requests =>
    intro s p n service
    have judged := s.judgeAdmission_window_iff p (owed := .nothing) (r := n.rank) (o := n.origin) service
    exact ⟨(s.requestAdmission_window_iff p n).trans judged,
      fun refused => s.requestAdmission_of_window p n (judged.mpr refused)⟩
  case purges =>
    intro s p sound
    obtain ⟨entries, gone, kept⟩ := State.purgeWindow_of_sound sound p
    refine ⟨entries, fun e => ⟨fun unmarked admitted old => kept e ?_ ?_, fun left unmarked => ?_⟩⟩
    · rw [State.queue_windowMarked]
      exact List.mem_map.mpr ⟨e, old, QueueEntry.windowMarked_of_unmarked _ e unmarked⟩
    · exact Bool.and_eq_false_iff.mpr (.inr admitted)
    · refine Bool.eq_false_of_not_eq_true fun refused => ?_
      have doomed := QueueEntry.doomedBy_iff.mpr ⟨unmarked, refused⟩
      rw [gone e left] at doomed
      exact Bool.noConfusion doomed

end Sys2Proof.Machine
end

