-- ==== Sys2Proof/Proofs/WindowEvaluation.lean ====
section
/-! PROOFS. An evaluation (R152): when an entry is active (R148), the strictest of the active actions (R149), and the purges
of the segments that became stricter. -/

namespace Sys2Proof.Machine

/-! ### When an entry is active (R148) -/

theorem weekday_lt (d : DateTime) : weekday d < 7 := Nat.mod_lt _ (by decide)

/-- The weekday before Sunday is Saturday. -/
theorem previousWeekday_eq {day : Nat} (valid : day < 7) : previousWeekday day = if day = 0 then 6 else day - 1 := by
  unfold previousWeekday
  split <;> omega

/-- An entry within one day, one over midnight, and one of a whole day. -/
theorem WindowEntry.active_iff (w : WindowEntry) (day minute : Nat) :
    w.active day minute = true ↔
      w.enabled = true ∧
        (w.start.minutes < w.stop.minutes →
          w.days.getLsbD day = true ∧ w.start.minutes ≤ minute ∧ minute < w.stop.minutes) ∧
        (w.stop.minutes < w.start.minutes →
          (w.days.getLsbD day = true ∧ w.start.minutes ≤ minute) ∨
            (w.days.getLsbD (previousWeekday day) = true ∧ minute < w.stop.minutes)) ∧
        (w.start.minutes = w.stop.minutes → w.days.getLsbD day = true) := by
  unfold WindowEntry.active
  obtain within | whole | overnight := Nat.lt_trichotomy w.start.minutes w.stop.minutes
  · simp [within, within.ne, Nat.lt_asymm within, and_assoc]
  · simp [whole]
  · simp [overnight, overnight.ne', Nat.lt_asymm overnight]

/-! ### The strictest action (R149) -/

theorem Disposition.stricter_cases (a b : Disposition) :
    (a.stricter b = b ∧ a.code ≤ b.code) ∨ (a.stricter b = a ∧ b.code ≤ a.code) := by
  unfold Disposition.stricter
  split
  · exact .inl ⟨rfl, by omega⟩
  · exact .inr ⟨rfl, by omega⟩

/-- `r` is `d` or an action of an entry of `l` that `f` selects, and no less strict than any of these. -/
structure StrictestOf (f : WindowEntry → Bool) (l : List WindowEntry) (d r : Disposition) : Prop where
  atLeast : d.code ≤ r.code
  bounds : ∀ w ∈ l, f w = true → w.action.code ≤ r.code
  attained : r = d ∨ ∃ w ∈ l, f w = true ∧ r = w.action

theorem foldl_stricter (f : WindowEntry → Bool) (l : List WindowEntry) (d : Disposition) :
    StrictestOf f l d (l.foldl (fun d w => if f w then d.stricter w.action else d) d) := by
  induction l generalizing d with
  | nil => exact ⟨Nat.le_refl _, fun _ mem => absurd mem List.not_mem_nil, .inl rfl⟩
  | cons x xs ih =>
    rw [List.foldl_cons]
    cases selected : f x with
    | false =>
      rw [if_neg Bool.false_ne_true]
      obtain ⟨atLeast, bounds, attained⟩ := ih d
      refine ⟨atLeast, fun w mem active => ?_,
        attained.imp_right fun ⟨w, mem, rest⟩ => ⟨w, List.mem_cons_of_mem x mem, rest⟩⟩
      obtain rfl | later := List.mem_cons.mp mem
      · exact absurd (selected.symm.trans active) Bool.false_ne_true
      · exact bounds w later active
    | true =>
      rw [if_pos rfl]
      obtain ⟨atLeast, bounds, attained⟩ := ih (d.stricter x.action)
      have both : d.code ≤ (d.stricter x.action).code ∧ x.action.code ≤ (d.stricter x.action).code := by
        obtain ⟨same, le⟩ | ⟨same, le⟩ := d.stricter_cases x.action
        · rw [same]
          exact ⟨le, Nat.le_refl _⟩
        · rw [same]
          exact ⟨Nat.le_refl _, le⟩
      refine ⟨both.1.trans atLeast, fun w mem active => ?_, ?_⟩
      · obtain rfl | later := List.mem_cons.mp mem
        · exact both.2.trans atLeast
        · exact bounds w later active
      · obtain same | ⟨w, mem, rest⟩ := attained
        · obtain ⟨this, -⟩ | ⟨old, -⟩ := d.stricter_cases x.action
          · exact .inr ⟨x, List.mem_cons_self, selected, same.trans this⟩
          · exact .inl (same.trans old)
        · exact .inr ⟨w, List.mem_cons_of_mem x mem, rest⟩

section Formed

variable (s : State) (p : Port)

/-- The entries that act on segment `p` at the calendar's weekday and minute. -/
def State.actsOn (w : WindowEntry) : Bool :=
  w.active (weekday s.calendar.now) s.calendar.now.minutes && w.segments.getLsbD p.val

theorem State.formDisposition_of_invalid (invalid : s.calendar.valid = false) : s.formDisposition p = .opened := by
  rw [State.formDisposition, invalid]
  rfl

theorem State.formDisposition_strictest (valid : s.calendar.valid = true) :
    StrictestOf (s.actsOn p) s.windows.toList .opened (s.formDisposition p) := by
  rw [State.formDisposition, valid]
  exact foldl_stricter (s.actsOn p) s.windows.toList .opened

theorem State.disposition_evaluate : s.evaluate.disposition p = s.formDisposition p := by
  rw [State.disposition, State.evaluate_dispositions]
  match p with
  | 0 | 1 | 2 | 3 => rfl

theorem mem_windows {w : WindowEntry} : w ∈ s.windows.toList ↔ ∃ i, s.windows.get i = w := by
  rw [Vector.mem_toList_iff, Vector.mem_iff_getElem]
  exact ⟨fun ⟨i, inTable, here⟩ => ⟨⟨i, inTable⟩, here⟩, fun ⟨i, here⟩ => ⟨i.val, i.isLt, here⟩⟩

end Formed

/-! ### The purges of an evaluation (R152) -/

/-- The queue of a segment purged if its disposition became stricter. -/
def State.purgedIfStricter (before after : Vector Disposition 4) (t : State) (p : Port) : State :=
  if (before.get p).code < (after.get p).code then t.purgeWindow p else t

/-- A purge leaves the dispositions, so that each segment is judged by those recorded before the first purge. -/
theorem foldl_purgedIfStricter (before : Vector Disposition 4) (ps : List Port) (t : State) :
    ps.foldl (fun s p => if (before.get p).code < (s.disposition p).code then s.purgeWindow p else s) t =
      ps.foldl (State.purgedIfStricter before t.dispositions) t := by
  have each (after : Vector Disposition 4) : ∀ u : State, u.dispositions = after →
      ps.foldl (fun s p => if (before.get p).code < (s.disposition p).code then s.purgeWindow p else s) u =
        ps.foldl (State.purgedIfStricter before after) u := by
    induction ps with
    | nil => exact fun _ _ => rfl
    | cons p ps ih =>
      rintro u rfl
      refine ih (State.purgedIfStricter before u.dispositions u p) ?_
      unfold State.purgedIfStricter
      split
      · exact (u.purgeWindow_traffic p).dispositions
      · rfl
  exact each t.dispositions t rfl

/-- All four dispositions are recorded, and then the segments purged in ascending order. -/
theorem State.evaluate_eq (s : State) :
    let recorded : State := { s with dispositions := s.formDispositions }
    let purged := State.purgedIfStricter s.dispositions s.formDispositions
    s.evaluate = purged (purged (purged (purged recorded 0) 1) 2) 3 := by
  have ports : allPorts = [0, 1, 2, 3] := rfl
  rw [State.evaluate, foldl_purgedIfStricter, ports, List.foldl_cons, List.foldl_cons, List.foldl_cons, List.foldl_cons,
    List.foldl_nil]

/-! ### O44 -/

/-- Settles O44: the dispositions formed as a fold over the table, and the purges as one over the ports. -/
theorem dispositionsAreTheStrictestAction : Obligations.DispositionsAreTheStrictestAction := by
  refine ⟨?formed, ?purged, rfl⟩
  case formed =>
    intro s p day time before active
    have acts (w : WindowEntry) : s.actsOn p w = true ↔ active w := by
      rw [State.actsOn, Bool.and_eq_true, WindowEntry.active_iff, previousWeekday_eq (weekday_lt _)]
      exact ⟨fun ⟨⟨enabled, rest⟩, named⟩ => ⟨enabled, named, rest⟩,
        fun ⟨enabled, named, rest⟩ => ⟨⟨enabled, rest⟩, named⟩⟩
    rw [s.disposition_evaluate p]
    refine ⟨s.formDisposition_of_invalid p, fun valid => ?_⟩
    obtain ⟨-, bounds, attained⟩ := s.formDisposition_strictest p valid
    refine ⟨fun i here => bounds _ ((mem_windows s).mpr ⟨i, rfl⟩) ((acts _).mpr here), attained.imp_right ?_⟩
    rintro ⟨w, mem, here, same⟩
    obtain ⟨i, rfl⟩ := (mem_windows s).mp mem
    exact ⟨i, (acts _).mp here, same⟩
  case purged =>
    intro s recorded purged
    have recordedFormed : recorded = { s with dispositions := s.formDispositions } := by
      rw [← s.evaluate_dispositions]
    have each (t : State) (p : Port) :
        purged t p = State.purgedIfStricter s.dispositions s.formDispositions t p := by
      rw [← s.evaluate_dispositions]
      rfl
    refine ⟨?_, s.evaluate_dispositions⟩
    rw [each, each, each, each, recordedFormed]
    exact s.evaluate_eq

end Sys2Proof.Machine
end

