-- ==== Sys2Proof/Proofs/WindowWrites.lean ====
section
/-! PROOFS. WRITE ENTRY to the WINDOW table (R154, R199): the fields its tests let through, and what the write leaves. -/

namespace Sys2Proof.Machine

/-! ### What a test that passes has found -/

section Passed

variable {α β : Type} {code : ResultCode}

theorem bind_eq_ok_iff {x : Except ResultCode α} {f : α → Except ResultCode β} {b : β} :
    x >>= f = .ok b ↔ ∃ a, x = .ok a ∧ f a = .ok b := by
  cases x with
  | error code => exact ⟨nofun, nofun⟩
  | ok a => exact ⟨fun passed => ⟨a, rfl, passed⟩, fun ⟨_, same, passed⟩ => by cases same; exact passed⟩

theorem named_eq_ok_iff {v : Option α} {a : α} : named v code = .ok a ↔ v = some a := by
  cases v with
  | none => exact ⟨nofun, nofun⟩
  | some b => exact ⟨fun same => by cases same; rfl, fun same => by cases same; rfl⟩

theorem require_eq_ok_iff {ok : Bool} {passed : Unit} : require ok code = .ok passed ↔ ok = true := by
  cases ok with
  | false => exact ⟨nofun, nofun⟩
  | true => exact ⟨fun _ => rfl, fun _ => rfl⟩

/-- The BCD characters, a number of two digits each (R199). -/
theorem ofBcd_eq_some_iff {b : Byte} {n : Nat} : ofBcd b = some n ↔ n < 100 ∧ b = bcd n := by
  refine ⟨fun names => ?_, fun ⟨fits, same⟩ => same ▸ ofBcd_bcd fits⟩
  rw [ofBcd, Option.ite_none_right_eq_some] at names
  obtain ⟨⟨tens, ones⟩, names⟩ := names
  injection names with value
  have fits : n < 100 := by omega
  refine ⟨fits, BitVec.eq_of_toNat_eq ?_⟩
  rw [bcd_toNat fits]
  omega

theorem bcdUpTo_eq_ok_iff {b : Byte} {most n : Nat} (twoDigits : most < 100) :
    bcdUpTo b most = .ok n ↔ n ≤ most ∧ b = bcd n := by
  simp only [bcdUpTo, bind_eq_ok_iff, named_eq_ok_iff, require_eq_ok_iff, exists_const, ofBcd_eq_some_iff,
    decide_eq_true_eq]
  constructor
  · rintro ⟨m, ⟨-, same⟩, bound, ⟨⟩⟩
    exact ⟨bound, same⟩
  · exact fun ⟨bound, same⟩ => ⟨n, ⟨by omega, same⟩, bound, rfl⟩

theorem actionOfCode_eq_some_iff {b : Byte} {a : Disposition} :
    actionOfCode b = some a ↔ a ≠ .opened ∧ b.toNat = a.code := by
  constructor
  · intro names
    unfold actionOfCode at names
    split at names
    case h_6 => exact nomatch names
    all_goals
      rename_i code
      injection names with names
      subst names
      exact ⟨Disposition.noConfusion, code⟩
  · rintro ⟨notOpen, code⟩
    rw [actionOfCode, code]
    cases a with
    | opened => exact absurd rfl notOpen
    | _ => rfl

end Passed

theorem Disposition.code_le (a : Disposition) : a.code ≤ 5 := by cases a <;> decide

theorem Disposition.code_eq_zero_iff {a : Disposition} : a.code = 0 ↔ a = .opened := by cases a <;> decide

/-! ### The fields of a record -/

/-- The tests of a WINDOW write after that of its index, and the entry they let through. -/
def windowFields (r : WindowRecord) : Except ResultCode WindowEntry :=
  require (r.enabled == 0 || r.enabled == 1) .badValue >>= fun _ =>
    require (r.dayMask.toNat < 128) .badValue >>= fun _ =>
      bcdUpTo r.startHour 23 >>= fun startHour =>
        bcdUpTo r.startMinute 59 >>= fun startMinute =>
          bcdUpTo r.endHour 23 >>= fun stopHour =>
            bcdUpTo r.endMinute 59 >>= fun stopMinute =>
              require (isSegmentMask r.segmentMask) .badValue >>= fun _ =>
                named (actionOfCode r.action) .badValue >>= fun action =>
                  .ok ⟨r.enabled == 1, r.dayMask.setWidth 7, ⟨startHour, startMinute⟩, ⟨stopHour, stopMinute⟩,
                    r.segmentMask.setWidth 4, action⟩

theorem State.writeEntry_window (u : State) {index : Byte} {i : Fin 24} (here : index.toNat = i.val) (r : WindowRecord) :
    u.writeEntry [3, index, r.enabled, r.dayMask, r.startHour, r.startMinute, r.endHour, r.endMinute, r.segmentMask,
        r.action] =
      windowFields r >>= fun entry => .ok (State.evaluate { u with windows := u.windows.set i.val entry i.isLt }) := by
  obtain ⟨n, inTable⟩ := i
  obtain rfl : index.toNat = n := here
  simp only [windowFields, bind_assoc]
  exact (u.writeEntry_code .window _).trans (dif_pos inTable)

theorem badValueOnly_windowFields (r : WindowRecord) : BadValueOnly (windowFields r) :=
  (badValueOnly_require _).bind fun _ => (badValueOnly_require _).bind fun _ =>
    (badValueOnly_bcdUpTo _ _).bind fun _ => (badValueOnly_bcdUpTo _ _).bind fun _ =>
      (badValueOnly_bcdUpTo _ _).bind fun _ => (badValueOnly_bcdUpTo _ _).bind fun _ =>
        (badValueOnly_require _).bind fun _ => (badValueOnly_named _).bind fun _ _ => nofun

/-- The characters of a record name an entry: its times, its action, and fields in their ranges (R154, R199). -/
structure NamesWindow (r : WindowRecord) (start stop : TimeOfDay) (action : Disposition) : Prop where
  enabled : r.enabled.toNat ≤ 1
  days : r.dayMask.toNat ≤ 127
  startHour : start.hour ≤ 23 ∧ r.startHour = bcd start.hour
  startMinute : start.minute ≤ 59 ∧ r.startMinute = bcd start.minute
  stopHour : stop.hour ≤ 23 ∧ r.endHour = bcd stop.hour
  stopMinute : stop.minute ≤ 59 ∧ r.endMinute = bcd stop.minute
  segments : r.segmentMask.toNat ≤ 15
  action : action ≠ .opened ∧ r.action.toNat = action.code

theorem windowFields_eq_ok_iff {r : WindowRecord} {w : WindowEntry} :
    windowFields r = .ok w ↔
      ∃ start stop action, NamesWindow r start stop action ∧
        ⟨r.enabled == 1, r.dayMask.setWidth 7, start, stop, r.segmentMask.setWidth 4, action⟩ = w := by
  have enabledTest : (r.enabled == 0 || r.enabled == 1) = true ↔ r.enabled.toNat ≤ 1 := by
    rw [Bool.or_eq_true, beq_iff_eq, beq_iff_eq, ← BitVec.toNat_inj, ← BitVec.toNat_inj]
    change r.enabled.toNat = 0 ∨ r.enabled.toNat = 1 ↔ _
    omega
  have daysTest : decide (r.dayMask.toNat < 128) = true ↔ r.dayMask.toNat ≤ 127 := by
    rw [decide_eq_true_eq, Nat.lt_succ_iff]
  have segmentsTest : isSegmentMask r.segmentMask = true ↔ r.segmentMask.toNat ≤ 15 := by
    rw [isSegmentMask, decide_eq_true_eq, Nat.lt_succ_iff]
  simp only [windowFields, bind_eq_ok_iff, require_eq_ok_iff, exists_const, named_eq_ok_iff,
    bcdUpTo_eq_ok_iff (show 23 < 100 by decide), bcdUpTo_eq_ok_iff (show 59 < 100 by decide), actionOfCode_eq_some_iff,
    enabledTest, daysTest, segmentsTest, Except.ok.injEq]
  constructor
  · rintro ⟨enabled, days, sh, startHour, sm, startMinute, eh, stopHour, em, stopMinute, segments, a, action, same⟩
    exact ⟨⟨sh, sm⟩, ⟨eh, em⟩, a, ⟨enabled, days, startHour, startMinute, stopHour, stopMinute, segments, action⟩, same⟩
  · rintro ⟨start, stop, a, ⟨enabled, days, startHour, startMinute, stopHour, stopMinute, segments, action⟩, same⟩
    exact ⟨enabled, days, _, startHour, _, startMinute, _, stopHour, _, stopMinute, segments, a, action, same⟩

/-! ### Its refusals and its effect -/

section Writes

variable {u : State} {index : Byte} {i : Fin 24} (here : index.toNat = i.val) {r : WindowRecord}
include here

theorem State.writeEntry_window_refused (unnamed : ∀ start stop action, ¬ NamesWindow r start stop action) :
    u.writeEntry [3, index, r.enabled, r.dayMask, r.startHour, r.startMinute, r.endHour, r.endMinute, r.segmentMask,
        r.action] = .error .badValue := by
  rw [u.writeEntry_window here]
  cases fields : windowFields r with
  | ok w =>
    obtain ⟨start, stop, action, names, -⟩ := windowFields_eq_ok_iff.mp fields
    exact absurd names (unnamed start stop action)
  | error code => exact congrArg Except.error (badValueOnly_windowFields r code fields)

theorem State.writeEntry_window_written {start stop : TimeOfDay} {action : Disposition}
    (names : NamesWindow r start stop action) :
    u.writeEntry [3, index, r.enabled, r.dayMask, r.startHour, r.startMinute, r.endHour, r.endMinute, r.segmentMask,
        r.action] =
      .ok (State.evaluate { u with
        windows := u.windows.set i.val
          ⟨r.enabled == 1, r.dayMask.setWidth 7, start, stop, r.segmentMask.setWidth 4, action⟩ i.isLt }) := by
  rw [u.writeEntry_window here, windowFields_eq_ok_iff.mpr ⟨start, stop, action, names, rfl⟩]
  rfl

end Writes

/-! ### O50 -/

/-- Settles O50: the index, then the fields, then what the write leaves. -/
theorem windowWrites : Obligations.WindowWrites := by
  intro p h index r
  have row (s : State) : exec (.writeEntryWindow p h index r) s =
    commandEvent p .writeEntry h
      [3, index, r.enabled, r.dayMask, r.startHour, r.startMinute, r.endHour, r.endMinute, r.segmentMask, r.action] s := rfl
  refine ⟨fun outside => .of_writeEntry_refused row fun u => ?_,
    fun inTable refused => .of_writeEntry_refused row fun u => ?_,
    fun i sh sm eh em a here enabled days hourFits startHour minuteFits startMinute stopHourFits stopHour
      stopMinuteFits stopMinute segments notOpen action => .of_writeEntry_written row fun u => ?_⟩
  · exact State.writeEntry_badIndex (t := .window) (mem_writtenTables.mpr (by decide)) (.inr outside)
  · refine State.writeEntry_window_refused (i := ⟨_, inTable⟩) rfl fun start stop a names => ?_
    obtain wide | wide | noHour | noMinute | noHour | noMinute | wide | opened | high := refused
    · exact Nat.not_le.mpr wide names.enabled
    · exact Nat.not_le.mpr wide names.days
    · exact noHour ⟨_, names.startHour⟩
    · exact noMinute ⟨_, names.startMinute⟩
    · exact noHour ⟨_, names.stopHour⟩
    · exact noMinute ⟨_, names.stopMinute⟩
    · exact Nat.not_le.mpr wide names.segments
    · exact names.action.1 (Disposition.code_eq_zero_iff.mp (names.action.2.symm.trans opened))
    · exact Nat.not_lt.mpr (names.action.2 ▸ a.code_le) high
  · exact State.writeEntry_window_written here (start := ⟨sh, sm⟩) (stop := ⟨eh, em⟩)
      ⟨enabled, days, ⟨hourFits, startHour⟩, ⟨minuteFits, startMinute⟩, ⟨stopHourFits, stopHour⟩,
        ⟨stopMinuteFits, stopMinute⟩, segments, notOpen, action⟩

end Sys2Proof.Machine
end

