-- ==== Sys2Proof/Proofs/CommandAdmission.lean ====
section
/-! PROOFS. A MANAGE frame for the own address in the order of R161: what turns it away, what answers it unexecuted, and what
executes it; the arguments a command uses; the rows that carry a command. -/

namespace Sys2Proof.Machine

/-! ### The manager table (R163, R166, R167) -/

section Managers

variable {s : State} {a sequence : Byte} {payload : List Byte}

/-- A table that holds a manager denies every other source. -/
theorem State.denies_iff :
    s.denies a = true ↔ (∃ i, s.managers.get i ≠ none) ∧ ∀ i, ¬ s.managerAt i = some a := by
  simp only [State.denies, allSlots, Bool.and_eq_true, Bool.not_eq_true', List.any_eq_true, List.any_eq_false,
    List.mem_finRange, true_and, forall_const, Option.isSome_iff_ne_none, State.slotHolds_iff]

theorem State.slotOf_of_unheld (unheld : ∀ i, ¬ s.managerAt i = some a) : s.slotOf a = none :=
  List.find?_eq_none.mpr fun i _ => (s.slotHolds_iff a i).not.mpr (unheld i)

theorem State.slotOf_of_first {i : Fin 4} (here : s.managerAt i = some a)
    (first : ∀ j, j < i → ¬ s.managerAt j = some a) : s.slotOf a = some i := by
  refine List.find?_eq_some_iff_getElem.mpr ⟨(s.slotHolds_iff a i).mpr here, i.val, by simp [allSlots], by simp [allSlots],
    fun j before => ?_⟩
  rw [Bool.not_eq_true', ← Bool.not_eq_true, State.slotHolds_iff]
  exact first _ (by simpa [allSlots, Fin.lt_def] using before)

theorem State.cachedFor_iff {i : Fin 4} (here : s.managerAt i = some a) (slot : s.slotOf a = some i) :
    s.cachedFor a sequence = some payload ↔ s.managers.get i = some ⟨a, some ⟨sequence, payload⟩⟩ := by
  obtain ⟨⟨address, last⟩, held, address'⟩ := Option.map_eq_some_iff.mp here
  obtain rfl : address = a := address'
  simp only [State.cachedFor, slot, held, Option.bind_some]
  cases last with
  | none => simp
  | some cached =>
    obtain ⟨lastSequence, lastPayload⟩ := cached
    by_cases same : lastSequence = sequence <;> simp [same]

end Managers

/-! ### The room of a result (R47, R164) -/

section Room

variable {s t : State} {p : Port} {room : BufferIx} {chars : List Byte}

theorem State.fillRoom_of_standing (standing : ∃ e ∈ s.queue p, e.buffer = room ∧ e.origin = .generated) :
    s.fillRoom p room chars = s.setChars room chars := by
  refine if_pos (List.any_eq_true.mpr ?_)
  simpa only [Bool.and_eq_true, beq_iff_eq] using standing

theorem State.fillRoom_of_purged (purged : ∀ e ∈ s.queue p, ¬ (e.buffer = room ∧ e.origin = .generated)) :
    s.fillRoom p room chars = s := by
  refine if_neg fun standing => ?_
  obtain ⟨e, mem, here⟩ := List.any_eq_true.mp standing
  rw [Bool.and_eq_true, beq_iff_eq, beq_iff_eq] at here
  exact purged e mem here

theorem State.joinGenerated_standing (joined : s.joinGenerated p chars = (some room, t)) :
    ∃ e ∈ t.queue p, e.buffer = room ∧ e.origin = .generated := by
  unfold State.joinGenerated at joined
  split at joined
  · exact nomatch congrArg Prod.fst joined
  · rename_i b rest _
    injection joined with buffer state
    injection buffer with buffer
    subst buffer state
    refine ⟨⟨b, .express, s.nextStamp, 0, false, .generated, none, none⟩, ?_, rfl, rfl⟩
    change _ ∈ (s.setQueue p (insertEntry _ (s.queue p))).queue p
    rw [State.queue_setQueue, if_pos rfl]
    exact mem_insertEntry.mpr (.inl rfl)

/-- A room that was secured stands in its queue. -/
theorem State.generate_standing (secured : s.generate p chars = (some room, t)) :
    ∃ e ∈ t.queue p, e.buffer = room ∧ e.origin = .generated := by
  rw [State.generate, State.placeGenerated] at secured
  split at secured
  · exact nomatch congrArg Prod.fst secured
  · split at secured
    · exact State.joinGenerated_standing secured
    all_goals exact nomatch congrArg Prod.fst secured

theorem State.joinGenerated_of_free {rest : List BufferIx} (free : s.freeList = room :: rest) :
    s.joinGenerated p chars =
      (some room,
        { s.enqueue p ⟨room, .express, .generated, none⟩ with freeList := rest }.setBuffer room ⟨.held 1, chars⟩) := by
  unfold State.joinGenerated
  rw [free]

/-- A generated frame finds a place in a queue with room and a buffer on the free list (R47, R52). -/
theorem State.placeGenerated_of_place {report : Owed → TxIx → State → State} {rest : List BufferIx}
    (service : (s.port p).state.outOfService = false) (place : (s.queue p).length < 16) (free : s.freeList = room :: rest) :
    s.placeGenerated report ⟨[], 0⟩ p chars =
      (some room,
        { s.enqueue p ⟨room, .express, .generated, none⟩ with freeList := rest }.setBuffer room ⟨.held 1, chars⟩) := by
  have judged : s.judgeAdmission ⟨[], 0⟩ p .express .generated = .room := by
    unfold State.judgeAdmission
    rw [service]
    exact (if_neg Bool.false_ne_true).trans ((if_neg Bool.false_ne_true).trans (if_pos place))
  rw [State.placeGenerated, free, State.makePlace, judged]
  exact State.joinGenerated_of_free free

end Room

/-! ### The steps of R161 -/

section Steps

variable {u w : State} {p : Port} {v : FrameView} {own : Byte} {room : BufferIx}

theorem State.manage_of_refused (refuses : (u.port p).params.mgmtAccept = false) : u.manage p v = u.count .mgmtRefused :=
  if_neg (by rw [refuses]; exact Bool.false_ne_true)

theorem State.manage_of_denied (accepts : (u.port p).params.mgmtAccept = true) (denied : u.denies v.source = true) :
    u.manage p v = u.deny p v := (if_pos accepts).trans (if_pos denied)

theorem State.manage_of_noRoom (accepts : (u.port p).params.mgmtAccept = true) (admitted : u.denies v.source = false)
    (refused : u.generate p [] = (none, w)) : u.manage p v = w.count .mgmtNoRoom := by
  rw [State.manage, if_pos accepts, if_neg (by rw [admitted]; exact Bool.false_ne_true), refused]

theorem State.judge_of_pending (pending : w.restart.isSome = true) :
    w.judge p v own room = w.fillRoom p room (resultChars own v (resultPayload v.payload ⟨.busy, 0, []⟩)) := if_pos pending

theorem requestedCommand_eq_none (unknown : v.payload.length < 2 ∨ commandOf (headerCode v.payload) = none) :
    requestedCommand v.payload = none := by
  rw [requestedCommand]
  split
  · rfl
  · rename_i whole
    exact unknown.resolve_left whole

theorem requestedCommand_eq_some {c : CommandCode} (whole : 2 ≤ v.payload.length)
    (named : commandOf (headerCode v.payload) = some c) : requestedCommand v.payload = some c :=
  (if_neg (Nat.not_lt.mpr whole)).trans named

section Running

variable (running : w.restart = none)
include running

theorem State.judge_of_unknown (unknown : requestedCommand v.payload = none) :
    w.judge p v own room = w.fillRoom p room (resultChars own v (resultPayload v.payload ⟨.unknownCommand, 0, []⟩)) := by
  rw [State.judge, running, unknown]
  rfl

variable {c : CommandCode} (named : requestedCommand v.payload = some c)
include named

theorem State.judge_of_repeated {payload : List Byte}
    (cached : w.cachedFor v.source (headerSequence v.payload) = some payload) :
    w.judge p v own room = w.fillRoom p room (resultChars own v payload) := by
  rw [State.judge, running, named]
  dsimp only
  rw [cached]
  rfl

theorem State.judge_of_new (fresh : w.cachedFor v.source (headerSequence v.payload) = none) :
    w.judge p v own room = w.execute p v own room c := by
  rw [State.judge, running, named]
  dsimp only
  rw [fresh]
  rfl

end Running

end Steps

theorem commandOf_eq_some_iff {b : Byte} {c : CommandCode} : commandOf b = some c ↔ c.code = b :=
  ⟨fun names => beq_iff_eq.mp (List.find?_some (p := fun c : CommandCode => c.code == b) names),
    fun code => code ▸ commandOf_code c⟩

/-! ### The arguments a command uses (R165) -/

/-- How many arguments a command can use, of the longest form it has. -/
def CommandCode.argumentsUsed : CommandCode → Nat
  | .readEntries => 3
  | .writeEntry => 10
  | .getParam => 2
  | .setParam => 6
  | .readCounters => 2
  | .timeSet => 6
  | .clearAlert => 1
  | .restart => 1
  | .status => 0
  | .timeRead => 0
  | .timeRound => 0
  | .timeHold => 0
  | .timeRun => 0
  | .flushLearned => 0

section Arguments

variable (s : State) (args : List Byte)

theorem argAt_take {n i : Nat} (used : i < n) : argAt (args.take n) i = argAt args i := by
  rw [argAt, argAt, List.getElem?_take_of_lt used]

theorem State.readEntries_take : s.readEntries (args.take 3) = s.readEntries args := by
  simp (disch := decide) only [State.readEntries, argAt_take]

theorem State.writeEntry_take : s.writeEntry (args.take 10) = s.writeEntry args := by
  simp (disch := decide) only [State.writeEntry, State.writeStation, State.writeGroup, State.writeWindow,
    State.writeManager, argAt_take]

theorem State.getParam_take : s.getParam (args.take 2) = s.getParam args := by
  simp (disch := decide) only [State.getParam, argAt_take]

theorem State.setParam_take : s.setParam (args.take 6) = s.setParam args := by
  simp (disch := decide) only [State.setParam, valueArg, argAt_take]

theorem State.readCounters_take : s.readCounters (args.take 2) = s.readCounters args := by
  simp (disch := decide) only [State.readCounters, argAt_take]

theorem timeArg_take : timeArg (args.take 6) = timeArg args := by
  simp (disch := decide) only [timeArg, argAt_take]

theorem State.clearAlert_take : s.clearAlert (args.take 1) = s.clearAlert args := by
  simp (disch := decide) only [State.clearAlert, argAt_take]

theorem State.restartCommand_take (room : BufferIx) : s.restartCommand room (args.take 1) = s.restartCommand room args := by
  simp (disch := decide) only [State.restartCommand, argAt_take]

/-- Argument characters beyond those a command uses are disregarded. -/
theorem State.executeCommand_take (room : BufferIx) (c : CommandCode) :
    s.executeCommand room (args.take c.argumentsUsed) c = s.executeCommand room args c := by
  cases c with
  | readEntries => exact congrArg (answerRead s) (s.readEntries_take args)
  | writeEntry => exact congrArg (answerWrite s) (s.writeEntry_take args)
  | getParam => exact congrArg (fun r => answerRead s (r.map fun d => (0, d))) (s.getParam_take args)
  | setParam => exact congrArg (answerWrite s) (s.setParam_take args)
  | readCounters => exact congrArg (answerCounters s) (s.readCounters_take args)
  | timeSet => exact congrArg (fun r => answerWrite s (r.map s.timeSet)) (timeArg_take args)
  | clearAlert => exact congrArg (answerWrite s) (s.clearAlert_take args)
  | restart => exact congrArg (answerWrite s) (s.restartCommand_take args room)
  | status | timeRead | timeRound | timeHold | timeRun | flushLearned => rfl

end Arguments

/-! ### The rows that carry a command (log 8, log 27) -/

/-- A management row is its command's event. -/
theorem exec_of_carriedCommand {i : Instr} {p : Port} {h : CommandHead} {c : CommandCode} {args : List Byte}
    (carries : carriedCommand i = some (p, h, c, args)) (s : State) : exec i s = commandEvent p c h args s := by
  cases i <;> cases carries <;> rfl

/-! ### A command that finds room -/

section Taken

variable {s : State} {p : Port} {h : CommandHead} {b room : BufferIx} {rest : List BufferIx}

theorem State.port_heardFrom (q : Port) (a : Byte) : (s.heardFrom p a).port q = s.port q := by
  rw [State.heardFrom_eq]
  rfl

theorem commandFrame_wellFormed (own : Byte) (c : CommandCode) {args : List Byte} (station : isStation h.source = true)
    (fits : args.length ≤ 62) : (commandFrame own c h args).wellFormed = true := by
  refine Bool.and_eq_true_iff.mpr ⟨station, decide_eq_true ?_⟩
  change args.length + 1 + 1 ≤ 64
  omega

/-- Room stands free: the command takes the next buffer, and its room joins the arrival port's queue. -/
theorem commandTaken_of_room (receives : s.canReceive p = true) (lets : s.letsThrough p h.source = true)
    (admits : s.admitsCommand p h = true) (c : CommandCode) {args : List Byte} (fits : args.length ≤ 62)
    (place : (s.queue p).length < 16) (free : s.freeList = b :: room :: rest) :
    let t := (s.arrived p b (room :: rest)
      (framedChars (commandFrame s.params.ownAddress c h args) .manage)).heardFrom p h.source
    CommandTaken s p h c args b room
      ({ t.enqueue p ⟨room, .express, .generated, none⟩ with freeList := rest }.setBuffer room ⟨.held 1, []⟩) := by
  intro t
  have station : isStation h.source = true := by
    rw [State.letsThrough, Bool.and_eq_true, Bool.and_eq_true] at lets
    exact lets.1.1
  have port : t.port p = { s.port p with
      state := .listen
      line := .idle 0
      startHold := .ready
      counters := (s.port p).counters.set 0 ((s.port p).counters.get 0 + 1) } :=
    (State.port_heardFrom p h.source).trans (State.port_updPort_self _ p _)
  refine ⟨admits, t, ⟨lets, _, ⟨receives, commandFrame_wellFormed _ c station fits, _, free, rfl⟩, rfl⟩,
    State.placeGenerated_of_place ?service ?place ?free⟩
  case service =>
    rw [port]
    rfl
  case place =>
    rw [State.queue, port]
    exact place
  case free =>
    change (State.heardFrom _ _ _).freeList = _
    rw [State.heardFrom_eq]
    rfl

end Taken

/-! ### O56 -/

/-- Settles O56: the steps of R161 one after the other, the manager table, the room, and the rows. -/
theorem commandsAreTurnedAwayOrExecuted : Obligations.CommandsAreTurnedAwayOrExecuted := by
  refine ⟨fun u p v => ⟨State.manage_of_refused, fun accepts denied => ?denied, fun accepts admitted =>
      ⟨fun w refused => State.manage_of_noRoom accepts admitted refused, fun room w secured => ?judged⟩⟩,
    fun s a sequence payload => ⟨State.denies_iff, fun unheld => ?unheld, fun i here first => ?held⟩,
    fun s p room chars => ⟨State.fillRoom_of_standing, State.fillRoom_of_purged⟩, fun b c => commandOf_eq_some_iff,
    fun s room args c => ?arguments, fun s i p h c args carries => exec_of_carriedCommand carries s,
    fun s p h c args b room rest receives lets admits fits place free =>
      commandTaken_of_room receives lets admits c fits place free⟩
  case denied => exact State.manage_of_denied accepts denied
  case unheld =>
    have slot := State.slotOf_of_unheld unheld
    exact ⟨by rw [State.cachedFor, slot], by rw [State.storeResult, slot]⟩
  case held =>
    have slot := State.slotOf_of_first here first
    exact ⟨State.cachedFor_iff here slot, by rw [State.storeResult, slot]; rfl⟩
  case arguments =>
    refine (s.executeCommand_take args room c).symm.trans ?_
    cases c <;> rfl
  case judged =>
    have reported : Reporting u w := by
      have placed := u.generate_reporting p []
      rwa [show (u.generate p []).2 = w from congrArg Prod.snd secured] at placed
    have standing {chars : List Byte} : w.fillRoom p room chars = w.setChars room chars :=
      State.fillRoom_of_standing (State.generate_standing secured)
    have cachedFor := State.cachedFor_of_managers reported.moves.steady.managers v.source (headerSequence v.payload)
    rw [State.manage_of_room accepts admitted secured, ← reported.restart]
    refine ⟨fun pending => ?busy, fun running unknown => ?unknown, fun payload running whole named cached => ?repeated,
      fun c r t running whole named fresh executes => ?executed⟩
    case busy => exact (State.judge_of_pending pending).trans standing
    case unknown => exact (State.judge_of_unknown running (requestedCommand_eq_none unknown)).trans standing
    case repeated =>
      obtain ⟨c, named⟩ := Option.isSome_iff_exists.mp named
      exact (State.judge_of_repeated running (requestedCommand_eq_some whole named) (cachedFor.trans cached)).trans standing
    case executed =>
      rw [State.judge_of_new running (requestedCommand_eq_some whole named) (cachedFor.trans fresh), State.execute, executes]
      rfl

end Sys2Proof.Machine
end

