-- ==== Sys2Proof/Proofs/Payloads.lean ====
section
/-! SUPPORT. A command's arguments, taken one after the other by its tests (R165), and its row, which executes it as the
command itself executes. -/

namespace Sys2Proof.Machine

/-! ### Arguments -/

section Arguments

variable {β : Type}

theorem argAt_cons_zero (a : Byte) (rest : List Byte) : argAt (a :: rest) 0 = .ok a := rfl

theorem ok_bind {α : Type} (v : α) (f : α → Except ResultCode β) : (Except.ok v >>= f) = f v := rfl

end Arguments

/-! ### Rows -/

section Rows

variable {i : Instr} {p : Port} {h : CommandHead} {c : CommandCode} {args : List Byte} {r : State → CommandResult}
  (carries : carriedCommand i = some (p, h, c, args))
include carries

theorem ExecutesWhen.of_carried {e : BufferIx → State → State}
    (does : ∀ u room, u.executeCommand room args c = (r u, e room u)) : ExecutesWhen (fun _ => True) i p h c args r e :=
  .of_commandEvent (exec_of_carriedCommand carries) fun u room _ => does u room

theorem Executes.of_carried {e : State → State} (does : ∀ u room, u.executeCommand room args c = (r u, e u)) :
    Executes i p h c args r e := ExecutesWhen.of_carried carries does

end Rows

end Sys2Proof.Machine
end

