-- ==== Sys2Proof/Proofs/ReadCommands.lean ====
section
/-! PROOFS. The commands that only read: STATUS, TIME READ and GET PARAM (R138, R170, R173), READ ENTRIES and its records
(R171, R198). -/

namespace Sys2Proof.Machine

/-! ### The arrival port while its command executes (log 7) -/

theorem CommandTaken.state_listen {s u : State} {p : Port} {h : CommandHead} {c : CommandCode} {args : List Byte}
    {b room : BufferIx} (taken : CommandTaken s p h c args b room u) : (u.port p).state = .listen := by
  obtain ⟨-, t, ⟨-, v, ⟨-, -, rest, -, arrived⟩, heard⟩, placed⟩ := taken
  have secured : (t.generate p []).2 = u := congrArg Prod.snd placed
  have traffic := t.generate_traffic p []
  rw [secured] at traffic
  rw [(traffic.ports p).state, heard, State.port_heardFrom, arrived, State.arrived, State.port_updPort_self]

/-! ### GET PARAM (R173) -/

section GetParam

variable {u : State} {ident port : Byte} {rest : List Byte}

theorem State.getParam_unnamed (unnamed : paramOf ident = none) : u.getParam (ident :: rest) = .error .badIndex := by
  rw [State.getParam, argAt_cons_zero, ok_bind, unnamed]
  rfl

theorem State.getParam_ofPort {q : PortParam} (names : paramOf ident = some (.ofPort q)) :
    u.getParam (ident :: port :: rest) =
      named (portOf port) .badIndex >>= fun x => .ok (fourBytes (BitVec.ofNat 32 ((u.port x).params.read q))) := by
  rw [State.getParam, argAt_cons_zero, ok_bind, names]
  rfl

theorem State.getParam_ofCoupler {q : CouplerParam} (names : paramOf ident = some (.ofCoupler q)) :
    u.getParam (ident :: port :: rest) = .ok (fourBytes (BitVec.ofNat 32 (u.params.read q))) := by
  rw [State.getParam, argAt_cons_zero, ok_bind, names]
  rfl

theorem State.getParam_noPort : u.getParam [ident] = .error (if paramOf ident = none then .badIndex else .badValue) := by
  cases names : paramOf ident with
  | none => exact State.getParam_unnamed names
  | some name =>
    rw [State.getParam, argAt_cons_zero, ok_bind, names]
    rfl

end GetParam

/-! ### O45 -/

/-- Settles O45: each read, what the arrival port shows, and the encodings one after the other. -/
theorem readsAnswerWhatTheyName : Obligations.ReadsAnswerWhatTheyName := by
  refine fun p h => ⟨.of_carried rfl fun u room => rfl, .of_carried rfl fun u room => rfl,
    fun ident port => ⟨fun unnamed => .of_carried rfl fun u room => ?unnamed,
      fun q names => .of_carried rfl fun u room => ?coupler,
      fun q names => ⟨fun outside => .of_carried rfl fun u room => ?noPort,
        fun x here => .of_carried rfl fun u room => ?port⟩⟩,
    fun s b room u taken => taken.state_listen, fun u room ident => ⟨rfl, ?short⟩, rfl, rfl, by decide, fun u f => rfl,
    fun e => ?entries, rfl, by decide +kernel, fun q => rfl, fun q => ?baud, fun q => ?couplerParams⟩
  case unnamed =>
    rw [State.executeCommand, State.getParam_unnamed unnamed]
    rfl
  case coupler =>
    rw [State.executeCommand, State.getParam_ofCoupler names]
    rfl
  case noPort =>
    rw [State.executeCommand, State.getParam_ofPort names, portOf_of_le outside]
    rfl
  case port =>
    rw [State.executeCommand, State.getParam_ofPort names, portOf_of_toNat here]
    rfl
  case short =>
    rw [State.executeCommand, State.getParam_noPort]
    rfl
  case entries => cases e <;> simp [TxEntry.isOpen, TxEntry.isLapsed]
  case baud =>
    rw [PortParams.read]
    cases q.baud <;> rfl
  case couplerParams =>
    obtain ⟨own, forwarding, policy, ageLimit, reserve, outstanding, grace, mode, mask, recipient⟩ := q
    cases policy <;> cases mode <;> rfl

/-! ### READ ENTRIES (R171) -/

section ReadEntries

variable {u : State} {t : TableName} {first : Byte} {rest : List Byte}

theorem State.readEntries_badTable {table : Byte} (unnamed : ∀ t : TableName, t.code ≠ table) :
    u.readEntries (table :: rest) = .error .badTable := by
  have none : tableOf table = none := Option.eq_none_iff_forall_ne_some.mpr fun t names =>
    unnamed t (eq_code_of_tableOf names).symm
  rw [State.readEntries, argAt_cons_zero, ok_bind, none]
  rfl

/-- The first index is judged, then the count is taken. -/
theorem State.readEntries_code :
    u.readEntries (t.code :: first :: rest) =
      require (t.first ≤ first.toNat && first.toNat ≤ t.last) .badIndex >>= fun _ =>
        argAt rest 0 >>= fun count =>
          .ok (recordCount t first.toNat count.toNat,
            ((List.range (recordCount t first.toNat count.toNat)).map fun k => u.record t (first.toNat + k)).flatten) := by
  rw [State.readEntries, argAt_cons_zero, ok_bind, tableOf_code]
  rfl

theorem State.readEntries_noIndex : u.readEntries [t.code] = .error .badValue := by
  rw [State.readEntries, argAt_cons_zero, ok_bind, tableOf_code]
  rfl

theorem State.readEntries_outside (outside : first.toNat < t.first ∨ t.last < first.toNat) :
    u.readEntries (t.code :: first :: rest) = .error .badIndex := by
  rw [State.readEntries_code, require_bind_of_failed]
  rw [Bool.and_eq_false_iff, decide_eq_false_iff_not, decide_eq_false_iff_not]
  omega

theorem State.readEntries_inTable (above : t.first ≤ first.toNat) (below : first.toNat ≤ t.last) :
    u.readEntries (t.code :: first :: rest) =
      argAt rest 0 >>= fun count =>
        .ok (recordCount t first.toNat count.toNat,
          ((List.range (recordCount t first.toNat count.toNat)).map fun k => u.record t (first.toNat + k)).flatten) := by
  rw [State.readEntries_code, require_bind_of_passed]
  rw [decide_eq_true above, decide_eq_true below]
  rfl

theorem State.readEntries_noCount :
    u.readEntries [t.code, first] =
      .error (if first.toNat < t.first ∨ t.last < first.toNat then .badIndex else .badValue) := by
  split
  · rename_i outside
    exact State.readEntries_outside outside
  · rename_i inside
    exact State.readEntries_inTable (by omega) (by omega)

theorem carriedCommand_readRow (t : TableName) (p : Port) (h : CommandHead) (first count : Byte) :
    carriedCommand (readRow t p h first count) = some (p, h, .readEntries, [t.code, first, count]) := by cases t <;> rfl

end ReadEntries

/-! ### Records (11.3, R198) -/

section Records

theorem byteOf_toNat (a : Byte) : byteOf a.toNat = a := (BitVec.ofNat_toNat 8 a).trans (BitVec.setWidth_eq a)

variable (u : State)

theorem State.record_station (a : Byte) : u.record .station a.toNat = stationRecord a (u.station a) := by
  rw [State.record, byteOf_toNat]

theorem State.record_group (i : Fin 16) : u.record .group i.val = [byteOf i.val, (u.groups.get i).setWidth 8] :=
  dif_pos i.isLt

theorem State.record_window (i : Fin 24) : u.record .window i.val = windowRecord (byteOf i.val) (u.windows.get i) :=
  dif_pos i.isLt

theorem State.record_manager (i : Fin 4) : u.record .manager i.val = managerRecord (byteOf i.val) (u.managers.get i) :=
  dif_pos i.isLt

theorem State.record_transaction (i : TxIx) : u.record .transaction i.val = txRecord (byteOf i.val) (u.tx i) :=
  dif_pos i.isLt

theorem State.record_port (q : Port) : u.record .port q.val = u.portRecord q := dif_pos q.isLt

end Records

/-! ### O46 -/

/-- Settles O46: the count of a read and its refusals, then the record of each table. -/
theorem readEntriesReturnsRecords : Obligations.ReadEntriesReturnsRecords := by
  refine ⟨fun t p h first count =>
      ⟨fun outside => .of_carried (carriedCommand_readRow t p h first count) fun u room => ?outside,
      fun above below => .of_carried (carriedCommand_readRow t p h first count) fun u room => ?inTable⟩,
    fun u room first => ⟨rfl, fun table rest unnamed => ?badTable, fun t => ⟨?noIndex, ?noCount⟩⟩,
    fun s p h args b room u taken => ⟨taken.state_listen, ?arrivalPort⟩, rfl, fun u a station => ?station,
    fun u i => u.record_group i, fun u i => ?window, fun u i => ?manager, fun u i => ?transaction, fun u q => ?port⟩
  case outside => exact congrArg (answerRead u) (State.readEntries_outside outside)
  case inTable => exact congrArg (answerRead u) (State.readEntries_inTable above below)
  case badTable => exact congrArg (answerRead u) (State.readEntries_badTable unnamed)
  case noIndex => exact congrArg (answerRead u) State.readEntries_noIndex
  case noCount => exact congrArg (answerRead u) State.readEntries_noCount
  case arrivalPort =>
    rw [State.record_port, State.portRecord, taken.state_listen]
    rfl
  case station =>
    rw [State.record_station, stationRecord]
    cases (u.station a).state <;> rfl
  case window =>
    rw [State.record_window, windowRecord]
    dsimp only
    cases (u.windows.get i).action <;> rfl
  case manager =>
    rw [State.record_manager]
    cases u.managers.get i with
    | none => rfl
    | some r =>
      obtain ⟨address, last⟩ := r
      cases last <;> rfl
  case transaction =>
    rw [State.record_transaction]
    cases u.tx i with
    | free => rfl
    | opened c copies deadline =>
      obtain ⟨⟨requester, responder, tag, exchange⟩, segment, responderSegment, retries⟩ := c
      cases deadline <;> cases exchange <;> cases responderSegment <;> rfl
    | lapsed c stamp grace =>
      obtain ⟨⟨requester, responder, tag, exchange⟩, segment, responderSegment, retries⟩ := c
      cases exchange <;> cases responderSegment <;> rfl
  case port =>
    rw [State.record_port, State.portRecord]
    cases (u.port q).state <;> cases u.disposition q <;> rfl

end Sys2Proof.Machine
end

