-- ==== Sys2Proof/Proofs/CounterReads.lean ====
section
/-! PROOFS. READ COUNTERS (R176, R187): the scopes, their values and their clearing, and the counters in their order (R186). -/

namespace Sys2Proof.Machine

/-! ### Scopes (R176) -/

section Scopes

variable {scope : Byte}

theorem scopeOf_none (outside : 5 < scope.toNat) : scopeOf scope = none := by
  rw [scopeOf, portOf_of_le (by omega)]
  exact (if_neg (by omega)).trans (if_neg (by omega))

theorem scopeOf_port {x : Port} (here : scope.toNat = x.val) : scopeOf scope = some (.port x) := by
  rw [scopeOf, portOf_of_toNat here]

theorem scopeOf_coupler1 : scopeOf 4 = some .coupler1 := rfl

theorem scopeOf_coupler2 : scopeOf 5 = some .coupler2 := rfl

theorem scopeOf_some (inside : ¬ 5 < scope.toNat) : ∃ c, scopeOf scope = some c := by
  by_cases port : scope.toNat < 4
  · exact ⟨_, scopeOf_port (x := ⟨scope.toNat, port⟩) rfl⟩
  · have coupler : scope = 4 ∨ scope = 5 := by
      rw [← BitVec.toNat_inj, ← BitVec.toNat_inj]
      change scope.toNat = 4 ∨ scope.toNat = 5
      omega
    obtain rfl | rfl := coupler
    · exact ⟨_, scopeOf_coupler1⟩
    · exact ⟨_, scopeOf_coupler2⟩

end Scopes

/-! ### The tests of a READ COUNTERS (R165, R176) -/

section ReadCounters

variable {u : State} {scope flag : Byte} {rest : List Byte}

theorem State.readCounters_noScope (none : scopeOf scope = none) : u.readCounters (scope :: rest) = .error .badIndex := by
  rw [State.readCounters, argAt_cons_zero, ok_bind, none]
  rfl

/-- The scope is judged, then the flag. -/
theorem State.readCounters_ofScope {c : Scope} (names : scopeOf scope = some c) :
    u.readCounters (scope :: rest) =
      argAt rest 0 >>= fun flag => require (flag == 0 || flag == 1) .badValue >>= fun _ =>
        .ok (((u.scopeValues c).map fourBytes).flatten, if flag == 1 then u.clearScope c else u) := by
  rw [State.readCounters, argAt_cons_zero, ok_bind, names]
  rfl

theorem flag_refused (wide : 1 < flag.toNat) : (flag == 0 || flag == 1) = false := by
  rw [Bool.or_eq_false_iff, beq_eq_false_iff_ne, beq_eq_false_iff_ne]
  constructor
  · rintro rfl
    exact absurd wide (by decide)
  · rintro rfl
    exact absurd wide (by decide)

/-- A flag that is missing, or neither yes nor no, is refused after the scope. -/
theorem State.readCounters_badFlag (noFlag : ∀ flag, argAt rest 0 = .ok flag → 1 < flag.toNat) :
    u.readCounters (scope :: rest) = .error (if 5 < scope.toNat then .badIndex else .badValue) := by
  split
  · rename_i outside
    exact State.readCounters_noScope (scopeOf_none outside)
  · rename_i inside
    obtain ⟨c, names⟩ := scopeOf_some inside
    rw [State.readCounters_ofScope names]
    cases read : argAt rest 0 with
    | error code => exact congrArg Except.error (badValueOnly_argAt rest 0 code read)
    | ok flag => exact require_bind_of_failed (flag_refused (noFlag flag read))

theorem State.readCounters_noFlag : u.readCounters [scope] = .error (if 5 < scope.toNat then .badIndex else .badValue) :=
  State.readCounters_badFlag fun _ read => absurd read error_ne_ok

theorem State.readCounters_wideFlag (wide : 1 < flag.toNat) :
    u.readCounters (scope :: flag :: rest) = .error (if 5 < scope.toNat then .badIndex else .badValue) := by
  refine State.readCounters_badFlag fun taken read => ?_
  rw [argAt_cons_zero, Except.ok.injEq] at read
  rwa [← read]

end ReadCounters

/-! ### The rows of a READ COUNTERS -/

section Rows

variable {p : Port} {h : CommandHead} {scope : Byte}

theorem executes_readCounters_noScope (none : scopeOf scope = none) :
    Executes (.readCounters p h scope) p h .readCounters [scope, 0] (fun _ => refusedResult .badIndex) id ∧
      Executes (.readCountersClear p h scope) p h .readCounters [scope, 1] (fun _ => refusedResult .badIndex) id := by
  have refused (u : State) (room : BufferIx) (flag : Byte) :
      u.executeCommand room [scope, flag] .readCounters = (refusedResult .badIndex, u) := by
    rw [State.executeCommand, State.readCounters_noScope none]
    rfl
  exact ⟨.of_carried rfl fun u room => refused u room 0, .of_carried rfl fun u room => refused u room 1⟩

/-- A scope is read, and with the flag cleared too. -/
theorem executes_readCounters {c : Scope} (names : scopeOf scope = some c) :
    let values (u : State) : CommandResult := ⟨.done, 0, ((u.scopeValues c).map fourBytes).flatten⟩
    Executes (.readCounters p h scope) p h .readCounters [scope, 0] values id ∧
      Executes (.readCountersClear p h scope) p h .readCounters [scope, 1] values fun u => u.clearScope c := by
  refine ⟨.of_carried rfl fun u room => ?_, .of_carried rfl fun u room => ?_⟩
  all_goals
    rw [State.executeCommand, State.readCounters_ofScope names]
    rfl

end Rows

/-! ### The counters of a scope cleared, and one counter advanced (R186, R187) -/

section Vectors

theorem clearedHalf_first (v : Vector Count 22) :
    clearedHalf v true = Vector.ofFn fun i : Fin 22 => if i.val < 11 then 0 else v.get i := by
  simp only [clearedHalf, beq_true, decide_eq_true_eq]

theorem clearedHalf_second (v : Vector Count 22) :
    clearedHalf v false = Vector.ofFn fun i : Fin 22 => if i.val < 11 then v.get i else 0 := by
  simp only [clearedHalf, beq_false, Bool.not_eq_true', decide_eq_false_iff_not, ite_not]

theorem set_get_eq_ofFn {n : Nat} (v : Vector Count n) (j : Fin n) :
    v.set j.val (v.get j + 1) j.isLt = Vector.ofFn fun i => if i = j then v.get i + 1 else v.get i := by
  refine Vector.ext fun i inside => ?_
  rw [Vector.getElem_ofFn]
  refine (get_set v j ⟨i, inside⟩ _).trans ?_
  split
  · rename_i here
    rw [here]
  · rfl

end Vectors

/-! ### O47 -/

/-- Settles O47: the scope, the flag, what is cleared, and the place of each counter. -/
theorem readCountersReadsAndClears : Obligations.ReadCountersReadsAndClears := by
  refine ⟨fun p h scope => ⟨fun outside => executes_readCounters_noScope (scopeOf_none outside),
      fun x here => executes_readCounters (scopeOf_port here), ?first, ?second⟩,
    fun u room scope => ⟨rfl, congrArg (answerCounters u) (State.readCounters_noFlag), fun flag rest wide =>
      congrArg (answerCounters u) (State.readCounters_wideFlag wide)⟩,
    rfl, rfl, fun s p c => ⟨rfl, ?port⟩, fun s c => ⟨rfl, ?coupler⟩⟩
  case first =>
    rintro rfl
    simp only [← clearedHalf_first]
    exact executes_readCounters scopeOf_coupler1
  case second =>
    rintro rfl
    simp only [← clearedHalf_second]
    exact executes_readCounters scopeOf_coupler2
  case port =>
    simp only [← set_get_eq_ofFn]
    rfl
  case coupler =>
    rw [← set_get_eq_ofFn]
    rfl

end Sys2Proof.Machine
end

