-- ==== Sys2Proof/Proofs/CouplerParameters.lean ====
section
/-! PROOFS. SET PARAM of a coupler parameter: its ranges and what a write does (R70, R174, R191, R193), and the payloads that
any SET PARAM refuses (R165, R173). -/

namespace Sys2Proof.Machine

/-! ### The arguments of a SET PARAM (R165, R173, log 19) -/

section Arguments

variable {u : State} {ident port : Byte} {rest : List Byte}

theorem valueArg_fourBytes (v : BitVec 32) : valueArg ([ident, port] ++ fourBytes v) = .ok v.toNat :=
  congrArg Except.ok (numberOf_fourBytes v)

theorem valueArg_short (short : rest.length < 4) : valueArg (ident :: port :: rest) = .error .badValue := by
  have missing : argAt (ident :: port :: rest) 5 = .error .badValue :=
    argAt_of_missing (Nat.succ_le_succ (Nat.succ_le_succ (Nat.le_of_lt_succ short)))
  refine (badValueOnly_argAt _ 2).bind_refused fun _ => (badValueOnly_argAt _ 3).bind_refused fun _ =>
    (badValueOnly_argAt _ 4).bind_refused fun _ => ?_
  rw [missing]
  rfl

theorem State.setParam_unnamed (unnamed : paramOf ident = none) : u.setParam (ident :: rest) = .error .badIndex := by
  rw [State.setParam, argAt_cons_zero, ok_bind, unnamed]
  rfl

theorem State.setParam_noPort {name : ParamName} (names : paramOf ident = some name) :
    u.setParam [ident] = .error .badValue := by
  rw [State.setParam, argAt_cons_zero, ok_bind, names]
  rfl

theorem State.setParam_ofCoupler {q : CouplerParam} (names : paramOf ident = some (.ofCoupler q)) :
    u.setParam (ident :: port :: rest) = valueArg (ident :: port :: rest) >>= u.setCouplerParam q := by
  rw [State.setParam, argAt_cons_zero, ok_bind, names]
  rfl

theorem State.setParam_coupler {q : CouplerParam} (names : paramOf ident = some (.ofCoupler q)) (v : BitVec 32) :
    u.setParam ([ident, port] ++ fourBytes v) = u.setCouplerParam q v.toNat :=
  (State.setParam_ofCoupler names).trans (congrArg (· >>= u.setCouplerParam q) (valueArg_fourBytes v))

/-- Of a per-port parameter the port is judged before the value. -/
theorem State.setParam_atPort {q : PortParam} (names : paramOf ident = some (.ofPort q)) :
    u.setParam (ident :: port :: rest) =
      named (portOf port) .badIndex >>= fun x => valueArg (ident :: port :: rest) >>= u.setPortParam q x := by
  rw [State.setParam, argAt_cons_zero, ok_bind, names]
  rfl

theorem State.setParam_badPort {q : PortParam} (names : paramOf ident = some (.ofPort q)) (outside : 4 ≤ port.toNat) :
    u.setParam (ident :: port :: rest) = .error .badIndex := by
  rw [State.setParam_atPort names, portOf_of_le outside]
  rfl

theorem State.setParam_short {name : ParamName} (names : paramOf ident = some name)
    (judged : (∃ q, name = .ofCoupler q) ∨ port.toNat < 4) (short : rest.length < 4) :
    u.setParam (ident :: port :: rest) = .error .badValue := by
  cases name with
  | ofCoupler q =>
    rw [State.setParam_ofCoupler names, valueArg_short short]
    rfl
  | ofPort q =>
    have inside : port.toNat < 4 := judged.resolve_left fun ⟨_, coupler⟩ => nomatch coupler
    rw [State.setParam_atPort names, portOf_of_toNat (x := ⟨port.toNat, inside⟩) rfl, valueArg_short short]
    rfl

end Arguments

/-! ### A coupler write (R173, R174) -/

section Writes

variable {u : State} {q : CouplerParam} {n : Nat}

theorem State.setCouplerParam_outOfRange (range : q.inRange n = false) : u.setCouplerParam q n = .error .badValue := by
  rw [State.setCouplerParam, range]
  rfl

theorem State.setCouplerParam_written (range : q.inRange n = true) :
    u.setCouplerParam q n = .ok (if u.params.read q = n then u else u.applyCouplerParam n q) := by
  rw [State.setCouplerParam, range]
  exact congrArg Except.ok (if_congr beq_iff_eq rfl rfl)

end Writes

/-! ### AGE_LIMIT and the stations (R70) -/

/-- A change of every entry of the Station Table changes the entry of each station. -/
theorem State.station_map (u : State) (f : StationEntry → StationEntry) {a : Byte} (station : isStation a = true) :
    { u with stations := u.stations.map f }.station a = f (u.station a) := by
  obtain ⟨i, index⟩ : ∃ i, stationIndex a = some i := ⟨_, dif_pos ((isStation_iff a).mp station)⟩
  rw [State.station, State.station, index]
  exact Vector.getElem_map f i.isLt

theorem State.station_ageLimit (u : State) (n : Nat) {a : Byte} (station : isStation a = true) :
    (u.applyCouplerParam n .ageLimit).station a = (u.station a).limited n :=
  State.station_map { u with params := { u.params with ageLimit := n } } (StationEntry.limited n) station

/-! ### O52 -/

/-- Settles O52: the tests of a coupler write, the ranges, the effects, and the payloads that any SET PARAM refuses. -/
theorem couplerParameterWrites : Obligations.CouplerParameterWrites := by
  refine ⟨fun ident p h port v => ?commands, fun n => ?ranges, fun u n => ?effects, fun u room => ?malformed⟩
  case commands =>
    have row := exec_setRow ident p h port v
    refine ⟨fun unnamed => .of_commandEvent row fun u room _ => ?unnamed, fun q names =>
      ⟨fun out => .of_commandEvent row fun u room _ => ?out, fun within => .of_commandEvent row fun u room _ => ?written⟩⟩
    case unnamed => exact congrArg (answerWrite u) (State.setParam_unnamed unnamed)
    case out =>
      exact congrArg (answerWrite u) ((State.setParam_coupler names v).trans (State.setCouplerParam_outOfRange out))
    case written =>
      exact congrArg (answerWrite u) ((State.setParam_coupler names v).trans (State.setCouplerParam_written within))
  case ranges =>
    exact ⟨(Bool.decide_and ..).symm, rfl, rfl, rfl, rfl, (Bool.decide_and ..).symm, rfl, rfl, rfl, rfl⟩
  case effects =>
    refine ⟨rfl, rfl, rfl, rfl, rfl, rfl, rfl, rfl, rfl, rfl, rfl, rfl, fun a station => ?_, rfl⟩
    rw [State.station_ageLimit u n station, StationEntry.limited]
    cases (u.station a).state <;> rfl
  case malformed =>
    refine ⟨rfl, fun ident => ⟨fun unnamed rest => congrArg (answerWrite u) (State.setParam_unnamed unnamed),
      fun name names => ⟨congrArg (answerWrite u) (State.setParam_noPort names), fun port rest => ⟨?badPort,
        fun judged short => congrArg (answerWrite u) (State.setParam_short names judged short)⟩⟩⟩⟩
    rintro ⟨q, rfl⟩ outside
    exact congrArg (answerWrite u) (State.setParam_badPort names outside)

end Sys2Proof.Machine
end

