-- ==== Sys2Proof/Proofs/CalendarCommands.lean ====
section
/-! PROOFS. TIME SET (R139, R140), TIME ROUND (R141), TIME HOLD (R142) and TIME RUN (R143). -/

namespace Sys2Proof.Machine

/-! ### The record of a TIME SET (R139, R199) -/

section Record

/-- The six characters are read as BCD, and then the date and time they name is judged. -/
theorem timeArg_record (t : TimeRecord) :
    timeArg [t.year, t.month, t.day, t.hour, t.minute, t.second] =
      named (ofBcd t.year) .badValue >>= fun year =>
        named (ofBcd t.month) .badValue >>= fun month =>
          named (ofBcd t.day) .badValue >>= fun day =>
            named (ofBcd t.hour) .badValue >>= fun hour =>
              named (ofBcd t.minute) .badValue >>= fun minute =>
                named (ofBcd t.second) .badValue >>= fun second =>
                  require (DateTime.real ⟨2000 + year, month, day, hour, minute, second⟩) .badValue >>= fun _ =>
                    .ok ⟨2000 + year, month, day, hour, minute, second⟩ := rfl

theorem badValueOnly_timeArg_record (t : TimeRecord) :
    BadValueOnly (timeArg [t.year, t.month, t.day, t.hour, t.minute, t.second]) := by
  rw [timeArg_record]
  exact (badValueOnly_named _).bind fun _ => (badValueOnly_named _).bind fun _ => (badValueOnly_named _).bind fun _ =>
    (badValueOnly_named _).bind fun _ => (badValueOnly_named _).bind fun _ => (badValueOnly_named _).bind fun _ =>
      (badValueOnly_require _).bind fun _ _ => nofun

/-- The records let through are those of the real dates and times. -/
theorem timeArg_eq_ok_iff {t : TimeRecord} {d : DateTime} :
    timeArg [t.year, t.month, t.day, t.hour, t.minute, t.second] = .ok d ↔ d.real = true ∧ t = d.record := by
  simp only [timeArg_record, bind_eq_ok_iff, named_eq_ok_iff, require_eq_ok_iff, exists_const, ofBcd_eq_some_iff,
    Except.ok.injEq]
  constructor
  · rintro ⟨year, ⟨-, yearRead⟩, month, ⟨-, monthRead⟩, day, ⟨-, dayRead⟩, hour, ⟨-, hourRead⟩, minute, ⟨-, minuteRead⟩,
      second, ⟨-, secondRead⟩, real, rfl⟩
    refine ⟨real, ?_⟩
    rw [DateTime.record, Nat.add_sub_cancel_left, ← yearRead, ← monthRead, ← dayRead, ← hourRead, ← minuteRead, ← secondRead]
  · rintro ⟨real, rfl⟩
    have fields := d.real_iff.mp real
    have days := monthLength_bounds d.year d.month
    have year : 2000 + (d.year - 2000) = d.year := by omega
    have same : (⟨2000 + (d.year - 2000), d.month, d.day, d.hour, d.minute, d.second⟩ : DateTime) = d := by rw [year]
    exact ⟨_, ⟨by omega, rfl⟩, _, ⟨by omega, rfl⟩, _, ⟨by omega, rfl⟩, _, ⟨by omega, rfl⟩, _, ⟨by omega, rfl⟩,
      _, ⟨by omega, rfl⟩, same.symm ▸ real, same⟩

theorem timeArg_refused {t : TimeRecord} (unreal : ∀ d : DateTime, d.real = true → t ≠ d.record) :
    timeArg [t.year, t.month, t.day, t.hour, t.minute, t.second] = .error .badValue := by
  cases read : timeArg [t.year, t.month, t.day, t.hour, t.minute, t.second] with
  | error code => exact congrArg Except.error (badValueOnly_timeArg_record t code read)
  | ok d =>
    obtain ⟨real, same⟩ := timeArg_eq_ok_iff.mp read
    exact absurd same (unreal d real)

theorem timeArg_short {args : List Byte} (short : args.length < 6) : timeArg args = .error .badValue := by
  have missing : argAt args 5 = .error .badValue := argAt_of_missing (Nat.le_of_lt_succ short)
  have next (i : Nat) {f : Byte → Nat → Except ResultCode DateTime} (refused : ∀ a n, f a n = .error .badValue) :
      (argAt args i >>= fun a => named (ofBcd a) .badValue >>= f a) = .error .badValue :=
    (badValueOnly_argAt args i).bind_refused fun a => (badValueOnly_named _).bind_refused (refused a)
  refine next 0 fun _ _ => next 1 fun _ _ => next 2 fun _ _ => next 3 fun _ _ => next 4 fun _ _ => ?_
  rw [missing]
  rfl

end Record

/-! ### The effects -/

section Effects

variable {u : State}

theorem State.timeRound_down (early : u.calendar.now.second < 30) :
    u.timeRound =
      { u with
        calendar := { u.calendar with now := { u.calendar.now with second := 0 }, phase := 0 }, crystalCount := 0 } :=
  if_neg (Nat.not_le.mpr early)

/-- A carry is a real minute tick: the stations age, and the dispositions are evaluated. -/
theorem State.timeRound_up (late : ¬ u.calendar.now.second < 30) :
    u.timeRound =
      State.evaluate
        { u with
          calendar := { u.calendar with now := u.calendar.now.nextMinute, phase := 0 }
          crystalCount := 0
          stations := u.stations.map (StationEntry.aged u.params.ageLimit) } :=
  if_pos (Nat.not_lt.mp late)

theorem State.timeHold_of_none (none : u.staged = Option.none) :
    u.timeHold = { u with calendar := { u.calendar with hold := true } } := by
  unfold State.timeHold
  split
  · rename_i d staged
    exact nomatch none.symm.trans staged
  · rfl

/-- The evaluation leaves the calendar as it was set, so that HOLD stops it at the staged time. -/
theorem State.timeHold_of_some {d : DateTime} (staged : u.staged = some d) :
    u.timeHold = { u.applyTime d with calendar := ⟨d, 0, true, true⟩ } := by
  have calendar : (u.applyTime d).calendar = ⟨d, 0, true, u.calendar.hold⟩ := (State.evaluate_sameClock _).calendar
  rw [State.timeHold, staged]
  dsimp only
  rw [calendar]

end Effects

/-! ### O53 -/

/-- Settles O53: the record of a TIME SET, then what each of the four commands does. -/
theorem calendarCommands : Obligations.CalendarCommands := by
  refine ⟨fun p h t => ⟨fun unreal => .of_carried rfl fun u room => ?unreal,
      fun d real named => .of_carried rfl fun u room => ?set⟩,
    fun p h => ⟨.of_carried rfl fun u room => ?round, .of_carried rfl fun u room => ?hold,
      .of_carried rfl fun u room => rfl⟩,
    fun u room args short => ?short⟩
  case unreal => exact congrArg (fun read => answerWrite u (read.map u.timeSet)) (timeArg_refused unreal)
  case set =>
    exact congrArg (fun read => answerWrite u (read.map u.timeSet)) (timeArg_eq_ok_iff.mpr ⟨real, named⟩)
  case round =>
    rw [State.executeCommand]
    by_cases staged : u.staged.isSome = true
    · rw [if_pos staged, if_pos staged, if_pos staged]
      rfl
    · rw [if_neg staged, if_neg staged, if_neg staged]
      by_cases early : u.calendar.now.second < 30
      · rw [if_pos early, ← State.timeRound_down early]
        rfl
      · rw [if_neg early, ← State.timeRound_up early]
        rfl
  case hold =>
    refine congrArg (Prod.mk doneResult) ?_
    dsimp only
    split
    · rename_i none
      exact State.timeHold_of_none none
    · rename_i d staged
      exact State.timeHold_of_some staged
  case short => exact congrArg (fun read => answerWrite u (read.map u.timeSet)) (timeArg_short short)

end Sys2Proof.Machine
end

