-- ==== Sys2Proof/Proofs/UnitCommands.lean ====
section
/-! PROOFS. CLEAR ALERT (R177, R193), FLUSH LEARNED (R71) and RESTART (R178). -/

namespace Sys2Proof.Machine

/-! ### CLEAR ALERT and FLUSH LEARNED -/

section ClearAlert

variable {u : State} {causes : Byte}

theorem State.clearAlert_refused (wide : 127 < causes.toNat) : u.clearAlert [causes] = .error .badValue :=
  require_bind_of_failed (decide_eq_false (Nat.not_lt.mpr wide))

theorem State.clearAlert_cleared (fits : causes.toNat ≤ 127) :
    u.clearAlert [causes] = .ok { u with pendingAlerts := u.pendingAlerts &&& ~~~ causes.setWidth 7 } :=
  require_bind_of_passed (decide_eq_true (Nat.lt_succ_of_le fits))

end ClearAlert

/-- Settles O54: the set of causes in its range and out of it, and each entry of the Station Table by its state. -/
theorem clearAlertAndFlushLearned : Obligations.ClearAlertAndFlushLearned := by
  refine ⟨fun u room => rfl, fun p h => ⟨fun causes => ⟨fun wide => .of_carried rfl fun u room => ?refused,
    fun fits => .of_carried rfl fun u room => ?cleared⟩, .of_carried rfl fun u room => ?flushed⟩⟩
  case refused => exact congrArg (answerWrite u) (State.clearAlert_refused wide)
  case cleared => exact congrArg (answerWrite u) (State.clearAlert_cleared fits)
  case flushed =>
    refine congrArg (fun f => (doneResult, { u with stations := u.stations.map f })) (funext fun ⟨state, ceiling⟩ => ?_)
    cases state <;> rfl

/-! ### RESTART -/

theorem restartKindOf_none {kind : Byte} (notWarm : kind ≠ 1) (notFull : kind ≠ 2) : restartKindOf kind = none :=
  (if_neg notWarm).trans (if_neg notFull)

theorem State.restartCommand_refused (u : State) (room : BufferIx) {kind : Byte} (rest : List Byte) (notWarm : kind ≠ 1)
    (notFull : kind ≠ 2) : u.restartCommand room (kind :: rest) = .error .badValue := by
  rw [State.restartCommand, argAt_cons_zero, ok_bind, restartKindOf_none notWarm notFull]
  rfl

/-- Settles O55: a kind that is named becomes pending, any other value is refused. -/
theorem restartBecomesPending : Obligations.RestartBecomesPending :=
  ⟨fun _ _ => ⟨.of_carried rfl fun _ _ => rfl, .of_carried rfl fun _ _ => rfl⟩,
    fun u room => ⟨rfl, fun _ rest notWarm notFull =>
      congrArg (answerWrite u) (u.restartCommand_refused room rest notWarm notFull)⟩⟩

end Sys2Proof.Machine
end

