-- ==== Sys2Proof/Proofs/Alerts.lean ====
section
/-! PROOFS. The Alert Unit: what raising a cause does (R189, R190), its notice (R192) and the ALERT output (R191). -/

namespace Sys2Proof.Machine

/-! ### The notice of a cause (R192) -/

section Notice

variable {s : State} {c : AlertCause}

theorem State.alertNotice_of_noRecipient (none : s.params.alertRecipient = 0) : s.alertNotice c = s := if_pos none

theorem State.alertNotice_of_noHome (recipient : s.params.alertRecipient ≠ 0)
    (homeless : (s.station s.params.alertRecipient).state.home = none) : s.alertNotice c = s.count .noticesLost := by
  rw [State.alertNotice, if_neg recipient, homeless]

theorem State.alertNotice_of_home {p : Port} (recipient : s.params.alertRecipient ≠ 0)
    (home : (s.station s.params.alertRecipient).state.home = some p) :
    s.alertNotice c =
      s.sendNotice p (alertNoticeChars s.params.ownAddress s.params.alertRecipient c s.pendingAlerts) := by
  rw [State.alertNotice, if_neg recipient, home]

end Notice

/-! ### A cause that is raised (R189, R190) -/

/-- The cause in the pending set, before the pulse and the notice. -/
def State.entered (s : State) (c : AlertCause) : State := { s with pendingAlerts := s.pendingAlerts ||| c.mask }

/-- An unmasked cause in the pending set, with its pulse in PULSE mode, before the notice (R191). -/
def State.driven (s : State) (c : AlertCause) : State :=
  { s.entered c with pulse := if s.params.alertMode = .pulse then some 10 else s.pulse }

section Raise

variable {s : State} {c : AlertCause}

theorem State.raise_of_pending (pending : s.pendingAlerts &&& c.mask ≠ 0) : s.raise c = s :=
  if_pos (bne_iff_ne.mpr pending)

theorem State.raise_of_masked (fresh : s.pendingAlerts &&& c.mask = 0) (masked : s.params.alertMask &&& c.mask ≠ 0) :
    s.raise c = s.entered c := by
  rw [State.raise, if_neg (bne_iff_ne.not_left.mpr fresh)]
  exact if_pos (bne_iff_ne.mpr masked)

/-- An unmasked cause has its pulse first and then its notice. -/
theorem State.raise_of_unmasked (fresh : s.pendingAlerts &&& c.mask = 0) (unmasked : s.params.alertMask &&& c.mask = 0) :
    s.raise c = (s.driven c).alertNotice c := by
  rw [State.raise, if_neg (bne_iff_ne.not_left.mpr fresh)]
  refine (if_neg (bne_iff_ne.not_left.mpr unmasked)).trans (congrArg (State.alertNotice · c) ?_)
  cases mode : s.params.alertMode with
  | pulse => simp only [State.driven, State.entered, mode, if_true]
  | latched => simp only [State.driven, State.entered, mode, reduceCtorEq, if_false]

end Raise

/-! ### The ALERT output (R191) -/

theorem State.alertAsserted_iff (s : State) :
    s.alertAsserted = true ↔
      (s.params.alertMode = .latched ∧ s.pendingAlerts &&& ~~~ s.params.alertMask ≠ 0) ∨
        (s.params.alertMode = .pulse ∧ s.pulse ≠ none) := by
  rw [State.alertAsserted]
  cases s.params.alertMode with
  | latched => simp [State.unmaskedPending]
  | pulse => simp [Option.isSome_iff_ne_none]

/-- Settles O41: the cause by whether it is pending or masked, its notice by the recipient and its home segment, and the
output by the mode. -/
theorem alertsAreRaised : Obligations.AlertsAreRaised := by
  refine ⟨fun s c => ⟨State.raise_of_pending, fun fresh => ⟨State.raise_of_masked fresh, fun unmasked => ?unmasked⟩⟩, rfl,
    State.alertAsserted_iff⟩
  have raised : s.raise c = (s.driven c).alertNotice c := State.raise_of_unmasked fresh unmasked
  exact ⟨fun none => raised.trans (State.alertNotice_of_noRecipient none),
    fun recipient homeless => raised.trans (State.alertNotice_of_noHome recipient homeless),
    fun p recipient home => raised.trans (State.alertNotice_of_home recipient home)⟩

end Sys2Proof.Machine
end

