-- ==== Sys2Proof/Proofs/Machine.lean ====
section
/-! PROOFS. The machine itself: one step of it, that no row stops it, and that the state it starts from meets every
invariant its steps keep. -/

namespace Sys2Proof.Machine

/-! ### One step (O1, O3) -/

/-- Settles O1: the step goes by the queue alone. -/
theorem frontCommandRuns : Obligations.FrontCommandRuns := by
  intro c rest s waiting
  rw [step, waiting]

/-- Settles O3: every row leaves what its form runs, and no form stops. -/
theorem noCommandStops : Obligations.NoCommandStops := fun c s => ⟨(rowOf c).run s, exec_eq_run c s⟩

/-! ### The state after reset is what a cold start leaves -/

/-- A COLD_START row with the straps open finds the state after reset and leaves it (log 10). -/
theorem State.settle_resetCold_reset : (State.reset.resetCold openStraps).settle = State.reset := by
  obtain ⟨-, fixed, -⟩ := coldStartResetsEverything
  rw [exec_eq_run] at fixed
  exact Host.Outcome.next.inj fixed

/-- An invariant of the steps that a reset establishes from any state holds after reset. -/
theorem Kept.reset {I : State → Prop} (kept : Kept I) : I State.reset :=
  State.settle_resetCold_reset ▸ kept.settle (kept.resetCold State.reset openStraps)

/-! ### The ports and the buffers after reset -/

theorem State.port_reset (p : Port) : State.reset.port p = resetPort openStraps p := get_fourPorts (resetPort openStraps) p

theorem State.queuesEmpty_reset : State.reset.QueuesEmpty := fun p => by
  rw [State.port_reset]
  rfl

/-- Empty queues are within their length, in order, and hold no stamp (R50, R51). -/
theorem State.queuesSound_of_empty {s : State} (empty : s.QueuesEmpty) : s.queuesSound = true := by
  refine List.all_eq_true.mpr fun p _ => ?_
  rw [State.queue, empty p]
  simp [queueSound]

/-- With nothing queued no buffer is referred to (R44). -/
theorem State.references_of_empty {s : State} (empty : s.QueuesEmpty) (b : BufferIx) : s.references b = 0 := by
  have none : s.entries = [] := List.flatten_eq_nil_iff.mpr fun q mem => by
    obtain ⟨p, -, rfl⟩ := List.mem_map.mp mem
    exact empty p
  rw [State.references, none]
  rfl

/-- A port in LISTEN receives into no buffer (R7). -/
theorem State.receivesInto_of_listen {s : State} {p : Port} (listen : (s.port p).state = .listen) (b : BufferIx) :
    s.receivesInto p b = false := by
  rw [State.receivesInto, listen]

/-- With nothing queued and every port in LISTEN, a free buffer that the free list names is sound. -/
theorem State.bufferSound_of_free {s : State} (empty : s.QueuesEmpty) (listen : ∀ p, (s.port p).state = .listen)
    {b : BufferIx} (free : (s.pool.get b).condition = .free) (listed : b ∈ s.freeList) : s.bufferSound b = true := by
  simp [State.bufferSound, free, listed, State.references_of_empty empty, State.receivesInto_of_listen (listen _)]

/-- Every buffer is free and on the free list, which names each once (R49). -/
theorem State.buffersSound_reset : State.reset.buffersSound = true := by
  have listen (p : Port) : (State.reset.port p).state = .listen := by
    rw [State.port_reset]
    rfl
  have free (b : BufferIx) : (State.reset.pool.get b).condition = .free := by
    rw [State.reset, Vector.get_eq_getElem, Vector.getElem_replicate]
    rfl
  have sound (b : BufferIx) : State.reset.bufferSound b = true :=
    State.bufferSound_of_free State.queuesEmpty_reset listen (free b) (List.mem_finRange b)
  have distinct (p : Port) : ((State.reset.queue p).map (·.buffer)).Nodup := by
    rw [State.queue, State.queuesEmpty_reset p]
    exact List.nodup_nil
  simp only [State.buffersSound, Bool.and_eq_true, decide_eq_true_eq, List.all_eq_true]
  exact ⟨⟨List.nodup_finRange 48, fun b _ => sound b⟩, fun p _ => distinct p⟩

/-! ### O6 -/

/-- Settles O6: what every reset establishes holds by the cold start it is, the rest because nothing is queued, received or
tracked. -/
theorem resetMeetsTheInvariants : Obligations.ResetMeetsTheInvariants := by
  have empty := State.queuesEmpty_reset
  have inTime : State.reset.InTime := timeSound_cold
  obtain ⟨calendar, staged⟩ := (State.inTime_iff _).mp inTime
  obtain ⟨marks, -⟩ := (State.marked_iff _).mp kept_marked.reset
  obtain ⟨transactions, -⟩ := State.tracks_iff.mp (State.tracks_of_empty empty rfl)
  exact ⟨State.quiescent_of_empty rfl empty, State.eventsComplete_of_empty empty, State.dark_of_powered rfl, calendar, staged,
    State.queuesSound_of_empty empty, marks, State.buffersSound_reset, transactions, kept_paramsInRange.reset,
    kept_agesFit.reset, kept_managersDistinct.reset, kept_pulseOnlyInPulseMode.reset⟩

end Sys2Proof.Machine
end

