-- ==== Sys2Proof/Proofs/Holdings.lean ====
section
/-! SUPPORT. What queues and buffers hold: a queue in its order (R51), and what the part says of one buffer, the free list, the
queues and the receiving ports together (R44, R45, R50), with what each small change does to both. -/

namespace Sys2Proof.Machine

/-! ### A queue in its order (R51) -/

theorem QueueEntry.before_iff (a b : QueueEntry) :
    a.before b = true ↔ b.rank.level < a.rank.level ∨ (a.rank.level = b.rank.level ∧ a.stamp < b.stamp) := by
  simp [QueueEntry.before]

theorem QueueEntry.before_trans {a b c : QueueEntry} (h : a.before b = true) (k : b.before c = true) :
    a.before c = true := by
  rw [QueueEntry.before_iff] at *
  omega

/-- Of two entries with stamps of their own one comes first. -/
theorem QueueEntry.before_of_not_before {a b : QueueEntry} (h : ¬ a.before b = true) (older : b.stamp < a.stamp) :
    b.before a = true := by
  rw [QueueEntry.before_iff] at *
  omega

/-- A queue in queue order, each entry with a stamp of its own that has been given out (R51). -/
structure QueueOrder (nextStamp : Nat) (q : List QueueEntry) : Prop extends Stamped nextStamp q where
  order : q.Pairwise fun a b => a.before b = true

/-- An entry joins a queue whose entries are all older. -/
theorem insertEntry_pairwise {e : QueueEntry} {q : List QueueEntry} (order : q.Pairwise fun a b => a.before b = true)
    (older : ∀ x ∈ q, x.stamp < e.stamp) : (insertEntry e q).Pairwise fun a b => a.before b = true := by
  induction q with
  | nil => exact List.pairwise_singleton _ e
  | cons x xs ih =>
    obtain ⟨first, rest⟩ := List.pairwise_cons.mp order
    obtain ⟨olderX, olderXs⟩ := List.forall_mem_cons.mp older
    unfold insertEntry
    split
    · rename_i ahead
      exact List.pairwise_cons.mpr ⟨List.forall_mem_cons.mpr ⟨ahead, fun y mem => QueueEntry.before_trans ahead (first y mem)⟩, order⟩
    · rename_i behind
      refine List.pairwise_cons.mpr ⟨fun y mem => ?_, ih rest olderXs⟩
      obtain rfl | old := mem_insertEntry.mp mem
      · exact QueueEntry.before_of_not_before behind olderX
      · exact first y old

namespace QueueOrder

variable {next : Nat} {q : List QueueEntry}

theorem nil (next : Nat) : QueueOrder next [] := ⟨⟨List.nodup_nil, fun _ mem => absurd mem List.not_mem_nil⟩, .nil⟩

theorem later {next' : Nat} (h : QueueOrder next q) (le : next ≤ next') : QueueOrder next' q :=
  ⟨h.toStamped.later le, h.order⟩

theorem filter (h : QueueOrder next q) (f : QueueEntry → Bool) : QueueOrder next (q.filter f) :=
  ⟨h.toStamped.filter f, h.order.filter f⟩

/-- Entries written over, each keeping its rank and its stamp. -/
theorem map (h : QueueOrder next q) {f : QueueEntry → QueueEntry} (rank : ∀ e, (f e).rank = e.rank)
    (stamp : ∀ e, (f e).stamp = e.stamp) : QueueOrder next (q.map f) := by
  refine ⟨h.toStamped.map stamp, h.order.map f fun a b ahead => ?_⟩
  rw [QueueEntry.before_iff] at *
  rwa [rank, rank, stamp, stamp]

/-- An entry joins with the next stamp. -/
theorem insert (h : QueueOrder next q) {e : QueueEntry} (unmarked : e.inTx = false) (stays : e.pendingRemoval = none)
    (stamp : e.stamp = next) : QueueOrder (next + 1) (insertEntry e q) :=
  ⟨h.toStamped.of_queueMove (.joined e unmarked stays stamp (Nat.lt_succ_self next)),
    insertEntry_pairwise h.order fun x mem => stamp ▸ h.given x mem⟩

/-- The first entry is written over, keeping its rank and its stamp. -/
theorem head {e e' : QueueEntry} (h : QueueOrder next (e :: q)) (rank : e'.rank = e.rank) (stamp : e'.stamp = e.stamp) :
    QueueOrder next (e' :: q) := by
  obtain ⟨⟨stamps, given⟩, order⟩ := h
  obtain ⟨first, rest⟩ := List.pairwise_cons.mp order
  obtain ⟨givenE, givenQ⟩ := List.forall_mem_cons.mp given
  refine ⟨⟨?_, List.forall_mem_cons.mpr ⟨stamp ▸ givenE, givenQ⟩⟩, List.pairwise_cons.mpr ⟨fun x mem => ?_, rest⟩⟩
  · rw [List.map_cons, stamp]
    exact stamps
  · have ahead := first x mem
    rw [QueueEntry.before_iff] at *
    rwa [rank, stamp]

end QueueOrder

/-! ### The entries of a queue that refer to a buffer (R44) -/

/-- How many entries of a queue refer to buffer `b`. -/
def refsIn (b : BufferIx) (q : List QueueEntry) : Nat := q.countP fun e => e.buffer == b

section Refs

variable (b : BufferIx) (q : List QueueEntry)

theorem refsIn_cons (e : QueueEntry) : refsIn b (e :: q) = refsIn b q + if e.buffer = b then 1 else 0 := by
  simp [refsIn, List.countP_cons]

theorem refsIn_insertEntry (e : QueueEntry) : refsIn b (insertEntry e q) = refsIn b q + if e.buffer = b then 1 else 0 :=
  ((insertEntry_perm e q).countP_eq _).trans (refsIn_cons b q e)

theorem refsIn_map {f : QueueEntry → QueueEntry} (buffer : ∀ e, (f e).buffer = e.buffer) :
    refsIn b (q.map f) = refsIn b q := by
  rw [refsIn, List.countP_map]
  exact List.countP_congr fun e _ => by simp [buffer]

/-- An entry leaves by its stamp, and its reference with it. -/
theorem refsIn_filter_stamp {next : Nat} {q : List QueueEntry} (stamped : Stamped next q) {e : QueueEntry} (mem : e ∈ q) :
    (refsIn b (q.filter fun x => x.stamp != e.stamp) + if e.buffer = b then 1 else 0) = refsIn b q := by
  obtain ⟨l, r, rfl, apart⟩ := stamped.split mem
  have around : refsIn b (l ++ e :: r) = refsIn b (e :: (l ++ r)) := List.perm_middle.countP_eq _
  rw [Stamped.filter_around apart, around, refsIn_cons]

theorem one_le_refsIn {q : List QueueEntry} {e : QueueEntry} (mem : e ∈ q) : 1 ≤ refsIn e.buffer q :=
  List.countP_pos_iff.mpr ⟨e, mem, beq_self_eq_true _⟩

/-- A queue refers to no buffer twice where it refers to each once at most (R50). -/
theorem nodup_buffers_iff (q : List QueueEntry) : (q.map (·.buffer)).Nodup ↔ ∀ b, refsIn b q ≤ 1 := by
  have counts (b : BufferIx) : (q.map (·.buffer)).count b = refsIn b q := by
    rw [List.count_eq_countP, List.countP_map]
    rfl
  simp only [List.nodup_iff_count_le_one, counts]

end Refs

theorem State.references_eq_sum (s : State) (b : BufferIx) : s.references b = ∑ p : Port, refsIn b (s.queue p) := by
  rw [State.references, ← List.countP_eq_length_filter, State.entries, List.countP_flatten, List.map_map, Fin.sum_univ_def]
  rfl

/-! ### What the part says of one buffer -/

/-- The buffer a port in this state fills (R7). -/
def PortState.fills : PortState → Option BufferIx
  | .receiving r => some r.buffer
  | .disabled | .listen | .sending _ _ | .backoff _ | .guard _ | .contained _ => none

theorem State.receivesInto_iff (s : State) (p : Port) (b : BufferIx) :
    s.receivesInto p b = true ↔ (s.port p).state.fills = some b := by
  unfold State.receivesInto PortState.fills
  cases (s.port p).state <;> simp

/-- A buffer as its users see it: its condition, how often the free list names it, how many entries of each queue refer to it,
and which ports fill it. -/
structure Stock where
  condition : BufferCondition
  listed : Nat
  refs : Port → Nat
  filling : Port → Prop

/-- Buffer `b` as its users see it. -/
def State.stock (s : State) (b : BufferIx) : Stock where
  condition := (s.pool.get b).condition
  listed := s.freeList.count b
  refs p := refsIn b (s.queue p)
  filling p := (s.port p).state.fills = some b

namespace Stock

/-- A buffer accounted for (R44, R45, R50): free and on the free list, under reception by the one port that fills it, or held
with a count of 1 to 3 by that many entries, no two of them in one queue. -/
def Kept (v : Stock) : Prop :=
  match v.condition with
  | .free => v.listed = 1 ∧ (∀ p, v.refs p = 0) ∧ ∀ p, ¬ v.filling p
  | .reception p => v.listed = 0 ∧ (∀ q, v.refs q = 0) ∧ ∀ q, v.filling q ↔ q = p
  | .held n =>
    v.listed = 0 ∧ (∑ p, v.refs p = n ∧ 1 ≤ n ∧ n ≤ 3 ∧ ∀ p, v.refs p ≤ 1) ∧ ∀ p, ¬ v.filling p

/-- A buffer whose frame is being classified (R46, R82): no port fills it any more, it is not on the free list, and the queues
of the ports `ps` have taken it. -/
structure InHand (ps : List Port) (v : Stock) : Prop where
  reception : ∃ p, v.condition = .reception p
  listed : v.listed = 0
  refs : ∀ p, v.refs p = ps.count p
  idle : ∀ p, ¬ v.filling p

/-- The buffer in hand is in hand, every other is accounted for. -/
def Stands (hand : Option (BufferIx × List Port)) (b : BufferIx) (v : Stock) : Prop :=
  match hand with
  | none => v.Kept
  | some (c, ps) => if b = c then v.InHand ps else v.Kept

variable {v w : Stock} {p : Port}

theorem kept_free (condition : v.condition = .free) :
    v.Kept ↔ v.listed = 1 ∧ (∀ p, v.refs p = 0) ∧ ∀ p, ¬ v.filling p := by rw [Kept, condition]

theorem kept_reception (condition : v.condition = .reception p) :
    v.Kept ↔ v.listed = 0 ∧ (∀ q, v.refs q = 0) ∧ ∀ q, v.filling q ↔ q = p := by rw [Kept, condition]

theorem kept_held {n : Nat} (condition : v.condition = .held n) :
    v.Kept ↔ v.listed = 0 ∧ (∑ p, v.refs p = n ∧ 1 ≤ n ∧ n ≤ 3 ∧ ∀ p, v.refs p ≤ 1) ∧ ∀ p, ¬ v.filling p := by
  rw [Kept, condition]

/-- A buffer on the free list is free. -/
theorem Kept.free_of_listed (h : v.Kept) (listed : v.listed ≠ 0) : v.condition = .free := by
  cases condition : v.condition with
  | free => rfl
  | reception p => exact absurd ((kept_reception condition).mp h).1 listed
  | held n => exact absurd ((kept_held condition).mp h).1 listed

/-- A buffer that a port fills is under reception by it. -/
theorem Kept.reception_of_filling (h : v.Kept) (filling : v.filling p) : v.condition = .reception p := by
  cases condition : v.condition with
  | free => exact absurd filling (((kept_free condition).mp h).2.2 p)
  | reception q => rw [(((kept_reception condition).mp h).2.2 p).mp filling]
  | held n => exact absurd filling (((kept_held condition).mp h).2.2 p)

/-- A buffer that an entry refers to is held. -/
theorem Kept.held_of_refs (h : v.Kept) (refs : 1 ≤ v.refs p) : ∃ n, v.condition = .held n := by
  cases condition : v.condition with
  | free => exact absurd (((kept_free condition).mp h).2.1 p) (Nat.one_le_iff_ne_zero.mp refs)
  | reception q => exact absurd (((kept_reception condition).mp h).2.1 p) (Nat.one_le_iff_ne_zero.mp refs)
  | held n => exact ⟨n, rfl⟩

/-- Each buffer where nothing is in hand. -/
theorem stands_none {b : BufferIx} : v.Stands none b ↔ v.Kept := Iff.rfl

theorem stands_self {b : BufferIx} {ps : List Port} : v.Stands (some (b, ps)) b ↔ v.InHand ps := by
  rw [Stands, if_pos rfl]

theorem stands_other {b c : BufferIx} {ps : List Port} (other : b ≠ c) : v.Stands (some (c, ps)) b ↔ v.Kept := by
  rw [Stands, if_neg other]

/-- What a buffer stands as is in hand or accounted for. -/
theorem Stands.cases {hand : Option (BufferIx × List Port)} {b : BufferIx} (h : v.Stands hand b) :
    v.Kept ∧ (∀ w : Stock, w.Kept → w.Stands hand b) ∨ ∃ ps, hand = some (b, ps) ∧ v.InHand ps := by
  match hand with
  | none => exact .inl ⟨h, fun _ => id⟩
  | some (c, ps) =>
    by_cases same : b = c
    · subst same
      exact .inr ⟨ps, rfl, stands_self.mp h⟩
    · exact .inl ⟨(stands_other same).mp h, fun _ => (stands_other same).mpr⟩

end Stock

/-! ### What the part holds -/

/-- Every queue is in its order and within 16 entries, the places of `places` being owed (R50, R51, R53). Where `watched`, every
buffer is accounted for, but for the one in hand (R44, R45). -/
structure State.HeldWith (watched : Prop) (places : List Port) (hand : Option (BufferIx × List Port)) (s : State) : Prop where
  ordered : ∀ p, QueueOrder s.nextStamp (s.queue p)
  fits : ∀ p, (s.queue p).length + places.count p ≤ Config.queueSize
  stands : watched → ∀ b, (s.stock b).Stands hand b

/-- The same, no queue having taken the buffer in hand. -/
abbrev State.Held (watched : Prop) (places : List Port) (hand : Option BufferIx) (s : State) : Prop :=
  s.HeldWith watched places (hand.map fun b => (b, []))

/-- `t` has the queues and stamps of `s`, and its buffers in the conditions of `s`, filled by the ports that filled them. -/
structure SameHolding (s t : State) : Prop where
  queue : ∀ p, t.queue p = s.queue p
  nextStamp : t.nextStamp = s.nextStamp
  condition : ∀ b, (t.pool.get b).condition = (s.pool.get b).condition
  freeList : t.freeList = s.freeList
  fills : ∀ p, (t.port p).state.fills = (s.port p).state.fills

namespace SameHolding

variable {s t u : State}

theorem refl (s : State) : SameHolding s s := ⟨fun _ => rfl, rfl, fun _ => rfl, rfl, fun _ => rfl⟩

theorem trans (h : SameHolding s t) (k : SameHolding t u) : SameHolding s u :=
  ⟨fun p => (k.queue p).trans (h.queue p), k.nextStamp.trans h.nextStamp, fun b => (k.condition b).trans (h.condition b),
    k.freeList.trans h.freeList, fun p => (k.fills p).trans (h.fills p)⟩

/-- A change of what is neither a port nor a stamp nor a buffer. -/
theorem of_eq (ports : t.ports = s.ports) (nextStamp : t.nextStamp = s.nextStamp) (pool : t.pool = s.pool)
    (freeList : t.freeList = s.freeList) : SameHolding s t :=
  ⟨fun p => by rw [State.queue, State.queue, State.port, State.port, ports], nextStamp, fun b => by rw [pool], freeList,
    fun p => by rw [State.port, State.port, ports]⟩

theorem stock (h : SameHolding s t) (b : BufferIx) : t.stock b = s.stock b := by
  unfold State.stock
  simp only [h.queue, h.condition, h.freeList, h.fills]

end SameHolding

section Same

variable (s : State) (p : Port)

theorem State.updPort_sameHolding {f : PortUnit → PortUnit} (queue : (f (s.port p)).queue = (s.port p).queue)
    (fills : (f (s.port p)).state.fills = (s.port p).state.fills) : SameHolding s (s.updPort p f) := by
  refine ⟨fun q => (s.updPort_sameTracking p queue).queue q, rfl, fun _ => rfl, rfl, fun q => ?_⟩
  rw [State.port_updPort]
  split
  · rename_i here
    rw [here, fills]
  · rfl

theorem State.countPort_sameHolding (c : PortCounter) : SameHolding s (s.countPort p c) := s.updPort_sameHolding p rfl rfl

theorem State.countPortOpt_sameHolding (c : Option PortCounter) : SameHolding s (s.countPortOpt p c) := by
  cases c with
  | none => exact .refl s
  | some c => exact s.countPort_sameHolding p c

theorem State.count_sameHolding (c : CouplerCounter) : SameHolding s (s.count c) := .of_eq rfl rfl rfl rfl

theorem State.setTx_sameHolding (i : TxIx) (e : TxEntry) : SameHolding s (s.setTx i e) := .of_eq rfl rfl rfl rfl

theorem State.toldDeparture_sameHolding (e : QueueEntry) : SameHolding s (s.toldDeparture e) := by
  rw [State.toldDeparture_eq]
  exact .of_eq rfl rfl rfl rfl

/-- Characters written to a buffer. -/
theorem State.setChars_sameHolding (b : BufferIx) (cs : List Byte) : SameHolding s (s.setChars b cs) := by
  refine ⟨fun _ => rfl, rfl, fun c => ?_, rfl, fun _ => rfl⟩
  rw [State.setChars, State.pool_get_setBuffer]
  split
  · rename_i here
    rw [here]
  · rfl

end Same

namespace State.HeldWith

variable {watched : Prop} {places : List Port} {hand : Option (BufferIx × List Port)} {s t : State} {p : Port}

theorem same (h : s.HeldWith watched places hand) (same : SameHolding s t) : t.HeldWith watched places hand := by
  refine ⟨fun p => ?_, fun p => ?_, fun watching b => ?_⟩
  · rw [same.queue, same.nextStamp]
    exact h.ordered p
  · rw [same.queue]
    exact h.fits p
  · rw [same.stock]
    exact h.stands watching b

/-- A place that was owed is owed no longer. -/
theorem repaid (h : s.HeldWith watched (p :: places) hand) : s.HeldWith watched places hand :=
  ⟨h.ordered, fun q => Nat.le_trans (Nat.add_le_add_left (List.count_le_count_cons ..) _) (h.fits q), h.stands⟩

/-- A change at the queue of port `p` alone. -/
theorem of_queue {places' : List Port} {hand' : Option (BufferIx × List Port)} (h : s.HeldWith watched places hand)
    (others : ∀ q, q ≠ p → t.queue q = s.queue q) (later : s.nextStamp ≤ t.nextStamp)
    (ordered : QueueOrder t.nextStamp (t.queue p)) (owed : ∀ q, q ≠ p → places'.count q = places.count q)
    (fits : (t.queue p).length + places'.count p ≤ Config.queueSize)
    (stands : watched → ∀ b, (t.stock b).Stands hand' b) : t.HeldWith watched places' hand' := by
  refine ⟨fun q => ?_, fun q => ?_, stands⟩
  · by_cases here : q = p
    · rw [here]
      exact ordered
    · rw [others q here]
      exact (h.ordered q).later later
  · by_cases here : q = p
    · rw [here]
      exact fits
    · rw [others q here, owed q here]
      exact h.fits q

/-- The entries of a queue written over, each keeping its rank, its stamp and its buffer. -/
theorem relabel (h : s.HeldWith watched places hand) (p : Port) {f : QueueEntry → QueueEntry}
    (rank : ∀ e, (f e).rank = e.rank) (stamp : ∀ e, (f e).stamp = e.stamp) (buffer : ∀ e, (f e).buffer = e.buffer) :
    (s.setQueue p ((s.queue p).map f)).HeldWith watched places hand := by
  have queue (q : Port) : (s.setQueue p ((s.queue p).map f)).queue q = if q = p then (s.queue p).map f else s.queue q :=
    s.queue_setQueue p q _
  have stock (b : BufferIx) : (s.setQueue p ((s.queue p).map f)).stock b = s.stock b := by
    have refs : (fun q => refsIn b ((s.setQueue p ((s.queue p).map f)).queue q)) = fun q => refsIn b (s.queue q) := by
      funext q
      rw [queue]
      split
      · rename_i here
        rw [here, refsIn_map b _ buffer]
      · rfl
    have filling (q : Port) : ((s.setQueue p ((s.queue p).map f)).port q).state = (s.port q).state := by
      rw [State.setQueue, State.port_updPort]
      split
      · rename_i here
        rw [here]
      · rfl
    unfold State.stock
    simp only [filling, refs]
    rfl
  refine h.of_queue (p := p) (fun q other => (queue q).trans (if_neg other)) (Nat.le_refl _) ?_ (fun _ _ => rfl) ?_
    fun watching b => ?_
  · rw [queue, if_pos rfl]
    exact (h.ordered p).map rank stamp
  · rw [queue, if_pos rfl, List.length_map]
    exact h.fits p
  · rw [stock]
    exact h.stands watching b

end State.HeldWith

end Sys2Proof.Machine
end

