-- ==== Sys2Proof/Proofs/HoldingMoves.lean ====
section
/-! SUPPORT. What each move of an entry or a buffer does to what the part holds: an entry joins or leaves a queue, a buffer is
taken for a frame, given back, or settled at the end of a classification (R44 to R47, R50 to R53). -/

namespace Sys2Proof.Machine

/-! ### What each move does to a buffer -/

namespace Stock

/-- One entry more in queue `p` refers to it. -/
def joined (p : Port) (v : Stock) : Stock := { v with refs := fun q => v.refs q + if q = p then 1 else 0 }

/-- One entry less in queue `p` refers to it. -/
def left (p : Port) (v : Stock) : Stock := { v with refs := fun q => if q = p then v.refs q - 1 else v.refs q }

/-- It becomes free and joins the free list (R45). -/
def freed (v : Stock) : Stock := { v with condition := .free, listed := v.listed + 1 }

/-- An entry that referred to it has left its queue (R55). -/
def released (v : Stock) : Stock :=
  match v.condition with
  | .held n => if n ≤ 1 then v.freed else { v with condition := .held (n - 1) }
  | .free | .reception _ => v

/-- Taken off the free list for a frame that joins queue `p` (R47). -/
def generated (p : Port) (v : Stock) : Stock :=
  { v.joined p with condition := .held 1, listed := v.listed - 1 }

/-- Port `p` fills it from now on, or does so no longer. -/
def filledBy (p : Port) (fills : Prop) (v : Stock) : Stock :=
  { v with filling := fun q => if q = p then fills else v.filling q }

variable {v : Stock} {p : Port}

theorem sum_joined (v : Stock) (p : Port) : ∑ q, (v.joined p).refs q = ∑ q, v.refs q + 1 := by
  simp [joined, Finset.sum_add_distrib]

/-- With one entry less the queues refer to it once less. -/
theorem sum_left (refs : 1 ≤ v.refs p) : ∑ q, (v.left p).refs q + 1 = ∑ q, v.refs q := by
  have rest : ∑ q ∈ Finset.univ.erase p, (v.left p).refs q = ∑ q ∈ Finset.univ.erase p, v.refs q :=
    Finset.sum_congr rfl fun q mem => if_neg (Finset.ne_of_mem_erase mem)
  have before := Finset.add_sum_erase Finset.univ v.refs (Finset.mem_univ p)
  have after := Finset.add_sum_erase Finset.univ (v.left p).refs (Finset.mem_univ p)
  have here : (v.left p).refs p = v.refs p - 1 := if_pos rfl
  omega

theorem left_refs_le (v : Stock) (p q : Port) : (v.left p).refs q ≤ v.refs q := by
  unfold left
  dsimp only
  split <;> omega

/-- The last reference frees a held buffer, any other is counted off (R55). -/
theorem Kept.released_left (h : v.Kept) (refs : 1 ≤ v.refs p) : (v.left p).released.Kept := by
  obtain ⟨n, condition⟩ := h.held_of_refs refs
  obtain ⟨listed, ⟨sum, one, three, once⟩, idle⟩ := (kept_held condition).mp h
  have less := sum_left refs
  have still : (v.left p).condition = .held n := condition
  have count : (v.left p).listed = 0 := listed
  unfold released
  rw [still]
  dsimp only
  split
  · have none : ∑ q, (v.left p).refs q = 0 := by omega
    refine (kept_free rfl).mpr ⟨congrArg Nat.succ count, fun q => ?_, idle⟩
    exact Finset.sum_eq_zero_iff.mp none q (Finset.mem_univ q)
  · refine (kept_held rfl).mpr ⟨count, ⟨?_, by omega, by omega, fun q => (v.left_refs_le p q).trans (once q)⟩, idle⟩
    change ∑ q, (v.left p).refs q = n - 1
    omega

/-- A free buffer, taken for a generated frame (R47). -/
theorem Kept.generated (h : v.Kept) (listed : v.listed ≠ 0) : (v.generated p).Kept := by
  obtain ⟨one, none, idle⟩ := (kept_free (h.free_of_listed listed)).mp h
  have sum : ∑ q, (v.joined p).refs q = 1 := by
    rw [sum_joined, Finset.sum_eq_zero fun q _ => none q]
  refine (kept_held rfl).mpr ⟨?_, ⟨sum, Nat.le_refl 1, by omega, fun q => ?_⟩, idle⟩
  · change v.listed - 1 = 0
    omega
  · change v.refs q + _ ≤ 1
    rw [none]
    split <;> omega

/-- A buffer under reception that is given back (R12, R19). -/
theorem Kept.freed_filledBy (h : v.Kept) (filling : v.filling p) : (v.freed.filledBy p False).Kept := by
  obtain ⟨listed, none, only⟩ := (kept_reception (h.reception_of_filling filling)).mp h
  refine (kept_free rfl).mpr ⟨congrArg Nat.succ listed, none, fun q => ?_⟩
  change ¬ if q = p then False else v.filling q
  split
  · exact id
  · rename_i other
    exact fun filling => other ((only q).mp filling)

/-- A free buffer, taken for a frame that port `p` receives (R8). -/
theorem Kept.received (h : v.Kept) (listed : v.listed ≠ 0) :
    Kept { v.filledBy p True with condition := .reception p, listed := v.listed - 1 } := by
  obtain ⟨one, none, idle⟩ := (kept_free (h.free_of_listed listed)).mp h
  refine (kept_reception rfl).mpr ⟨?_, none, fun q => ?_⟩
  · change v.listed - 1 = 0
    omega
  · change (if q = p then True else v.filling q) ↔ q = p
    split
    · rename_i here
      exact iff_of_true trivial here
    · rename_i other
      exact iff_of_false (idle q) other

/-- A frame is complete: its buffer is in hand (R18). -/
theorem Kept.inHand (h : v.Kept) (filling : v.filling p) : (v.filledBy p False).InHand [] := by
  have condition := h.reception_of_filling filling
  obtain ⟨listed, none, only⟩ := (kept_reception condition).mp h
  refine ⟨⟨p, condition⟩, listed, none, fun q => ?_⟩
  change ¬ if q = p then False else v.filling q
  split
  · exact id
  · rename_i other
    exact fun filling => other ((only q).mp filling)

theorem InHand.joined {ps : List Port} (h : v.InHand ps) : (v.joined p).InHand (p :: ps) := by
  refine ⟨h.reception, h.listed, fun q => ?_, h.idle⟩
  change v.refs q + _ = _
  rw [h.refs, List.count_cons]
  simp only [beq_iff_eq, @eq_comm _ p q]

theorem sum_count (ps : List Port) : ∑ p, ps.count p = ps.length := by
  induction ps with
  | nil => exact Finset.sum_eq_zero fun _ _ => rfl
  | cons p ps ih =>
    simp only [List.count_cons, Finset.sum_add_distrib, ih, beq_iff_eq, List.length_cons]
    rw [Finset.sum_ite_eq Finset.univ p fun _ => 1, if_pos (Finset.mem_univ p)]

/-- The end of a classification: the buffer in hand is held by the queues that took it, or becomes free (R46, R82). -/
theorem InHand.settled {ps : List Port} (h : v.InHand ps) (once : ps.Nodup) (few : ps.length ≤ 3) :
    (if ps.length = 0 then v.freed else { v with condition := .held ps.length }).Kept := by
  split
  · rename_i untaken
    refine (kept_free rfl).mpr ⟨congrArg Nat.succ h.listed, fun q => ?_, h.idle⟩
    exact (h.refs q).trans (by rw [List.length_eq_zero_iff.mp untaken]; rfl)
  · rename_i taken
    have sum : ∑ q, v.refs q = ps.length := by rw [← sum_count, Finset.sum_congr rfl fun q _ => h.refs q]
    refine (kept_held rfl).mpr ⟨h.listed, ⟨sum, Nat.one_le_iff_ne_zero.mpr taken, few, fun q => ?_⟩, h.idle⟩
    exact (h.refs q).trans_le (List.nodup_iff_count_le_one.mp once q)

end Stock

/-! ### What each move does to the buffers of the part -/

section Stocks

theorem count_cons_eq (b c : BufferIx) (l : List BufferIx) : (b :: l).count c = l.count c + if c = b then 1 else 0 := by
  rw [List.count_cons]
  simp only [beq_iff_eq, @eq_comm _ b c]

variable (s : State) (p : Port) (b c : BufferIx)

theorem State.stock_setBuffer (v : Buffer) :
    (s.setBuffer b v).stock c = if c = b then { s.stock c with condition := v.condition } else s.stock c := by
  have condition : ((s.setBuffer b v).pool.get c).condition =
      if c = b then v.condition else (s.pool.get c).condition := by
    rw [State.pool_get_setBuffer]
    split <;> rfl
  unfold State.stock
  rw [condition]
  split <;> rfl

theorem State.stock_freeUp : (s.freeUp b).stock c = if c = b then (s.stock c).freed else s.stock c := by
  have condition : ((s.freeUp b).pool.get c).condition = if c = b then .free else (s.pool.get c).condition := by
    change ((s.setBuffer b _).pool.get c).condition = _
    rw [State.pool_get_setBuffer]
    split <;> rfl
  have listed : (s.freeUp b).freeList.count c = s.freeList.count c + if b = c then 1 else 0 := by
    change (s.freeList ++ [b]).count c = _
    rw [List.count_append, List.count_singleton]
    simp
  unfold State.stock
  rw [condition, listed]
  by_cases same : c = b
  · rw [if_pos same, if_pos same, if_pos same.symm]
    rfl
  · rw [if_neg same, if_neg same, if_neg fun e => same e.symm]
    rfl

theorem State.stock_release : (s.release b).stock c = if c = b then (s.stock c).released else s.stock c := by
  by_cases same : c = b
  · subst same
    rw [if_pos rfl, State.release, Stock.released, show (s.stock c).condition = (s.pool.get c).condition from rfl]
    cases (s.pool.get c).condition with
    | held n =>
      dsimp only
      split
      · rw [State.stock_freeUp, if_pos rfl]
      · rw [State.setCondition, State.stock_setBuffer, if_pos rfl]
    | free => rfl
    | reception p => rfl
  · rw [if_neg same]
    unfold State.release
    split
    · split
      · rw [State.stock_freeUp, if_neg same]
      · rw [State.setCondition, State.stock_setBuffer, if_neg same]
    all_goals rfl

/-- The queue of port `p` written over. -/
theorem State.stock_setQueue (q : List QueueEntry) :
    (s.setQueue p q).stock c =
      { s.stock c with refs := fun x => if x = p then refsIn c q else (s.stock c).refs x } := by
  have refs : (fun x => refsIn c ((s.setQueue p q).queue x)) = fun x =>
      if x = p then refsIn c q else refsIn c (s.queue x) := by
    funext x
    rw [State.queue_setQueue]
    split <;> rfl
  have filling (x : Port) : ((s.setQueue p q).port x).state = (s.port x).state := by
    rw [State.setQueue, State.port_updPort]
    split
    · rename_i here
      rw [here]
    · rfl
  unfold State.stock
  simp only [filling, refs]
  rfl

theorem State.stock_enqueue (n : NewEntry) :
    (s.enqueue p n).stock c = if c = n.buffer then (s.stock c).joined p else s.stock c := by
  have stamped : (s.enqueue p n).stock c =
      (s.setQueue p (insertEntry ⟨n.buffer, n.rank, s.nextStamp, 0, false, n.origin, n.link, none⟩ (s.queue p))).stock c :=
    rfl
  have refs (x : Port) : (if x = p then
      refsIn c (insertEntry ⟨n.buffer, n.rank, s.nextStamp, 0, false, n.origin, n.link, none⟩ (s.queue p))
      else (s.stock c).refs x) = (s.stock c).refs x + if x = p ∧ c = n.buffer then 1 else 0 := by
    by_cases here : x = p
    · rw [if_pos here, refsIn_insertEntry, here]
      simp [State.stock, eq_comm]
    · rw [if_neg here, if_neg fun e => here e.1]
      rfl
  rw [stamped, State.stock_setQueue]
  simp only [refs]
  by_cases same : c = n.buffer
  · simp only [same, and_true, if_true]
    rfl
  · simp only [same, and_false, if_false, Nat.add_zero]

/-- An entry that leaves by a stamp of its own takes its reference with it. -/
theorem State.stock_dequeue {e : QueueEntry} (stamped : Stamped s.nextStamp (s.queue p)) (mem : e ∈ s.queue p) :
    (s.dequeue p e).stock c = if c = e.buffer then (s.stock c).left p else s.stock c := by
  have refs (x : Port) : (if x = p then refsIn c ((s.queue p).filter fun y => y.stamp != e.stamp)
      else (s.stock c).refs x) = (s.stock c).refs x - if x = p ∧ c = e.buffer then 1 else 0 := by
    by_cases here : x = p
    · have left := refsIn_filter_stamp c stamped mem
      have before : (s.stock c).refs p = refsIn c (s.queue p) := rfl
      rw [if_pos here, here, before, ← left]
      simp [eq_comm]
    · rw [if_neg here, if_neg fun e => here e.1]
      rfl
  rw [State.dequeue, State.stock_setQueue]
  simp only [refs]
  by_cases same : c = e.buffer
  · simp only [same, and_true, if_true]
    unfold Stock.left
    congr 1
    funext x
    split <;> rfl
  · simp only [same, and_false, if_false, Nat.sub_zero]

/-- A port that keeps its queue, and from now on fills buffer `b`, or none. -/
theorem State.stock_updPort {f : PortUnit → PortUnit} (queue : (f (s.port p)).queue = (s.port p).queue) :
    (s.updPort p f).stock c = (s.stock c).filledBy p ((f (s.port p)).state.fills = some c) := by
  have filling : (fun q => ((s.updPort p f).port q).state.fills = some c) = fun q =>
      if q = p then (f (s.port p)).state.fills = some c else (s.port q).state.fills = some c := by
    funext q
    rw [State.port_updPort]
    split <;> rfl
  unfold State.stock
  simp only [filling, (s.updPort_sameTracking p queue).queue]
  rfl

end Stocks

theorem Stock.filledBy_self {v : Stock} {p : Port} {fills : Prop} (same : v.filling p ↔ fills) :
    v.filledBy p fills = v := by
  have filling : (fun q => if q = p then fills else v.filling q) = v.filling := by
    funext q
    split
    · rename_i here
      rw [here, propext same]
    · rfl
  rw [Stock.filledBy, filling]

/-! ### Entries that join and leave -/

namespace State.HeldWith

variable {watched : Prop} {places : List Port} {s : State} {p : Port}

/-- An entry leaves its queue, and its place is kept for another (R53, R55). -/
theorem displaced {hand : Option BufferIx} (h : s.Held watched places hand) {e : QueueEntry} (mem : e ∈ s.queue p) :
    ((s.dequeue p e).release e.buffer).Held watched (p :: places) hand := by
  have queue (q : Port) : ((s.dequeue p e).release e.buffer).queue q =
      if q = p then (s.queue p).filter fun y => y.stamp != e.stamp else s.queue q := by
    rw [(State.release_sameTracking _ _).queue, State.queue_dequeue]
  have stamps : ((s.dequeue p e).release e.buffer).nextStamp = s.nextStamp := (State.release_sameTracking _ _).nextStamp
  refine h.of_queue (p := p) (fun q other => (queue q).trans (if_neg other)) (Nat.le_of_eq stamps.symm) ?_ (fun q other => ?_) ?_
    fun watching c => ?_
  · rw [stamps, queue, if_pos rfl]
    exact (h.ordered p).filter _
  · exact List.count_cons_of_ne (Ne.symm other)
  · have shorter := filter_stamp_length (s.queue p) e mem
    have fits := h.fits p
    rw [queue, if_pos rfl, List.count_cons_self]
    omega
  · rw [State.stock_release, State.stock_dequeue s p c (h.ordered p).toStamped mem]
    have stands := h.stands watching c
    by_cases same : c = e.buffer
    · rw [if_pos same, if_pos same]
      have refs : 1 ≤ (s.stock c).refs p := same ▸ one_le_refsIn mem
      obtain ⟨kept, stays⟩ | ⟨ps, held, inHand⟩ := stands.cases
      · exact stays _ (kept.released_left refs)
      · cases hand with
        | none => exact absurd held (Option.some_ne_none _).symm
        | some b =>
          obtain ⟨-, rfl⟩ := Prod.mk.inj (Option.some.inj held)
          exact absurd (inHand.refs p) (Nat.one_le_iff_ne_zero.mp refs)
    · rw [if_neg same, if_neg same]
      exact stands

/-- An entry leaves its queue. -/
theorem leave {hand : Option BufferIx} (h : s.Held watched places hand) {e : QueueEntry} (mem : e ∈ s.queue p) :
    ((s.dequeue p e).release e.buffer).Held watched places hand := (h.displaced mem).repaid

theorem queue_enqueue (s : State) (p : Port) (n : NewEntry) (q : Port) :
    (s.enqueue p n).queue q =
      if q = p then insertEntry ⟨n.buffer, n.rank, s.nextStamp, 0, false, n.origin, n.link, none⟩ (s.queue p)
      else s.queue q := s.queue_setQueue p q _

/-- An entry takes the place that was kept for it, whatever becomes of the buffers. -/
theorem enqueued {hand hand' : Option (BufferIx × List Port)} (h : s.HeldWith watched (p :: places) hand) (n : NewEntry)
    {t : State} (queue : ∀ q, t.queue q = (s.enqueue p n).queue q) (stamps : t.nextStamp = s.nextStamp + 1)
    (stands : watched → ∀ b, (t.stock b).Stands hand' b) : t.HeldWith watched places hand' := by
  have joined (q : Port) := (queue q).trans (queue_enqueue s p n q)
  refine h.of_queue (p := p) (fun q other => (joined q).trans (if_neg other)) (by omega) ?_ (fun q other => ?_) ?_ stands
  · rw [stamps, joined, if_pos rfl]
    exact (h.ordered p).insert rfl rfl rfl
  · exact (List.count_cons_of_ne (Ne.symm other)).symm
  · have fits := h.fits p
    rw [List.count_cons_self] at fits
    rw [joined, if_pos rfl, insertEntry_length]
    omega

/-- A copy of the frame in hand joins a queue (R50, R54). -/
theorem enqueueHand {b : BufferIx} {ps : List Port} (h : s.HeldWith watched (p :: places) (some (b, ps))) {n : NewEntry}
    (buffer : n.buffer = b) : (s.enqueue p n).HeldWith watched places (some (b, p :: ps)) := by
  refine h.enqueued n (fun _ => rfl) rfl fun watching c => ?_
  have stands := h.stands watching c
  rw [State.stock_enqueue, buffer]
  split
  · rename_i same
    subst same
    exact Stock.stands_self.mpr (Stock.stands_self.mp stands).joined
  · rename_i other
    exact (Stock.stands_other other).mpr ((Stock.stands_other other).mp stands)

/-- A generated frame joins the queue that keeps a place for it (R47). -/
theorem joinGenerated {hand : Option (BufferIx × List Port)} (h : s.HeldWith watched (p :: places) hand) (cs : List Byte) :
    (s.joinGenerated p cs).2.HeldWith watched places hand := by
  unfold State.joinGenerated
  split
  · exact h.repaid
  · rename_i b rest free
    refine h.enqueued ⟨b, .express, .generated, none⟩ (fun _ => rfl) rfl fun watching c => ?_
    have listed : s.freeList.count c = rest.count c + if c = b then 1 else 0 := by
      rw [free, count_cons_eq]
    have taken : State.stock { s.enqueue p ⟨b, .express, .generated, none⟩ with freeList := rest } c =
        { (s.enqueue p ⟨b, .express, .generated, none⟩).stock c with listed := rest.count c } := rfl
    have stands := h.stands watching c
    rw [State.stock_setBuffer, taken, State.stock_enqueue]
    dsimp only
    by_cases same : c = b
    · rw [if_pos same] at listed
      have nonzero : (s.stock c).listed ≠ 0 := by
        change s.freeList.count c ≠ 0
        omega
      have one : rest.count c = (s.stock c).listed - 1 := by
        change _ = s.freeList.count c - 1
        omega
      rw [if_pos same, if_pos same, one]
      obtain ⟨kept, stays⟩ | ⟨ps, held, inHand⟩ := stands.cases
      · exact stays _ (kept.generated (p := p) nonzero)
      · exact absurd inHand.listed nonzero
    · rw [if_neg same, Nat.add_zero] at listed
      rw [if_neg same, if_neg same, ← listed]
      exact stands

/-! ### Buffers taken and given back -/

/-- The end of a classification (R46, R82). -/
theorem settled {b : BufferIx} {ps : List Port} (h : s.HeldWith watched places (some (b, ps))) (once : ps.Nodup)
    (few : ps.length ≤ 3) : (s.settleBuffer b ps.length).Held watched places none := by
  have same := s.settleBuffer_sameTracking b ps.length
  refine ⟨fun q => ?_, fun q => ?_, fun watching c => ?_⟩
  · rw [same.queue, same.nextStamp]
    exact h.ordered q
  · rw [same.queue]
    exact h.fits q
  · have stands := h.stands watching c
    have stock : (s.settleBuffer b ps.length).stock c =
        if c = b then if ps.length = 0 then (s.stock c).freed else { s.stock c with condition := .held ps.length }
        else s.stock c := by
      unfold State.settleBuffer
      split
      · exact s.stock_freeUp b c
      · exact s.stock_setBuffer b c _
    rw [stock]
    split
    · rename_i here
      subst here
      exact (Stock.stands_self.mp stands).settled once few
    · rename_i other
      exact (Stock.stands_other other).mp stands

/-- A frame none of whose targets has taken it is dropped (R82). -/
theorem dropped {b : BufferIx} (h : s.Held watched places (some b)) : (s.settleBuffer b 0).Held watched places none :=
  h.settled (ps := []) List.nodup_nil (Nat.zero_le 3)

/-- A port changes its state and gives back the buffer it filled (R12, R19). -/
theorem discard {hand : Option (BufferIx × List Port)} {b : BufferIx} (h : s.HeldWith watched places hand)
    (fills : (s.port p).state.fills = some b) {f : PortUnit → PortUnit} (queue : (f (s.port p)).queue = (s.port p).queue)
    (idle : (f (s.port p)).state.fills = none) : ((s.freeUp b).updPort p f).HeldWith watched places hand := by
  have same : SameTracking s ((s.freeUp b).updPort p f) :=
    (s.freeUp_sameTracking b).trans (State.updPort_sameTracking (s.freeUp b) p queue)
  refine ⟨fun q => ?_, fun q => ?_, fun watching c => ?_⟩
  · rw [same.queue, same.nextStamp]
    exact h.ordered q
  · rw [same.queue]
    exact h.fits q
  · have stands := h.stands watching c
    rw [State.stock_updPort (s.freeUp b) p c queue, State.stock_freeUp, State.port_freeUp, idle]
    have none : ((none : Option BufferIx) = some c) = False := eq_false (Option.some_ne_none c).symm
    rw [none]
    by_cases here : c = b
    · rw [if_pos here]
      have filling : (s.stock c).filling p := here ▸ fills
      obtain ⟨kept, stays⟩ | ⟨ps, -, inHand⟩ := stands.cases
      · exact stays _ (kept.freed_filledBy filling)
      · exact absurd filling (inHand.idle p)
    · rw [if_neg here, Stock.filledBy_self (iff_false_intro fun filling => here ?_)]
      · exact stands
      · exact (Option.some.inj (fills.symm.trans filling)).symm

/-- A port that fills no buffer takes one off the free list for a frame (R8). -/
theorem receive {hand : Option (BufferIx × List Port)} {b : BufferIx} {rest : List BufferIx}
    (h : s.HeldWith watched places hand) (free : s.freeList = b :: rest) (idle : (s.port p).state.fills = none)
    (cs : List Byte) {f : PortUnit → PortUnit} (queue : (f (s.port p)).queue = (s.port p).queue)
    (fills : (f (s.port p)).state.fills = some b) :
    ((({ s with freeList := rest }).setBuffer b ⟨.reception p, cs⟩).updPort p f).HeldWith watched places hand := by
  have same : SameTracking s ((({ s with freeList := rest }).setBuffer b ⟨.reception p, cs⟩).updPort p f) :=
    SameTracking.trans (t := ({ s with freeList := rest }).setBuffer b ⟨.reception p, cs⟩) (.of_ports rfl rfl rfl)
      (State.updPort_sameTracking (({ s with freeList := rest }).setBuffer b ⟨.reception p, cs⟩) p queue)
  refine ⟨fun q => ?_, fun q => ?_, fun watching c => ?_⟩
  · rw [same.queue, same.nextStamp]
    exact h.ordered q
  · rw [same.queue]
    exact h.fits q
  · have stands := h.stands watching c
    have listed : s.freeList.count c = rest.count c + if c = b then 1 else 0 := by
      rw [free, count_cons_eq]
    have taken : State.stock { s with freeList := rest } c = { s.stock c with listed := rest.count c } := rfl
    have filled : ((({ s with freeList := rest }).setBuffer b ⟨.reception p, cs⟩).updPort p f).stock c =
        ((({ s with freeList := rest }).setBuffer b ⟨.reception p, cs⟩).stock c).filledBy p
          ((f (s.port p)).state.fills = some c) :=
      State.stock_updPort (({ s with freeList := rest }).setBuffer b ⟨.reception p, cs⟩) p c queue
    rw [filled, State.stock_setBuffer, taken, fills]
    by_cases here : c = b
    · rw [if_pos here] at listed
      have nonzero : (s.stock c).listed ≠ 0 := by
        change s.freeList.count c ≠ 0
        omega
      have one : rest.count c = (s.stock c).listed - 1 := by
        change _ = s.freeList.count c - 1
        omega
      have filling : (some b = some c) = True := eq_true (congrArg some here.symm)
      rw [if_pos here, one, filling]
      obtain ⟨kept, stays⟩ | ⟨ps, -, inHand⟩ := stands.cases
      · exact stays _ (kept.received (p := p) nonzero)
      · exact absurd inHand.listed nonzero
    · rw [if_neg here, Nat.add_zero] at listed
      rw [if_neg here, ← listed]
      have filling : (some b = some c) = False := eq_false fun e => here (Option.some.inj e).symm
      rw [filling, Stock.filledBy_self]
      · exact stands
      · exact iff_false_intro fun filling => absurd (idle.symm.trans filling) (Option.some_ne_none c).symm

/-- A port has received a frame and listens: the frame's buffer is in hand (R18). -/
theorem inHand {b : BufferIx} (h : s.Held watched places none) (fills : (s.port p).state.fills = some b)
    {f : PortUnit → PortUnit} (queue : (f (s.port p)).queue = (s.port p).queue)
    (idle : (f (s.port p)).state.fills = none) : (s.updPort p f).Held watched places (some b) := by
  have same : SameTracking s (s.updPort p f) := s.updPort_sameTracking p queue
  refine ⟨fun q => ?_, fun q => ?_, fun watching c => ?_⟩
  · rw [same.queue, same.nextStamp]
    exact h.ordered q
  · rw [same.queue]
    exact h.fits q
  · have kept : (s.stock c).Kept := h.stands watching c
    have none : ((none : Option BufferIx) = some c) = False := eq_false (Option.some_ne_none c).symm
    rw [State.stock_updPort s p c queue, idle, none]
    by_cases here : c = b
    · subst here
      exact Stock.stands_self.mpr (kept.inHand fills)
    · refine (Stock.stands_other here).mpr ?_
      rw [Stock.filledBy_self (iff_false_intro fun filling => here ?_)]
      · exact kept
      · exact (Option.some.inj (fills.symm.trans filling)).symm

end State.HeldWith

end Sys2Proof.Machine
end

