-- ==== Sys2Proof/Proofs/HoldingTraffic.lean ====
section
/-! SUPPORT. Reports, notices, removals, purges and withdrawals keep what the part holds (R47, R50 to R57, R113): the place of a
displaced entry is owed through its report (log 9). -/

namespace Sys2Proof.Machine

/-! ### Admission and generated frames (R47, R52, R53) -/

/-- A report keeps what the part holds, whatever is owed. -/
def KeepsHoldings (watched : Prop) (hand : Option BufferIx) (report : Owed → TxIx → State → State) : Prop :=
  ∀ owed i s, s.Held watched owed.places hand → (report owed i s).Held watched owed.places hand

section Admission

variable {watched : Prop} {hand : Option BufferIx} {s : State} {p : Port} {report : Owed → TxIx → State → State}

theorem State.HeldWith.displace {places : List Port} (h : s.Held watched places hand) {e : QueueEntry}
    (mem : e ∈ s.queue p) : (s.displace p e).Held watched (p :: places) hand :=
  (h.displaced mem).same (State.countPort_sameHolding _ p .queueFull)

/-- A place that is there is kept for the entry that asked. -/
theorem State.HeldWith.keepPlace {places : List Port} {hand : Option (BufferIx × List Port)}
    (h : s.HeldWith watched places hand) (room : (s.queue p).length + places.count p < Config.queueSize) :
    s.HeldWith watched (p :: places) hand := by
  refine ⟨h.ordered, fun q => ?_, h.stands⟩
  by_cases here : q = p
  · subst here
    rw [List.count_cons_self]
    exact room
  · rw [List.count_cons_of_ne (Ne.symm here)]
    exact h.fits q

/-- A request that is admitted has its place kept (R52, R53, log 9). -/
theorem State.makePlace_held (keeps : KeepsHoldings watched hand report) {owed : Owed} (n : Nat) (r : Rank) (o : Origin)
    (h : s.Held watched owed.places hand) :
    (s.makePlace report owed n p r o).2.Held watched owed.places hand ∧
      ((s.makePlace report owed n p r o).1 = .admitted →
        (s.makePlace report owed n p r o).2.Held watched (p :: owed.places) hand) := by
  have admitted {t : State} (place : t.Held watched (p :: owed.places) hand) :
      t.Held watched owed.places hand ∧ (Verdict.admitted = .admitted → t.Held watched (p :: owed.places) hand) :=
    ⟨place.repaid, fun _ => place⟩
  unfold State.makePlace
  split
  · rename_i judged
    exact admitted (h.keepPlace (State.judgeAdmission_room judged).1)
  · rename_i e judged
    have place := h.displace (State.judgeAdmission_displaces judged).1
    split
    · exact admitted (keeps ⟨p :: owed.places, owed.buffers + n⟩ _ _ place)
    · exact admitted place
  all_goals exact ⟨h.same (s.countPort_sameHolding p _), nofun⟩

theorem State.placeGenerated_held (keeps : KeepsHoldings watched hand report) {owed : Owed} (cs : List Byte)
    (h : s.Held watched owed.places hand) : (s.placeGenerated report owed p cs).2.Held watched owed.places hand := by
  unfold State.placeGenerated
  split
  · exact h
  · have made := State.makePlace_held (p := p) keeps 1 .express .generated h
    split <;> rename_i e <;> rw [e] at made
    · exact (made.2 rfl).joinGenerated cs
    all_goals exact made.1

theorem State.dropCopy_sameHolding (s : State) (i : TxIx) : SameHolding s (s.dropCopy i).2 := by
  unfold State.dropCopy
  split
  · split <;> exact s.setTx_sameHolding i _
  · exact s.setTx_sameHolding i _
  all_goals exact .refl s

theorem State.countNotice_sameHolding (r : Option BufferIx × State) : SameHolding r.2 (State.countNotice r) := by
  obtain ⟨placed, t⟩ := r
  cases placed with
  | none => exact t.count_sameHolding .noticesLost
  | some b => exact t.count_sameHolding .noticesSent

/-- A chain of reports, each owing the places that the ones before it displaced (log 30). -/
theorem copyRemoved_held (fuel : Nat) (loss : CopyLoss) : KeepsHoldings watched hand (copyRemoved fuel loss) := by
  induction fuel generalizing loss with
  | zero => exact fun _ _ _ h => h
  | succ fuel ih =>
    intro owed i s h
    have dropped := h.same (s.dropCopy_sameHolding i)
    unfold copyRemoved
    split <;> rename_i e <;> rw [e] at dropped
    · exact dropped
    · exact (State.placeGenerated_held (ih .queueFull) _ dropped).same (State.countNotice_sameHolding _)

end Admission

/-! ### Notices, alerts and removals -/

section Notices

variable {watched : Prop} {hand : Option BufferIx} {s : State} {p : Port}

theorem State.generate_held (cs : List Byte) (h : s.Held watched [] hand) : (s.generate p cs).2.Held watched [] hand :=
  State.placeGenerated_held (copyRemoved_held 33 .queueFull) (owed := .nothing) cs h

theorem State.sendNotice_held (cs : List Byte) (h : s.Held watched [] hand) : (s.sendNotice p cs).Held watched [] hand :=
  (State.generate_held cs h).same (State.countNotice_sameHolding _)

theorem State.notify_held (key : TxKey) (cause : NoticeCause) (h : s.Held watched [] hand) :
    (s.notify p key cause).Held watched [] hand := State.sendNotice_held _ h

theorem State.alertNotice_held (c : AlertCause) (h : s.Held watched [] hand) :
    (s.alertNotice c).Held watched [] hand := by
  unfold State.alertNotice
  dsimp only
  split
  · exact h
  · split
    · exact State.sendNotice_held _ h
    · exact h.same (s.count_sameHolding _)

theorem State.raise_held (c : AlertCause) (h : s.Held watched [] hand) : (s.raise c).Held watched [] hand := by
  have entered : State.Held watched [] hand { s with pendingAlerts := s.pendingAlerts ||| c.mask } :=
    h.same (.of_eq rfl rfl rfl rfl)
  unfold State.raise
  dsimp only
  split
  · exact h
  · split
    · exact entered
    · refine State.alertNotice_held c ?_
      split
      · exact entered.same (.of_eq rfl rfl rfl rfl)
      · exact entered

theorem State.reportCompleted_sameHolding (s : State) (i : TxIx) (p : Port) : SameHolding s (s.reportCompleted i p) := by
  unfold State.reportCompleted
  split
  · exact s.setTx_sameHolding i _
  all_goals exact .refl s

theorem State.reportRemoval_held (i : TxIx) (c : RemovalCause) (h : s.Held watched [] hand) :
    (s.reportRemoval p i c).Held watched [] hand := by
  have reported (loss : CopyLoss) : (s.reportRemoved i loss).Held watched [] hand := copyRemoved_held 33 loss .nothing i s h
  cases c with
  | completion => exact h.same (s.reportCompleted_sameHolding i p)
  | withdrawn => exact h
  | undeliverable => exact reported _
  | window => exact reported _
  | unreachable => exact reported _

/-- An entry removed, whatever the cause (R55). -/
theorem State.remove_held {e : QueueEntry} (mem : e ∈ s.queue p) (c : RemovalCause) (h : s.Held watched [] hand) :
    (s.remove p e c).Held watched [] hand := by
  have counted := (h.leave mem).same (State.countPortOpt_sameHolding _ p c.counter)
  unfold State.remove
  refine State.HeldWith.same ?_ (State.toldDeparture_sameHolding _ e)
  cases e.link with
  | none => exact counted
  | some i => exact State.reportRemoval_held i c counted

end Notices

/-! ### Purges and withdrawals -/

section Purges

variable {watched : Prop} {hand : Option BufferIx} {s : State}

theorem removeAll_held {p : Port} {doomed : QueueEntry → Bool} {c : RemovalCause} (n : Nat) (h : s.Held watched [] hand) :
    (removeAll p doomed c n s).Held watched [] hand := by
  induction n generalizing s with
  | zero => exact h
  | succ n ih =>
    unfold removeAll
    split
    · rename_i found
      exact ih (State.remove_held (List.mem_of_find?_eq_some found) c h)
    · exact h

theorem State.purgeUnreachable_held (p : Port) (h : s.Held watched [] hand) :
    (s.purgeUnreachable p).Held watched [] hand := removeAll_held _ h

/-- A window purge marks or removes what the disposition refuses (R56). -/
theorem State.purgeWindow_held (p : Port) (h : s.Held watched [] hand) : (s.purgeWindow p).Held watched [] hand := by
  unfold State.purgeWindow
  refine removeAll_held _ (h.relabel p (fun e => ?_) (fun e => ?_) fun e => ?_)
  all_goals split <;> rfl

/-- A withdrawal cuts a link or removes an entry (R57). -/
theorem State.withdrawFrom_held (i : TxIx) (p : Port) (h : s.Held watched [] hand) :
    (s.withdrawFrom i p).Held watched [] hand := by
  unfold State.withdrawFrom
  refine removeAll_held _ (h.relabel p (fun e => ?_) (fun e => ?_) fun e => ?_)
  all_goals split <;> rfl

theorem foldl_held {α : Type} {f : State → α → State}
    (keeps : ∀ s a, s.Held watched [] hand → (f s a).Held watched [] hand) (l : List α) (s : State)
    (h : s.Held watched [] hand) : (l.foldl f s).Held watched [] hand := by
  induction l generalizing s with
  | nil => exact h
  | cons a l ih => exact ih _ (keeps s a h)

theorem State.withdraw_held (i : TxIx) (h : s.Held watched [] hand) : (s.withdraw i).Held watched [] hand :=
  foldl_held (fun _ p => State.withdrawFrom_held i p) allPorts s h

theorem State.evaluate_held (h : s.Held watched [] hand) : s.evaluate.Held watched [] hand := by
  refine foldl_held (fun t p held => ?_) _ _ (h.same (.of_eq rfl rfl rfl rfl))
  split
  · exact State.purgeWindow_held p held
  · exact held

end Purges

/-! ### Requests for admission (R52, R54) -/

section Requests

variable {watched : Prop} {s : State} {b : BufferIx}

/-- The frame in hand, asked of one queue: where it is admitted, that queue has taken its buffer. -/
theorem State.requestAdmission_held {p : Port} {n : NewEntry} (buffer : n.buffer = b) (h : s.Held watched [] (some b)) :
    (s.requestAdmission p n).2.HeldWith watched []
      (some (b, if (s.requestAdmission p n).1 = .admitted then [p] else [])) := by
  have made := State.makePlace_held (p := p) (owed := .nothing) (copyRemoved_held 33 .queueFull) 0 n.rank n.origin h
  unfold State.requestAdmission
  split <;> rename_i e <;> rw [e] at made
  · exact (made.2 rfl).enqueueHand buffer
  all_goals exact made.1

/-- One queue more judges its copy of the frame in hand. -/
theorem State.offerTo_held {p : Port} {ps : List Port} {n : NewEntry} (buffer : n.buffer = b)
    (h : s.HeldWith watched [] (some (b, ps))) :
    (s.offerTo n p).HeldWith watched [] (some (b, if s.verdictFor p n.rank = .admitted then p :: ps else ps)) := by
  unfold State.offerTo
  cases verdict : s.verdictFor p n.rank with
  | admitted =>
    have room : (s.queue p).length < Config.queueSize := by
      by_contra full
      unfold State.verdictFor at verdict
      rw [if_neg full] at verdict
      split at verdict
      · exact Verdict.noConfusion verdict
      · split at verdict <;> exact Verdict.noConfusion verdict
    exact (h.keepPlace room).enqueueHand buffer
  | unreachable | window | queueFull => exact h.same (s.countPort_sameHolding p _)

/-- A frame in hand of a class rank, asked of several queues: those that accept it have taken its buffer. -/
theorem State.offerEach_held {n : NewEntry} (buffer : n.buffer = b) {ts : List Port} (once : ts.Nodup) {ps : List Port}
    (h : s.HeldWith watched [] (some (b, ps))) :
    (s.offerEach ts n).HeldWith watched [] (some (b, (s.takers ts n.rank).reverse ++ ps)) := by
  induction ts generalizing s ps with
  | nil => exact h
  | cons t ts ih =>
    obtain ⟨fresh, once⟩ := List.nodup_cons.mp once
    have later : (s.offerTo n t).takers ts n.rank = s.takers ts n.rank :=
      List.filter_congr fun q mem => by
        rw [s.verdictFor_offerTo_ne n (ne_of_mem_of_not_mem mem fresh)]
    have rest := ih once (State.offerTo_held (p := t) buffer h)
    rw [later] at rest
    refine (congrArg (fun l => ((s.offerTo n t).offerEach ts n).HeldWith watched [] (some (b, l))) ?_).mp rest
    unfold State.takers
    by_cases admitted : s.verdictFor t n.rank = .admitted
    · rw [if_pos admitted, List.filter_cons_of_pos (by simp [admitted])]
      simp
    · rw [if_neg admitted, List.filter_cons_of_neg (by simp [admitted])]

end Requests

end Sys2Proof.Machine
end

