-- ==== Sys2Proof/Proofs/HoldingEngine.lean ====
section
/-! SUPPORT. The Transaction Table and the ports keep what the part holds: a frame in hand is taken by the queues that accept it,
or dropped (R46, R54, R107 to R125), and a port that leaves service gives back the buffer it filled (R19, R31, R33). -/

namespace Sys2Proof.Machine

/-! ### Targets (R90 to R92, R116) -/

/-- Targets of one frame: distinct, and three at most. -/
structure FewTargets (ts : List Port) : Prop where
  once : ts.Nodup
  few : ts.length ≤ 3

theorem fewTargets_singleton (q : Port) : FewTargets [q] := ⟨List.nodup_singleton q, by simp⟩

theorem fewTargets_segmentsExcept (p : Port) : FewTargets (segmentsExcept p) :=
  ⟨segmentsExcept_nodup p, by revert p; decide⟩

/-- A group holds no more targets than there are other segments (R91). -/
theorem fewTargets_group (m : SegmentMask) (p : Port) : FewTargets ((SegmentMask.segments m).filter (· != p)) := by
  refine ⟨(segments_nodup m).filter _, ?_⟩
  have within : (SegmentMask.segments m).filter (· != p) = (segmentsExcept p).filter fun q => m.getLsbD q.val :=
    List.filter_comm ..
  rw [within]
  exact (List.length_filter_le _ _).trans (fewTargets_segmentsExcept p).few

theorem State.resolve_few {s : State} {p : Port} {d : Byte} {c : DestClass} {ts : List Port} {known : Bool}
    (resolved : s.resolve p d c = .targets ts known) : FewTargets ts := by
  have station (resolved : s.resolveStation p d = .targets ts known) : FewTargets ts := by
    have atHome {home : Port} (resolved : (if home = p then .localFiltered else .targets [home] true) =
        Resolution.targets ts known) : FewTargets ts := by
      split at resolved
      · exact Resolution.noConfusion resolved
      · injection resolved with same
        exact same ▸ fewTargets_singleton home
    unfold State.resolveStation at resolved
    split at resolved
    · exact atHome resolved
    · exact atHome resolved
    · exact Resolution.noConfusion resolved
    · split at resolved
      · injection resolved with same
        exact same ▸ fewTargets_segmentsExcept p
      · exact Resolution.noConfusion resolved
  cases c with
  | own => exact station resolved
  | station => exact station resolved
  | broadcast =>
    injection resolved with same
    exact same ▸ fewTargets_segmentsExcept p
  | group g =>
    unfold State.resolve at resolved
    dsimp only at resolved
    split at resolved
    · exact Resolution.noConfusion resolved
    · rename_i found
      injection resolved with same
      rw [← same, ← found]
      exact fewTargets_group _ p

theorem fewTargets_retry {core : TxCore} {r : Tracked} (few : FewTargets r.targets) : FewTargets (retryTargets core r) := by
  unfold retryTargets
  split
  · split
    · exact few
    · exact fewTargets_singleton _
  · exact fewTargets_segmentsExcept _

/-! ### Frames in hand -/

section InHand

variable {watched : Prop} {s : State} {b : BufferIx}

theorem State.settleDropped_held (c : CouplerCounter) (h : s.Held watched [] (some b)) :
    ((s.count c).settleBuffer b 0).Held watched [] none :=
  (State.HeldWith.same h (s.count_sameHolding c)).dropped

/-- The queues that admitted the frame in hand have taken its buffer, as many as were counted (R54). -/
theorem admitEach_held {n : NewEntry} (buffer : n.buffer = b) (classRank : n.rank ≠ .express)
    (forwarded : n.origin = .forwarded) {ts : List Port} (targets : FewTargets ts) (h : s.Held watched [] (some b)) :
    ∃ ps : List Port, FewTargets ps ∧ ps.length = admittedCount (admitEach n ts s).1 ∧
      (admitEach n ts s).2.HeldWith watched [] (some (b, ps)) := by
  have taken := State.offerEach_held buffer targets.once h
  rw [List.append_nil] at taken
  rw [admitEach_of_classRank classRank forwarded targets.once s]
  dsimp only
  rw [admittedCount_verdicts]
  refine ⟨_, ⟨List.nodup_reverse.mpr (targets.once.filter _), ?_⟩, List.length_reverse, taken⟩
  rw [List.length_reverse]
  exact (List.length_filter_le _ _).trans targets.few

/-- The frame in hand that no queue took is in hand still. -/
theorem State.HeldWith.untaken {ps : List Port} (h : s.HeldWith watched [] (some (b, ps))) (none : ps.length = 0) :
    s.Held watched [] (some b) := by
  rw [List.length_eq_zero_iff] at none
  rwa [none] at h

variable {r : Tracked}

theorem State.refuse_held (cause : NoticeCause) (h : s.Held watched [] (some r.buffer)) :
    (s.refuse r cause).Held watched [] none := (State.notify_held _ _ h).dropped

theorem State.refuseAtLimit_held (h : s.Held watched [] (some r.buffer)) : (s.refuseAtLimit r).Held watched [] none :=
  State.refuse_held _ (h.same (s.count_sameHolding _))

theorem State.openRequest_held (classRank : r.rank ≠ .express) (targets : FewTargets r.targets)
    (h : s.Held watched [] (some r.buffer)) : (s.openRequest r).Held watched [] none := by
  unfold State.openRequest
  split
  · exact State.refuseAtLimit_held h
  · split
    · exact State.refuse_held _ (State.raise_held _ (h.same (s.count_sameHolding _)))
    · rename_i i _
      obtain ⟨ps, few, count, taken⟩ := admitEach_held (n := ⟨r.buffer, r.rank, .forwarded, some i⟩) rfl classRank rfl
        targets (h.same (s.setTx_sameHolding i .free))
      dsimp only
      split
      · rename_i none
        exact State.refuse_held _ (taken.untaken (count.trans none))
      · rw [← count]
        exact ((taken.same (State.setTx_sameHolding _ i _)).same (State.count_sameHolding _ _)).settled few.once few.few

theorem State.sendAfresh_held (i : TxIx) (c : TxCore) (classRank : r.rank ≠ .express) (targets : FewTargets r.targets)
    (h : s.Held watched [] (some r.buffer)) : (s.sendAfresh i c r).Held watched [] none := by
  unfold State.sendAfresh
  dsimp only
  obtain ⟨ps, few, count, taken⟩ := admitEach_held (n := ⟨r.buffer, r.rank, .forwarded, some i⟩) rfl classRank rfl
    (fewTargets_retry (core := { c with requesterSegment := r.segment, retries := min 255 (c.retries + 1) }) targets) h
  split
  · rename_i none
    exact State.refuse_held _ ((taken.untaken (count.trans none)).same (State.setTx_sameHolding _ i _))
  · rw [← count]
    exact (taken.same (State.setTx_sameHolding _ i _)).settled few.once few.few

/-- A tracked request (R107). -/
theorem State.track_held (classRank : r.rank ≠ .express) (targets : FewTargets r.targets)
    (h : s.Held watched [] (some r.buffer)) : (s.track r).Held watched [] none := by
  unfold State.track
  split
  · exact State.openRequest_held classRank targets h
  · rename_i i _
    split
    · exact State.settleDropped_held _ h
    · exact State.sendAfresh_held i _ classRank targets (State.withdraw_held i h)
    · split
      · exact State.refuseAtLimit_held h
      · exact State.sendAfresh_held i _ classRank targets h
    · exact State.openRequest_held classRank targets h

theorem State.forwardAnswer_held (p q : Port) (h : s.Held watched [] (some b)) :
    (s.forwardAnswer p q b).Held watched [] none := by
  unfold State.forwardAnswer
  split
  · exact h.dropped
  · have asked := State.requestAdmission_held (p := q) (n := ⟨b, .express, .forwarded, none⟩) rfl h
    split <;> rename_i e <;> rw [e] at asked
    · exact asked.settled (List.nodup_singleton q) (by simp)
    all_goals exact asked.dropped

/-- A REPLY or RESULT (R120 to R122). -/
theorem State.answer_held (p : Port) (key : TxKey) (h : s.Held watched [] (some b)) :
    (s.answer p key b).Held watched [] none := by
  unfold State.answer
  split
  · exact State.settleDropped_held _ h
  · rename_i i _
    split
    · exact State.forwardAnswer_held p _
        (((State.withdraw_held i h).same (State.setTx_sameHolding _ i _)).same (State.count_sameHolding _ _))
    all_goals exact State.settleDropped_held _ h

end InHand

/-! ### Lapses, and transactions that close (R123 to R125) -/

section Closing

variable {watched : Prop} {hand : Option BufferIx} {s : State}

theorem State.setLapsed_sameHolding (s : State) (i : TxIx) (c : TxCore) : SameHolding s (s.setLapsed i c) :=
  .of_eq rfl rfl rfl rfl

theorem State.lapse_held (i : TxIx) (h : s.Held watched [] hand) : (s.lapse i).Held watched [] hand := by
  unfold State.lapse
  split
  · rename_i c _ _ _
    have lapsed := ((State.withdraw_held i h).same (State.setLapsed_sameHolding _ i c)).same
      (State.count_sameHolding _ .txLapsed)
    have told := State.notify_held (p := c.requesterSegment) c.key .noAnswer lapsed
    unfold State.freeWithoutGrace
    split
    · exact told.same (State.setTx_sameHolding _ i _)
    · exact told
  all_goals exact h

theorem State.endGrace_held (i : TxIx) (h : s.Held watched [] hand) : (s.endGrace i).Held watched [] hand := by
  unfold State.endGrace
  split
  · exact h.same (s.setTx_sameHolding i _)
  all_goals exact h

theorem State.closeFor_held (p : Port) (i : TxIx) (h : s.Held watched [] hand) :
    (s.closeFor p i).Held watched [] hand := by
  have closed := (State.withdraw_held i h).same (State.setTx_sameHolding _ i .free)
  unfold State.closeFor
  split
  · split
    · exact closed
    · split
      · split
        · exact State.notify_held _ _ closed
        · exact h
      · exact h
  all_goals exact h

theorem State.portLeft_held (p : Port) (h : s.Held watched [] hand) : (s.portLeft p).Held watched [] hand :=
  foldl_held (fun _ i => State.closeFor_held p i) allTx s h

end Closing

/-! ### Ports (chapter 2) -/

section Ports

variable {watched : Prop} {hand : Option BufferIx} {s : State} {p : Port}

/-- A port in SENDING fills no buffer. -/
theorem PortState.fills_of_dirAsserted {st : PortState} (sending : st.dirAsserted = true) : st.fills = none := by
  cases st <;> first | rfl | exact Bool.noConfusion sending

/-- A port that starts marks an entry, and fills no buffer before or after (R22). -/
theorem State.started_held (p : Port) (h : s.Held watched [] hand) :
    (s.updPort p PortUnit.started).Held watched [] hand := by
  cases start : (s.port p).canStart with
  | false => exact h.same (s.updPort_sameHolding p (by rw [PortUnit.started_of_cannotStart start])
      (by rw [PortUnit.started_of_cannotStart start]))
  | true =>
    obtain ⟨listen, nonempty, -⟩ := (s.port p).canStart_iff.mp start
    obtain ⟨e, rest, queue⟩ := List.exists_cons_of_ne_nil nonempty
    have ordered : QueueOrder s.nextStamp (e :: rest) := queue ▸ h.ordered p
    have marks : (s.setQueue p ({ e with inTx := true } :: rest)).Held watched [] hand := by
      refine h.of_queue (p := p) (fun q other => (s.queue_setQueue p q _).trans (if_neg other)) (Nat.le_refl _) ?_
        (fun _ _ => rfl) ?_ fun watching b => ?_
      · rw [State.queue_setQueue, if_pos rfl]
        exact ordered.head rfl rfl
      · rw [State.queue_setQueue, if_pos rfl]
        have fits := h.fits p
        rwa [State.queue, queue] at fits
      · have same : (s.setQueue p ({ e with inTx := true } :: rest)).stock b = s.stock b := by
          have refs : (fun x => if x = p then refsIn b ({ e with inTx := true } :: rest) else (s.stock b).refs x) =
              (s.stock b).refs := by
            funext x
            split
            · rename_i here
              have before : (s.stock b).refs x = refsIn b (e :: rest) := by rw [here, ← queue]; rfl
              rw [before, refsIn_cons, refsIn_cons]
            · rfl
          rw [State.stock_setQueue, refs]
        rw [same]
        exact h.stands watching b
    have starts : s.updPort p PortUnit.started =
        (s.setQueue p ({ e with inTx := true } :: rest)).setPortState p (.sending 0 0) := by
      rw [State.setQueue, State.setPortState_eq, State.updPort_updPort]
      exact s.updPort_congr p (PortUnit.started_of_canStart start queue)
    rw [starts]
    refine marks.same (State.updPort_sameHolding _ p rfl ?_)
    rw [State.setQueue, State.port_updPort_self, listen]
    rfl

theorem State.settle_held (h : s.Held watched [] hand) : s.settle.Held watched [] hand := by
  cases due : s.restart.any fun r => r.due with
  | true => rwa [State.settle_of_due due]
  | false =>
    rw [State.settle_of_notDue due]
    exact foldl_held (fun _ p => State.started_held p) allPorts s h

theorem State.reachQuiet_held (p : Port) (n : Nat) (h : s.Held watched [] hand) :
    (s.reachQuiet p n).Held watched [] hand :=
  h.same (s.updPort_sameHolding p (by rw [PortUnit.reachQuiet_eq]) (by rw [PortUnit.reachQuiet_eq]))

/-- A port that fills no buffer changes its state, and fills none (R20). -/
theorem State.setPortState_held {st : PortState} (idle : (s.port p).state.fills = st.fills) (h : s.Held watched [] hand) :
    (s.setPortState p st).Held watched [] hand := h.same (s.updPort_sameHolding p rfl idle.symm)

theorem State.enterMonitored_held {st : PortState} (idle : (s.port p).state.fills = st.fills)
    (h : s.Held watched [] hand) : (s.enterMonitored p st).Held watched [] hand :=
  h.same (s.updPort_sameHolding p rfl idle.symm)

/-- A frame in progress is abandoned (R12). -/
theorem State.abandon_held {b : BufferIx} (c : PortCounter) (fills : (s.port p).state.fills = some b)
    (h : s.Held watched [] hand) : (s.abandon p b c).Held watched [] hand :=
  (h.discard fills (f := fun u => { u with state := .listen }) rfl rfl).same (State.countPort_sameHolding _ p c)

theorem PortUnit.fills_afterCompletion (u : PortUnit) (e : QueueEntry) : (u.afterCompletion e).fills = none := by
  unfold PortUnit.afterCompletion
  split <;> rfl

theorem State.complete_held {e : QueueEntry} (mem : e ∈ s.queue p) (sending : (s.port p).state.dirAsserted = true)
    (h : s.Held watched [] hand) : (s.complete p e).Held watched [] hand := by
  refine State.enterMonitored_held ?_ (State.remove_held mem .completion h)
  rw [((s.remove_traffic p e .completion).ports p).state, PortState.fills_of_dirAsserted sending,
    PortUnit.fills_afterCompletion]

/-- The fate of an entry after a collision (R25). -/
theorem State.settleCollided_held {e : QueueEntry} (mem : e ∈ s.queue p) (h : s.Held watched [] hand) :
    (s.settleCollided p e).Held watched [] hand := by
  obtain ⟨c, removed⟩ | stays := s.settleCollided_cases p e
  · rw [removed]
    exact State.remove_held mem c h
  · rw [stays]
    refine h.relabel p (fun x => ?_) (fun x => ?_) fun x => ?_
    all_goals split <;> rfl

/-- The attempt counted and the mark gone, the entry stands where it stood (R25). -/
theorem State.collide_held {e : QueueEntry} (mem : e ∈ s.queue p) (sending : (s.port p).state.dirAsserted = true)
    (h : s.Held watched [] hand) : (s.collide p e).Held watched [] hand := by
  have counted := h.same (s.countPort_sameHolding p .collisions)
  have updated : ((s.countPort p .collisions).updEntry p e.stamp QueueEntry.collided).Held watched [] hand := by
    refine counted.relabel p (fun x => ?_) (fun x => ?_) fun x => ?_
    all_goals split <;> rfl
  have stands : e.collided ∈ ((s.countPort p .collisions).updEntry p e.stamp QueueEntry.collided).queue p := by
    rw [State.updEntry, State.queue_setQueue, if_pos rfl]
    refine List.mem_map.mpr ⟨e, ?_, if_pos (beq_self_eq_true e.stamp)⟩
    rwa [(s.countPort_sameTracking p .collisions).queue]
  unfold State.collide
  refine State.settleCollided_held ?_ (State.enterMonitored_held ?_ updated)
  · rw [State.enterMonitored, (State.updPort_sameTracking _ p rfl).queue]
    exact stands
  · rw [State.updEntry_eq, State.port_updPort_self, State.countPort_eq, State.port_updPort_self]
    exact PortState.fills_of_dirAsserted sending

/-- A port stops what it was doing and leaves service, giving back the buffer it filled (R19, R31, R33). -/
theorem State.leaveService_held {st : PortState} (idle : st.fills = none) (fills : (s.port p).state.fills = none)
    (h : s.Held watched [] hand) : (s.leaveService p st).Held watched [] hand :=
  h.same (s.updPort_sameHolding p rfl (idle.trans fills.symm))

theorem State.discardReception_of_idle (fills : (s.port p).state.fills = none) : s.discardReception p = s := by
  unfold State.discardReception
  split
  · rename_i state
    rw [state] at fills
    exact absurd fills (Option.some_ne_none _)
  all_goals rfl

theorem State.discardReception_of_receiving {r : Reception} (state : (s.port p).state = .receiving r) :
    s.discardReception p = s.freeUp r.buffer := by rw [State.discardReception, state]

theorem PortState.fills_cases (st : PortState) : st.fills = none ∨ ∃ r, st = .receiving r := by
  cases st <;> first | exact .inl rfl | exact .inr ⟨_, rfl⟩

theorem State.contain_held (p : Port) (h : s.Held watched [] hand) : (s.contain p).Held watched [] hand := by
  have left : ((s.discardReception p).leaveService p (.contained (s.port p).params.containPeriod)).Held watched [] hand := by
    obtain idle | ⟨r, state⟩ := (s.port p).state.fills_cases
    · rw [State.discardReception_of_idle idle]
      exact State.leaveService_held rfl idle h
    · rw [State.discardReception_of_receiving state]
      exact h.discard (by rw [state]; rfl) rfl rfl
  have counted := (State.portLeft_held p (State.purgeUnreachable_held p left)).same
    (State.countPort_sameHolding _ p .containments)
  exact State.raise_held .containment counted

theorem State.abortTransmission_held (p : Port) (h : s.Held watched [] hand) :
    (s.abortTransmission p).Held watched [] hand := by
  unfold State.abortTransmission
  split
  · rename_i marked
    exact State.remove_held (inTransmission_some marked).1 _ h
  all_goals exact h

theorem State.state_abortTransmission (s : State) (p : Port) :
    ((s.abortTransmission p).port p).state = (s.port p).state := by
  unfold State.abortTransmission
  split
  · exact ((s.remove_traffic p _ _).ports p).state
  all_goals rfl

theorem State.disable_held (p : Port) (h : s.Held watched [] hand) : (s.disable p).Held watched [] hand := by
  have left : (((s.discardReception p).abortTransmission p).leaveService p .disabled).Held watched [] hand := by
    obtain idle | ⟨r, state⟩ := (s.port p).state.fills_cases
    · rw [State.discardReception_of_idle idle]
      refine State.leaveService_held rfl ?_ (State.abortTransmission_held p h)
      rw [State.state_abortTransmission, idle]
    · have noTransmission : (s.freeUp r.buffer).abortTransmission p = s.freeUp r.buffer := by
        unfold State.abortTransmission
        rw [State.port_freeUp, state]
      rw [State.discardReception_of_receiving state, noTransmission]
      exact h.discard (by rw [state]; rfl) rfl rfl
  have disabled := State.portLeft_held p (State.purgeUnreachable_held p left)
  unfold State.disable
  split
  · exact h
  all_goals exact disabled

/-- What the rows that are one event of the main domain do in it, but for a pin reset. -/
theorem Effect.held {e : Effect} (notReset : ∀ straps, e ≠ .pinReset straps) (h : s.Held watched [] hand) :
    (e.apply s).Held watched [] hand := by
  cases e with
  | truncate p =>
    change (s.truncate p).Held watched [] hand
    unfold State.truncate
    split
    · rename_i receiving
      split
      · refine State.abandon_held _ ?_ (State.reachQuiet_held p _ h)
        rw [State.state_reachQuiet, receiving]
        rfl
      · exact h
    all_goals exact h
  | idleReaches2Ct p => exact State.reachQuiet_held p _ h
  | reachStart p =>
    change (s.reachStart p).Held watched [] hand
    unfold State.reachStart
    split
    · exact State.reachQuiet_held p _ h
    all_goals exact h
  | missEcho p =>
    change (s.missEcho p).Held watched [] hand
    unfold State.missEcho
    split
    · rename_i sending marked
      exact State.collide_held (inTransmission_some marked).1 (by rw [sending]; rfl) h
    all_goals exact h
  | endBackoff p =>
    change (s.endBackoff p).Held watched [] hand
    unfold State.endBackoff
    split
    · rename_i backoff
      split
      · refine State.setPortState_held ?_ (State.reachQuiet_held p _ h)
        rw [State.state_reachQuiet, backoff]
        rfl
      · exact h
    all_goals exact h
  | endGuard p =>
    change (s.endGuard p).Held watched [] hand
    unfold State.endGuard
    split
    · rename_i guard
      exact State.setPortState_held (by rw [guard]; rfl) h
    all_goals exact h
  | contain p =>
    rw [Effect.apply]
    split
    · exact State.contain_held p h
    · exact h
  | endContainment p =>
    change (s.endContainment p).Held watched [] hand
    unfold State.endContainment
    split
    · rename_i contained
      exact h.same (s.updPort_sameHolding p rfl (by rw [contained]; rfl))
    all_goals exact h
  | lapse t => exact State.lapse_held t h
  | endGrace t => exact State.endGrace_held t h
  | endPulse => exact h.same (.of_eq rfl rfl rfl rfl)
  | pinReset straps => exact absurd rfl (notReset straps)
  | nothing => exact h

end Ports

/-! ### The calendar (chapter 7) -/

section Calendar

variable {watched : Prop} {hand : Option BufferIx} {s : State}

theorem State.applyTime_held (d : DateTime) (h : s.Held watched [] hand) : (s.applyTime d).Held watched [] hand :=
  State.evaluate_held (h.same (.of_eq rfl rfl rfl rfl))

theorem State.minuteTick_held (h : s.Held watched [] hand) : s.minuteTick.Held watched [] hand :=
  State.evaluate_held (h.same (.of_eq rfl rfl rfl rfl))

theorem State.setNow_held (d : DateTime) (h : s.Held watched [] hand) : (s.zeroPhase.setNow d).Held watched [] hand :=
  h.same (.of_eq rfl rfl rfl rfl)

theorem State.secondTick_held (h : s.Held watched [] hand) : s.secondTick.Held watched [] hand := by
  unfold State.secondTick
  split
  · exact h
  · split
    · unfold State.secondTickPowered
      split
      · exact State.applyTime_held _ h
      · dsimp only
        split
        · exact State.setNow_held _ h
        · exact State.minuteTick_held (State.setNow_held _ h)
    · exact h.same (.of_eq rfl rfl rfl rfl)

theorem State.timeSet_held (d : DateTime) (h : s.Held watched [] hand) : (s.timeSet d).Held watched [] hand := by
  unfold State.timeSet
  split
  · exact State.applyTime_held d h
  · exact h.same (.of_eq rfl rfl rfl rfl)

theorem State.timeRound_held (h : s.Held watched [] hand) : s.timeRound.Held watched [] hand := by
  unfold State.timeRound
  dsimp only
  split
  · exact State.minuteTick_held (State.setNow_held _ h)
  · exact State.setNow_held _ h

theorem State.timeHold_held (h : s.Held watched [] hand) : s.timeHold.Held watched [] hand := by
  have holds {u : State} (held : u.Held watched [] hand) :
      State.Held watched [] hand { u with calendar := { u.calendar with hold := true } } :=
    held.same (.of_eq rfl rfl rfl rfl)
  unfold State.timeHold
  dsimp only
  split
  · exact holds (State.applyTime_held _ h)
  · exact holds h

end Calendar

end Sys2Proof.Machine
end

