-- ==== Sys2Proof/Proofs/HoldingArrivals.lean ====
section
/-! SUPPORT. What a character, a frame and a command it carries leave of what the part holds: a port that receives fills a
buffer of the free list (R8), and the classification of a whole frame begins with its buffer in hand and ends with it settled
(R18, R46, R82). -/

namespace Sys2Proof.Machine

/-! ### Management commands (chapter 9) -/

/-- Where a command is accepted, the state it leaves keeps what the part holds. -/
def AcceptedHeld (watched : Prop) (hand : Option BufferIx) (x : Except ResultCode State) : Prop :=
  ∀ t, x = .ok t → t.Held watched [] hand

namespace AcceptedHeld

variable {watched : Prop} {hand : Option BufferIx}

theorem ok {t : State} (h : t.Held watched [] hand) : AcceptedHeld watched hand (.ok t) := by
  rintro _ ⟨⟩
  exact h

theorem error (code : ResultCode) : AcceptedHeld watched hand (.error code) := fun _ => nofun

/-- Tests come before. -/
theorem bind {α : Type} {x : Except ResultCode α} {f : α → Except ResultCode State}
    (next : ∀ a, AcceptedHeld watched hand (f a)) : AcceptedHeld watched hand (x >>= f) := by
  intro t accepted
  obtain ⟨a, -, accepted⟩ := ok_of_bind accepted
  exact next a t accepted

end AcceptedHeld

section Commands

variable {watched : Prop} {hand : Option BufferIx} {s : State} {args : List Byte}

theorem State.setStation_sameHolding (s : State) (a : Byte) (e : StationEntry) : SameHolding s (s.setStation a e) := by
  unfold State.setStation
  split
  · exact .of_eq rfl rfl rfl rfl
  · exact .refl s

theorem State.writeStation_held (h : s.Held watched [] hand) : AcceptedHeld watched hand (s.writeStation args) := by
  refine .bind fun address => .bind fun _ => .bind fun state => .bind fun _ => .bind fun ceiling => .bind fun _ =>
    .bind fun segment => ?_
  have written (e : StationState) :
      AcceptedHeld watched hand (.ok (s.setStation address ⟨e, ceiling.setWidth 2⟩)) :=
    .ok (h.same (s.setStation_sameHolding address _))
  dsimp only
  split
  · exact .bind written
  · exact .bind written

theorem State.writeGroup_held (h : s.Held watched [] hand) : AcceptedHeld watched hand (s.writeGroup args) := by
  refine .bind fun index => ?_
  split
  · exact .bind fun mask => .bind fun _ => .ok (h.same (.of_eq rfl rfl rfl rfl))
  · exact .error _

theorem State.writeWindow_held (h : s.Held watched [] hand) : AcceptedHeld watched hand (s.writeWindow args) := by
  refine .bind fun index => ?_
  split
  · exact .bind fun _ => .bind fun _ => .bind fun _ => .bind fun _ => .bind fun _ => .bind fun _ => .bind fun _ =>
      .bind fun _ => .bind fun _ => .bind fun _ => .bind fun _ => .bind fun _ => .bind fun _ => .bind fun _ =>
      .bind fun _ => .bind fun _ => .ok (State.evaluate_held (h.same (.of_eq rfl rfl rfl rfl)))
  · exact .error _

theorem State.writeManager_held (h : s.Held watched [] hand) : AcceptedHeld watched hand (s.writeManager args) := by
  refine .bind fun index => ?_
  split
  · exact .bind fun _ => .bind fun _ => .bind fun _ => .ok (h.same (.of_eq rfl rfl rfl rfl))
  · exact .error _

theorem State.writeEntry_held (h : s.Held watched [] hand) : AcceptedHeld watched hand (s.writeEntry args) := by
  refine .bind fun table => ?_
  split
  · exact State.writeStation_held h
  · exact State.writeGroup_held h
  · exact State.writeWindow_held h
  · exact State.writeManager_held h
  all_goals exact .error _

theorem State.applyPortParam_held (p : Port) (v : Nat) (q : PortParam) (h : s.Held watched [] hand) :
    (s.applyPortParam p v q).Held watched [] hand := by
  have written (f : PortParams → PortParams) : (s.updPortParams p f).Held watched [] hand :=
    h.same (s.updPort_sameHolding p rfl rfl)
  cases q with
  | enable =>
    change (s.writePortEnable p (v == 1)).Held watched [] hand
    unfold State.writePortEnable
    dsimp only
    split
    · unfold State.enable
      split
      · rename_i disabled
        exact (written _).same (State.updPort_sameHolding _ p rfl (by rw [disabled]; rfl))
      all_goals exact written _
    · exact State.disable_held p (written _)
  | jabberLimit =>
    change (s.writeJabberLimit p v).Held watched [] hand
    unfold State.writeJabberLimit
    dsimp only
    split
    · exact State.contain_held p (written _)
    · exact written _
  | baud =>
    unfold State.applyPortParam
    dsimp only
    split
    · exact h.same (s.updPort_sameHolding p rfl rfl)
    · exact h
  | _ =>
    rw [State.applyPortParam]
    exact written _

theorem State.setPortParam_held (q : PortParam) (p : Port) (v : Nat) (h : s.Held watched [] hand) :
    AcceptedHeld watched hand (s.setPortParam q p v) := by
  refine .bind fun _ => .bind fun _ => .ok ?_
  split
  · exact h
  · exact State.applyPortParam_held p v q h

theorem State.setCouplerParam_held (q : CouplerParam) (v : Nat) (h : s.Held watched [] hand) :
    AcceptedHeld watched hand (s.setCouplerParam q v) := by
  refine .bind fun _ => .ok ?_
  split
  · exact h
  · cases q <;> exact h.same (.of_eq rfl rfl rfl rfl)

theorem State.setParam_held (h : s.Held watched [] hand) : AcceptedHeld watched hand (s.setParam args) := by
  refine .bind fun _ => .bind fun q => .bind fun _ => ?_
  cases q with
  | ofPort q => exact .bind fun p => .bind fun v => State.setPortParam_held q p v h
  | ofCoupler q => exact .bind fun v => State.setCouplerParam_held q v h

theorem State.clearScope_sameHolding (s : State) (c : Scope) : SameHolding s (s.clearScope c) := by
  have counted (v : Vector Count 22) : SameHolding s { s with counters := v } := .of_eq rfl rfl rfl rfl
  cases c with
  | port p => exact s.updPort_sameHolding p (f := fun u => { u with counters := Vector.replicate 11 0 }) rfl rfl
  | coupler1 => exact counted _
  | coupler2 => exact counted _

theorem State.readCounters_held {t : State} {data : List Byte} (read : s.readCounters args = .ok (data, t))
    (h : s.Held watched [] hand) : t.Held watched [] hand := by
  obtain ⟨code, -, read⟩ := ok_of_bind read
  obtain ⟨scope, -, read⟩ := ok_of_bind read
  obtain ⟨flag, -, read⟩ := ok_of_bind read
  obtain ⟨-, -, read⟩ := ok_of_bind read
  injection read with read
  injection read with _ read
  subst read
  split
  · exact h.same (s.clearScope_sameHolding scope)
  · exact h

theorem answerRead_held (r : Except ResultCode (Nat × List Byte)) (h : s.Held watched [] hand) :
    (answerRead s r).2.Held watched [] hand := by
  cases r <;> exact h

theorem answerWrite_held {r : Except ResultCode State} (accepted : AcceptedHeld watched hand r)
    (h : s.Held watched [] hand) : (answerWrite s r).2.Held watched [] hand := by
  cases r with
  | error code => exact h
  | ok t => exact accepted t rfl

/-- Every command of 9.6. -/
theorem State.executeCommand_held (room : BufferIx) (args : List Byte) (c : CommandCode) (h : s.Held watched [] hand) :
    (s.executeCommand room args c).2.Held watched [] hand := by
  cases c with
  | status => exact answerRead_held _ h
  | readEntries => exact answerRead_held _ h
  | writeEntry => exact answerWrite_held (State.writeEntry_held h) h
  | getParam => exact answerRead_held _ h
  | setParam => exact answerWrite_held (State.setParam_held h) h
  | readCounters =>
    cases read : s.readCounters args with
    | error code =>
      rw [State.executeCommand, read]
      exact h
    | ok r =>
      rw [State.executeCommand, read]
      exact State.readCounters_held read h
  | timeRead => exact answerRead_held _ h
  | timeSet =>
    refine answerWrite_held ?_ h
    cases timeArg args with
    | error code => exact .error code
    | ok d => exact .ok (State.timeSet_held d h)
  | timeRound =>
    refine answerWrite_held ?_ h
    split
    · exact .error _
    · exact .ok (State.timeRound_held h)
  | timeHold => exact answerWrite_held (.ok (State.timeHold_held h)) h
  | timeRun => exact answerWrite_held (.ok (h.same (.of_eq rfl rfl rfl rfl))) h
  | clearAlert => exact answerWrite_held (.bind fun _ => .bind fun _ => .ok (h.same (.of_eq rfl rfl rfl rfl))) h
  | flushLearned => exact answerWrite_held (.ok (h.same (.of_eq rfl rfl rfl rfl))) h
  | restart => exact answerWrite_held (.bind fun _ => .bind fun _ => .ok (h.same (.of_eq rfl rfl rfl rfl))) h

end Commands

/-! ### The Management Unit (R161 to R167) -/

section Management

variable {watched : Prop} {hand : Option BufferIx} {s : State} (p : Port)

/-- The room of a result is written where it stands (R164). -/
theorem State.fillRoom_sameHolding (s : State) (p : Port) (room : BufferIx) (cs : List Byte) :
    SameHolding s (s.fillRoom p room cs) := by
  unfold State.fillRoom
  split
  · exact s.setChars_sameHolding room cs
  · exact .refl s

theorem State.storeResult_sameHolding (s : State) (source sequence : Byte) (payload : List Byte) :
    SameHolding s (s.storeResult source sequence payload) := by
  unfold State.storeResult
  split
  · exact .of_eq rfl rfl rfl rfl
  · exact .refl s

theorem State.deny_held (f : FrameView) (h : s.Held watched [] hand) : (s.deny p f).Held watched [] hand := by
  have produced := State.generate_held (p := p)
    (resultChars s.params.ownAddress f (resultPayload f.payload ⟨.denied, 0, []⟩))
    (State.raise_held .denied (h.same (s.count_sameHolding .mgmtDenied)))
  unfold State.deny
  split <;> rename_i e <;> rw [e] at produced
  · exact produced
  · exact produced.same (State.count_sameHolding _ .mgmtNoRoom)

theorem State.execute_held (f : FrameView) (own : Byte) (room : BufferIx) (c : CommandCode) (h : s.Held watched [] hand) :
    (s.execute p f own room c).Held watched [] hand :=
  (((State.executeCommand_held room _ c h).same (State.count_sameHolding _ _)).same
    (State.storeResult_sameHolding _ _ _ _)).same (State.fillRoom_sameHolding _ p room _)

theorem State.judge_held (f : FrameView) (own : Byte) (room : BufferIx) (h : s.Held watched [] hand) :
    (s.judge p f own room).Held watched [] hand := by
  have filled (cs : List Byte) : (s.fillRoom p room cs).Held watched [] hand := h.same (s.fillRoom_sameHolding p room cs)
  unfold State.judge
  split
  · exact filled _
  · split
    · exact filled _
    · split
      · exact filled _
      · exact State.execute_held p f own room _ h

theorem State.manage_held (f : FrameView) (h : s.Held watched [] hand) : (s.manage p f).Held watched [] hand := by
  unfold State.manage
  split
  · split
    · exact State.deny_held p f h
    · have secured := State.generate_held (p := p) [] h
      split <;> rename_i e <;> rw [e] at secured
      · exact secured.same (State.count_sameHolding _ _)
      · exact State.judge_held p f _ _ secured
  · exact h.same (s.count_sameHolding _)

end Management

/-! ### Classification (chapter 5) -/

section Classification

variable {watched : Prop} {s : State} {b : BufferIx} (p : Port)

theorem State.dropUnrouted_held (f : FrameView) (c : DestClass) (counter : CouplerCounter)
    (h : s.Held watched [] (some b)) : (s.dropUnrouted p f c b counter).Held watched [] none := by
  have counted : (s.count counter).Held watched [] (some b) := h.same (s.count_sameHolding counter)
  unfold State.dropUnrouted
  dsimp only
  refine State.HeldWith.dropped ?_
  split
  · exact State.notify_held _ _ counted
  · exact counted

theorem State.place_held (f : FrameView) (c : DestClass) {segments : List Port} (known : Bool)
    (targets : FewTargets segments) (h : s.Held watched [] (some b)) :
    (s.place p f c b segments known).Held watched [] none := by
  unfold State.place
  split
  · exact State.track_held (r := ⟨requestKey f, p, segments, known, s.rankOf f, b⟩) (Rank.ofClass_ne_express _) targets h
  · obtain ⟨ps, few, count, taken⟩ := admitEach_held (n := ⟨b, s.rankOf f, .forwarded, none⟩) rfl
      (Rank.ofClass_ne_express _) rfl targets h
    unfold State.enqueueUntracked
    dsimp only
    rw [← count]
    exact taken.settled few.once few.few

theorem State.forward_held (f : FrameView) (c : DestClass) (h : s.Held watched [] (some b)) :
    (s.forward p f c b).Held watched [] none := by
  unfold State.forward
  split
  · exact State.settleDropped_held _ h
  · exact State.dropUnrouted_held p f c _ h
  · exact State.dropUnrouted_held p f c _ h
  · rename_i resolved
    split
    · exact (State.raise_held _ (h.same (s.count_sameHolding _))).dropped
    · exact State.place_held p f c _ (State.resolve_few resolved) h

theorem State.ownFrame_held (f : FrameView) (h : s.Held watched [] (some b)) :
    (s.ownFrame p f b).Held watched [] none := by
  unfold State.ownFrame
  split
  · exact (State.manage_held p f h).dropped
  · exact State.settleDropped_held _ h
  · exact State.settleDropped_held _ h
  all_goals exact (State.HeldWith.same h (s.countPort_sameHolding p _)).dropped

theorem State.classifyLearned_held (f : FrameView) (h : s.Held watched [] (some b)) :
    (s.classifyLearned p f b).Held watched [] none := by
  have forwarded : (if s.params.forwarding then
      match f.kind with
      | .reply | .result => s.answer p (answerKey f) b
      | .datagram | .request | .manage | .notice => s.forward p f (destClass s.params.ownAddress f.dest) b
    else (s.count .forwardingOff).settleBuffer b 0).Held watched [] none := by
    split
    · split
      · exact State.answer_held p _ h
      · exact State.answer_held p _ h
      all_goals exact State.forward_held p f _ h
    · exact State.settleDropped_held _ h
  unfold State.classifyLearned
  split
  · exact State.ownFrame_held p f h
  all_goals exact forwarded

theorem State.learn_held {hand : Option BufferIx} (source : Byte) (h : s.Held watched [] hand) :
    (s.learn p source).2.Held watched [] hand := by
  have raised (c : CouplerCounter) (a : AlertCause) : ((s.count c).raise a).Held watched [] hand :=
    State.raise_held a (h.same (s.count_sameHolding c))
  have heard (e : StationEntry) : (s.setStation source e).Held watched [] hand :=
    h.same (s.setStation_sameHolding source e)
  unfold State.learn
  dsimp only
  split
  · exact raised _ _
  · split
    · exact h.same (s.count_sameHolding _)
    · split
      · exact h
      · exact raised _ _
    · exact heard _
    · split
      · exact heard _
      · exact (heard _).same (State.count_sameHolding _ _)

/-- A classification settles the buffer of its frame (R82). -/
theorem State.classify_held (f : FrameView) (h : s.Held watched [] (some b)) :
    (s.classify p f b).Held watched [] none := by
  have learned := State.learn_held p f.source h
  unfold State.classify
  split <;> rename_i e <;> rw [e] at learned
  · exact State.HeldWith.dropped learned
  · exact State.classifyLearned_held p f learned

end Classification

/-! ### Characters (chapter 1) -/

section Characters

variable {watched : Prop} {s : State} (p : Port)

theorem State.fills_countPort (s : State) (p q : Port) (c : PortCounter) :
    ((s.countPort p c).port q).state.fills = (s.port q).state.fills := (s.countPort_sameHolding p c).fills q

theorem State.completeReception_held {b : BufferIx} (n : Nat) (check : Check)
    (fills : (s.port p).state.fills = some b) (h : s.Held watched [] none) :
    (s.completeReception p b n check).Held watched [] none := by
  have abandoned (c : PortCounter) : (s.abandon p b c).Held watched [] none := State.abandon_held c fills h
  have complete : ((s.countPort p .framesIn).setPortState p .listen).Held watched [] (some b) :=
    State.HeldWith.inHand (h.same (s.countPort_sameHolding p .framesIn)) ((s.fills_countPort p p _).trans fills) rfl rfl
  unfold State.completeReception
  dsimp only
  split
  · split
    · split
      · exact State.classify_held p _ complete
      · exact abandoned _
    · exact abandoned _
  · exact abandoned _

theorem State.storeCharacter_held (r : Reception) (v : Byte) (fills : (s.port p).state.fills = some r.buffer)
    (h : s.Held watched [] none) : (s.storeCharacter p r v).Held watched [] none := by
  have stored (cs : List Byte) : (s.setChars r.buffer cs).Held watched [] none := h.same (s.setChars_sameHolding r.buffer cs)
  unfold State.storeCharacter
  dsimp only
  split
  · exact State.abandon_held _ fills (stored _)
  · split
    · exact State.completeReception_held p _ _ fills (stored _)
    · exact State.setPortState_held fills (stored _)

theorem State.startFrame_held (v : Byte) (idle : (s.port p).state.fills = none) (h : s.Held watched [] none) :
    (s.startFrame p v).Held watched [] none := by
  unfold State.startFrame
  split
  · exact State.raise_held _ (State.setPortState_held ((s.fills_countPort p p _).trans idle)
      (h.same (s.countPort_sameHolding p .noBuffer)))
  · rename_i b rest free
    exact h.receive free idle [v] rfl rfl

theorem State.assemble_held (r : Reception) (c : LineCharacter) (fills : (s.port p).state.fills = some r.buffer)
    (h : s.Held watched [] none) : (s.assemble p r c).Held watched [] none := by
  unfold State.assemble
  split
  · rename_i v
    have stored := h.same (s.setChars_sameHolding r.buffer [v])
    exact State.setPortState_held ((State.fills_countPort _ p p _).trans fills)
      (stored.same (State.countPort_sameHolding _ p .formatErrors))
  · exact State.storeCharacter_held p r _ fills h
  · exact State.abandon_held _ fills h

theorem State.echo_held (pos elapsed : Nat) (c : LineCharacter) (sending : (s.port p).state.dirAsserted = true)
    (h : s.Held watched [] none) : (s.echo p pos elapsed c).Held watched [] none := by
  unfold State.echo
  split
  · exact h
  · rename_i e marked
    obtain ⟨mem, -⟩ := inTransmission_some marked
    split
    · split
      · exact State.complete_held mem sending h
      · exact State.setPortState_held (PortState.fills_of_dirAsserted sending) h
    · exact State.collide_held mem sending h

theorem State.routeCharacter_held (c : LineCharacter) (h : s.Held watched [] none) :
    (s.routeCharacter p c).Held watched [] none := by
  have offered (idle : (s.port p).state.fills = none) : (s.offer p c).Held watched [] none := by
    unfold State.offer
    split
    · exact State.startFrame_held p _ idle h
    all_goals exact h
  unfold State.routeCharacter
  split <;> rename_i state
  · exact offered (by rw [state]; rfl)
  · exact offered (by rw [state]; rfl)
  · exact offered (by rw [state]; rfl)
  · exact State.assemble_held p _ c (by rw [state]; rfl) h
  · exact State.echo_held p _ _ c (by rw [state]; rfl) h
  all_goals exact h

theorem State.receiveCharacter_held (c : LineCharacter) (h : s.Held watched [] none) :
    (s.receiveCharacter p c).Held watched [] none := by
  have moved (hold : StartHold) : (s.setLine p (lineAfter c) hold).Held watched [] none :=
    h.same (s.updPort_sameHolding p rfl rfl)
  unfold State.receiveCharacter
  split
  · exact State.routeCharacter_held p c (moved _)
  · exact moved _

theorem LineEffect.held (e : LineEffect) (h : s.Held watched [] none) : (e.apply p s).Held watched [] none := by
  cases e with
  | character c => exact State.receiveCharacter_held p c h
  | startBit =>
    refine h.same (s.updPort_sameHolding p ?_ ?_)
    all_goals
      unfold PortUnit.startBit
      split
      · split <;> rfl
      all_goals rfl
  | lineReturns => exact h.same (s.updPort_sameHolding p rfl rfl)

end Characters

end Sys2Proof.Machine
end

