-- ==== Sys2Proof/Proofs/HoldingSteps.lean ====
section
/-! PROOFS. Every step keeps the queues in their order and within 16 entries (R50, R51) and every buffer accounted for (R44,
R45): the resets, the rows, and the passing of time. -/

namespace Sys2Proof.Machine

/-! ### What a sound part holds -/

section Soundness

variable {s : State}

theorem queueSound_iff (n : Nat) (q : List QueueEntry) :
    queueSound n q = true ↔ QueueOrder n q ∧ q.length ≤ Config.queueSize := by
  simp only [queueSound, Bool.and_eq_true, decide_eq_true_eq, List.all_eq_true]
  exact ⟨fun ⟨⟨⟨fits, order⟩, stamps⟩, given⟩ => ⟨⟨⟨stamps, given⟩, order⟩, fits⟩,
    fun ⟨⟨⟨stamps, given⟩, order⟩, fits⟩ => ⟨⟨⟨fits, order⟩, stamps⟩, given⟩⟩

theorem State.queuesSound_iff :
    s.queuesSound = true ↔ ∀ p, QueueOrder s.nextStamp (s.queue p) ∧ (s.queue p).length ≤ Config.queueSize := by
  simp only [State.queuesSound, List.all_eq_true, queueSound_iff]
  exact ⟨fun h p => h p (List.mem_finRange p), fun h p _ => h p⟩

/-- A buffer that the free list names once at most, and each queue too, is sound where it is accounted for. -/
theorem State.bufferSound_iff {b : BufferIx} (once : s.freeList.count b ≤ 1) (apart : ∀ p, refsIn b (s.queue p) ≤ 1) :
    s.bufferSound b = true ↔ (s.stock b).Kept := by
  have listed : s.freeList.contains b = true ↔ (s.stock b).listed = 1 := by
    have count : (s.stock b).listed = s.freeList.count b := rfl
    rw [List.contains_iff_mem, ← List.count_pos_iff, count]
    omega
  have unlisted : s.freeList.contains b = false ↔ (s.stock b).listed = 0 := by
    have count : (s.stock b).listed = s.freeList.count b := rfl
    rw [← Bool.not_eq_true, listed, count]
    omega
  have refs : s.references b = ∑ p, (s.stock b).refs p := s.references_eq_sum b
  have unreferred : s.references b = 0 ↔ ∀ p, (s.stock b).refs p = 0 := by
    rw [refs, Finset.sum_eq_zero_iff]
    exact ⟨fun h p => h p (Finset.mem_univ p), fun h p _ => h p⟩
  have filling (p : Port) : s.receivesInto p b = true ↔ (s.stock b).filling p := s.receivesInto_iff p b
  have idle : (∀ p ∈ allPorts, s.receivesInto p b = false) ↔ ∀ p, ¬ (s.stock b).filling p := by
    simp only [← Bool.not_eq_true, filling]
    exact ⟨fun h p => h p (List.mem_finRange p), fun h p _ => h p⟩
  have only (p : Port) : (∀ q ∈ allPorts, s.receivesInto q b = (q == p)) ↔ ∀ q, (s.stock b).filling q ↔ q = p := by
    refine ⟨fun h q => ?_, fun h q _ => Bool.eq_iff_iff.mpr ((filling q).trans ((h q).trans beq_iff_eq.symm))⟩
    rw [← filling, h q (List.mem_finRange q), beq_iff_eq]
  unfold State.bufferSound
  cases condition : (s.pool.get b).condition with
  | free =>
    simp only [Stock.kept_free (v := s.stock b) condition, Bool.and_eq_true, List.all_eq_true, Bool.not_eq_true', beq_iff_eq,
      listed, unreferred, idle, and_assoc]
  | reception p =>
    simp only [Stock.kept_reception (v := s.stock b) condition, Bool.and_eq_true, List.all_eq_true, Bool.not_eq_true',
      unlisted, unreferred, only, beq_iff_eq, and_assoc]
  | held n =>
    have few : ∀ p, (s.stock b).refs p ≤ 1 := apart
    simp only [Stock.kept_held (v := s.stock b) condition, Bool.and_eq_true, List.all_eq_true, Bool.not_eq_true', unlisted,
      refs, idle, beq_iff_eq, decide_eq_true_eq, and_assoc, few, true_and, implies_true]

/-- A buffer accounted for is on the free list once at most, and in each queue too. -/
theorem Stock.Kept.le_one {v : Stock} (h : v.Kept) : v.listed ≤ 1 ∧ ∀ p, v.refs p ≤ 1 := by
  cases condition : v.condition with
  | free =>
    obtain ⟨listed, none, -⟩ := (Stock.kept_free condition).mp h
    exact ⟨listed.le, fun p => (none p).trans_le (Nat.zero_le 1)⟩
  | reception p =>
    obtain ⟨listed, none, -⟩ := (Stock.kept_reception condition).mp h
    exact ⟨listed.trans_le (Nat.zero_le 1), fun p => (none p).trans_le (Nat.zero_le 1)⟩
  | held n =>
    obtain ⟨listed, ⟨-, -, -, once⟩, -⟩ := (Stock.kept_held condition).mp h
    exact ⟨listed.trans_le (Nat.zero_le 1), once⟩

theorem State.buffersSound_iff : s.buffersSound = true ↔ ∀ b, (s.stock b).Kept := by
  simp only [State.buffersSound, Bool.and_eq_true, decide_eq_true_eq, List.all_eq_true, List.nodup_iff_count_le_one (l := s.freeList),
    nodup_buffers_iff]
  refine ⟨fun ⟨⟨once, sound⟩, apart⟩ b => ?_, fun kept => ⟨⟨fun b => (kept b).le_one.1, fun b _ => ?_⟩, fun p _ b => ?_⟩⟩
  · exact (State.bufferSound_iff (once b) fun p => apart p (List.mem_finRange p) b).mp (sound b (List.mem_finRange b))
  · exact (State.bufferSound_iff (kept b).le_one.1 (kept b).le_one.2).mpr (kept b)
  · exact (kept b).le_one.2 p

/-- What the part holds while no frame is being classified and no displacement is under way. -/
theorem State.held_iff {watched : Prop} :
    s.Held watched [] none ↔ s.queuesSound = true ∧ (watched → s.buffersSound = true) := by
  rw [State.queuesSound_iff, State.buffersSound_iff]
  exact ⟨fun h => ⟨fun p => ⟨h.ordered p, h.fits p⟩, h.stands⟩, fun ⟨queues, buffers⟩ =>
    ⟨fun p => (queues p).1, fun p => (queues p).2, buffers⟩⟩

end Soundness

/-! ### Resets, restarts and events -/

section Events

variable {watched : Prop} {s : State}

/-- With nothing queued or received and every buffer free there is nothing to account for (R49, R59). -/
theorem State.held_of_empty (empty : s.QueuesEmpty) (idle : ∀ p, (s.port p).state.fills = none)
    (pool : s.pool = Vector.replicate 48 freeBuffer) (freeList : s.freeList = fullFreeList) :
    s.Held watched [] none := by
  have queue (p : Port) : s.queue p = [] := empty p
  refine ⟨fun p => ?_, fun p => ?_, fun _ b => ?_⟩
  · rw [queue]
    exact .nil _
  · rw [queue]
    exact Nat.zero_le _
  · have condition : (s.stock b).condition = .free := by
      change (s.pool.get b).condition = .free
      rw [pool, Vector.get_eq_getElem, Vector.getElem_replicate]
      rfl
    refine (Stock.kept_free condition).mpr ⟨?_, fun p => ?_, fun p filling => ?_⟩
    · change s.freeList.count b = 1
      rw [freeList]
      exact List.count_eq_one_of_mem (List.nodup_finRange 48) (List.mem_finRange b)
    · change refsIn b (s.queue p) = 0
      rw [queue]
      rfl
    · exact absurd ((idle p).symm.trans filling) (Option.some_ne_none b).symm

theorem State.resetToDefaults_held (s : State) (cause : ResetCause) (straps : Straps) :
    (s.resetToDefaults cause straps).Held watched [] none := by
  refine State.held_of_empty (fun p => ?_) (fun p => ?_) ?_ ?_
  · rw [State.port_resetToDefaults]
    rfl
  · rw [State.port_resetToDefaults]
    rfl
  · rw [State.resetToDefaults_eq]
    rfl
  · rw [State.resetToDefaults_eq]
    rfl

theorem State.resetWarm_held (s : State) : s.resetWarm.Held watched [] none := by
  refine State.held_of_empty (fun p => ?_) (fun p => ?_) ?_ ?_
  · rw [State.port_resetWarm]
    rfl
  · rw [State.port_resetWarm, PortUnit.afterWarm]
    dsimp only
    split <;> rfl
  · rw [State.resetWarm_eq]
  · rw [State.resetWarm_eq]

theorem State.losePower_held (s : State) : s.losePower.Held watched [] none := by
  refine State.held_of_empty (fun p => ?_) (fun p => ?_) ?_ ?_
  · rw [State.port_losePower]
    rfl
  · rw [State.port_losePower]
    rfl
  all_goals
    rw [State.losePower_eq_darkened]
    split <;> rfl

theorem State.resetCold_held (s : State) (straps : Straps) : (s.resetCold straps).Held watched [] none :=
  State.raise_held _ (State.resetToDefaults_held _ .cold straps)

theorem State.powerOn_held (s : State) (straps : Straps) : (s.powerOn straps).Held watched [] none := by
  unfold State.powerOn
  split
  · exact s.resetCold_held straps
  · exact State.resetToDefaults_held _ .power straps

theorem State.restartFirst_held (h : s.Held watched [] none) : s.restartFirst.Held watched [] none := by
  obtain same | ⟨r, -, -, -, taken⟩ := s.restartFirst_cases
  · rwa [same]
  · rw [taken]
    cases r.kind with
    | warm => exact s.resetWarm_held
    | full => exact s.resetToDefaults_held .full s.straps

/-- An event whose effect keeps what the part holds keeps it. -/
theorem State.inEvent_held {f : State → State} (effect : ∀ u, State.Held watched [] none u → (f u).Held watched [] none)
    (h : s.Held watched [] none) : (s.inEvent f).Held watched [] none :=
  State.settle_held (effect _ (State.restartFirst_held h))

theorem State.lineEvent_held {p : Port} {f : State → State} {level : LineState → LineState}
    (effect : ∀ u, State.Held watched [] none u → (f u).Held watched [] none) (h : s.Held watched [] none) :
    (s.lineEvent p f level).Held watched [] none := by
  unfold State.lineEvent
  split
  · exact State.inEvent_held effect h
  · exact h.same (s.updPort_sameHolding p rfl rfl)

theorem State.receiveFrame_held (p : Port) (cs : List Byte) (h : s.Held watched [] none) :
    (s.receiveFrame p cs).Held watched [] none :=
  foldl_held (fun _ c => State.lineEvent_held fun _ => State.receiveCharacter_held p c) _ s h

theorem Effect.apply_held (e : Effect) (h : s.Held watched [] none) : (e.apply s).Held watched [] none := by
  by_cases reset : ∃ straps, e = .pinReset straps
  · obtain ⟨straps, rfl⟩ := reset
    exact s.resetToDefaults_held .pin straps
  · exact Effect.held (fun straps e => reset ⟨straps, e⟩) h

/-- Every row keeps what the part holds. -/
theorem Row.run_held (r : Row) (h : s.Held watched [] none) : (r.run s).Held watched [] none := by
  cases r with
  | main e =>
    rw [Row.run]
    split
    · exact State.inEvent_held (fun _ => e.apply_held) h
    · exact h
  | line p e => exact State.lineEvent_held (fun _ => e.held p) h
  | frame p f k => exact State.receiveFrame_held p _ h
  | secondTick =>
    rw [Row.run]
    split
    · exact State.inEvent_held (fun _ => State.secondTick_held) h
    · exact State.secondTick_held h
  | coldStart straps => exact State.settle_held (s.resetCold_held straps)
  | powerStart straps => exact State.settle_held (s.powerOn_held straps)
  | fullRestart straps =>
    have read : (s.readsStraps straps).Held watched [] none := by
      unfold State.readsStraps
      split
      · exact h.same (.of_eq rfl rfl rfl rfl)
      · exact h
    rw [Row.run]
    split
    · exact State.inEvent_held (fun _ => id) read
    · exact read
  | mainPowerLoss =>
    rw [Row.run]
    split
    · exact State.losePower_held _
    · exact h
  | backupSupplyLoss =>
    have first := State.restartFirst_held h
    rw [Row.run]
    split
    · exact first.same (.of_eq rfl rfl rfl rfl)
    · exact first.same (.of_eq rfl rfl rfl rfl)

end Events

/-! ### Time -/

section Time

variable {watched : Prop} {s : State}

theorem PortState.fills_clkLater (st : PortState) : st.clkLater.fills = st.fills := by cases st <;> rfl

theorem PortState.fills_msLater (st : PortState) : st.msLater.fills = st.fills := by cases st <;> rfl

theorem State.clkPass_held (h : s.Held watched [] none) : s.clkPass.Held watched [] none := by
  have counted (u : State) (n : Nat) : SameHolding u { u with msCount := n } := .of_eq rfl rfl rfl rfl
  have timed (u : State) (table : Vector TxEntry 32) (pulse : Option Nat) :
      SameHolding u { u with transactions := table, pulse := pulse } := .of_eq rfl rfl rfl rfl
  have ms {u : State} (held : u.Held watched [] none) : u.msPass.Held watched [] none := by
    have ports : (u.updPorts PortUnit.msLater).Held watched [] none :=
      foldl_held (fun t p held => held.same (t.updPort_sameHolding p rfl (t.port p).state.fills_msLater)) allPorts u held
    exact ports.same (timed _ _ _)
  unfold State.clkPass
  split
  · have ports : (s.updPorts PortUnit.clkLater).Held watched [] none :=
      foldl_held (fun t p held => held.same (t.updPort_sameHolding p rfl (t.port p).state.fills_clkLater)) allPorts s h
    unfold State.msClock
    split
    · exact ports.same (counted _ _)
    · exact ms (ports.same (counted _ _))
  · exact h

theorem State.after_held (c : Instr) (h : s.Held watched [] none) : (s.after c).Held watched [] none := by
  rw [State.after, exec_eq_run]
  exact (rowOf c).run_held h

theorem State.takeDue_held (c : Instr) (h : s.Held watched [] none) : (s.takeDue c).Held watched [] none := by
  have first := State.restartFirst_held h
  unfold State.takeDue
  split
  · exact State.after_held c first
  · exact first

theorem State.crystalClock_held (h : s.Held watched [] none) : s.crystalClock.Held watched [] none := by
  unfold State.crystalClock
  split
  · exact h.same (.of_eq rfl rfl rfl rfl)
  · unfold State.crystalPeriod
    dsimp only
    split
    · exact h.same (.of_eq rfl rfl rfl rfl)
    · split
      · exact h.same (.of_eq rfl rfl rfl rfl)
      · exact State.after_held _ (h.same (.of_eq rfl rfl rfl rfl))

theorem State.tick_held (h : s.Held watched [] none) : s.tick.Held watched [] none :=
  State.crystalClock_held
    (foldl_held (fun _ => State.takeDue_held) timedEvents _ (State.clkPass_held (State.restartFirst_held h)))

/-- Every step keeps what the part holds. -/
theorem step_held {t : State} (stepped : step s = .next t) (h : s.Held watched [] none) : t.Held watched [] none := by
  unfold step at stepped
  split at stepped
  · rw [exec_eq_run] at stepped
    injection stepped with stepped
    rw [← stepped]
    exact Row.run_held _ (h.same (.of_eq rfl rfl rfl rfl))
  · injection stepped with stepped
    rw [← stepped]
    exact State.tick_held h

end Time

/-! ### O9 -/

/-- Settles O9: every step keeps what the part holds, the buffers left aside. -/
theorem stepsKeepTheQueuesSound : Obligations.StepsKeepTheQueuesSound := fun _ _ queues stepped =>
  (State.held_iff.mp (step_held stepped (State.held_iff.mpr ⟨queues, False.elim⟩))).1

/-! ### O10 -/

/-- Settles O10: every step keeps what the part holds, the buffers watched. -/
theorem stepsKeepTheBuffersSound : Obligations.StepsKeepTheBuffersSound := fun _ _ queues buffers stepped =>
  (State.held_iff.mp (step_held stepped (State.held_iff.mpr ⟨queues, fun _ => buffers⟩))).2 trivial

end Sys2Proof.Machine
end

