-- ==== Sys2Proof/Proofs/Untracked.lean ====
section
/-! PROOFS. A frame that opens no transaction is queued at each of its targets (R99). -/

namespace Sys2Proof.Machine

section Untracked

variable {u : State} {p : Port} {b : BufferIx} {f : Frame} {k : Kind} {own d : Byte}

/-- Only a station address other than the own has the destination class of a station (R83). -/
theorem isStationAddress_of_destClass (station : destClass own d = .station) : isStationAddress d = true := by
  refine isStationAddress_iff.mpr ⟨fun broadcast => ?_, fun group => ?_⟩
  · by_cases foreign : d = own
    · rw [foreign, destClass_own] at station
      exact DestClass.noConfusion station
    · rw [broadcast] at foreign station
      rw [destClass_broadcast foreign] at station
      exact DestClass.noConfusion station
  · by_cases foreign : d = own
    · rw [foreign, destClass_own] at station
      exact DestClass.noConfusion station
    · rw [destClass_group foreign group] at station
      exact DestClass.noConfusion station

/-- Each target judges its own copy, and the buffer is held by those that took one, or freed (R46, R54, R99). -/
theorem State.enqueueUntracked_eq {ps : List Port} (once : ps.Nodup) :
    u.enqueueUntracked (viewOf f k) b ps =
      (u.offerEach ps ⟨b, u.rankFor f, .forwarded, none⟩).settleBuffer b (u.takers ps (u.rankFor f)).length := by
  have classRank : u.rankFor f ≠ .express := Rank.ofClass_ne_express _
  rw [← admittedCount_verdicts, State.enqueueUntracked]
  exact congrArg (fun r : List Verdict × State => r.2.settleBuffer b (admittedCount r.1))
    (admitEach_of_classRank (n := ⟨b, u.rankFor f, .forwarded, none⟩) classRank rfl once u)

/-- A frame with a target that asks no station, its buffer not lost to the reserve, is queued untracked (R99). -/
theorem State.forward_of_untracked (foreign : f.dest ≠ u.params.ownAddress) (routed : u.targetsFor p f.dest ≠ [])
    (room : k = .notice ∨ u.params.reserve ≤ u.freeList.length)
    (asksNoStation : k = .request ∨ k = .manage → isStationAddress f.dest = false) :
    u.forward p (viewOf f k) (destClass u.params.ownAddress f.dest) b =
      u.enqueueUntracked (viewOf f k) b (u.targetsFor p f.dest) := by
  obtain ⟨known, resolved⟩ := State.resolve_targets foreign routed
  have aboveReserve : ¬ u.belowReserve k = true := fun low => by
    obtain ⟨notNotice, few⟩ := (u.belowReserve_iff k).mp low
    exact room.elim notNotice (Nat.not_le.mpr few)
  have untracked : ¬ (k.isRequest && destClass u.params.ownAddress f.dest == .station) = true := fun tracked => by
    obtain ⟨asks, station⟩ := Bool.and_eq_true_iff.mp tracked
    have address := isStationAddress_of_destClass (beq_iff_eq.mp station)
    exact Bool.false_ne_true ((asksNoStation ((Kind.isRequest_iff k).mp asks)).symm.trans address)
  rw [State.forward_of_targets (f := viewOf f k) resolved]
  exact (if_neg aboveReserve).trans (if_neg untracked)

end Untracked

/-- Settles O26: the row forwards the frame, no entry of the Transaction Table is asked for it, and the targets that take it
share its buffer. -/
theorem untrackedFramesAreQueued : Obligations.UntrackedFramesAreQueued := by
  refine ⟨?_, by decide, by decide, fun _ => rfl⟩
  intro s k p f b u learned foreign on kind routed room w admitted
  have params := learned.keeps.1
  have notAnswer : k ≠ .reply ∧ k ≠ .result := by
    obtain rfl | rfl | ⟨rfl | rfl, -⟩ := kind <;> decide
  have asksNoStation : k = .request ∨ k = .manage → isStationAddress f.dest = false := by
    intro asks
    obtain rfl | rfl | ⟨-, noStation⟩ := kind
    · simp at asks
    · simp at asks
    · exact noStation
  have row := learned.exec_of_forward foreign on notAnswer.1 notAnswer.2
  rw [← params] at foreign room row
  rw [row, State.forward_of_untracked foreign routed room asksNoStation,
    State.enqueueUntracked_eq (u.targetsFor_nodup p f.dest)]
  rfl

end Sys2Proof.Machine
end

