-- ==== Sys2Proof/Proofs/Admission.lean ====
section
/-! PROOFS. What a queue answers a request for admission, and what becomes of a generated frame (R47, R52, R53). -/

namespace Sys2Proof.Machine

/-! ### The entry that an EXPRESS request displaces (R53) -/

section Displaceable

variable {front : List QueueEntry} {e : QueueEntry}

theorem displaceable_concat_of_kept (kept : e.rank = .express ∨ e.inTx = true) : displaceable (front ++ [e]) = none := by
  rw [displaceable, List.getLast?_concat]
  exact if_pos kept

theorem displaceable_concat (rank : e.rank ≠ .express) (unmarked : e.inTx = false) :
    displaceable (front ++ [e]) = some e := by
  rw [displaceable, List.getLast?_concat]
  exact if_neg fun kept => kept.elim rank fun marked => Bool.false_ne_true (unmarked.symm.trans marked)

end Displaceable

/-! ### The three tests in their order (R52) -/

section Judgements

variable {s : State} {owed : Owed} {p : Port} {r : Rank} {o : Origin}

theorem State.judgeAdmission_of_outOfService (out : (s.port p).state.outOfService = true) :
    s.judgeAdmission owed p r o = .unreachable := if_pos out

section Admitted

variable (service : (s.port p).state.outOfService = false) (admits : (s.disposition p).admits r o = true)
include service admits

theorem State.judgeAdmission_of_room (room : (s.queue p).length + owed.places.count p < 16) :
    s.judgeAdmission owed p r o = .room := by
  unfold State.judgeAdmission
  rw [service, admits]
  exact (if_neg Bool.false_ne_true).trans ((if_neg Bool.false_ne_true).trans (if_pos room))

variable (full : 16 ≤ (s.queue p).length + owed.places.count p)
include full

/-- A full queue displaces for an EXPRESS request alone, and only an entry it may displace (R53). -/
theorem State.judgeAdmission_of_kept (kept : r = .express → displaceable (s.queue p) = none) :
    s.judgeAdmission owed p r o = .queueFull := by
  unfold State.judgeAdmission
  rw [service, admits]
  refine (if_neg Bool.false_ne_true).trans ((if_neg Bool.false_ne_true).trans ((if_neg (Nat.not_lt.mpr full)).trans ?_))
  cases r with
  | express => rw [kept rfl]
  | c0 | c1 | c2 | c3 => rfl

theorem State.judgeAdmission_of_displaceable {e : QueueEntry} (express : r = .express)
    (last : displaceable (s.queue p) = some e) : s.judgeAdmission owed p r o = .displaces e := by
  subst express
  unfold State.judgeAdmission
  rw [service, admits, last]
  exact (if_neg Bool.false_ne_true).trans ((if_neg Bool.false_ne_true).trans (if_neg (Nat.not_lt.mpr full)))

end Admitted

end Judgements

/-! ### A request that a queue answers (R52, R53) -/

section Requests

variable {s : State} {p : Port} {n : NewEntry} {e : QueueEntry}

theorem State.requestAdmission_of_unreachable (judged : s.judgeAdmission .nothing p n.rank n.origin = .unreachable) :
    s.requestAdmission p n = (.unreachable, s.countPort p .unreachable) := by
  rw [State.requestAdmission, State.makePlace, judged]

theorem State.requestAdmission_of_queueFull (judged : s.judgeAdmission .nothing p n.rank n.origin = .queueFull) :
    s.requestAdmission p n = (.queueFull, s.countPort p .queueFull) := by
  rw [State.requestAdmission, State.makePlace, judged]

theorem State.requestAdmission_of_room (judged : s.judgeAdmission .nothing p n.rank n.origin = .room) :
    s.requestAdmission p n = (.admitted, s.enqueue p n) := by
  rw [State.requestAdmission, State.makePlace, judged]

theorem State.requestAdmission_of_displaces (judged : s.judgeAdmission .nothing p n.rank n.origin = .displaces e)
    (unlinked : e.link = none) : s.requestAdmission p n = (.admitted, (s.displace p e).enqueue p n) := by
  rw [State.requestAdmission, State.makePlace, judged]
  dsimp only
  rw [unlinked]

theorem State.requestAdmission_of_displaces_copy {i : TxIx}
    (judged : s.judgeAdmission .nothing p n.rank n.origin = .displaces e) (link : e.link = some i) :
    s.requestAdmission p n =
      (.admitted, (copyRemoved 33 .queueFull ⟨[p], 0⟩ i (s.displace p e)).enqueue p n) := by
  rw [State.requestAdmission, State.makePlace, judged]
  dsimp only
  rw [link]
  rfl

/-- An admitted entry stands in its queue with the fields of R50 and a new stamp (R51). -/
theorem State.mem_enqueue : e ∈ (s.enqueue p n).queue p ↔
    e ∈ s.queue p ∨ e = ⟨n.buffer, n.rank, s.nextStamp, 0, false, n.origin, n.link, none⟩ := by
  rw [State.HeldWith.queue_enqueue, if_pos rfl, mem_insertEntry, or_comm]

/-- What a queue answers a request for admission (R52, R53). -/
theorem State.requestAdmission_judged (s : State) (p : Port) (n : NewEntry) :
    ((s.port p).state.outOfService = true → s.requestAdmission p n = (.unreachable, s.countPort p .unreachable)) ∧
    ((s.port p).state.outOfService = false → (s.disposition p).admits n.rank n.origin = false →
      s.requestAdmission p n = (.window, s.countPort p .windowDrops)) ∧
    ((s.port p).state.outOfService = false → (s.disposition p).admits n.rank n.origin = true →
      (s.queue p).length < 16 → s.requestAdmission p n = (.admitted, s.enqueue p n)) :=
  ⟨fun out => State.requestAdmission_of_unreachable (State.judgeAdmission_of_outOfService out),
    fun service refused => s.requestAdmission_of_window p n ((s.judgeAdmission_window_iff p service).mpr refused),
    fun service admits room => State.requestAdmission_of_room (State.judgeAdmission_of_room service admits room)⟩

end Requests

/-! ### The free list through a displacement and its report (log 9) -/

/-- The report of a copy leaves the free buffers that are owed. -/
def KeepsFree (report : Owed → TxIx → State → State) : Prop :=
  ∀ owed i s, owed.buffers ≤ s.freeList.length → owed.buffers ≤ (report owed i s).freeList.length

section Free

variable {s : State} {p : Port} {owed : Owed} {report : Owed → TxIx → State → State}

theorem State.release_freeList_length (s : State) (b : BufferIx) :
    s.freeList.length ≤ (s.release b).freeList.length := by
  unfold State.release
  split
  · split
    · rw [State.freeUp_freeList, List.length_append]
      exact Nat.le_add_right _ _
    · exact Nat.le_refl _
  all_goals exact Nat.le_refl _

theorem State.displace_freeList_length (s : State) (p : Port) (e : QueueEntry) :
    s.freeList.length ≤ (s.displace p e).freeList.length :=
  State.release_freeList_length (s.dequeue p e) e.buffer

theorem State.makePlace_keepsFree (keeps : KeepsFree report) {n : Nat} (r : Rank) (o : Origin)
    (free : owed.buffers + n ≤ s.freeList.length) :
    owed.buffers + n ≤ (s.makePlace report owed n p r o).2.freeList.length := by
  unfold State.makePlace
  split
  · exact free
  · rename_i e _
    have displaced := free.trans (s.displace_freeList_length p e)
    split
    · exact keeps ⟨p :: owed.places, owed.buffers + n⟩ _ _ displaced
    · exact displaced
  all_goals exact free

theorem State.joinGenerated_freeList_length (s : State) (p : Port) (chars : List Byte) :
    s.freeList.length ≤ (s.joinGenerated p chars).2.freeList.length + 1 := by
  unfold State.joinGenerated
  split <;> rename_i free <;> simp [free]

/-- A generated frame takes none of the buffers owed. -/
theorem State.placeGenerated_keepsFree (keeps : KeepsFree report) (chars : List Byte)
    (free : owed.buffers ≤ s.freeList.length) :
    owed.buffers ≤ (s.placeGenerated report owed p chars).2.freeList.length := by
  unfold State.placeGenerated
  split
  · exact free
  · rename_i more
    have placed := State.makePlace_keepsFree (s := s) (p := p) (n := 1) keeps .express .generated (Nat.not_le.mp more)
    split <;> rename_i t made <;> rw [made] at placed <;> dsimp only at placed
    · have joined := t.joinGenerated_freeList_length p chars
      omega
    all_goals exact Nat.le_of_succ_le placed

theorem State.dropCopy_freeList (s : State) (i : TxIx) : (s.dropCopy i).2.freeList = s.freeList := by
  unfold State.dropCopy
  split
  · split <;> rfl
  all_goals rfl

theorem State.countNotice_freeList (r : Option BufferIx × State) : (State.countNotice r).freeList = r.2.freeList := by
  obtain ⟨placed, t⟩ := r
  cases placed <;> rfl

theorem copyRemoved_keepsFree (fuel : Nat) (loss : CopyLoss) : KeepsFree (copyRemoved fuel loss) := by
  induction fuel generalizing loss with
  | zero => exact fun _ _ _ free => free
  | succ fuel ih =>
    intro owed i s free
    have dropped := s.dropCopy_freeList i
    unfold copyRemoved
    split <;> rename_i t fate <;> rw [fate] at dropped
    · exact dropped ▸ free
    · rw [State.countNotice_freeList]
      exact State.placeGenerated_keepsFree (ih .queueFull) _ (dropped ▸ free)

end Free

/-! ### A generated frame placed in a queue (R47) -/

/-- The state in which a generated frame has joined queue `p` in buffer `b`, the free list being `rest` after it. -/
abbrev State.joinedIn (s : State) (p : Port) (chars : List Byte) (b : BufferIx) (rest : List BufferIx) :
    Option BufferIx × State :=
  (some b, { s.enqueue p ⟨b, .express, .generated, none⟩ with freeList := rest }.setBuffer b ⟨.held 1, chars⟩)

section Generated

variable {s : State} {p : Port} {owed : Owed} {chars : List Byte} {report : Owed → TxIx → State → State}
  {e : QueueEntry}

/-- With a buffer on the free list the frame joins in the first. -/
theorem State.joinGenerated_of_length {n : Nat} (free : n + 1 ≤ s.freeList.length) :
    ∃ b rest, s.freeList = b :: rest ∧ s.joinGenerated p chars = s.joinedIn p chars b rest := by
  obtain ⟨b, rest, cons⟩ := List.exists_cons_of_length_pos (Nat.lt_of_lt_of_le (Nat.succ_pos n) free)
  exact ⟨b, rest, cons, State.joinGenerated_of_free cons⟩

section Buffer

variable (free : owed.buffers < s.freeList.length)
include free

/-- A generated frame with a buffer left to it asks the queue for a place. -/
theorem State.placeGenerated_of_free :
    s.placeGenerated report owed p chars =
      match s.makePlace report owed 1 p .express .generated with
      | (.admitted, t) => t.joinGenerated p chars
      | (.unreachable, t) | (.window, t) | (.queueFull, t) => (none, t) := if_neg (Nat.not_le.mpr free)

theorem State.placeGenerated_of_unreachable (judged : s.judgeAdmission owed p .express .generated = .unreachable) :
    s.placeGenerated report owed p chars = (none, s.countPort p .unreachable) := by
  rw [State.placeGenerated_of_free free, State.makePlace, judged]

theorem State.placeGenerated_of_queueFull (judged : s.judgeAdmission owed p .express .generated = .queueFull) :
    s.placeGenerated report owed p chars = (none, s.countPort p .queueFull) := by
  rw [State.placeGenerated_of_free free, State.makePlace, judged]

theorem State.placeGenerated_of_room (judged : s.judgeAdmission owed p .express .generated = .room) :
    s.placeGenerated report owed p chars = s.joinGenerated p chars := by
  rw [State.placeGenerated_of_free free, State.makePlace, judged]

theorem State.placeGenerated_of_displaces (judged : s.judgeAdmission owed p .express .generated = .displaces e)
    (unlinked : e.link = none) : s.placeGenerated report owed p chars = (s.displace p e).joinGenerated p chars := by
  rw [State.placeGenerated_of_free free, State.makePlace, judged]
  dsimp only
  rw [unlinked]

theorem State.placeGenerated_of_displaces_copy {i : TxIx}
    (judged : s.judgeAdmission owed p .express .generated = .displaces e) (link : e.link = some i) :
    s.placeGenerated report owed p chars =
      (report ⟨p :: owed.places, owed.buffers + 1⟩ i (s.displace p e)).joinGenerated p chars := by
  rw [State.placeGenerated_of_free free, State.makePlace, judged]
  dsimp only
  rw [link]

end Buffer

end Generated

/-! ### O32 -/

/-- Settles O32: each judgement decides what the request and the generated frame come to; the report of a displaced copy
leaves the frame the buffer kept for it. -/
theorem admissionIsJudged : Obligations.AdmissionIsJudged := by
  refine ⟨?requests, ?generated, fun st => ?service⟩
  case requests =>
    intro s p n displaced
    obtain ⟨unreachable, window, room⟩ := s.requestAdmission_judged p n
    refine ⟨unreachable, window, fun service admits fits => ⟨room service admits fits, rfl, fun _ => State.mem_enqueue⟩,
      fun service admits full => ⟨fun classRank => ?classRank, fun front e express last => ⟨fun kept => ?kept,
        fun rank unmarked => ?displaces⟩⟩⟩
    case classRank =>
      exact State.requestAdmission_of_queueFull
        (State.judgeAdmission_of_kept service admits full fun express => absurd express classRank)
    case kept =>
      refine State.requestAdmission_of_queueFull (State.judgeAdmission_of_kept service admits full fun _ => ?_)
      rw [last, displaceable_concat_of_kept kept]
    case displaces =>
      have judged : s.judgeAdmission .nothing p n.rank n.origin = .displaces e :=
        State.judgeAdmission_of_displaceable (owed := .nothing) service admits full express
          (last ▸ displaceable_concat rank unmarked)
      exact ⟨State.requestAdmission_of_displaces judged, fun _ => State.requestAdmission_of_displaces_copy judged⟩
  case generated =>
    intro s owed p chars place full displaced joined
    have admits : (s.disposition p).admits .express .generated = true := rfl
    refine ⟨fun short => if_pos short, fun free => ⟨fun out => ?unreachable, fun service => ⟨fun room b rest cons => ?room,
      fun isFull empty => ?empty, fun isFull front e last => ⟨fun kept => ?kept, fun rank unmarked => ?displaces⟩⟩⟩⟩
    case unreachable => exact State.placeGenerated_of_unreachable free (State.judgeAdmission_of_outOfService out)
    case room =>
      have judged := State.judgeAdmission_of_room (owed := owed) service admits (Nat.not_le.mp room)
      exact (State.placeGenerated_of_room free judged).trans (State.joinGenerated_of_free cons)
    case empty =>
      refine State.placeGenerated_of_queueFull free (State.judgeAdmission_of_kept service admits isFull fun _ => ?_)
      rw [empty]
      rfl
    case kept =>
      refine State.placeGenerated_of_queueFull free (State.judgeAdmission_of_kept service admits isFull fun _ => ?_)
      rw [last, displaceable_concat_of_kept kept]
    case displaces =>
      have judged : s.judgeAdmission owed p .express .generated = .displaces e :=
        State.judgeAdmission_of_displaceable service admits isFull rfl (last ▸ displaceable_concat rank unmarked)
      have stillFree : owed.buffers + 1 ≤ (s.displace p e).freeList.length :=
        Nat.le_trans free (s.displace_freeList_length p e)
      refine ⟨fun unlinked => ?_, fun i link => ?_⟩
      · obtain ⟨b, rest, cons, join⟩ := State.joinGenerated_of_length (p := p) (chars := chars) stillFree
        exact ⟨b, rest, cons, (State.placeGenerated_of_displaces free judged unlinked).trans join⟩
      · have left := copyRemoved_keepsFree 33 .queueFull ⟨p :: owed.places, owed.buffers + 1⟩ i _ stillFree
        obtain ⟨b, rest, cons, join⟩ := State.joinGenerated_of_length (p := p) (chars := chars) left
        exact ⟨b, rest, cons, (State.placeGenerated_of_displaces_copy free judged link).trans join⟩
  case service =>
    cases st <;> simp [PortState.outOfService]

end Sys2Proof.Machine
end

