-- ==== Sys2Proof/Proofs/Removals.lean ====
section
/-! PROOFS. What leaves a queue, and what of it reaches the Transaction Table, its requesters and the Management Unit (R55, R57,
R112, R113, R126). -/

namespace Sys2Proof.Machine

/-! ### A buffer reference given up (R45, R55) -/

section Release

variable {s : State} {b : BufferIx} {n : Nat}

theorem State.release_of_shared (held : (s.pool.get b).condition = .held n) (shared : 1 < n) :
    s.release b = s.setCondition b (.held (n - 1)) := by
  rw [State.release, held]
  exact if_neg (Nat.not_le.mpr shared)

theorem State.release_of_last (held : (s.pool.get b).condition = .held n) (last : n ≤ 1) : s.release b = s.freeUp b := by
  rw [State.release, held]
  exact if_pos last

theorem State.release_of_not_held (notHeld : ∀ n, (s.pool.get b).condition ≠ .held n) : s.release b = s := by
  unfold State.release
  split
  · rename_i n held
    exact absurd held (notHeld n)
  all_goals rfl

end Release

/-! ### The word to the Management Unit (R55, R179) -/

section Told

variable {s : State} (e : QueueEntry)

theorem State.toldDeparture_of_none (restart : s.restart = none) : s.toldDeparture e = s := by
  rw [State.toldDeparture, restart]

theorem State.toldDeparture_of_some {r : Restart} (restart : s.restart = some r) :
    s.toldDeparture e =
      if e.origin = .generated ∧ r.buffer = e.buffer then { s with restart := some { r with due := true } } else s := by
  rw [State.toldDeparture, restart]
  cases origin : e.origin with
  | generated =>
    dsimp only
    simp only [true_and]
  | forwarded => exact (if_neg fun both => Origin.noConfusion both.1).symm

end Told

/-! ### A removal (R55) -/

section Removal

variable (s : State) (p : Port) (e : QueueEntry) (cause : RemovalCause)

theorem State.dequeue_eq : s.dequeue p e = s.setQueue p ((s.queue p).filter fun x => x.stamp ≠ e.stamp) := by
  have same : (fun x : QueueEntry => x.stamp != e.stamp) = fun x => decide (x.stamp ≠ e.stamp) :=
    funext fun x => Bool.eq_iff_iff.mpr (bne_iff_ne.trans decide_eq_true_iff.symm)
  rw [State.dequeue, same]

theorem State.remove_of_unlinked (link : e.link = none) :
    s.remove p e cause = (((s.dequeue p e).release e.buffer).countPortOpt p cause.counter).toldDeparture e := by
  rw [State.remove, link]

theorem State.remove_of_copy {i : TxIx} (link : e.link = some i) :
    s.remove p e cause =
      ((((s.dequeue p e).release e.buffer).countPortOpt p cause.counter).reportRemoval p i cause).toldDeparture e := by
  rw [State.remove, link]

/-- The buffer reference of an entry given up, and the word of its departure (R55). -/
def State.letGo (s : State) (e : QueueEntry) : State := (s.release e.buffer).toldDeparture e

/-- A withdrawn entry leaves with no counter and no report (R57). -/
theorem State.remove_withdrawn : s.remove p e .withdrawn = (s.dequeue p e).letGo e := by
  cases link : e.link with
  | none => exact s.remove_of_unlinked p e .withdrawn link
  | some i => exact s.remove_of_copy p e .withdrawn link

end Removal

/-! ### Copies reported (R112, R113) -/

section Reports

variable {s : State} {i : TxIx} {c : TxCore} {n : Nat} {d : Deadline}

theorem State.reportCompleted_of_opened {deadline : Option Deadline} (p : Port) (entry : s.tx i = .opened c n deadline) :
    s.reportCompleted i p =
      s.setTx i (.opened c (n - 1) (some (deadline.getD ⟨(s.port p).params.replyTimeout, p⟩))) := by
  rw [State.reportCompleted, entry]

theorem State.reportCompleted_of_not_open (p : Port) (closed : (s.tx i).isOpen = false) : s.reportCompleted i p = s := by
  unfold State.reportCompleted
  split
  · rename_i entry
    rw [entry] at closed
    exact Bool.noConfusion closed
  all_goals rfl

theorem State.dropCopy_of_not_open (closed : (s.tx i).isOpen = false) : s.dropCopy i = (none, s) := by
  unfold State.dropCopy
  split
  · rename_i entry
    rw [entry] at closed
    exact Bool.noConfusion closed
  · rename_i entry
    rw [entry] at closed
    exact Bool.noConfusion closed
  all_goals rfl

theorem State.dropCopy_of_deadline (entry : s.tx i = .opened c n (some d)) :
    s.dropCopy i = (none, s.setTx i (.opened c (n - 1) (some d))) := by
  rw [State.dropCopy, entry]

theorem State.dropCopy_of_more (entry : s.tx i = .opened c n none) (more : 1 < n) :
    s.dropCopy i = (none, s.setTx i (.opened c (n - 1) none)) := by
  rw [State.dropCopy, entry]
  exact if_neg (Nat.not_le.mpr more)

theorem State.dropCopy_of_last (entry : s.tx i = .opened c n none) (last : n ≤ 1) :
    s.dropCopy i = (some c, s.setTx i .free) := by
  rw [State.dropCopy, entry]
  exact if_pos last

variable {t : State} (loss : CopyLoss) (owed : Owed)

theorem copyRemoved_of_kept (kept : s.dropCopy i = (none, t)) : copyRemoved 33 loss owed i s = t := by
  rw [copyRemoved_unfold, kept]

theorem copyRemoved_of_closed (closes : s.dropCopy i = (some c, t)) :
    copyRemoved 33 loss owed i s =
      State.countNotice
        (t.placeGenerated (copyRemoved 33 .queueFull) owed c.requesterSegment
          (noticeChars t.params.ownAddress c.key loss.notice)) := by
  rw [copyRemoved_unfold, closes]

end Reports

/-! ### Entries let go, whatever becomes of the ports -/

section LetGo

variable (s : State) (e : QueueEntry) (l : List QueueEntry)

theorem State.letGo_ports : (s.letGo e).ports = s.ports := by
  rw [State.letGo, State.toldDeparture_eq]
  exact State.release_ports s e.buffer

theorem State.toldDeparture_withPorts (ports : Vector PortUnit 4) :
    { s with ports := ports }.toldDeparture e = { s.toldDeparture e with ports := ports } := by
  unfold State.toldDeparture
  dsimp only
  split
  · split <;> rfl
  all_goals rfl

/-- Letting go reads no port. -/
theorem State.letGo_withPorts (ports : Vector PortUnit 4) :
    { s with ports := ports }.letGo e = { s.letGo e with ports := ports } := by
  have released : { s with ports := ports }.release e.buffer = { s.release e.buffer with ports := ports } := by
    unfold State.release
    dsimp only
    split
    · split <;> rfl
    all_goals rfl
  rw [State.letGo, released, State.toldDeparture_withPorts, State.letGo]

theorem State.foldl_letGo_ports : (l.foldl State.letGo s).ports = s.ports := by
  induction l generalizing s with
  | nil => rfl
  | cons e l ih => exact (ih (s.letGo e)).trans (s.letGo_ports e)

theorem State.foldl_letGo_withPorts (ports : Vector PortUnit 4) :
    l.foldl State.letGo { s with ports := ports } = { l.foldl State.letGo s with ports := ports } := by
  induction l generalizing s with
  | nil => rfl
  | cons e l ih => rw [List.foldl_cons, State.letGo_withPorts, ih, List.foldl_cons]

/-- So a port may be changed before or after. -/
theorem State.updPort_foldl_letGo (p : Port) (f : PortUnit → PortUnit) :
    (l.foldl State.letGo s).updPort p f = l.foldl State.letGo (s.updPort p f) := by
  have ports := s.foldl_letGo_ports l
  unfold State.updPort State.port
  rw [ports]
  exact (s.foldl_letGo_withPorts l _).symm

theorem State.foldl_updPort_foldl_letGo (ps : List Port) (f : PortUnit → PortUnit) :
    ps.foldl (fun t p => t.updPort p f) (l.foldl State.letGo s) =
      l.foldl State.letGo (ps.foldl (fun t p => t.updPort p f) s) := by
  induction ps generalizing s with
  | nil => rfl
  | cons p ps ih => rw [List.foldl_cons, State.updPort_foldl_letGo, ih, List.foldl_cons]

theorem State.port_foldl_letGo (p : Port) : (l.foldl State.letGo s).port p = s.port p := by
  rw [State.port, State.port, State.foldl_letGo_ports]

end LetGo

/-! ### A withdrawal from one queue (R57) -/

section Withdrawal

variable {s : State} {p : Port} {i : TxIx}

theorem State.setQueue_setQueue (s : State) (p : Port) (q q' : List QueueEntry) :
    (s.setQueue p q).setQueue p q' = s.setQueue p q' := s.updPort_updPort p _ _

theorem State.setQueue_self (s : State) (p : Port) : s.setQueue p (s.queue p) = s := s.updPort_of_eq p rfl

/-- What is doomed leaves one by one, in queue order, and what is not stays. -/
theorem removeAll_withdrawn {doomed : QueueEntry → Bool} (l : List QueueEntry) {n : Nat}
    (stamps : ((s.queue p).map (·.stamp)).Nodup) (gone : (s.queue p).filter doomed = l) (bound : l.length ≤ n) :
    removeAll p doomed .withdrawn n s =
      l.foldl State.letGo (s.setQueue p ((s.queue p).filter fun e => !doomed e)) := by
  have found : (s.queue p).find? doomed = l.head? := by rw [← gone, List.head?_filter]
  induction l generalizing n s with
  | nil =>
    have all : (s.queue p).filter (fun e => !doomed e) = s.queue p :=
      List.filter_eq_self.mpr fun e mem => by simpa using List.filter_eq_nil_iff.mp gone e mem
    rw [all, List.foldl_nil, s.setQueue_self]
    cases n with
    | zero => rfl
    | succ n => rw [removeAll, found]; rfl
  | cons e rest ih =>
    cases n with
    | zero => exact absurd bound (by simp)
    | succ n =>
      obtain ⟨mem, isDoomed⟩ := List.mem_filter.mp (gone ▸ List.mem_cons_self : e ∈ (s.queue p).filter doomed)
      let t := (s.dequeue p e).letGo e
      have queue : t.queue p = (s.queue p).filter fun x => x.stamp != e.stamp :=
        (congrArg PortUnit.queue (State.port_foldl_letGo _ [e] p)).trans ((s.queue_dequeue p p e).trans (if_pos rfl))
      have left : (t.queue p).filter doomed = rest := by
        have apart := (stamps.sublist (List.filter_sublist (p := doomed) |>.map _))
        rw [gone, List.map_cons, List.nodup_cons] at apart
        rw [queue, List.filter_comm, gone]
        exact Stamped.filter_around (a := []) fun x mem same => apart.1 (same ▸ List.mem_map_of_mem mem)
      have kept : (t.queue p).filter (fun x => !doomed x) = (s.queue p).filter fun x => !doomed x := by
        rw [queue, List.filter_comm]
        refine List.filter_eq_self.mpr fun x spared => bne_iff_ne.mpr fun same => ?_
        obtain ⟨old, notDoomed⟩ := List.mem_filter.mp spared
        rw [List.inj_on_of_nodup_map stamps old mem same, isDoomed] at notDoomed
        exact Bool.noConfusion notDoomed
      have rewritten : t.setQueue p ((s.queue p).filter fun x => !doomed x) =
          (s.setQueue p ((s.queue p).filter fun x => !doomed x)).letGo e := by
        have moved := State.updPort_foldl_letGo (s.dequeue p e) [e] p fun u =>
          { u with queue := (s.queue p).filter fun x => !doomed x }
        exact moved.trans (congrArg (State.letGo · e) (s.setQueue_setQueue p _ _))
      have stampsLeft : ((t.queue p).map (·.stamp)).Nodup := by
        rw [queue]
        exact stamps.sublist (List.filter_sublist.map _)
      have first : removeAll p doomed .withdrawn (n + 1) s = removeAll p doomed .withdrawn n t := by
        rw [removeAll, found]
        exact congrArg _ (s.remove_withdrawn p e)
      rw [first, ih stampsLeft left (Nat.le_of_succ_le_succ bound) (by rw [← left, List.head?_filter]), kept, rewritten,
        List.foldl_cons]

/-- The copies of transaction `i` that a withdrawal takes out of a queue. -/
def withdrawnFrom (i : TxIx) (q : List QueueEntry) : List QueueEntry := q.filter fun e => !e.inTx && e.link == some i

/-- An entry as a withdrawal leaves it: a copy of transaction `i` loses its link. -/
def QueueEntry.unlinked (i : TxIx) (e : QueueEntry) : QueueEntry :=
  if e.link = some i then { e with link := none, pendingRemoval := some .withdrawn } else e

/-- A port after the withdrawal from its queue. -/
def PortUnit.withdrawn (i : TxIx) (u : PortUnit) : PortUnit :=
  { u with queue := (u.queue.filter fun e => e.inTx || e.link != some i).map (·.unlinked i) }

/-- The same, of a copy in transmission alone: the others leave as they are (R57). -/
def QueueEntry.unlinkedInTx (i : TxIx) (e : QueueEntry) : QueueEntry :=
  if e.inTx && e.link == some i then { e with link := none, pendingRemoval := some .withdrawn } else e

theorem QueueEntry.unlinkedInTx_stamp (i : TxIx) (e : QueueEntry) : (e.unlinkedInTx i).stamp = e.stamp := by
  unfold QueueEntry.unlinkedInTx
  split <;> rfl

/-- The copies that are linked still are those that leave. -/
theorem QueueEntry.unlinkedInTx_link (i : TxIx) (e : QueueEntry) :
    ((e.unlinkedInTx i).link == some i) = (!e.inTx && e.link == some i) := by
  unfold QueueEntry.unlinkedInTx
  cases e.inTx with
  | false => rfl
  | true =>
    cases linked : e.link == some i with
    | true => rfl
    | false => exact linked

/-- Of the copies, the one in transmission loses its link and stays, and the others leave as they were (R57). -/
theorem filter_unlinkedInTx (i : TxIx) (q : List QueueEntry) :
    ((q.map (·.unlinkedInTx i)).filter fun e => e.link == some i) = withdrawnFrom i q ∧
      ((q.map (·.unlinkedInTx i)).filter fun e => !(e.link == some i)) =
        (q.filter fun e => e.inTx || e.link != some i).map (·.unlinked i) := by
  simp only [List.filter_map, Function.comp_def, QueueEntry.unlinkedInTx_link, Bool.not_and, Bool.not_not]
  refine ⟨(List.map_congr_left fun e mem => ?leaves).trans (List.map_id _), List.map_congr_left fun e mem => ?stays⟩
  case leaves =>
    obtain ⟨-, unmarked, -⟩ : e ∈ q ∧ e.inTx = false ∧ e.link = some i := by simpa using mem
    rw [QueueEntry.unlinkedInTx, unmarked]
    rfl
  case stays =>
    obtain ⟨-, stays⟩ : e ∈ q ∧ (e.inTx = true ∨ e.link ≠ some i) := by simpa using mem
    by_cases link : e.link = some i
    · simp [QueueEntry.unlinkedInTx, QueueEntry.unlinked, link, stays.resolve_right (not_not_intro link)]
    · simp [QueueEntry.unlinkedInTx, QueueEntry.unlinked, link]

/-- The withdrawal from one queue (R57). -/
theorem State.withdrawFrom_eq (stamps : ((s.queue p).map (·.stamp)).Nodup) :
    s.withdrawFrom i p = (withdrawnFrom i (s.queue p)).foldl State.letGo (s.updPort p (PortUnit.withdrawn i)) := by
  let marked := (s.queue p).map (·.unlinkedInTx i)
  obtain ⟨gone, kept⟩ := filter_unlinkedInTx i (s.queue p)
  have queue : (s.setQueue p marked).queue p = marked := (s.queue_setQueue p p marked).trans (if_pos rfl)
  have stampsStay : (((s.setQueue p marked).queue p).map (·.stamp)).Nodup := by
    rw [queue, List.map_map]
    exact (congrArg (fun f => ((s.queue p).map f).Nodup) (funext (QueueEntry.unlinkedInTx_stamp i))).mpr stamps
  have few : (withdrawnFrom i (s.queue p)).length ≤ ((s.setQueue p marked).queue p).length := by
    rw [queue, List.length_map]
    exact List.length_filter_le _ _
  have withdrawn : s.setQueue p ((s.queue p).filter (fun e => e.inTx || e.link != some i) |>.map (·.unlinked i)) =
      s.updPort p (PortUnit.withdrawn i) := rfl
  have all := removeAll_withdrawn (doomed := fun e => e.link == some i) _ stampsStay ((congrArg _ queue).trans gone) few
  refine Eq.trans all ?_
  rw [queue, ← withdrawn, ← kept, s.setQueue_setQueue p marked]

end Withdrawal

/-! ### A withdrawal from every queue (R57, log 15) -/

section Everywhere

variable {i : TxIx}

/-- The ports in their order, each with the copies its queue held at first. -/
theorem foldl_withdrawFrom (ps : List Port) (once : ps.Nodup) {s : State}
    (stamps : ∀ p ∈ ps, ((s.queue p).map (·.stamp)).Nodup) :
    ps.foldl (fun t p => t.withdrawFrom i p) s =
      (ps.flatMap fun p => withdrawnFrom i (s.queue p)).foldl State.letGo
        (ps.foldl (fun t p => t.updPort p (PortUnit.withdrawn i)) s) := by
  induction ps generalizing s with
  | nil => rfl
  | cons p ps ih =>
    obtain ⟨fresh, once⟩ := List.nodup_cons.mp once
    obtain ⟨first, others⟩ := List.forall_mem_cons.mp stamps
    have queue : ∀ x ∈ ps, (s.withdrawFrom i p).queue x = s.queue x := fun x mem => by
      rw [State.withdrawFrom_eq first, State.queue, State.port_foldl_letGo,
        State.port_updPort_ne s (ne_of_mem_of_not_mem mem fresh)]
      rfl
    have gone : (ps.flatMap fun x => withdrawnFrom i ((s.withdrawFrom i p).queue x)) =
        ps.flatMap fun x => withdrawnFrom i (s.queue x) :=
      List.flatMap_congr fun x mem => by rw [queue x mem]
    rw [List.foldl_cons, ih once fun x mem => (queue x mem).symm ▸ others x mem, gone, State.withdrawFrom_eq first,
      State.foldl_updPort_foldl_letGo, ← List.foldl_append, List.flatMap_cons, List.foldl_cons]

/-- The withdrawal from every queue (R57, log 15). -/
theorem State.withdraw_eq {s : State} (sound : s.queuesSound = true) :
    s.withdraw i =
      (s.entries.filter fun e => !e.inTx && e.link == some i).foldl State.letGo (s.updPorts (PortUnit.withdrawn i)) := by
  have stamps (p : Port) : ((s.queue p).map (·.stamp)).Nodup := (State.queuesSound_iff.mp sound p).1.stamps
  have gone : (allPorts.flatMap fun p => withdrawnFrom i (s.queue p)) =
      s.entries.filter fun e => !e.inTx && e.link == some i := by
    rw [State.entries, List.filter_flatten, List.map_map, List.flatMap_def]
    rfl
  rw [State.withdraw, foldl_withdrawFrom allPorts (List.nodup_finRange 4) fun p _ => stamps p, gone]
  rfl

theorem State.port_withdraw {s : State} (sound : s.queuesSound = true) (p : Port) :
    (s.withdraw i).port p = (s.port p).withdrawn i := by
  rw [State.withdraw_eq sound, State.port_foldl_letGo, State.port_updPorts]

theorem State.withdraw_eq_letGo {s : State} (sound : s.queuesSound = true) :
    s.withdraw i =
      { (s.entries.filter fun e => !e.inTx && e.link == some i).foldl State.letGo s with
        ports := (s.withdraw i).ports } := by
  rw [State.withdraw_eq sound, State.foldl_letGo_ports, ← State.foldl_letGo_withPorts, ← State.updPorts_eq]

end Everywhere

/-! ### O33 -/

/-- Settles O33: a removal goes by the entry's link and its cause, a report by the entry of the table, a withdrawal through the
queues as they stood. -/
theorem removalsReportAndWithdraw : Obligations.RemovalsReportAndWithdraw := by
  refine ⟨?removals, ?releases, ?completed, ?removed, ?withdrawal, fun _ _ _ _ => rfl, rfl, rfl⟩
  case removals =>
    intro s p e left told counted
    have dequeued : (s.dequeue p e).release e.buffer = left := by rw [s.dequeue_eq]
    have word (t : State) : told t = t.toldDeparture e := by
      cases restart : t.restart with
      | none =>
        rw [State.toldDeparture_of_none e restart]
        simp only [told, restart]
      | some r =>
        rw [State.toldDeparture_of_some e restart]
        simp only [told, restart]
    have reported {cause : RemovalCause} {c : PortCounter} {report : State → TxIx → State}
        (counter : cause.counter = some c) (reports : ∀ t i, t.reportRemoval p i cause = report t i) :
        s.remove p e cause = counted c report := by
      cases link : e.link with
      | none =>
        rw [s.remove_of_unlinked p e cause link, dequeued, counter, ← word]
        simp only [counted, link]
        rfl
      | some i =>
        rw [s.remove_of_copy p e cause link, dequeued, counter, reports, ← word]
        simp only [counted, link]
        rfl
    refine ⟨reported rfl fun _ _ => rfl, reported rfl fun _ _ => rfl, reported rfl fun _ _ => rfl,
      reported rfl fun _ _ => rfl, ?_⟩
    rw [s.remove_withdrawn, State.letGo, dequeued, word]
  case releases =>
    exact fun s b => ⟨fun n held => ⟨State.release_of_shared held, State.release_of_last held⟩,
      State.release_of_not_held, rfl⟩
  case completed =>
    exact fun s i p => ⟨fun c n entry => State.reportCompleted_of_opened p entry,
      fun c n d entry => State.reportCompleted_of_opened p entry, State.reportCompleted_of_not_open p⟩
  case removed =>
    intro s i loss
    refine ⟨rfl, fun owed => ⟨fun closed => ?_, fun c n d entry => ?_,
      fun c n entry => ⟨fun more => ?_, fun last => ?_⟩⟩⟩
    · exact copyRemoved_of_kept loss owed (State.dropCopy_of_not_open closed)
    · exact copyRemoved_of_kept loss owed (State.dropCopy_of_deadline entry)
    · exact copyRemoved_of_kept loss owed (State.dropCopy_of_more entry more)
    · exact copyRemoved_of_closed loss owed (State.dropCopy_of_last entry last)
  case withdrawal =>
    exact fun s i sound => ⟨fun p => State.port_withdraw sound p, State.withdraw_eq_letGo sound⟩

end Sys2Proof.Machine
end
